-- ==== Sys2Proof/Word.lean ====
section
/-! DEFINITION. The plain types of the station's quantities: bytes, words, levels, block and station numbers. -/

namespace Sys2Proof

/-- A byte as the local port and the image bus carry it; epoch and sequence numbers, counted
modulo 256 (00_scope.md, Units and numbers), are bytes too. -/
abbrev Byte := BitVec 8

/-- A word of the image, 16 bits (00_scope.md). -/
abbrev Word := BitVec 16

/-- A block number, 0 to 63 (R1). -/
abbrev Block := Fin 64

/-- A word number within a block, 0 to 15 (R1). -/
abbrev WordNo := Fin 16

/-- A station number, 0 to 31 (R133). -/
abbrev StationNo := Fin 32

/-- The level of a shared line (00_scope.md, Line levels): dominant is the driven low level,
recessive the released high level. -/
inductive Level where
  | dominant
  | recessive
  deriving DecidableEq, Repr

/-- The three kinds of dispatch (R74). -/
inductive Kind where
  | update
  | refresh
  | roll
  deriving DecidableEq, Repr

end Sys2Proof
end

