-- ==== Sys2Proof/Syntax.lean ====
section
/-! DEFINITION. The commands: one constructor per row of spec/opcode_table.json, in the table's
order. The table gives the rows no bits; a constructor's arguments are what its step needs from
outside the station. -/

namespace Sys2Proof

/-- The 48 steps of the station. -/
inductive Instr where
  /-- HARDWARE_RESET (R132): the straps sampled on the rise of RESET_N, the levels LRX and ELN
  read as reset ends (R73), and whether CS_N is still low then (R160). -/
  | hardwareReset (sid : StationNo) (rate : BitVec 2) (lrx eln : Level) (csLow : Bool)
  /-- TRANSACTION_START (R162): a fall of CS_N. -/
  | transactionStart
  /-- READ_STATUS (R172). -/
  | readStatus
  /-- READ_CONFIG (R173). -/
  | readConfig
  /-- READ_COUNTERS (R174). -/
  | readCounters
  /-- READ_EVENTS (R155): the maximum, an argument byte. -/
  | readEvents (maximum : Byte)
  /-- READ_PEERS (R181). -/
  | readPeers
  /-- READ_COMMIT_REPORT (R54). -/
  | readCommitReport
  /-- READ_IMAGE (R175): three argument bytes. -/
  | readImage (block first count : Byte)
  /-- READ_BLOCK_STATUS (R176): two argument bytes. -/
  | readBlockStatus (first count : Byte)
  /-- READ_DRAFT (R178): three argument bytes. -/
  | readDraft (block first count : Byte)
  /-- WRITE_DRAFT (R177): three argument bytes and the bytes that followed them. -/
  | writeDraft (block first count : Byte) (data : List Byte)
  /-- PUBLISH (R101): three argument bytes. -/
  | publish (block first count : Byte)
  /-- CONFIGURE (R170): the bytes that followed the command byte, 80 of them in a whole frame. -/
  | configure (args : List Byte)
  /-- START (R135). -/
  | start
  /-- LEAVE (R141). -/
  | leave
  /-- UNKNOWN_COMMAND (R165): the command byte, none of the fourteen. -/
  | unknownCommand (command : Byte)
  /-- FRAME_ERROR (R166): CS_N rises before the frame is complete. -/
  | frameError
  /-- READ_TRANSACTION_END (R162): the CS_N rise that ends a read. -/
  | readTransactionEnd
  /-- READ_EVENTS_END (R156): the CS_N rise that ends a READ_EVENTS, and how many whole bytes the
  station has sent since the fall of CS_N. -/
  | readEventsEnd (clocked : Nat)
  /-- START_EDGE (R61). -/
  | startEdge
  /-- FALSE_START (R62). -/
  | falseStart
  /-- CHARACTER_DELIVERED (R62): data byte, marker, framing error. -/
  | characterDelivered (data : Byte) (marker framing : Bool)
  /-- HELD_CHARACTER_RISE (R62). -/
  | heldCharacterRise
  /-- BREAK_DRIVE_START (R68). -/
  | breakDriveStart
  /-- BREAK_DRIVEN (R123). -/
  | breakDriven
  /-- BREAK_SEEN (R67). -/
  | breakSeen
  /-- BREAK_END (R67). -/
  | breakEnd
  /-- BUS_FAULT (R70). -/
  | busFault
  /-- BUS_IDLE (R64). -/
  | busIdle
  /-- SLOT_BROKEN (R66). -/
  | slotBroken
  /-- SLOT_CLEAN (R66). -/
  | slotClean
  /-- CLAIM (R107). -/
  | claim
  /-- ARBITRATION_LOSS (R108). -/
  | arbitrationLoss
  /-- CLAIM_WON (R108). -/
  | claimWon
  /-- LAST_CHECK_SENT (R109). -/
  | lastCheckSent
  /-- BIT_FAULT (R112). -/
  | bitFault
  /-- LOW_CONDITION_START (R34). -/
  | lowConditionStart
  /-- QUIET_TAIL_END (R34). -/
  | quietTailEnd
  /-- EPOCH_EXPIRY (R28). -/
  | epochExpiry
  /-- ELN_FALL (R29). -/
  | elnFall
  /-- ELN_RISE (R33). -/
  | elnRise
  /-- NOT_DRIVABLE (R30). -/
  | notDrivable
  /-- HOLD_RUN_OUT (R31): the level the unit reads if it releases the line in this step. -/
  | holdRunOut (eln : Level)
  /-- LINE_LOW_LIMIT (R33). -/
  | lineLowLimit
  /-- LINE_RESTORED (R36). -/
  | lineRestored
  /-- COMMIT_PASS_END (R51): the level the unit reads if it releases the line in this step. -/
  | commitPassEnd (eln : Level)
  /-- FIRST_RECESSIVE_READING (R62). -/
  | firstRecessiveReading
  deriving DecidableEq, Repr

end Sys2Proof
end

