-- ==== Sys2Proof/Decode.lean ====
section
/-! DEFINITION. The opcode table gives no row any bits (98_reader.md: 48 rows, none with fixed bits
or fields), so no word spells a command. -/

namespace Sys2Proof

/-- The command a word spells by the bits of spec/opcode_table.json: none, since no row has bits. -/
def decodeTableWord (_nbits _w : Nat) : Option Instr := none

end Sys2Proof
end

