-- ==== Sys2Proof/Config.lean ====
section
/-! DEFINITION. What CONFIGURE sets (R169), the fixed sizes of the station, and the free values
that the spec leaves open. -/

namespace Sys2Proof

/-- The report mode of EPOCH_COMMITTED (R52). -/
inductive ReportMode where
  | none
  | changes
  | every
  deriving DecidableEq, Repr

/-- What one CONFIGURE gives (R169): lengths and limits, the ownership map (R3) and the
subscription flags as given (R5). -/
structure Settings where
  /-- epoch length L, in bit times -/
  epochLen : Nat
  /-- hold length H, in bit times -/
  holdLen : Nat
  /-- silence limit S -/
  silenceLimit : Nat
  /-- refresh period P; 0 turns the refresh schedule off -/
  refreshPeriod : Nat
  listenLimit : Nat
  mode : ReportMode
  owners : Vector (Option StationNo) 64
  subs : Vector Bool 64
  deriving DecidableEq, Repr

/-- Before any valid CONFIGURE since hardware reset (R3, R5, R173). -/
def Settings.unset : Settings where
  epochLen := 0
  holdLen := 0
  silenceLimit := 0
  refreshPeriod := 0
  listenLimit := 0
  mode := .none
  owners := Vector.replicate 64 none
  subs := Vector.replicate 64 false

namespace Config

/-- R38: the staging table holds at most 16 entries. -/
abbrev stagingSize : Nat := 16

/-- R98: the publish queue holds at most 8 entries. -/
abbrev queueSize : Nat := 8

/-- R153: the event queue stores ordinary events while it holds 30 records or fewer; the 32nd
place is the OVERFLOW record's. -/
abbrev eventRoom : Nat := 31

/-- Every saturating counter and the epoch counter stop at 65535 (R19, R174). -/
abbrev counterTop : Nat := 65535

/-- FREE VALUE. Which of several steps that are due at the same time the station takes first
("either may be taken first", R28, R89, R113, R152 and others): the index, modulo their number.
Nothing is known of it. Log entry 5. -/
opaque dueChoice : Nat → Nat

/-- FREE VALUE. Whether ELN reads high when this station releases the line of itself, which
depends on its peers (R31). Log entries 5 and 20. -/
opaque lineHigh : Nat → Bool

/-- FREE VALUE. How many staging entries a running commit pass commits within one bit time
(R51 gives only the latest end of the pass). Log entry 17. -/
opaque passProgress : Nat → Nat

/-- FREE VALUE. Whether a running commit pass ends before the latest end R51 gives.
Log entry 17. -/
opaque passEndsNow : Nat → Bool

end Config

end Sys2Proof
end

