-- ==== Sys2Proof/Machine/State.lean ====
section
/-! DEFINITION. Everything the spec gives the station to hold, as plain data, one structure for
each of its blocks (00_scope.md, Block diagram), and the state after hardware reset. -/

namespace Sys2Proof.Machine

/-- Why a step could stop the machine. The spec gives the station no stop. -/
inductive Fault where
  /-- Raised by no meaning: every row of the table has an effect in every state (log entry 27).
  Safe: a stop that never comes takes no behaviour away. -/
  | noSuchStop
  deriving DecidableEq, Repr

/-- Why a command could have no meaning. -/
inductive Refusal where
  /-- For an arm of exec whose command has no meaning yet; no arm is left so. Safe. -/
  | notModelled (mnemonic : String)
  deriving DecidableEq, Repr

/-! ### Publish queue and Transmitter (chapter 6) -/

/-- A span of words within a block, from its first word to its last (R75): count words, with
first + count ≤ 16 because the last word is a word of the block. -/
structure Span where
  first : WordNo
  last : WordNo
  deriving DecidableEq, Repr

/-- What an entry of the publish queue is to send (table of section 6.1): a REFRESH always has the
whole block as its span, a ROLL has neither block nor span. -/
inductive Duty where
  | update (block : Block) (span : Span)
  | refresh (block : Block)
  | roll
  deriving DecidableEq, Repr

/-- What makes two entries the same to the queue (R98): their block, or for ROLLs their kind. -/
inductive Key where
  | ofBlock (block : Block)
  | ofRoll
  deriving DecidableEq, Repr

/-- An entry of the publish queue (section 6.1). -/
structure Entry where
  duty : Duty
  /-- failed attempts so far, 0 to 7 -/
  failures : Nat
  /-- when it was first added -/
  order : Nat
  held : Bool
  deriving DecidableEq, Repr

/-- The Publish Queue (R98, R102, R105). -/
structure Publish where
  /-- in queue order (R99) -/
  queue : List Entry
  countdown : Vector Nat 64
  /-- own-silence count -/
  silence : Nat
  /-- own-accepted flag -/
  ownAccepted : Bool
  /-- the position in time that the next new entry takes -/
  nextOrder : Nat
  deriving DecidableEq, Repr

/-- An attempt: the entry in the in-flight slot and what its claim fixed (R107). -/
structure Attempt where
  entry : Entry
  epoch : Byte
  seq : Byte
  /-- the words of the span, copied from the draft -/
  words : List Word
  /-- the data bytes of all its characters, check value included -/
  chars : List Byte
  deriving DecidableEq, Repr

/-- Where an attempt stands (section 6.3). -/
inductive TxPhase where
  | claiming
  | sending
  | slotWait
  deriving DecidableEq, Repr

/-- The Dispatch Transmitter: STANDBY with an empty slot, or an attempt under way. -/
inductive TxState where
  | standby
  | active (phase : TxPhase) (attempt : Attempt)
  deriving DecidableEq, Repr

/-! ### Receiver (chapter 5) -/

/-- The states in which the Receiver follows a dispatch (section 5.3). -/
inductive RxPhase where
  | header
  | body
  | check
  | answer
  deriving DecidableEq, Repr

/-- What the Receiver holds of the dispatch it follows (R80 to R82). -/
structure Incoming where
  /-- the dispatch is this station's own (R83) -/
  own : Bool
  kind : Kind
  sender : StationNo
  /-- characters taken after the claim -/
  chars : Nat
  block : Block
  epoch : Byte
  seq : Byte
  span : Span
  /-- the answer to the room question, if it was asked (R43) -/
  room : Option Bool
  /-- whole body words so far -/
  words : List Word
  /-- a character that waits for the second of its pair: a body high byte or the high check byte -/
  high : Option Byte
  deriving DecidableEq, Repr

/-- The states of the Receiver (section 5.3). -/
inductive RxState where
  | off
  | waitIdle
  | ready
  | following (phase : RxPhase) (dispatch : Incoming)
  | discard
  deriving DecidableEq, Repr

/-- The Dispatch Receiver. -/
structure Receiver where
  st : RxState
  /-- running check value (R78) -/
  check : Word
  deriving DecidableEq, Repr

/-! ### Line Interface (chapter 4) -/

/-- HUNT and ASSEMBLE (R61), and the two ways of being out of HUNT without a character in
assembly: until the line reads recessive (R62, R66), and inside a break (R67). -/
inductive LineState where
  | hunt
  | assemble
  | awaitRecessive
  | inBreak
  deriving DecidableEq, Repr

/-- The mid-bit sample of a start bit or a stop bit, as a command has told it (R60, R62, R72). -/
structure BitSample where
  /-- the level that every character has there: dominant in a start bit, recessive in a stop bit -/
  form : Level
  /-- the level read -/
  read : Level
  deriving DecidableEq, Repr

/-- The Line Interface. -/
structure Line where
  st : LineState
  /-- the filtered level last read on LRX -/
  lrx : Level
  /-- the level the peers give the data line, as the commands last told it (log entry 4) -/
  peers : Level
  idleCount : Nat
  idle : Bool
  /-- length of the dominant run in progress, in bit times -/
  run : Nat
  /-- bit times since the start edge of a character whose boundary has not come, 0 to 10 (R61, R65) -/
  charTime : Option Nat
  /-- the mid-bit samples of the character in assembly so far (R61) -/
  samples : List Level
  /-- the sample of the bit under way, where a command has told it; none once that bit has ended (R72) -/
  sampled : Option BitSample
  /-- the run has been reported as a break (R66, R67) -/
  runSeen : Bool
  /-- the answer slot, if open, and its bit times so far -/
  slot : Option Nat
  busFault : Bool
  /-- a break has been asked for and its drive has not begun -/
  request : Bool
  /-- the break being driven and its bit times so far -/
  drive : Option Nat
  /-- the low condition met the drive (R124) -/
  metLow : Bool
  /-- the low condition was present at or since the start edge of the character in assembly -/
  edgeLow : Bool
  /-- bit times since the start bit of the own claim -/
  sendPos : Nat
  deriving DecidableEq, Repr

/-! ### Epoch Unit (chapter 2) -/

/-- The states of the Epoch Unit (section 2.3). -/
inductive UnitState where
  | dormant
  | follow
  | run
  | assert
  | waitRise
  | coast
  deriving DecidableEq, Repr

/-- The Epoch Unit. -/
structure EpochUnit where
  unit : UnitState
  counter : Nat
  epoch : Byte
  /-- the ELN level last read -/
  eln : Level
  hold : Nat
  /-- the hold has run out (recorded in ASSERT, R31) -/
  holdOut : Bool
  /-- this boundary's pass ended with leave-pending set (recorded in ASSERT, R31, R37) -/
  leaveOut : Bool
  /-- the not-drivable test, while it runs -/
  driveTest : Option Nat
  lowTimer : Nat
  restTimer : Nat
  /-- a fall kept until the pass ends (R24). One flag: two or more falls read during one pass are
  kept as one and make one boundary (DESIGN CHOICE, log entry 36). -/
  keptFall : Bool
  /-- from an own expiry to the end of its pass (R34) -/
  ownWindow : Bool
  /-- the quiet tail, while it runs -/
  tail : Option Nat
  deriving DecidableEq, Repr

/-! ### Staging, commit and image (chapters 1 and 3) -/

/-- An entry of the staging table (section 3.1). The word mask is the set of positions that carry
a word; the arrival position is the entry's place in the table. -/
structure StagingEntry where
  block : Block
  source : StationNo
  words : Vector (Option Word) 16
  firstSeq : Byte
  lastSeq : Byte
  gap : Bool
  deriving DecidableEq, Repr

/-- A running commit pass: its epoch number (R47), and its time so far and latest end in bit
times (R51). -/
structure Pass where
  epoch : Byte
  time : Nat
  bound : Nat
  deriving DecidableEq, Repr

/-- The commit report (R54): the blocks in arrival order, each with its source station. -/
structure Report where
  epoch : Byte
  blocks : List (Block × StationNo)
  deriving DecidableEq, Repr

/-- The Commit Unit. -/
structure CommitUnit where
  pass : Option Pass
  /-- none is the empty report that carries no boundary -/
  report : Option Report
  deriving DecidableEq, Repr

/-- The four block statuses (section 1.3). -/
inductive BlockStatus where
  | empty
  | current
  | torn
  | stale
  deriving DecidableEq, Repr

/-- What a block status record stores; owner, subscribed and owned are read from the map. -/
structure BlockRec where
  status : BlockStatus
  seq : Byte
  /-- last-commit epoch, absent while the block is EMPTY -/
  lce : Option Byte
  deriving DecidableEq, Repr

/-- An addressed buffer of words in canonical form: addresses strictly rising, no word equal to
what an unlisted address reads as, which is 0 (R1, R15). -/
abbrev Store := List (Nat × Word)

/-- The Image Store. -/
structure ImageStore where
  words : Store
  draft : Store
  blocks : Vector BlockRec 64
  /-- last accepted sequence of each owned block (R17) -/
  lastSeq : Vector Byte 64
  deriving DecidableEq, Repr

/-! ### Membership and objections (chapters 7 and 8) -/

/-- The station states (R132). -/
inductive StationState where
  | unconfigured
  | idle
  | listen
  | joining
  | member
  | mute
  deriving DecidableEq, Repr

/-- The states of a peer record (section 8.7). -/
inductive PeerState where
  | absent
  | present
  | silent
  | self
  deriving DecidableEq, Repr

/-- A peer record (section 8.7). -/
structure Peer where
  state : PeerState
  heard : Bool
  silence : Nat
  lastHeard : Option Byte
  deriving DecidableEq, Repr

/-- The Membership Controller. -/
structure Membership where
  station : StationState
  leavePending : Bool
  listenCount : Nat
  joiningCount : Nat
  epochTaken : Bool
  peers : Vector Peer 32
  deriving DecidableEq, Repr

/-- The two mute counters (R124, R128). -/
structure MuteCounters where
  consecutive : Nat
  clean : Nat
  deriving DecidableEq, Repr

/-! ### Events, counters, local port (chapters 9 and 10) -/

/-- The nineteen kinds of event, in the order of the catalogue of section 9.2. -/
inductive EventKind where
  | epochCommitted
  | peerPresent
  | peerSilent
  | usurp
  | ownerMismatch
  | duplicateId
  | stagingRefused
  | txAbandoned
  | epochAdopted
  | joined
  | joinFailed
  | muteEntered
  | muteLeft
  | left
  | lineFault
  | lineRestored
  | busFault
  | busRestored
  | overflow
  deriving DecidableEq, Repr

/-- An event record (R151). -/
structure Event where
  kind : EventKind
  epoch : Byte
  station : Option StationNo
  block : Option Block
  value : Option Nat
  deriving DecidableEq, Repr

/-- The eight counters of READ_COUNTERS (R174), in its order. -/
structure Counters where
  accepted : Nat
  staged : Nat
  breaksRaised : Nat
  breaksSeen : Nat
  arbitrationLosses : Nat
  cuts : Nat
  mismatches : Nat
  truncations : Nat
  deriving DecidableEq, Repr

/-- The eight result codes (section 10.2). -/
inductive Result where
  | ok
  | busyCommit
  | wrongState
  | notOwner
  | badArgument
  | queueFull
  | unknownCommand
  | frameError
  deriving DecidableEq, Repr

/-- The framing state of the transaction in progress (R182). -/
structure Txn where
  command : Option Byte
  bytes : Nat
  complete : Bool
  deriving DecidableEq, Repr

/-- The Local Port. -/
structure Port where
  /-- last result code (R162) -/
  last : Result
  /-- the summary byte fixed at the last fall of CS_N -/
  summary : Byte
  txn : Option Txn
  /-- CS_N has been low since before the end of reset (R160) -/
  straddling : Bool
  /-- what the result byte of the current read carries -/
  result : Result
  /-- the port buffer: the data that follow the result byte -/
  buffer : List Byte
  /-- the records of the READ_EVENTS snapshot -/
  evSnap : List Event
  deriving DecidableEq, Repr

/-- The straps as sampled at the end of the last hardware reset (R63, R133). -/
structure Straps where
  sid : StationNo
  rate : BitVec 2
  deriving DecidableEq, Repr

/-- The station. -/
structure State where
  straps : Straps
  cfg : Settings
  line : Line
  rx : Receiver
  tx : TxState
  pub : Publish
  eu : EpochUnit
  staging : List StagingEntry
  commit : CommitUnit
  image : ImageStore
  mem : Membership
  mute : MuteCounters
  events : List Event
  counters : Counters
  port : Port
  /-- the commands that wait, first in first out -/
  pending : List Instr
  /-- where the free values of Config are read next -/
  free : Nat
  deriving DecidableEq, Repr

/-! ### The values after hardware reset -/

/-- Image Store after hardware reset and after CONFIGURE (R12, R13). -/
def ImageStore.reset : ImageStore where
  words := []
  draft := []
  blocks := Vector.replicate 64 ⟨.empty, 0, none⟩
  lastSeq := Vector.replicate 64 0

/-- Publish Queue after hardware reset and after CONFIGURE (R118). -/
def Publish.reset : Publish where
  queue := []
  countdown := Vector.replicate 64 0
  silence := 0
  ownAccepted := false
  nextOrder := 0

/-- All eight counters 0 (R174). -/
def Counters.reset : Counters := ⟨0, 0, 0, 0, 0, 0, 0, 0⟩

/-- Line Interface after hardware reset (R73), with the level read as reset ends. -/
def Line.reset (lrx : Level) : Line where
  st := .hunt
  lrx := lrx
  peers := lrx
  idleCount := 0
  idle := false
  run := 0
  charTime := none
  samples := []
  sampled := none
  runSeen := false
  slot := none
  busFault := false
  request := false
  drive := none
  metLow := false
  edgeLow := false
  sendPos := 0

/-- Epoch Unit in DORMANT (R22) with the given epoch number and ELN level: the counter stopped at
0, the timers stopped and cleared. The quiet tail is not one of the timers R22 clears. -/
def EpochUnit.dormant (epoch : Byte) (eln : Level) (tail : Option Nat) : EpochUnit where
  unit := .dormant
  counter := 0
  epoch := epoch
  eln := eln
  hold := 0
  holdOut := false
  leaveOut := false
  driveTest := none
  lowTimer := 0
  restTimer := 0
  keptFall := false
  ownWindow := false
  tail := tail

/-- A record that is ABSENT, or SELF for the station's own number (R144). -/
def Peer.away (self : Bool) : Peer :=
  ⟨if self then .self else .absent, false, 0, none⟩

/-- The peer table of hardware reset, CONFIGURE and LEAVE completion (R144). -/
def Membership.peersAway (sid : StationNo) : Vector Peer 32 :=
  Vector.ofFn fun n => Peer.away (n == sid)

/-- Membership Controller after hardware reset (R132, R150). -/
def Membership.reset (sid : StationNo) : Membership where
  station := .unconfigured
  leavePending := false
  listenCount := 0
  joiningCount := 0
  epochTaken := false
  peers := Membership.peersAway sid

/-- Local Port after hardware reset (R182), with the level of CS_N as reset ends (R160). -/
def Port.reset (csLow : Bool) : Port where
  last := .ok
  summary := 0
  txn := none
  straddling := csLow
  result := .ok
  buffer := []
  evSnap := []

/-- The station right after hardware reset, for the straps sampled and the levels read as reset
ends. -/
def State.afterReset (sid : StationNo) (rate : BitVec 2) (lrx eln : Level) (csLow : Bool) :
    State where
  straps := ⟨sid, rate⟩
  cfg := Settings.unset
  line := Line.reset lrx
  rx := ⟨.off, 0xFFFF⟩
  tx := .standby
  pub := Publish.reset
  eu := EpochUnit.dormant 0 eln none
  staging := []
  commit := ⟨none, none⟩
  image := ImageStore.reset
  mem := Membership.reset sid
  mute := ⟨0, 0⟩
  events := []
  counters := Counters.reset
  port := Port.reset csLow
  pending := []
  free := 0

/-- The machine right after hardware reset. DESIGN CHOICE (log entry 6, unsafe): station number 0,
rate code 00, both lines released, CS_N high; HARDWARE_RESET carries any others. -/
def State.reset : State := State.afterReset 0 0 .recessive .recessive false

end Sys2Proof.Machine
end

