-- ==== Sys2Proof/WellFormed.lean ====
section
/-! DEFINITION. Which terms of Instr are steps the table's rows can name. Exec never needs this
check: it gives every term a next state (log entry 22). -/

namespace Sys2Proof

/-- The command bytes of the fourteen commands (R184). -/
def commandBytes : List Byte :=
  [0x10, 0x11, 0x12, 0x13, 0x14, 0x15, 0x20, 0x21, 0x22, 0x30, 0x31, 0x40, 0x41, 0x42]

/-- The command byte by which the local controller names a step of the local port (R184); the other
steps have none. -/
def Instr.commandByte : Instr → Option Byte
  | .readStatus => some 0x10
  | .readConfig => some 0x11
  | .readCounters => some 0x12
  | .readEvents _ => some 0x13
  | .readPeers => some 0x14
  | .readCommitReport => some 0x15
  | .readImage .. => some 0x20
  | .readBlockStatus .. => some 0x21
  | .readDraft .. => some 0x22
  | .writeDraft .. => some 0x30
  | .publish .. => some 0x31
  | .configure _ => some 0x40
  | .start => some 0x41
  | .leave => some 0x42
  | .unknownCommand command => some command
  | .hardwareReset .. | .transactionStart | .frameError | .readTransactionEnd | .readEventsEnd _
  | .startEdge | .falseStart | .characterDelivered .. | .heldCharacterRise | .breakDriveStart
  | .breakDriven | .breakSeen | .breakEnd | .busFault | .busIdle | .slotBroken | .slotClean | .claim
  | .arbitrationLoss | .claimWon | .lastCheckSent | .bitFault | .lowConditionStart | .quietTailEnd
  | .epochExpiry | .elnFall | .elnRise | .notDrivable | .holdRunOut _ | .lineLowLimit
  | .lineRestored | .commitPassEnd _ | .firstRecessiveReading => none

/-- The operands of a row fit its step.

* WRITE_DRAFT: with a count of 1 to 16 the frame is complete after 2 × count word bytes (R177).
* CONFIGURE: the frame carries 80 argument bytes (R184).
* UNKNOWN_COMMAND: the byte is none of the fourteen (R163).
* READ_EVENTS_END: the command byte and the argument have arrived, so two bytes at least have been
  clocked (R160).
* CHARACTER_DELIVERED: a character delivered with a framing error at its stop sample had at least
  one recessive sample before (R62); the all dominant one is HELD_CHARACTER_RISE's. -/
def Instr.wellFormed : Instr → Bool
  | .writeDraft _ _ count data =>
      !(decide (1 ≤ count.toNat) && decide (count.toNat ≤ 16))
        || decide (2 * count.toNat ≤ data.length)
  | .configure args => decide (80 ≤ args.length)
  | .unknownCommand command => !commandBytes.contains command
  | .readEventsEnd clocked => decide (2 ≤ clocked)
  | .characterDelivered data marker framing => !(framing && data == 0 && !marker)
  | .hardwareReset .. | .transactionStart | .readStatus | .readConfig | .readCounters
  | .readEvents _ | .readPeers | .readCommitReport | .readImage .. | .readBlockStatus ..
  | .readDraft .. | .publish .. | .start | .leave | .frameError | .readTransactionEnd
  | .startEdge | .falseStart | .heldCharacterRise | .breakDriveStart | .breakDriven | .breakSeen
  | .breakEnd | .busFault | .busIdle | .slotBroken | .slotClean | .claim | .arbitrationLoss
  | .claimWon | .lastCheckSent | .bitFault | .lowConditionStart | .quietTailEnd | .epochExpiry
  | .elnFall | .elnRise | .notDrivable | .holdRunOut _ | .lineLowLimit | .lineRestored
  | .commitPassEnd _ | .firstRecessiveReading => true

end Sys2Proof
end

