-- ==== Sys2Proof/Machine/Operands.lean ====
section
/-! DEFINITION. Every operand form: spans, characters and dispatches on the image bus, the check
value, and the argument and record layouts of the local port (chapter 12). -/

namespace Sys2Proof.Machine

/-! ### Fixed tables of like things -/

/-- Replaces one place of a table. -/
def put {α : Type} {n : Nat} (v : Vector α n) (i : Fin n) (a : α) : Vector α n :=
  v.set i.val a i.isLt

/-- All blocks, in ascending number. -/
def allBlocks : List Block := (List.range 64).map (Fin.ofNat 64)

/-- All station numbers, ascending. -/
def allStations : List StationNo := (List.range 32).map (Fin.ofNat 32)

/-- All word numbers, ascending. -/
def allWords : List WordNo := (List.range 16).map (Fin.ofNat 16)

/-- A counter that holds at 65535 once it reaches it (R174). -/
def bump (n : Nat) : Nat := if n < Config.counterTop then n + 1 else n

/-! ### Bytes and words (00_scope.md: the high byte comes first) -/

/-- The low eight bits of a number, as a byte. -/
def byteOf (n : Nat) : Byte := BitVec.ofNat 8 n

def Word.high (w : Word) : Byte := w.extractLsb' 8 8

def Word.low (w : Word) : Byte := w.extractLsb' 0 8

/-- Two bytes as a word, high byte first. -/
def wordOf (high low : Byte) : Word := high ++ low

/-- A quantity of two bytes, high byte first (R184). -/
def twoBytes (n : Nat) : List Byte := [byteOf (n / 256), byteOf n]

/-- A flag as a number, to be placed in a byte. -/
def bit (b : Bool) : Nat := if b then 1 else 0

/-- The words of a block's run, as bytes. -/
def wordBytes (ws : List Word) : List Byte := ws.flatMap fun w => [Word.high w, Word.low w]

/-- The words that a run of bytes carries, two bytes each, high byte first. A half word at the end
carries nothing. -/
def bytesToWords : List Byte → List Word
  | high :: low :: rest => wordOf high low :: bytesToWords rest
  | _ => []

/-! ### Spans -/

/-- The whole block (R75, R103). -/
def Span.full : Span := ⟨0, 15⟩

/-- The count of a span (R75). -/
def Span.count (sp : Span) : Nat := sp.last.val + 1 - sp.first.val

/-- The span that covers both: from the lower first word to the higher last word (R101, R111). -/
def Span.union (a b : Span) : Span :=
  ⟨if a.first ≤ b.first then a.first else b.first, if b.last ≤ a.last then a.last else b.last⟩

/-- The word stands within the span. -/
def Span.has (sp : Span) (w : WordNo) : Bool := decide (sp.first ≤ w) && decide (w ≤ sp.last)

/-- A first word and a count as a span: first 0 to 15, count 1 to 16, first + count not above 16
(R165, section 10.6). -/
def Span.ofCount (first count : Nat) : Option Span :=
  if first ≤ 15 ∧ 1 ≤ count ∧ count ≤ 16 ∧ first + count ≤ 16 then
    some ⟨Fin.ofNat 16 first, Fin.ofNat 16 (first + count - 1)⟩
  else none

/-- The three argument bytes of READ_IMAGE, READ_DRAFT, WRITE_DRAFT and PUBLISH (R175, R177, R178,
R179, R184). The reserved bits make the value leave its range. -/
def spanArgs (block first count : Byte) : Option (Block × Span) :=
  if block.toNat ≤ 63 then
    (Span.ofCount first.toNat count.toNat).map fun sp => (Fin.ofNat 64 block.toNat, sp)
  else none

/-! ### Duties of the publish queue -/

/-- The block or kind that makes entries the same (R98). -/
def Duty.key : Duty → Key
  | .update b _ => .ofBlock b
  | .refresh b => .ofBlock b
  | .roll => .ofRoll

def Duty.kind : Duty → Kind
  | .update .. => .update
  | .refresh _ => .refresh
  | .roll => .roll

def Duty.block : Duty → Option Block
  | .update b _ => some b
  | .refresh b => some b
  | .roll => none

/-- The span of words to send; a REFRESH always has the whole block (section 6.1). -/
def Duty.span : Duty → Span
  | .update _ sp => sp
  | .refresh _ => .full
  | .roll => .full

/-! ### Dispatches (R74 to R77, R183) -/

/-- Kind codes of the claim (R74); also the value of TX_ABANDONED (section 9.2). -/
def kindCode : Kind → Nat
  | .update => 1
  | .refresh => 2
  | .roll => 3

/-- 000 and 100 to 111 are invalid (R74). -/
def kindOfCode : Nat → Option Kind
  | 1 => some .update
  | 2 => some .refresh
  | 3 => some .roll
  | _ => none

/-- The claim byte: kind code in bits 7 to 5, station number in bits 4 to 0 (R183). -/
def claimByte (k : Kind) (sid : StationNo) : Byte := byteOf (kindCode k * 32 + sid.val)

def claimKind (claim : Byte) : Option Kind := kindOfCode (claim.toNat / 32)

def claimSender (claim : Byte) : StationNo := Fin.ofNat 32 claim.toNat

/-- The span byte: first word in bits 7 to 4, count less one in bits 3 to 0 (R183). -/
def spanByte (sp : Span) : Byte := byteOf (sp.first.val * 16 + (sp.count - 1))

/-- The span a span byte names; none is a span overrun (R84, R183). -/
def spanOfByte (b : Byte) : Option Span := Span.ofCount (b.toNat / 16) (b.toNat % 16 + 1)

/-- One data bit enters the check register (R77): bit 15 is compared with it, the register is
shifted towards bit 15, and bits 12, 5 and 0 are inverted if the two differed. -/
def crcBit (r : Word) (d : Bool) : Word :=
  if r.msb != d then (r <<< 1) ^^^ 0x1021 else r <<< 1

/-- One character's data bits enter, most significant first (R77). -/
def crcByte (r : Word) (b : Byte) : Word :=
  [7, 6, 5, 4, 3, 2, 1, 0].foldl (fun acc i => crcBit acc (b.getLsbD i)) r

/-- The check value of the covered characters (R77). -/
def checkValue (bs : List Byte) : Word := bs.foldl crcByte 0xFFFF

/-- The covered characters, then the two check characters, bits 15 to 8 first (R77). -/
def withCheck (bs : List Byte) : List Byte :=
  bs ++ [Word.high (checkValue bs), Word.low (checkValue bs)]

/-- The characters of an UPDATE or a REFRESH, in order (R75). -/
def blockDispatch (k : Kind) (sid : StationNo) (b : Block) (epoch seq : Byte) (sp : Span)
    (ws : List Word) : List Byte :=
  withCheck ([claimByte k sid, byteOf b.val, epoch, seq, spanByte sp] ++ wordBytes ws)

/-- The characters of a ROLL (R76). -/
def rollDispatch (sid : StationNo) (epoch : Byte) : List Byte :=
  withCheck [claimByte .roll sid, epoch]

/-! ### The character on the line (R60 to R62, R72) -/

/-- A value of 0 is sent dominant and a value of 1 recessive (R60). -/
def levelOf (b : Bool) : Level := if b then .recessive else .dominant

/-- The 11 bits of a character in the order they are sent (R60). -/
def characterLevels (data : Byte) (marker : Bool) : List Level :=
  [.dominant] ++ [7, 6, 5, 4, 3, 2, 1, 0].map (fun i => levelOf (data.getLsbD i))
    ++ [levelOf marker, .recessive]

/-- Bit times that a dominant run still standing at the stop bit of a character has lasted as that bit
begins: the dominant bits that stand before it without a recessive one between, the start bit
included (R60, R67). -/
def dominantTail (data : Byte) (marker : Bool) : Nat :=
  (((characterLevels data marker).take 10).reverse.takeWhile (· = .dominant)).length

/-- What the Line Interface makes of the eleven mid-bit samples of a character (R61, R62). None is
the case of eleven dominant samples: the character is held until the run ends, by BREAK_SEEN or by
HELD_CHARACTER_RISE. -/
def judgeSamples (samples : List Level) : Option Instr :=
  let one (i : Nat) : Bool := samples.getD i .recessive == .recessive
  let data := byteOf ([1, 2, 3, 4, 5, 6, 7, 8].foldl (fun n i => 2 * n + bit (one i)) 0)
  if one 0 then some .falseStart
  else if one 10 then some (.characterDelivered data (one 9) false)
  else if [1, 2, 3, 4, 5, 6, 7, 8, 9].any one then some (.characterDelivered data (one 9) true)
  else none

/-- The level that a mismatch read, from the one that was driven (R72). -/
def otherLevel : Level → Level
  | .dominant => .recessive
  | .recessive => .dominant

/-- What readback reports at a mid-bit sample of a character this station drives (R72). -/
def readback (inClaim : Bool) (drove read : Level) : Option Instr :=
  if drove = read then none
  else if inClaim && drove == .recessive then some .arbitrationLoss
  else some .bitFault

/-- Bit times of one character and of the answer slot (R60, R66). -/
def characterBits : Nat := 11

/-- A dominant run of this many bit times is a break (R67). -/
def breakBits : Nat := 11

/-- A dominant run of this many bit times is a bus fault (R70). -/
def busFaultBits : Nat := 88

/-- The level LTX gives a dispatch of this station at a bit time counted from its claim's start
bit: characters back to back, marker 1 in the claim alone (R71, R74, R109). -/
def sentLevel (chars : List Byte) (pos : Nat) : Level :=
  match chars[pos / characterBits]? with
  | some data => (characterLevels data (pos < characterBits)).getD (pos % characterBits) .recessive
  | none => .recessive

/-! ### Codes of the local port (R184) -/

def StationState.code : StationState → Nat
  | .unconfigured => 0
  | .idle => 1
  | .listen => 2
  | .joining => 3
  | .member => 4
  | .mute => 5

def UnitState.code : UnitState → Nat
  | .dormant => 0
  | .follow => 1
  | .run => 2
  | .assert => 3
  | .waitRise => 4
  | .coast => 5

def Result.code : Result → Nat
  | .ok => 0
  | .busyCommit => 1
  | .wrongState => 2
  | .notOwner => 3
  | .badArgument => 4
  | .queueFull => 5
  | .unknownCommand => 6
  | .frameError => 7

def BlockStatus.code : BlockStatus → Nat
  | .empty => 0
  | .current => 1
  | .torn => 2
  | .stale => 3

def PeerState.code : PeerState → Nat
  | .absent => 0
  | .present => 1
  | .silent => 2
  | .self => 3

def EventKind.code : EventKind → Nat
  | .epochCommitted => 1
  | .peerPresent => 2
  | .peerSilent => 3
  | .usurp => 4
  | .ownerMismatch => 5
  | .duplicateId => 6
  | .stagingRefused => 7
  | .txAbandoned => 8
  | .epochAdopted => 9
  | .joined => 10
  | .joinFailed => 11
  | .muteEntered => 12
  | .muteLeft => 13
  | .left => 14
  | .lineFault => 15
  | .lineRestored => 16
  | .busFault => 17
  | .busRestored => 18
  | .overflow => 19

def modeCode : ReportMode → Nat
  | .none => 0
  | .changes => 1
  | .every => 2

def modeOfCode : Nat → Option ReportMode
  | 0 => some .none
  | 1 => some .changes
  | 2 => some .every
  | _ => none

/-- An owner byte: 0 to 31, or 0xFF for "none" (R3). -/
def ownerByte : Option StationNo → Byte
  | some n => byteOf n.val
  | none => 0xFF

/-- The owner a byte names; the byte has passed `ownerByteOk`. -/
def ownerOfByte (b : Byte) : Option StationNo :=
  if b.toNat ≤ 31 then some (Fin.ofNat 32 b.toNat) else none

/-- A byte from 32 to 254 is no owner (R3, R169). -/
def ownerByteOk (b : Byte) : Bool := decide (b.toNat ≤ 31) || b == 0xFF

/-! ### The configuration record (R169, R184) -/

/-- The bit of a subscription byte that holds a block's flag: bit 7 for the lowest block. -/
def subFlag (args : List Byte) (b : Block) : Bool :=
  (args.getD (72 + b.val / 8) 0).getLsbD (7 - b.val % 8)

/-- The 80 argument bytes of CONFIGURE as settings; none is BAD_ARGUMENT (R169): ranges, reserved
bits and the relation H × 8 ≤ L, tested as a product. -/
def parseSettings (args : List Byte) : Option Settings :=
  let at_ (i : Nat) : Nat := (args.getD i 0).toNat
  let epochLen := at_ 0 * 256 + at_ 1
  let holdLen := at_ 2 * 256 + at_ 3
  if 2048 ≤ epochLen ∧ epochLen ≤ 65535 ∧ 32 ≤ holdLen ∧ holdLen ≤ 1023 ∧ holdLen * 8 ≤ epochLen
      ∧ 2 ≤ at_ 4 ∧ at_ 4 ≤ 15 ∧ 2 ≤ at_ 6 ∧ at_ 6 ≤ 15
      ∧ allBlocks.all (fun b => ownerByteOk (args.getD (8 + b.val) 0)) then
    (modeOfCode (at_ 7)).map fun mode =>
      { epochLen := epochLen
        holdLen := holdLen
        silenceLimit := at_ 4
        refreshPeriod := at_ 5
        listenLimit := at_ 6
        mode := mode
        owners := Vector.ofFn fun b => ownerOfByte (args.getD (8 + b.val) 0)
        subs := Vector.ofFn fun b => subFlag args b }
  else none

/-- One subscription byte, bit 7 for the lowest of its eight blocks. -/
def subByte (subs : Vector Bool 64) (n : Fin 8) : Byte :=
  byteOf ((List.range 8).foldl
    (fun acc i => 2 * acc + bit subs[(Fin.ofNat 64 (8 * n.val + i) : Fin 64)]) 0)

/-- The configuration record without the strap bytes: 80 bytes, as CONFIGURE takes them. -/
def settingsBytes (c : Settings) : List Byte :=
  twoBytes c.epochLen ++ twoBytes c.holdLen
    ++ [byteOf c.silenceLimit, byteOf c.refreshPeriod, byteOf c.listenLimit, byteOf (modeCode c.mode)]
    ++ allBlocks.map (fun b => ownerByte c.owners[b])
    ++ (List.range 8).map (fun n => subByte c.subs (Fin.ofNat 8 n))

/-! ### Records (R184) -/

/-- Peer record, 2 bytes. -/
def Peer.bytes (p : Peer) : List Byte :=
  [byteOf (p.state.code * 64 + bit p.heard * 32 + bit p.lastHeard.isSome * 16 + p.silence),
   p.lastHeard.getD 0]

/-- Event record, 7 bytes. -/
def Event.bytes (e : Event) : List Byte :=
  [byteOf e.kind.code, e.epoch,
   byteOf (bit e.station.isSome * 128 + bit e.block.isSome * 64 + bit e.value.isSome * 32),
   (e.station.map fun n => byteOf n.val).getD 0xFF,
   (e.block.map fun b => byteOf b.val).getD 0xFF] ++ twoBytes (e.value.getD 0)

/-- The eight counters, two bytes each (R174). -/
def Counters.bytes (c : Counters) : List Byte :=
  [c.accepted, c.staged, c.breaksRaised, c.breaksSeen, c.arbitrationLosses, c.cuts, c.mismatches,
    c.truncations].flatMap twoBytes

/-- Commit report: epoch number, k, then k pairs of block and source station; the empty report as
epoch number 0 and k of 0 (R54, R181). -/
def reportBytes : Option Report → List Byte
  | none => [0, 0]
  | some r => [r.epoch, byteOf r.blocks.length]
      ++ r.blocks.flatMap fun p => [byteOf p.1.val, byteOf p.2.val]

end Sys2Proof.Machine
end

