-- ==== Sys2Proof/Machine/Flags.lean ====
section
/-! DEFINITION. What the station shows of itself and asks of itself without storing it: ownership
and subscription, the low condition and the quiet window, outputs, status bytes. -/

namespace Sys2Proof.Machine

/-! ### Ownership and subscription (R3, R4, R5) -/

/-- The mapped owner of a block. -/
def State.owner (s : State) (b : Block) : Option StationNo := s.cfg.owners[b]

/-- The block is owned by this station (R3). -/
def State.owned (s : State) (b : Block) : Bool := s.owner b == some s.straps.sid

/-- Subscription as the station acts on it: owned blocks count whatever their flag (R5). -/
def State.subscribed (s : State) (b : Block) : Bool := s.cfg.subs[b] || s.owned b

/-- The station is on the bus: LISTEN, JOINING, MEMBER or MUTE. -/
def StationState.onBus : StationState → Bool
  | .unconfigured | .idle => false
  | .listen | .joining | .member | .mute => true

/-- The states in which a station raises breaks (R120). -/
def StationState.objects : StationState → Bool
  | .joining | .member => true
  | .unconfigured | .idle | .listen | .mute => false

/-! ### Epoch line (R21, R32, R34) -/

/-- The low condition: in every state but DORMANT while ELN reads low, and in ASSERT and COAST also
from each own expiry to the end of its pass (R34). -/
def EpochUnit.low (u : EpochUnit) : Bool :=
  u.unit != .dormant
    && (u.eln == .dominant || (u.ownWindow && (u.unit == .assert || u.unit == .coast)))

/-- The quiet window: the low condition and the tail that follows it (R34). -/
def EpochUnit.quiet (u : EpochUnit) : Bool := u.low || u.tail.isSome

/-- The station drives ELN dominant exactly in ASSERT (R21). -/
def State.drivesEln (s : State) : Bool := s.eu.unit == .assert

/-- What ELN reads now: low while this station drives it, whatever its peers do (00_scope.md, Line
levels), else the level last read (log entry 4). -/
def State.elnNow (s : State) : Level := if s.drivesEln then .dominant else s.eu.eln

/-- A commit pass runs; EPO is low exactly then (R32). -/
def State.epoLow (s : State) : Bool := s.commit.pass.isSome

/-- ATTN_N is low while the Event Queue holds a record (R157). -/
def State.attnLow (s : State) : Bool := !s.events.isEmpty

/-- The level LTX asks of the data line: dominant for a break being driven or a dominant bit of a
character being sent, released at all other times (R59). -/
def State.ltx (s : State) : Level :=
  if s.line.drive.isSome then .dominant
  else match s.tx with
    | .active .claiming a => sentLevel a.chars s.line.sendPos
    | .active .sending a => sentLevel a.chars s.line.sendPos
    | .active .slotWait _ => .recessive
    | .standby => .recessive

/-- What the data line reads now: dominant while this station pulls it, whatever its peers do
(00_scope.md, Line levels), else the level the peers give it (log entry 4). -/
def State.lineNow (s : State) : Level :=
  if s.ltx = .dominant then .dominant else s.line.peers

/-- The peers' level after a dominant reading: what this station pulls itself tells nothing of its
peers (log entry 4). -/
def State.peersAtFall (s : State) : Level :=
  if s.ltx = .dominant then s.line.peers else .dominant

/-- In the middle of a character: it is in assembly and its start edge is a bit time old or more. The
start edge itself is the boundary of the character before it (R65). -/
def Line.midCharacter (l : Line) : Bool :=
  l.st == .assemble && (match l.charTime with
    | some n => decide (1 ≤ n)
    | none => false)

/-- The answer slot has been marked and the character boundary at which it begins has not come
(R66). -/
def Line.slotAhead (l : Line) : Bool := l.st == .hunt && l.slot.isSome && l.charTime.isSome

/-- The sample of the bit under way has been told and is not what a character has there: while this
station drives a dispatch the character is its own, and this is a mismatch (R62, R72; log entry 43). -/
def Line.mismatchTold (l : Line) : Bool :=
  match l.sampled with
  | some b => b.form != b.read
  | none => false

/-- A character boundary, or HUNT between characters: where a break that has been asked for begins
(R65, R68). -/
def Line.atBoundary (l : Line) : Bool :=
  match l.charTime with
  | some n => n == 0
  | none => true

/-! ### Commit pass length (R51) -/

/-- Microseconds of one bit time at the strapped rate (R63). -/
def bitMicros (rate : BitVec 2) : Nat := 2 ^ (3 - rate.toNat)

/-- The latest end of a pass over n entries, 2 µs + 1 µs each, in bit times rounded up (R51). -/
def passBound (rate : BitVec 2) (n : Nat) : Nat := (2 + n + bitMicros rate - 1) / bitMicros rate

/-! ### Staging room (R43, R46) -/

/-- The table holds an entry for the block. -/
def hasEntry (t : List StagingEntry) (b : Block) : Bool := t.any fun e => e.block == b

/-- The answer to the room question: room when the block has an entry or the table holds fewer than
16 (R43, R46). -/
def roomFor (t : List StagingEntry) (b : Block) : Bool :=
  hasEntry t b || decide (t.length < Config.stagingSize)

/-! ### Publish queue room (R99, R100) -/

/-- The in-flight slot (R98). -/
def TxState.inFlight : TxState → Option Attempt
  | .standby => none
  | .active _ a => some a

/-- Keys in use: one for each queued entry, and one for the entry in the slot if no queued entry
holds its key (R100). -/
def keysInUse (q : List Entry) (flight : Option Key) : Nat :=
  q.length + match flight with
    | some k => if q.any (fun e => e.duty.key == k) then 0 else 1
    | none => 0

/-- An entry the Transmitter may take now (R99). -/
def State.eligible (s : State) (e : Entry) : Bool :=
  (s.mem.station == .member || (s.mem.station == .joining && e.duty == .roll))
    && !s.mem.leavePending && !e.held
    && match e.duty.block with
      | some b => roomFor s.staging b
      | none => true

/-- The first eligible entry in queue order (R99). -/
def State.nextEntry (s : State) : Option Entry := s.pub.queue.find? s.eligible

/-- All the conditions of a claim but an eligible entry (R107): STANDBY, idle, the quiet window
closed, no bus fault. -/
def State.busFree (s : State) : Bool :=
  s.tx == .standby && s.line.idle && !s.eu.quiet && !s.line.busFault

/-! ### Bytes the port shows (R162, R172, R173, R184) -/

/-- The summary byte (R162). -/
def State.summaryByte (s : State) : Byte :=
  byteOf (s.mem.station.code * 32 + bit s.attnLow * 16 + bit s.epoLow * 8 + s.port.last.code)

/-- The status record, 9 bytes (R172). -/
def State.statusBytes (s : State) : List Byte :=
  [byteOf (s.mem.station.code * 32 + bit s.mem.leavePending * 16),
   byteOf (s.eu.unit.code * 32 + bit (s.eu.eln == .recessive) * 16
     + bit s.tx.inFlight.isSome * 8),
   s.eu.epoch] ++ twoBytes s.eu.counter
    ++ [byteOf s.pub.queue.length, byteOf s.staging.length, byteOf s.mute.consecutive,
        byteOf s.mute.clean]

/-- The configuration record with the two strap bytes, 82 bytes (R173). -/
def State.configBytes (s : State) : List Byte :=
  settingsBytes s.cfg ++ [byteOf s.straps.sid.val, byteOf s.straps.rate.toNat]

/-- A block status record, 4 bytes (R6, R184). -/
def State.blockBytes (s : State) (b : Block) : List Byte :=
  let r := s.image.blocks[b]
  [byteOf (r.status.code * 64 + bit (s.subscribed b) * 32 + bit (s.owned b) * 16
     + bit r.lce.isSome * 8),
   ownerByte (s.owner b), r.seq, r.lce.getD 0]

/-- The 32 peer records (R181). -/
def State.peerBytes (s : State) : List Byte :=
  allStations.flatMap fun n => s.mem.peers[n].bytes

/-- Byte n of what the station sends in the transaction in progress, counted from the fall of CS_N
(R161): the summary byte, 0xFF under the argument bytes, and for a read whose frame is complete the
result byte, the data if the result is OK, then 0xFF. -/
def Port.sent (p : Port) (n : Nat) : Byte :=
  if n = 0 then p.summary
  else match p.txn with
    | some ⟨some _, bytes, true⟩ =>
        if n < bytes then 0xFF
        else if n = bytes then byteOf p.result.code
        else if p.result = .ok then p.buffer.getD (n - bytes - 1) 0xFF else 0xFF
    | _ => 0xFF

/-- What SDO carries as byte n of the transaction in progress: undriven while CS_N is high, filler alone
in a transaction that straddles reset (R160, pin table of section 12.3). -/
def State.sdo (s : State) (n : Nat) : Option Byte :=
  if s.port.straddling then some 0xFF
  else if s.port.txn.isSome then some (s.port.sent n)
  else none

/-! ### The output pins (R185) -/

/-- The output pins: LTX, whether ELN is driven, whether EPO and ATTN_N are low, and the byte on SDO,
none while SDO is undriven. -/
structure Outputs where
  ltx : Level
  elnDriven : Bool
  epoLow : Bool
  attnLow : Bool
  sdo : Option Byte
  deriving DecidableEq, Repr

/-- While RESET_N is held low (R185): all released or high, SDO undriven. HARDWARE_RESET is that whole
time as one step. -/
def outputsInReset : Outputs := ⟨.recessive, false, false, false, none⟩

/-- The outputs with RESET_N high, during byte n of a transaction if one is in progress. -/
def State.outputs (s : State) (n : Nat) : Outputs :=
  ⟨s.ltx, s.drivesEln, s.epoLow, s.attnLow, s.sdo n⟩

end Sys2Proof.Machine
end

