-- ==== Sys2Proof/Machine/Ops.lean ====
section
/-! DEFINITION. The named operations the commands are made of: the word buffers, posting an event,
the publish queue, staging and the commit pass, the boundary, the moves of the station, the cut. -/

namespace Sys2Proof.Machine

/-! ### Word buffers: the image words and the draft (R1, R15) -/

/-- The address of a word: 16 words to a block. -/
def wordAddr (b : Block) (w : WordNo) : Nat := 16 * b.val + w.val

/-- The canonical form of a buffer: addresses strictly rising, all above `low`, no zero word. -/
def Store.wfFrom : Nat → Store → Bool
  | _, [] => true
  | low, (a, w) :: rest => decide (low ≤ a) && w != 0 && Store.wfFrom (a + 1) rest

/-- The canonical form: addresses strictly rising, no word equal to what an unlisted one reads as. -/
def Store.wf (m : Store) : Bool := Store.wfFrom 0 m

/-- The word at an address; an unlisted one reads as 0 (R1, R15). -/
def Store.read : Store → Nat → Word
  | [], _ => 0
  | (k, v) :: rest, a => if k = a then v else Store.read rest a

/-- Writes one word. Writing 0 removes the entry. -/
def Store.write : Store → Nat → Word → Store
  | [], a, w => if w = 0 then [] else [(a, w)]
  | (k, v) :: rest, a, w =>
      if a < k then (if w = 0 then (k, v) :: rest else (a, w) :: (k, v) :: rest)
      else if a = k then (if w = 0 then rest else (a, w) :: rest)
      else (k, v) :: Store.write rest a w

/-- Writes consecutive words from an address on. -/
def Store.writeAll (m : Store) (a : Nat) : List Word → Store
  | [] => m
  | w :: ws => Store.writeAll (m.write a w) (a + 1) ws

/-- Reads n consecutive words from an address on. -/
def Store.readAll (m : Store) (a n : Nat) : List Word :=
  (List.range n).map fun i => m.read (a + i)

/-- The words of a span of a block. -/
def Store.readSpan (m : Store) (b : Block) (sp : Span) : List Word :=
  m.readAll (wordAddr b sp.first) sp.count

/-- Writes only the positions that carry a word (R48). -/
def Store.writeMasked (m : Store) (b : Block) (ws : Vector (Option Word) 16) : Store :=
  allWords.foldl
    (fun acc w => match ws[w] with
      | some x => acc.write (wordAddr b w) x
      | none => acc) m

/-! ### Events (R151 to R154) -/

/-- What the queue makes of an event that arrives (R153, R154): counted into an OVERFLOW record if
one stands (it is always the newest), stored while there is room, else a new OVERFLOW record. -/
def addEvent (q : List Event) (e : Event) (epoch : Byte) : List Event :=
  match q.getLast? with
  | none => [e]
  | some newest =>
      if newest.kind = .overflow then
        q.dropLast ++ [{ newest with value := some (bump (newest.value.getD 0)) }]
      else if q.length < Config.eventRoom then q ++ [e]
      else q ++ [⟨.overflow, epoch, none, none, some 1⟩]

/-- Posts an event with a given epoch number (R52, R151). -/
def State.postAt (s : State) (epoch : Byte) (kind : EventKind) (station : Option StationNo)
    (block : Option Block) (value : Option Nat) : State :=
  { s with events := addEvent s.events ⟨kind, epoch, station, block, value⟩ s.eu.epoch }

/-- Posts an event with the station's epoch number at that moment (R151). -/
def State.post (s : State) (kind : EventKind) (station : Option StationNo := none)
    (block : Option Block := none) (value : Option Nat := none) : State :=
  s.postAt s.eu.epoch kind station block value

/-! ### The publish queue (R98 to R106, R111) -/

/-- UPDATE before REFRESH before ROLL (R99). -/
def kindRank : Kind → Nat
  | .update => 0
  | .refresh => 1
  | .roll => 2

/-- The queue order: by kind, within a kind the oldest first (R99). -/
def Entry.before (a b : Entry) : Bool :=
  decide (kindRank a.duty.kind < kindRank b.duty.kind)
    || (kindRank a.duty.kind == kindRank b.duty.kind && decide (a.order < b.order))

/-- Puts an entry in its place in queue order. -/
def insertEntry : List Entry → Entry → List Entry
  | [], e => [e]
  | x :: rest, e => if e.before x then e :: x :: rest else x :: insertEntry rest e

/-- The queued entry with a key. -/
def findKey (q : List Entry) (k : Key) : Option Entry := q.find? fun e => e.duty.key == k

/-- The queue would hold no more than `limit` keys with one more entry (R100). -/
def hasRoom (q : List Entry) (flight : Option Key) (limit : Nat) (k : Duty) : Bool :=
  decide (keysInUse (⟨k, 0, 0, false⟩ :: q) flight ≤ limit)

/-- Adds a new entry at the end of its kind: the current moment as entry order, no failure, not
held (R100). -/
def Publish.add (p : Publish) (d : Duty) : Publish :=
  { p with queue := insertEntry p.queue ⟨d, 0, p.nextOrder, false⟩, nextOrder := p.nextOrder + 1 }

/-- Widens the queued UPDATE of a block to cover a span as well (R101, R103). -/
def widen (q : List Entry) (b : Block) (sp : Span) : List Entry :=
  q.map fun e => match e.duty with
    | .update b' sp' => if b' = b then { e with duty := .update b' (sp'.union sp) } else e
    | .refresh _ => e
    | .roll => e

/-- The duty two entries of one key merge to (R111): UPDATE if either is, the span covering both. -/
def mergeDuty : Duty → Duty → Duty
  | .update b sp, .update _ sp' => .update b (sp.union sp')
  | .update b _, .refresh _ => .update b .full
  | .refresh b, .update _ _ => .update b .full
  | d, _ => d

/-- An entry returns from the slot to the queue, in the place its kind and order give it, merging
with a queued entry of the same key (R111). -/
def giveBack (q : List Entry) (e : Entry) : List Entry :=
  match findKey q e.duty.key with
  | none => insertEntry q e
  | some x =>
      insertEntry (q.filter fun y => y.duty.key != e.duty.key)
        { e with duty := mergeDuty e.duty x.duty, order := min e.order x.order }

/-- Every held flag is cleared (R112). -/
def clearHeld (q : List Entry) : List Entry := q.map fun e => { e with held := false }

/-- One block's part of the refresh schedule (R103). -/
def stepRefresh (period : Nat) (flight : Option Key) (p : Publish) (b : Block) : Publish :=
  let c := p.countdown[b] - 1
  if 0 < c then { p with countdown := put p.countdown b c }
  else match findKey p.queue (.ofBlock b) with
    | some e =>
        { p with
          queue := if e.duty.kind = .update then widen p.queue b .full else p.queue
          countdown := put p.countdown b period }
    | none =>
        if hasRoom p.queue flight Config.queueSize (.refresh b) then
          { p.add (.refresh b) with countdown := put p.countdown b period }
        else { p with countdown := put p.countdown b 0 }

/-- The own-silence count and the ROLL it queues (R105). -/
def stepSilence (limit : Nat) (flight : Option Key) (p : Publish) : Publish :=
  let n := if p.ownAccepted then 0 else min 15 (p.silence + 1)
  let p := { p with silence := n, ownAccepted := false }
  if limit - 1 ≤ n && (findKey p.queue .ofRoll).isNone
      && hasRoom p.queue flight Config.queueSize .roll then p.add .roll
  else p

/-- The key of the entry in the in-flight slot. -/
def State.flightKey (s : State) : Option Key := s.tx.inFlight.map fun a => a.entry.duty.key

/-- The schedules of a boundary taken in MEMBER with leave-pending clear: the refresh countdowns of
the owned blocks in ascending number if P is not 0, then the own-silence count (R27, R103, R105;
log entry 19). -/
def State.schedules (s : State) : State :=
  if s.mem.station = .member ∧ s.mem.leavePending = false then
    let p := if s.cfg.refreshPeriod = 0 then s.pub
      else (allBlocks.filter s.owned).foldl (stepRefresh s.cfg.refreshPeriod s.flightKey) s.pub
    { s with pub := stepSilence s.cfg.silenceLimit s.flightKey p }
  else s

/-! ### Staging (R39 to R41) -/

/-- The words of a span in their places: the body words from the first word of the span on. -/
def spanWords (sp : Span) (ws : List Word) : Vector (Option Word) 16 :=
  Vector.ofFn fun w => if sp.has w then some (ws.getD (w.val - sp.first.val) 0) else none

/-- Merges a dispatch into an entry (R41). -/
def StagingEntry.merge (e : StagingEntry) (seq : Byte) (ws : Vector (Option Word) 16) :
    StagingEntry :=
  { e with
    words := Vector.ofFn fun w => ws[w].or e.words[w]
    gap := e.gap || seq != e.lastSeq + 1
    lastSeq := seq }

/-- Creates an entry at the tail if there is room, or merges into the block's entry (R40, R41). -/
def stage (t : List StagingEntry) (b : Block) (source : StationNo) (seq : Byte)
    (ws : Vector (Option Word) 16) : List StagingEntry :=
  if hasEntry t b then t.map fun e => if e.block = b then e.merge seq ws else e
  else if t.length < Config.stagingSize then t ++ [⟨b, source, ws, seq, seq, false⟩]
  else t

/-- Stages a dispatch and counts it (R39). -/
def State.stageDispatch (s : State) (b : Block) (source : StationNo) (seq : Byte) (sp : Span)
    (ws : List Word) : State :=
  if roomFor s.staging b then
    { s with staging := stage s.staging b source seq (spanWords sp ws)
             counters := { s.counters with staged := bump s.counters.staged } }
  else s

/-! ### The commit pass (R47 to R52) -/

/-- All 16 positions carry a word. -/
def StagingEntry.wholeBlock (e : StagingEntry) : Bool := allWords.all fun w => e.words[w].isSome

/-- The status transition table (R49). -/
def commitStatus (e : StagingEntry) (before : BlockStatus) (stored : Byte) : BlockStatus :=
  if e.wholeBlock && !e.gap then .current
  else if !e.wholeBlock && !e.gap && e.firstSeq == stored + 1 then
    match before with
    | .empty => .torn
    | .current => .current
    | .torn => .torn
    | .stale => .stale
  else match before with
    | .empty => .torn
    | .current => .torn
    | .torn => .torn
    | .stale => .stale

/-- One entry goes into the image: words, status, sequence, last-commit epoch (R48 to R50). -/
def ImageStore.commit (im : ImageStore) (epoch : Byte) (e : StagingEntry) : ImageStore :=
  let r := im.blocks[e.block]
  { im with
    words := im.words.writeMasked e.block e.words
    blocks := put im.blocks e.block
      ⟨commitStatus e r.status r.seq, e.lastSeq, some epoch⟩ }

/-- The block and its source station join the commit report (R50). -/
def Report.append (r : Report) (e : StagingEntry) : Report :=
  { r with blocks := r.blocks ++ [(e.block, e.source)] }

/-- The pass commits the entry at the head of the table and removes it (R47, R50). -/
def State.commitHead (s : State) (epoch : Byte) : State :=
  match s.staging with
  | [] => s
  | e :: rest =>
      { s with
        image := s.image.commit epoch e
        staging := rest
        commit := { s.commit with report := s.commit.report.map fun r => r.append e } }

/-- The pass commits up to n entries from the head. -/
def State.commitSome (epoch : Byte) : Nat → State → State
  | 0, s => s
  | n + 1, s => State.commitSome epoch n (s.commitHead epoch)

/-- EPOCH_COMMITTED as the report mode calls for it (R52): the value is the number of blocks in the
report, the epoch number the pass's. -/
def State.postCommitted (s : State) (epoch : Byte) : State :=
  let n := (s.commit.report.map fun r => r.blocks.length).getD 0
  match s.cfg.mode with
  | .none => s
  | .changes => if 0 < n then s.postAt epoch .epochCommitted none none (some n) else s
  | .every => s.postAt epoch .epochCommitted none none (some n)

/-- The pass finishes: the entries not yet committed, then EPOCH_COMMITTED, then the end, with
which EPO goes high and the own-boundary window closes (R32, R34, R51, R52). -/
def State.finishPass (s : State) : State :=
  match s.commit.pass with
  | none => s
  | some p =>
      let s := (State.commitSome p.epoch s.staging.length s).postCommitted p.epoch
      { s with commit := { s.commit with pass := none }, eu := { s.eu with ownWindow := false } }

/-- A pass starts with the epoch number just taken; the report is replaced (R47). -/
def State.startPass (s : State) : State :=
  { s with commit :=
    { pass := some ⟨s.eu.epoch, 0, passBound s.straps.rate s.staging.length⟩
      report := some ⟨s.eu.epoch, []⟩ } }

/-! ### Peers (R9, R145 to R147) -/

/-- CURRENT and TORN become STALE; EMPTY and STALE stay (R9, R11). -/
def BlockRec.stale (r : BlockRec) : BlockRec :=
  match r.status with
  | .current => { r with status := .stale }
  | .torn => { r with status := .stale }
  | .empty => r
  | .stale => r

/-- Stales every block that a test picks. -/
def ImageStore.staleWhere (im : ImageStore) (f : Block → Bool) : ImageStore :=
  { im with blocks := Vector.ofFn fun b => if f b then im.blocks[b].stale else im.blocks[b] }

def State.setPeer (s : State) (n : StationNo) (p : Peer) : State :=
  { s with mem := { s.mem with peers := put s.mem.peers n p } }

/-- The sender of an accepted received dispatch has been heard (R145). -/
def State.hear (s : State) (n : StationNo) (epoch : Byte) : State :=
  let p := s.mem.peers[n]
  match p.state with
  | .self => s
  | .present => s.setPeer n { p with heard := true, lastHeard := some epoch }
  | .absent | .silent =>
      (s.setPeer n ⟨.present, true, 0, some epoch⟩).post .peerPresent (some n)

/-- One PRESENT peer's silence at a boundary; at the limit it becomes SILENT, with PEER_SILENT and
the staling of its blocks (R146, R147). -/
def State.countPeer (s : State) (n : StationNo) : State :=
  let p := s.mem.peers[n]
  if p.state = .present then
    if p.heard then s.setPeer n { p with silence := 0 }
    else if s.cfg.silenceLimit ≤ p.silence + 1 then
      let s := (s.setPeer n { p with state := .silent, silence := p.silence + 1 }).post
        .peerSilent (some n)
      { s with image := s.image.staleWhere fun b => s.owner b == some n }
    else s.setPeer n { p with silence := p.silence + 1 }
  else s

/-- The silence count of a boundary: the PRESENT records in ascending number, then every heard flag
is cleared (R146). -/
def State.countSilence (s : State) : State :=
  let s := allStations.foldl State.countPeer s
  { s with mem := { s.mem with
      peers := Vector.ofFn fun n => { s.mem.peers[n] with heard := false } } }

/-! ### The boundary (R27) -/

/-- What every boundary start does: the epoch number advances, the counter restarts, the pass
starts with EPO low, silence is counted, the schedules are run, the held flags are cleared. The low
condition that the boundary offers is `State.settle`'s. -/
def State.boundary (s : State) : State :=
  let s := { s with eu := { s.eu with epoch := s.eu.epoch + 1, counter := 0 } }
  let s := s.startPass.countSilence.schedules
  { s with pub := { s.pub with queue := clearHeld s.pub.queue } }

/-! ### The Line Interface (R61, R62, R64, R66) -/

/-- The line reads recessive and the Line Interface is in HUNT with a fresh idle count. -/
def Line.toHunt (l : Line) : Line :=
  { l with
    st := .hunt, lrx := .recessive, peers := .recessive, idleCount := 0, run := 0, runSeen := false
    charTime := none, samples := [] }

/-- The stop bit of the character in assembly has been sampled (R62): HUNT with a recessive stop bit,
else out of HUNT inside the dominant run that reaches into the stop bit. The boundary is the end of
the stop bit that is now under way (R65). -/
def Line.stopSampled (l : Line) (data : Byte) (marker framing : Bool) : Line :=
  if framing then
    { l with
      st := .awaitRecessive, lrx := .dominant, peers := .dominant, run := dominantTail data marker
      charTime := some 10, samples := [], sampled := some ⟨.recessive, .dominant⟩ }
  else { l.toHunt with charTime := some 10, sampled := some ⟨.recessive, .recessive⟩ }

/-- The answer slot opens; while it is open the bus is not idle and nothing is counted towards
idle. It is marked in the stop bit of a dispatch's last character, a held one at its rise included, and
begins at the boundary that ends that bit (R62, R66, R82). -/
def Line.openSlot (l : Line) : Line :=
  { l with slot := some 0, idle := false, idleCount := 0, charTime := some 10 }

/-- Readback has met a level that this station did not drive: it is the peers' (R72). The character in
assembly reads it; outside ASSEMBLE an edge that it makes is the line's to find. A sample that has been told
is part of the line already (log entry 43). -/
def Line.readBack (l : Line) (level : Level) : Line :=
  if l.mismatchTold then l
  else if l.st = .assemble then
    { l with
      lrx := level
      peers := level
      run := if level = .dominant ∧ l.lrx = .dominant then l.run else 0
      runSeen := level == .dominant && l.lrx == .dominant && l.runSeen }
  else { l with peers := level }

/-! ### The voice of the station (R59, R69, R116) -/

/-- A request not yet begun is withdrawn (R69). -/
def State.withdraw (s : State) : State := { s with line := { s.line with request := false } }

/-- The attempt under way ends without a failure: its entry returns (R111, R113, R116). -/
def State.endAttempt (s : State) : State :=
  match s.tx with
  | .standby => s
  | .active _ a => { s with tx := .standby, pub := { s.pub with queue := giveBack s.pub.queue a.entry } }

/-- The station's own dispatch as the Receiver follows it (R80, R83). -/
def Incoming.ofAttempt (sid : StationNo) (a : Attempt) : Incoming where
  own := true
  kind := a.entry.duty.kind
  sender := sid
  chars := 0
  block := a.entry.duty.block.getD 0
  epoch := a.epoch
  seq := a.seq
  span := a.entry.duty.span
  room := none
  words := []
  high := none

/-- The Receiver gives up the station's own dispatch as the attempt ends with a move of the station. No
rule says what the Receiver then does with it (R116 ends the attempt, R79 keeps the Receiver's state):
DISCARD, with no cut counted, as at a bit fault (DESIGN CHOICE, log entry 37). -/
def State.dropOwn (s : State) : State :=
  match s.rx.st with
  | .following _ d => if d.own then { s with rx := { s.rx with st := .discard } } else s
  | _ => s

/-- At each entry to UNCONFIGURED, IDLE, LISTEN or MUTE the Line Interface stops any drive and
withdraws any request, and an attempt under way returns (R59, R116). -/
def State.stopVoice (s : State) : State :=
  let s := s.endAttempt.dropOwn
  { s with line := { s.line with request := false, drive := none } }

/-! ### Leaving (R11, R37, R143) -/

/-- The completion of LEAVE (R143, with R11, R22, R79, R117, R130, R144 and LEFT). -/
def State.completeLeave (s : State) : State :=
  let s := s.stopVoice
  let s := { s with
    image := s.image.staleWhere fun b => !s.owned b
    staging := []
    pub := { s.pub with queue := [] }
    rx := { s.rx with st := .off }
    eu := EpochUnit.dormant s.eu.epoch s.eu.eln s.eu.tail
    mute := ⟨0, 0⟩
    mem :=
      { station := .idle
        leavePending := false
        listenCount := 0
        joiningCount := 0
        epochTaken := false
        peers := Membership.peersAway s.straps.sid } }
  s.post .left

/-- LEAVE completes at once, with the effects it has in LISTEN: a running pass is finished first
(R56). -/
def State.leaveNow (s : State) : State := s.finishPass.completeLeave

/-! ### Moves of the Epoch Unit -/

/-- An own expiry in RUN pulls the line: ASSERT, the hold from 0, the not-drivable test unless the
line already reads low, the own-boundary window, the boundary (R28, R30, R34). -/
def State.expireRun (s : State) : State :=
  State.boundary { s with eu := { s.eu with
    unit := .assert
    hold := 0
    holdOut := false
    leaveOut := false
    driveTest := if s.eu.eln = .recessive then some 0 else none
    ownWindow := true } }

/-- A fall read in RUN is joined: ASSERT, the hold from 0, no test, the boundary (R29). -/
def State.joinFall (s : State) : State :=
  State.boundary { s with eu := { s.eu with
    unit := .assert
    hold := 0
    holdOut := false
    leaveOut := false
    driveTest := none } }

/-- An own expiry in COAST: a boundary without drive, with its own-boundary window (R34, R35). -/
def State.expireCoast (s : State) : State :=
  State.boundary { s with eu := { s.eu with ownWindow := true } }

/-- The unit enters RUN; with the counter at or above L the expiry is taken at once (R19). -/
def State.enterRun (s : State) : State :=
  let s := { s with eu := { s.eu with
    unit := .run, holdOut := false, leaveOut := false, driveTest := none } }
  if s.cfg.epochLen ≤ s.eu.counter then s.expireRun else s

/-- The unit enters COAST with a fresh restoration timer and LINE_FAULT (R30, R33, R36); with the
counter at or above L and no pass running the expiry is taken at once (R19, R33). -/
def State.enterCoast (s : State) (cause : Nat) : State :=
  let s := s.post .lineFault none none (some cause)
  let s := { s with eu := { s.eu with
    unit := .coast, restTimer := 0, holdOut := false, leaveOut := false, driveTest := none } }
  if s.cfg.epochLen ≤ s.eu.counter ∧ s.commit.pass = none then s.expireCoast else s

/-- The unit enters WAIT_RISE with the line-low timer from 0 (R26, R31). -/
def State.enterWaitRise (s : State) : State :=
  { s with eu := { s.eu with
    unit := .waitRise, lowTimer := 0, holdOut := false, leaveOut := false, driveTest := none } }

/-- The unit reads the line and enters RUN or WAIT_RISE (R26, R31). -/
def State.byLine (s : State) : State :=
  if s.eu.eln = .recessive then s.enterRun else s.enterWaitRise

/-- The release of the line (R31): the level is read; DORMANT if the pass of this boundary ended
with leave-pending set (R37). -/
def State.release (s : State) (eln : Level) : State :=
  let s := { s with eu := { s.eu with eln := eln } }
  if s.eu.leaveOut then s.completeLeave else s.byLine

/-! ### Moves of the station -/

/-- LISTEN to JOINING (R106, R137): the epoch number becomes 0 if none was taken, a ROLL is
queued, and the Epoch Unit leaves FOLLOW, at once if no pass runs (R26). -/
def State.enterJoining (s : State) : State :=
  let s := { s with
    eu := { s.eu with epoch := if s.mem.epochTaken then s.eu.epoch else 0 }
    mem := { s.mem with station := .joining, epochTaken := true }
    pub := if (findKey s.pub.queue .ofRoll).isNone then s.pub.add .roll else s.pub }
  if s.commit.pass = none then s.byLine else s

/-- The listening counts of a boundary or of an unclocked period, and the move they may bring
(R136, R137). -/
def State.countListening (s : State) (isBoundary : Bool) : State :=
  if s.mem.station = .listen then
    let listen := min 15 (s.mem.listenCount + 1)
    let joining := if isBoundary && s.mem.epochTaken then min 2 (s.mem.joiningCount + 1)
      else s.mem.joiningCount
    let s := { s with mem := { s.mem with listenCount := listen, joiningCount := joining } }
    if 2 ≤ joining ∨ s.cfg.listenLimit ≤ listen then s.enterJoining else s
  else s

/-- A boundary taken in FOLLOW (R24). -/
def State.followBoundary (s : State) : State :=
  (State.boundary { s with eu := { s.eu with keptFall := false } }).countListening true

/-- Entry to MEMBER (R102, R105): every refresh countdown to 1 unless P is 0, the own-silence count
to 0. The listening counts are not used any more and stand at 0 (R149, log entry 18). -/
def State.enterMember (s : State) : State :=
  { s with
    mem := { s.mem with station := .member, listenCount := 0, joiningCount := 0 }
    pub := { s.pub with
      silence := 0
      countdown := if s.cfg.refreshPeriod = 0 then s.pub.countdown
        else Vector.ofFn fun b => if s.owned b then 1 else s.pub.countdown[b] } }

/-- The fall-back from JOINING to LISTEN (R23, R126, R139): JOIN_FAILED, and with leave-pending set
the LEAVE completes. -/
def State.fallBack (s : State) : State :=
  let s := s.post .joinFailed
  if s.mem.leavePending then s.leaveNow
  else
    let s := s.stopVoice
    { s with
      mem := { s.mem with station := .listen, listenCount := 0, joiningCount := 0 }
      mute := ⟨0, 0⟩
      pub := { s.pub with queue := s.pub.queue.filter fun e => e.duty.key != .ofRoll }
      eu := { s.eu with
        unit := .follow
        hold := 0
        holdOut := false
        leaveOut := false
        driveTest := none
        lowTimer := 0
        restTimer := 0
        ownWindow := false } }

/-- MEMBER to MUTE (R125): MUTE_ENTERED, the clean-receive counter at 0, the voice stopped. -/
def State.enterMute (s : State) : State :=
  let s := (s.post .muteEntered).stopVoice
  { s with
    mem := { s.mem with station := .mute }
    mute := { s.mute with clean := 0 } }

/-! ### The low condition (R34, R69, R89, R113, R124) -/

/-- The beginning of the low condition is offered as a fall: a request not begun is withdrawn, a
drive is marked as met, the attempt under way and the dispatch being followed are cut, counted
once. A character in assembly is marked, for a claim is known only at its delivery (log entry 12). -/
def State.offerLow (s : State) : State :=
  let s := { s with
    line := { s.line with request := false, metLow := s.line.metLow || s.line.drive.isSome }
    eu := { s.eu with tail := none } }
  let cut (s : State) : State :=
    { s with rx := { s.rx with st := .discard }
             counters := { s.counters with cuts := bump s.counters.cuts } }
  match s.tx with
  | .active _ _ => cut s.endAttempt
  | .standby => match s.rx.st with
      | .following _ _ => cut s
      | .ready =>
          if s.line.st = .assemble then { s with line := { s.line with edgeLow := true } } else s
      | .off => s
      | .waitIdle => s
      | .discard => s

/-- After a change of the Epoch Unit: a low condition that begins is offered, one that ends starts
the quiet tail (R34). `before` is whether it was present before the change. -/
def State.settle (before : Bool) (s : State) : State :=
  match before, s.eu.low with
  | false, true => s.offerLow
  | true, false => { s with eu := { s.eu with tail := some 0 } }
  | false, false => s
  | true, true => s

/-! ### Failures of an attempt (R112) -/

/-- The attempt under way fails: one failure more; the entry returns held, or at the eighth failure
is abandoned with TX_ABANDONED, and a ROLL abandoned in JOINING takes the station back. -/
def State.failAttempt (s : State) : State :=
  match s.tx with
  | .standby => s
  | .active _ a =>
      let s := { s with tx := .standby }
      let e := a.entry
      if e.failures + 1 < 8 then
        { s with pub := { s.pub with
          queue := giveBack s.pub.queue { e with failures := e.failures + 1, held := true } } }
      else
        let s := s.post .txAbandoned none e.duty.block (some (kindCode e.duty.kind))
        if e.duty = .roll ∧ s.mem.station = .joining then s.fallBack else s

/-! ### Objections (R85, R121 to R124, R128, R129) -/

/-- An error this station detected in a dispatch: in MUTE the clean-receive counter returns to 0
(R128). -/
def State.noteError (s : State) : State :=
  if s.mem.station = .mute then { s with mute := { s.mute with clean := 0 } } else s

/-- The Receiver asks for a break where the state allows it, and gives the dispatch up (R85, R121,
R123). -/
def State.object (s : State) : State :=
  { s with
    rx := { s.rx with st := .discard }
    line := { s.line with request := s.line.request || s.mem.station.objects } }

/-- A malformed condition (R85). -/
def State.malformed (s : State) : State := s.noteError.object

/-- An acceptance resets the consecutive-objection counter in JOINING and MEMBER (R124). -/
def State.resetObjections (s : State) : State :=
  if s.mem.station.objects then { s with mute := { s.mute with consecutive := 0 } } else s

/-- The acceptance of a received dispatch as the objection rules take it: the reset of R124, or in
MUTE one clean reception more, and at the 32nd MUTE_LEFT and the return to MEMBER (R128, R129). -/
def State.noteAcceptance (s : State) : State :=
  if s.mem.station = .mute then
    if 32 ≤ s.mute.clean + 1 then
      State.enterMember { s.post .muteLeft with mute := ⟨0, 0⟩ }
    else { s with mute := { s.mute with clean := s.mute.clean + 1 } }
  else s.resetObjections

/-! ### Acceptance of a received dispatch (R90 to R94, R136, R140) -/

/-- The station takes the dispatch's epoch number and posts EPOCH_ADOPTED with the old one (R136,
R140). -/
def State.adopt (s : State) (d : Incoming) : State :=
  let old := s.eu.epoch
  State.post { s with eu := { s.eu with epoch := d.epoch } } .epochAdopted (some d.sender) none
    (some old.toNat)

/-- The ownership test, the subscription decision and the staging (R93, R94, R45). -/
def State.handOn (s : State) (d : Incoming) : State :=
  if d.kind = .roll then s
  else if s.owner d.block = some d.sender then
    if s.subscribed d.block && d.room != some false then
      s.stageDispatch d.block d.sender d.seq d.span d.words
    else s
  else if s.owned d.block then s.post .usurp (some d.sender) (some d.block)
  else s.post .ownerMismatch (some d.sender) (some d.block)

/-- The epoch compare (R92): equal goes on; the first adoption of LISTEN goes on as matching (R136);
a mismatch is discarded and counted, and adopted from a lower-numbered sender (R140). -/
def State.compareEpoch (s : State) (d : Incoming) : State :=
  if s.mem.station = .listen ∧ s.mem.epochTaken = false then
    let s := s.adopt d
    State.handOn { s with mem := { s.mem with epochTaken := true, joiningCount := 0 } } d
  else if d.epoch = s.eu.epoch then s.handOn d
  else
    let s := { s with counters := { s.counters with mismatches := bump s.counters.mismatches } }
    if d.sender < s.straps.sid then s.adopt d else s

/-- The acceptance of a received dispatch, in the order of R90 to R94. -/
def State.acceptReceived (s : State) (d : Incoming) : State :=
  let s := { s with
    rx := { s.rx with st := .waitIdle }
    counters := { s.counters with accepted := bump s.counters.accepted } }
  let s := s.noteAcceptance
  if d.sender = s.straps.sid then s.post .duplicateId (some d.sender)
  else (s.hear d.sender d.epoch).compareEpoch d

/-! ### Acceptance of the station's own dispatch (R104, R105, R110, R138) -/

/-- The last accepted sequence, the staging and the refresh countdown of an own UPDATE or REFRESH
(R17, R39, R104, R110). -/
def State.ownBlock (s : State) (a : Attempt) (b : Block) : State :=
  let sp := a.entry.duty.span
  let s := s.stageDispatch b s.straps.sid a.seq sp a.words
  let s := if a.entry.duty.kind = .update then
      { s with image := { s.image with lastSeq := put s.image.lastSeq b a.seq } } else s
  if sp = .full then
    { s with pub := { s.pub with countdown := put s.pub.countdown b s.cfg.refreshPeriod } }
  else s

/-- The own attempt is accepted (R83, R110): the slot empties, the block's effects, the own-accepted
flag, the accepted counter, the objection counter; and a ROLL in JOINING makes the station a member
with JOINED (R138). -/
def State.acceptOwn (s : State) (a : Attempt) : State :=
  let s := { s with
    tx := .standby
    rx := { s.rx with st := .waitIdle }
    pub := { s.pub with ownAccepted := true }
    counters := { s.counters with accepted := bump s.counters.accepted } }
  let s := s.resetObjections
  match a.entry.duty.block with
  | some b => s.ownBlock a b
  | none => if s.mem.station = .joining then s.enterMember.post .joined else s

end Sys2Proof.Machine
end

