-- ==== Sys2Proof/Machine/Reset.lean ====
section
/-! DEFINITION. HARDWARE_RESET. -/

namespace Sys2Proof.Machine

/-- What a meaning answers. -/
abbrev Answer := Host.Outcome State Fault Refusal

/-- HARDWARE_RESET (R132, R13, R22, R57, R73, R97, R118, R144, R158, R182, R185): every block at once
to its reset values, the straps and the line levels as sampled when RESET_N rises. The queue of
commands and the index of the free values are the model's, not the station's, and stay. -/
def execHardwareReset (sid : StationNo) (rate : BitVec 2) (lrx eln : Level) (csLow : Bool)
    (s : State) : Answer :=
  .next { State.afterReset sid rate lrx eln csLow with pending := s.pending, free := s.free }

end Sys2Proof.Machine
end

