-- ==== Sys2Proof/Machine/Epoch.lean ====
section
/-! DEFINITION. The epoch line, the boundary and the commit pass (chapters 2 and 3). -/

namespace Sys2Proof.Machine

/-- LOW_CONDITION_START (R34): where the low condition is absent it begins by ELN reading low, so that
level is what this records, and with it a not-drivable test under way has passed (R30); the boundary
itself is ELN_FALL's (log entry 11). Where it stands already, by ELN or by an own expiry whatever ELN
reads, its beginning has been offered and nothing is new. -/
def execLowConditionStart (s : State) : Answer :=
  .next (if s.eu.unit = .dormant ∨ s.eu.low = true then s
  else State.settle s.eu.low { s with eu := { s.eu with eln := .dominant, driveTest := none } })

/-- QUIET_TAIL_END (R34): the quiet window closes. -/
def execQuietTailEnd (s : State) : Answer := .next { s with eu := { s.eu with tail := none } }

/-- EPOCH_EXPIRY (R19, R25, R28, R35): the epoch counter reaches L. In FOLLOW an unclocked period, in
RUN a pull of the line, in COAST a boundary without drive; in ASSERT and WAIT_RISE it is not taken,
and DORMANT counts nothing. A pass of at most 18 bt cannot last to the next expiry (log entry 24). -/
def execEpochExpiry (s : State) : Answer :=
  .next (State.settle s.eu.low (match s.eu.unit with
    | .follow => State.countListening { s with eu := { s.eu with counter := 0 } } false
    | .run => s.expireRun
    | .coast => if s.commit.pass = none then s.expireCoast else s
    | .dormant => s
    | .assert => s
    | .waitRise => s))

/-- ELN_FALL: the line is read low. In FOLLOW a boundary, or kept while a pass runs (R24); two or more
falls of one pass are kept as one, which R24 and R51 leave open (DESIGN CHOICE, log entry 36). In RUN
joined (R29); in ASSERT it passes the not-drivable test (R30); in COAST it restores the unit with
the restoration timer at 4 × H or above and no pass running, and is then joined (R36). -/
def execElnFall (s : State) : Answer :=
  let before := s.eu.low
  let s := { s with eu := { s.eu with eln := .dominant } }
  .next (State.settle before (match s.eu.unit with
    | .dormant => s
    | .follow =>
        if s.commit.pass = none then s.followBoundary
        else { s with eu := { s.eu with keptFall := true } }
    | .run => s.joinFall
    | .assert => { s with eu := { s.eu with driveTest := none } }
    | .waitRise => s
    | .coast =>
        if 4 * s.cfg.holdLen ≤ s.eu.restTimer ∧ s.commit.pass = none then
          (s.post .lineRestored).joinFall
        else { s with eu := { s.eu with restTimer := 0 } }))

/-- ELN_RISE: the line is read high. In WAIT_RISE the unit returns to RUN (R33); the end of the low
condition starts the quiet tail (R34). -/
def execElnRise (s : State) : Answer :=
  let before := s.eu.low
  let s := { s with eu := { s.eu with eln := .recessive } }
  .next (State.settle before (if s.eu.unit = .waitRise then s.enterRun else s))

/-- NOT_DRIVABLE (R30): the line has not read low within 4 bt of the pull: LINE_FAULT 2 and COAST; the
boundary goes on. With the line read low there is no such step (log entry 1). A LEAVE recorded for
this boundary completes as the drive stops (log entry 15). -/
def execNotDrivable (s : State) : Answer :=
  .next (if s.eu.unit = .assert ∧ s.eu.driveTest.isSome ∧ s.eu.eln = .recessive then
    State.settle s.eu.low
      (if s.eu.leaveOut then (s.post .lineFault none none (some 2)).completeLeave
       else s.enterCoast 2)
  else s)

/-- HOLD_RUN_OUT (R31): the hold timer reaches H in ASSERT: the release if the pass has ended, else
it is recorded. -/
def execHoldRunOut (eln : Level) (s : State) : Answer :=
  .next (if s.eu.unit = .assert ∧ s.eu.holdOut = false then
    if s.commit.pass = none then State.settle s.eu.low (s.release eln)
    else { s with eu := { s.eu with holdOut := true } }
  else s)

/-- LINE_LOW_LIMIT (R33): in WAIT_RISE 4 × H after the release, or with the counter at L: LINE_FAULT 1
and COAST, where a counter at L expires at once. -/
def execLineLowLimit (s : State) : Answer :=
  .next (if s.eu.unit = .waitRise then State.settle s.eu.low (s.enterCoast 1) else s)

/-- LINE_RESTORED and RUN (R36). -/
def State.restore (s : State) : State := (s.post .lineRestored).enterRun

/-- LINE_RESTORED (R36): the restoration timer reaches L in COAST. While a pass runs the restoration
waits for its end, which the timer standing at L remembers. -/
def execLineRestored (s : State) : Answer :=
  .next (if s.eu.unit = .coast then
    if s.commit.pass = none then State.settle s.eu.low s.restore
    else { s with eu := { s.eu with restTimer := s.cfg.epochLen } }
  else s)

/-- What the Epoch Unit and the Membership Controller do as a pass has ended (R24, R26, R31, R36, R37,
R51; log entry 14). In FOLLOW with leave-pending set and a fall kept, the LEAVE completes and the kept fall
is dropped: R24 and R142 give both for this moment and no order (DESIGN CHOICE, log entry 42). -/
def State.afterPass (s : State) (eln : Level) : State :=
  match s.eu.unit with
  | .assert =>
      let s := { s with eu := { s.eu with leaveOut := s.mem.leavePending } }
      if s.eu.holdOut then s.release eln else s
  | .coast =>
      if s.mem.leavePending then s.completeLeave
      else if s.cfg.epochLen ≤ s.eu.restTimer ∧ s.eu.eln = .recessive then s.restore
      else s
  | .follow =>
      if s.mem.leavePending then s.completeLeave
      else if s.eu.keptFall then s.followBoundary
      else if s.mem.station = .listen then s
      else s.byLine
  | .run => if s.mem.leavePending then s.completeLeave else s
  | .waitRise => if s.mem.leavePending then s.completeLeave else s
  | .dormant => s

/-- COMMIT_PASS_END (R47 to R52): the pass commits what is left, posts EPOCH_COMMITTED and ends. -/
def execCommitPassEnd (eln : Level) (s : State) : Answer :=
  .next (if s.commit.pass.isSome then State.settle s.eu.low (s.finishPass.afterPass eln) else s)

end Sys2Proof.Machine
end

