-- ==== Sys2Proof/Machine/Line.lean ====
section
/-! DEFINITION. The Line Interface and the Receiver (chapters 4, 5 and 7): edges, characters,
breaks, bus faults, idle and the answer slot. -/

namespace Sys2Proof.Machine

/-! ### The Receiver takes a character (R80 to R85) -/

/-- A received dispatch begins: what its claim says (R80). -/
def Incoming.ofClaim (k : Kind) (claim : Byte) : Incoming where
  own := false
  kind := k
  sender := claimSender claim
  chars := 0
  block := 0
  epoch := 0
  seq := 0
  span := .full
  room := none
  words := []
  high := none

def State.follow (s : State) (ph : RxPhase) (d : Incoming) : State :=
  { s with rx := { s.rx with st := .following ph d } }

/-- A covered character enters the running check value (R78). -/
def State.cover (s : State) (data : Byte) : State :=
  { s with rx := { s.rx with check := crcByte s.rx.check data } }

/-- The room question is asked at the epoch character (R43). -/
def State.asksRoom (s : State) (d : Incoming) : Bool :=
  s.subscribed d.block && s.owner d.block == some d.sender && d.sender != s.straps.sid
    && ((s.mem.station == .listen && !s.mem.epochTaken) || d.epoch == s.eu.epoch)

/-- The epoch character of an UPDATE or REFRESH: the room question, and with no room in JOINING or
MEMBER STAGING_REFUSED and a break (R43, R44, R122). -/
def State.askRoom (s : State) (d : Incoming) : State :=
  if s.asksRoom d then
    let room := roomFor s.staging d.block
    if !room && s.mem.station.objects then
      (s.post .stagingRefused (some d.sender) (some d.block)).object
    else s.follow .header { d with room := some room }
  else s.follow .header d

/-- The header characters after the claim, in order (R81). -/
def State.takeHeader (s : State) (d : Incoming) (data : Byte) : State :=
  let d' := { d with chars := d.chars + 1 }
  if d.kind = .roll then (s.cover data).follow .check { d' with epoch := data }
  else match d.chars with
    | 0 =>
        if data.toNat ≤ 63 then
          (s.cover data).follow .header { d' with block := Fin.ofNat 64 data.toNat }
        else s.malformed
    | 1 => (s.cover data).askRoom { d' with epoch := data }
    | 2 => (s.cover data).follow .header { d' with seq := data }
    | _ =>
        match spanOfByte data with
        | none => s.malformed
        | some sp =>
            if d.kind = .refresh ∧ sp ≠ .full then s.malformed
            else (s.cover data).follow .body { d' with span := sp }

/-- The body characters: each pair is a word, high byte first (R82). -/
def State.takeBody (s : State) (d : Incoming) (data : Byte) : State :=
  let d' := { d with chars := d.chars + 1 }
  match d.high with
  | none => (s.cover data).follow .body { d' with high := some data }
  | some high =>
      let ws := d.words ++ [wordOf high data]
      (s.cover data).follow (if d.span.count ≤ ws.length then .check else .body)
        { d' with words := ws, high := none }

/-- The character boundary that follows is marked as the end of the last check character: the
answer slot opens (R66, R82; log entry 13). -/
def State.openSlot (s : State) : State := { s with line := s.line.openSlot }

/-- The check characters; at the second the comparison of R78 and the mark of R82. -/
def State.takeCheck (s : State) (d : Incoming) (data : Byte) : State :=
  let d' := { d with chars := d.chars + 1 }
  match d.high with
  | none => s.follow .check { d' with high := some data }
  | some high =>
      if wordOf high data = s.rx.check then
        (s.openSlot).follow .answer { d' with high := none }
      else s.openSlot.malformed

/-- Which part of an own dispatch of a kind and count the character after n others belongs to. -/
def ownPhase (k : Kind) (count n : Nat) : RxPhase :=
  let headerChars := if k = .roll then 1 else 4
  let bodyChars := if k = .roll then 0 else 2 * count
  if n < headerChars then .header else if n < headerChars + bodyChars then .body else .check

/-- The station's own dispatch is counted and not tested (R83). -/
def State.countOwn (s : State) (d : Incoming) : State :=
  let n := d.chars + 1
  s.follow (ownPhase d.kind d.span.count n) { d with chars := n }

/-- A claim (R80): own if this station drove it to its end, else received; a received claim whose
start edge met the low condition is cut at its delivery (R89). A stop bit read dominant in a claim
this station drives is an arbitration loss (R72), so that claim is received and malformed (log
entry 39). -/
def State.takeClaim (s : State) (data : Byte) (framing : Bool) : State :=
  let s := { s with rx := { s.rx with check := crcByte 0xFFFF data } }
  match s.tx with
  | .active _ a =>
      if framing then s.malformed
      else s.follow .header (Incoming.ofAttempt s.straps.sid a)
  | .standby =>
      if s.line.edgeLow || s.eu.low then
        { s with rx := { s.rx with st := .discard }
                 counters := { s.counters with cuts := bump s.counters.cuts } }
      else if framing then s.malformed
      else match claimKind data with
        | none => s.malformed
        | some k => s.follow .header (Incoming.ofClaim k data)

/-- The second check character of a received dispatch ends it, malformed or not (R82; log
entry 13). -/
def State.markEnd (s : State) (ph : RxPhase) (d : Incoming) : State :=
  if ph = .check ∧ d.high.isSome then s.openSlot else s

/-- A character is delivered to the Receiver (R79 to R85). -/
def State.deliver (s : State) (data : Byte) (marker framing : Bool) : State :=
  match s.rx.st with
  | .off => s
  | .waitIdle => s
  | .discard => s
  | .ready =>
      if marker then s.takeClaim data framing
      else { s with rx := { s.rx with st := .discard } }
  | .following ph d =>
      if d.own then s.countOwn d
      else match ph with
        | .answer => s
        | .header => if marker || framing then s.malformed else s.takeHeader d data
        | .body => if marker || framing then s.malformed else s.takeBody d data
        | .check =>
            if marker || framing then (s.markEnd ph d).malformed else s.takeCheck d data

/-! ### Edges and characters (R61, R62, R64) -/

/-- START_EDGE (R61, R64): a fall in HUNT ends idle and starts a character. Between the stop sample that
marks an answer slot and the boundary at which the slot begins, the fall begins no character, since the
slot is not hunted in: its level and its run are kept, and at the boundary it is a dominant reading in
the slot (R66, log entry 40). -/
def execStartEdge (s : State) : Answer :=
  .next (if s.line.st = .hunt ∧ s.line.slot = none then
    { s with line := { s.line with
      st := .assemble, lrx := .dominant, peers := s.peersAtFall, idleCount := 0, idle := false
      run := 0, runSeen := false, charTime := some 0, samples := [], edgeLow := s.eu.low } }
  else if s.line.slotAhead ∧ s.line.lrx = .recessive then
    { s with line := { s.line with
      lrx := .dominant, peers := s.peersAtFall, run := 0, runSeen := false } }
  else s)

/-- FALSE_START (R62): no character; HUNT, and the idle count from 0. A start bit of this station's own was
then read recessive (R72). -/
def execFalseStart (s : State) : Answer :=
  .next (if s.line.st = .assemble then
    { s with line := { s.line.toHunt with sampled := some ⟨.dominant, .recessive⟩ } }
  else s)

/-- CHARACTER_DELIVERED (R62): the character in assembly goes to the Receiver. After a framing error
the Line Interface stays out of HUNT until the line reads recessive. -/
def execCharacterDelivered (data : Byte) (marker framing : Bool) (s : State) : Answer :=
  .next (if s.line.st = .assemble then
    ({ s with line := s.line.stopSampled data marker framing }).deliver data marker framing
  else s)

/-- HELD_CHARACTER_RISE (R62): eleven dominant samples whose run ended before 11 bt are delivered as
data 0, marker 0 with a framing error, and the Line Interface enters HUNT. Where it ends a dispatch, the
boundary at which the slot begins is still to come (R66, Line.openSlot). Its stop bit was read dominant
(R72). -/
def execHeldCharacterRise (s : State) : Answer :=
  .next (if s.line.st = .assemble then
    ({ s with line := { s.line.toHunt with sampled := some ⟨.recessive, .dominant⟩ } }).deliver 0 false true
  else s)

/-- FIRST_RECESSIVE_READING (R62, R64, R66): HUNT, and the idle count from 0; also for the rise of a
line that read dominant as reset ended, before its run is a break (R64, R73), and for the rise of a fall
that came just ahead of an answer slot. A slot that has been marked keeps its boundary, also where the
character before it had a framing error (R66, log entry 40); with none, a break asked for in such a
character begins at this rise (DESIGN CHOICE, log entry 41). -/
def execFirstRecessiveReading (s : State) : Answer :=
  .next (if s.line.st = .awaitRecessive ∨ (s.line.st = .hunt ∧ s.line.lrx = .dominant) then
    { s with line := { s.line.toHunt with
      charTime := if s.line.slot.isSome then s.line.charTime else none } }
  else s)

/-! ### Breaks (R67 to R69, R123 to R126) -/

/-- BREAK_DRIVE_START (R65, R68): the drive of a requested break begins, at a character boundary or in
HUNT between characters; in the middle of a character there is no such step (log entries 1 and 28). -/
def execBreakDriveStart (s : State) : Answer :=
  .next (if s.line.request ∧ s.line.midCharacter = false then
    { s with line := { s.line with request := false, drive := some 0, metLow := s.eu.low } }
  else s)

/-- One consecutive objection more, unless the low condition met the drive (R124); the sixteenth
takes a member to MUTE (R125) and a joining station back to LISTEN (R126). -/
def State.countObjection (s : State) (metLow : Bool) : State :=
  if metLow || !s.mem.station.objects then s
  else
    let n := min 16 (s.mute.consecutive + 1)
    let s := { s with mute := { s.mute with consecutive := n } }
    if n < 16 then s
    else if s.mem.station = .joining then s.fallBack.settle s.eu.low
    else s.enterMute

/-- BREAK_DRIVEN (R68, R123): the end of the 14 bt; a break raised. -/
def execBreakDriven (s : State) : Answer :=
  .next (if s.line.drive.isSome then
    let met := s.line.metLow
    let s := { s with
      line := { s.line with drive := none, metLow := false }
      counters := { s.counters with breaksRaised := bump s.counters.breaksRaised } }
    s.countObjection met
  else s)

/-- A break seen is counted while the station is on the bus (R67). -/
def State.countBreak (s : State) : State :=
  if s.mem.station.onBus then
    { s with counters := { s.counters with breaksSeen := bump s.counters.breaksSeen } }
  else s

/-- The Receiver hears of a break in mid-dispatch (R83, R87). -/
def State.breakInDispatch (s : State) : State :=
  match s.rx.st with
  | .following .answer _ => s
  | .following _ _ => { s with rx := { s.rx with st := .discard } }
  | _ => s

/-- BREAK_SEEN (R67): a dominant run reaches 11 bt. The character in assembly is abandoned, a request
not begun is withdrawn (R69), the dispatch being followed is discarded (R87), and an attempt in
SENDING fails (R112). A run already reported from an answer slot is not reported again (R66). -/
def execBreakSeen (s : State) : Answer :=
  .next (if s.line.runSeen ∨ s.line.slot ≠ none then s
  else
    let before := s.eu.low
    let s := { s with line := { s.line with
      st := .inBreak, lrx := .dominant, peers := s.peersAtFall, idle := false, idleCount := 0
      run := breakBits, runSeen := true, charTime := none, samples := [], request := false } }
    let s := s.countBreak.breakInDispatch
    match s.tx with
    | .active .sending _ => s.failAttempt.settle before
    | _ => s)

/-- BREAK_END (R67): the rise that ends a break; HUNT, and the idle count from 0. The break may be
one whose run began in an answer slot. -/
def execBreakEnd (s : State) : Answer :=
  .next (if s.line.st = .inBreak ∨ (s.line.st = .awaitRecessive ∧ s.line.runSeen) then
    { s with line := s.line.toHunt }
  else s)

/-- BUS_FAULT (R70): a run reaches 88 bt; posted while the station is on the bus, once for a
bus-fault state. -/
def execBusFault (s : State) : Answer :=
  .next (if s.line.busFault then s
  else
    let s := { s with line := { s.line with busFault := true, idle := false, run := busFaultBits } }
    if s.mem.station.onBus then s.post .busFault else s)

/-! ### Idle (R64, R70, R79, R86, R87) -/

/-- The bus-fault state ends at the next idle (R70). -/
def State.endBusFault (s : State) : State :=
  if s.line.busFault then
    let s := { s with line := { s.line with busFault := false } }
    if s.mem.station.onBus then s.post .busRestored else s
  else s

/-- The Receiver is offered idle: READY from WAIT_IDLE and DISCARD; in HEADER, BODY and CHECK a
received dispatch is truncated, which counts and is an error this station detected (R86). -/
def State.offerIdle (s : State) : State :=
  match s.rx.st with
  | .off => s
  | .ready => s
  | .waitIdle => { s with rx := { s.rx with st := .ready } }
  | .discard => { s with rx := { s.rx with st := .ready } }
  | .following .answer _ => s
  | .following _ d =>
      if d.own then s
      else
        let s := { s with
          rx := { s.rx with st := .ready }
          counters := { s.counters with truncations := bump s.counters.truncations } }
        s.noteError

/-- BUS_IDLE (R64): 11 consecutive recessive bit times in HUNT outside an answer slot. -/
def execBusIdle (s : State) : Answer :=
  .next (if s.line.st = .hunt ∧ s.line.slot = none then
    (State.endBusFault { s with line :=
      { s.line with
        idle := true, idleCount := 11, lrx := .recessive, peers := .recessive
        charTime := none } }).offerIdle
  else s)

/-! ### The answer slot (R66, R87, R88, R109, R112) -/

/-- SLOT_BROKEN (R66): the first dominant reading in an open slot is a break seen. The Receiver
discards the dispatch (R87), and the own attempt in SLOT_WAIT fails (R112). A run that reaches into
the slot from the character before it goes on from its own fall (R67). -/
def execSlotBroken (s : State) : Answer :=
  .next (if s.line.slot = none then s
  else
    let before := s.eu.low
    let s := { s with line := { s.line with
      slot := none, st := .awaitRecessive, lrx := .dominant, peers := s.peersAtFall, idle := false
      idleCount := 0, run := if s.line.lrx = Level.dominant then s.line.run else 0, runSeen := true
      charTime := none, samples := [], request := false } }
    let s := s.countBreak
    let s := match s.rx.st with
      | .following .answer _ => { s with rx := { s.rx with st := .discard } }
      | _ => s
    match s.tx with
    | .active .slotWait _ => s.failAttempt.settle before
    | _ => s)

/-- SLOT_CLEAN (R66): the slot stayed recessive for 11 bt. With the low condition absent the
dispatch is accepted: the own attempt (R110), or the received dispatch in ANSWER (R88). -/
def execSlotClean (s : State) : Answer :=
  .next (if s.line.slot = none then s
  else
    let s := { s with line := { s.line.toHunt with slot := none } }
    match s.tx with
    | .active .slotWait a => if s.eu.low then s else s.acceptOwn a
    | _ => match s.rx.st with
        | .following .answer d =>
            if d.own || s.eu.low then { s with rx := { s.rx with st := .discard } }
            else s.acceptReceived d
        | _ => s)

end Sys2Proof.Machine
end

