-- ==== Sys2Proof/Machine/Port.lean ====
section
/-! DEFINITION. The local port (chapter 10): transactions, the nine reads, the five writes. -/

namespace Sys2Proof.Machine

/-! ### Framing and results (R160 to R168) -/

/-- The transaction ends and records its one result (R162). A transaction that straddles reset
records none (R160). -/
def State.endTransaction (s : State) (r : Result) : State :=
  if s.port.straddling then { s with port := { s.port with straddling := false, txn := none } }
  else { s with port := { s.port with last := r, txn := none } }

/-- A read at the arrival of its last argument byte (R167): its frame of `bytes` bytes is complete,
its result byte is fixed, and with OK the snapshot fills the port buffer. In a transaction that
straddles reset the station ignores SDI (R160). A read that comes while a frame is already complete,
which the spec never gives, is taken as the transaction's read (log entry 38). -/
def State.readReply (s : State) (command : Byte) (bytes : Nat) (r : Result) (data : List Byte)
    (records : List Event) : State :=
  if s.port.straddling then s
  else
    { s with port := { s.port with
      txn := some ⟨some command, bytes, true⟩
      result := r
      buffer := if r = .ok then data else s.port.buffer
      evSnap := if r = .ok then records else s.port.evSnap } }

/-- A write at the CS_N rise that ends it (R166, R168): FRAME_ERROR if the frame is not complete,
else its result, with its effect if that is OK. It is taken at its word whatever the framing state
holds (log entry 38). -/
def State.writeAct (s : State) (complete : Bool) (r : Result) (act : State → State) : State :=
  if s.port.straddling then s.endTransaction .ok
  else if !complete then s.endTransaction .frameError
  else if r = .ok then (act s).endTransaction .ok
  else s.endTransaction r

/-- WRONG_STATE in UNCONFIGURED alone (R164). -/
def State.configuredCheck (s : State) : Result :=
  if s.mem.station = .unconfigured then .wrongState else .ok

/-- The first check that fails gives the result (R163). -/
def Result.orElse (r next : Result) : Result := if r = .ok then next else r

def badUnless (b : Bool) : Result := if b then .ok else .badArgument

/-- BUSY_COMMIT while a commit pass runs (R53). -/
def State.passCheck (s : State) : Result := if s.commit.pass.isSome then .busyCommit else .ok

/-- NOT_OWNER for a block this station does not own (R4). -/
def State.ownerCheck (s : State) (b : Block) : Result := if s.owned b then .ok else .notOwner

/-! ### The frame of a transaction -/

/-- TRANSACTION_START (R160, R162): the summary byte is fixed at the fall of CS_N. While a transaction is
in progress the spec never gives it; it is taken at its word, and the transaction then in progress is
dropped and records nothing (DESIGN CHOICE, log entry 38). -/
def execTransactionStart (s : State) : Answer :=
  .next { s with port := { s.port with
    summary := s.summaryByte, txn := some ⟨none, 0, false⟩, straddling := false } }

/-- UNKNOWN_COMMAND (R165): recorded at the CS_N rise. One of the fourteen command bytes is not this
step, and changes nothing (log entry 22). Any other is taken at its word whatever the framing state
holds (log entry 38). -/
def execUnknownCommand (command : Byte) (s : State) : Answer :=
  .next (if commandBytes.contains command then s else s.endTransaction .unknownCommand)

/-- FRAME_ERROR (R166): recorded, without effect. It is taken at its word also while a read's frame is
complete, which the spec never gives (log entry 38). -/
def execFrameError (s : State) : Answer := .next (s.endTransaction .frameError)

/-- The result a CS_N rise records for a read with a complete frame (R162, R166). -/
def State.endRead (s : State) : State :=
  match s.port.txn with
  | some ⟨some _, _, true⟩ => s.endTransaction s.port.result
  | _ => if s.port.straddling then s.endTransaction .ok else s

/-- READ_TRANSACTION_END (R162, R166): the result the result byte carried, however few bytes were
clocked out. Without a read whose frame is complete there is no such step (log entry 1). -/
def execReadTransactionEnd (s : State) : Answer := .next s.endRead

/-! ### Reads of the station (section 10.5) -/

/-- READ_STATUS (R172): taken in every state and while a pass runs. -/
def execReadStatus (s : State) : Answer := .next (s.readReply 0x10 1 .ok s.statusBytes [])

/-- READ_CONFIG (R173): taken in every state. -/
def execReadConfig (s : State) : Answer := .next (s.readReply 0x11 1 .ok s.configBytes [])

/-- READ_COUNTERS (R174): taken in every state. -/
def execReadCounters (s : State) : Answer := .next (s.readReply 0x12 1 .ok s.counters.bytes [])

/-- READ_PEERS (R181): the 32 records; WRONG_STATE in UNCONFIGURED. -/
def execReadPeers (s : State) : Answer :=
  .next (s.readReply 0x14 1 s.configuredCheck s.peerBytes [])

/-- READ_COMMIT_REPORT (R54, R181): refused with BUSY_COMMIT while a pass runs. -/
def execReadCommitReport (s : State) : Answer :=
  .next (s.readReply 0x15 1 (s.configuredCheck.orElse s.passCheck) (reportBytes s.commit.report) [])

/-! ### Reads of the image and the draft (section 10.6) -/

/-- READ_IMAGE (R175): the block's status record, then the words of the span. -/
def execReadImage (block first count : Byte) (s : State) : Answer :=
  let arg := spanArgs block first count
  let r := (s.configuredCheck.orElse (badUnless arg.isSome)).orElse s.passCheck
  let data := match arg with
    | some (b, sp) => s.blockBytes b ++ wordBytes (s.image.words.readSpan b sp)
    | none => []
  .next (s.readReply 0x20 4 r data [])

/-- A run of blocks: first 0 to 63, count 1 to 64, first + count not above 64 (R176). -/
def blockRun (first count : Byte) : Bool :=
  decide (first.toNat ≤ 63) && decide (1 ≤ count.toNat) && decide (count.toNat ≤ 64)
    && decide (first.toNat + count.toNat ≤ 64)

/-- READ_BLOCK_STATUS (R176): the records of consecutive blocks, ascending. -/
def execReadBlockStatus (first count : Byte) (s : State) : Answer :=
  let r := (s.configuredCheck.orElse (badUnless (blockRun first count))).orElse s.passCheck
  let data := (List.range count.toNat).flatMap fun i => s.blockBytes (Fin.ofNat 64 (first.toNat + i))
  .next (s.readReply 0x21 3 r data [])

/-- READ_DRAFT (R178): the draft words of the span; taken while a pass runs. -/
def execReadDraft (block first count : Byte) (s : State) : Answer :=
  let arg := spanArgs block first count
  let r := s.configuredCheck.orElse (badUnless arg.isSome)
  let data := match arg with
    | some (b, sp) => wordBytes (s.image.draft.readSpan b sp)
    | none => []
  .next (s.readReply 0x22 4 r data [])

/-! ### Draining the events (section 9.4) -/

/-- READ_EVENTS (R155, R180): the k oldest records, k the smaller of the maximum and the number
held. -/
def execReadEvents (maximum : Byte) (s : State) : Answer :=
  let r := badUnless (decide (1 ≤ maximum.toNat) && decide (maximum.toNat ≤ 32))
  let records := s.events.take maximum.toNat
  .next (s.readReply 0x13 2 r (byteOf records.length :: records.flatMap Event.bytes) records)

/-- Snapshot records whose last byte has been clocked out: the summary byte, the byte under the
argument, the result byte and k come first, and a record has 7 bytes (R155, R161, R184). -/
def recordsClocked (clocked k : Nat) : Nat := min k ((clocked - 4) / 7)

/-- The queue after the removal (R156): n whole records leave from the head. An OVERFLOW record
among them, the last, stays with what it counted since the snapshot if that is not nothing. -/
def drainEvents (q snap : List Event) (n : Nat) : List Event :=
  match (snap.take n).getLast?, (q.take n).getLast? with
  | some reported, some now =>
      if reported.kind = .overflow ∧ now.value.getD 0 ≠ reported.value.getD 0 then
        { now with value := some (now.value.getD 0 - reported.value.getD 0) } :: q.drop n
      else q.drop n
  | _, _ => q.drop n

/-- READ_EVENTS_END (R156): the CS_N rise that ends a READ_EVENTS removes the records clocked out
whole and records the result. A refused one removes nothing. -/
def execReadEventsEnd (clocked : Nat) (s : State) : Answer :=
  match s.port.txn with
  | some ⟨some 0x13, _, true⟩ =>
      if s.port.result = .ok ∧ s.port.straddling = false then
        let n := recordsClocked clocked s.port.evSnap.length
        .next ({ s with events := drainEvents s.events s.port.evSnap n }).endRead
      else .next s.endRead
  | _ => .next (if s.port.straddling then s.endTransaction .ok else s)

/-! ### Writes (sections 10.4 and 10.6) -/

/-- The words of a WRITE_DRAFT go into the draft together (R15, R177). -/
def State.writeDraft (s : State) (b : Block) (sp : Span) (ws : List Word) : State :=
  { s with image := { s.image with draft := s.image.draft.writeAll (wordAddr b sp.first) ws } }

/-- WRITE_DRAFT (R15, R177): the frame is complete after 2 × count word bytes, or at a count out of
range; bytes after it are ignored. -/
def execWriteDraft (block first count : Byte) (data : List Byte) (s : State) : Answer :=
  let countOk := decide (1 ≤ count.toNat) && decide (count.toNat ≤ 16)
  let complete := !countOk || decide (2 * count.toNat ≤ data.length)
  match spanArgs block first count with
  | none => .next (s.writeAct complete (s.configuredCheck.orElse .badArgument) id)
  | some (b, sp) =>
      let r := s.configuredCheck.orElse (s.ownerCheck b)
      .next (s.writeAct complete r fun s =>
        s.writeDraft b sp (bytesToWords (data.take (2 * count.toNat))))

/-- PUBLISH's state check (R101, R164). -/
def State.publishCheck (s : State) : Result :=
  if s.mem.station.onBus && !s.mem.leavePending then .ok else .wrongState

/-- The places a PUBLISH may fill: in LISTEN and JOINING one is kept for the ROLL (R100). -/
def State.publishLimit (s : State) : Nat :=
  if s.mem.station = .listen ∨ s.mem.station = .joining then Config.queueSize - 1
  else Config.queueSize

/-- QUEUE_FULL if a new entry is needed and finds no room (R100, R101). -/
def State.roomCheck (s : State) (b : Block) (sp : Span) : Result :=
  if (findKey s.pub.queue (.ofBlock b)).isSome
      || hasRoom s.pub.queue s.flightKey s.publishLimit (.update b sp) then .ok
  else .queueFull

/-- A PUBLISH that passed its checks (R101): widens a queued UPDATE, leaves a queued REFRESH, or adds
an UPDATE. -/
def State.publish (s : State) (b : Block) (sp : Span) : State :=
  match findKey s.pub.queue (.ofBlock b) with
  | some _ => { s with pub := { s.pub with queue := widen s.pub.queue b sp } }
  | none => { s with pub := s.pub.add (.update b sp) }

/-- PUBLISH (R101, R179). -/
def execPublish (block first count : Byte) (s : State) : Answer :=
  match spanArgs block first count with
  | none => .next (s.writeAct true (s.publishCheck.orElse .badArgument) id)
  | some (b, sp) =>
      let r := (s.publishCheck.orElse (s.ownerCheck b)).orElse (s.roomCheck b sp)
      .next (s.writeAct true r fun s => s.publish b sp)

/-- CONFIGURE's state check (R134, R164). -/
def State.offBusCheck (s : State) : Result :=
  if s.mem.station.onBus then .wrongState else .ok

/-- What a valid CONFIGURE does (R170, with R12, R22, R57, R73, R96, R97, R118, R130, R134, R144):
every block to its values under the new settings. The events, the straps and what the Line
Interface reads stay. -/
def State.configure (s : State) (c : Settings) : State :=
  { s with
    cfg := c
    image := ImageStore.reset
    staging := []
    commit := ⟨none, none⟩
    pub := Publish.reset
    tx := .standby
    eu := EpochUnit.dormant 0 s.eu.eln s.eu.tail
    rx := ⟨.off, 0xFFFF⟩
    counters := Counters.reset
    mute := ⟨0, 0⟩
    mem := { Membership.reset s.straps.sid with station := .idle } }

/-- CONFIGURE (R134, R169, R170). -/
def execConfigure (args : List Byte) (s : State) : Answer :=
  let complete := decide (80 ≤ args.length)
  match parseSettings args with
  | none => .next (s.writeAct complete (s.offBusCheck.orElse .badArgument) id)
  | some c => .next (s.writeAct complete s.offBusCheck fun s => s.configure c)

/-- START's state check (R135, R164). -/
def State.startCheck (s : State) : Result :=
  if s.mem.station = .idle then .ok else .wrongState

/-- What START does in IDLE (R14, R23, R70, R79, R135, R136). -/
def State.start (s : State) : State :=
  let before := s.eu.low
  let s := { s with
    mem := { s.mem with
      station := .listen, listenCount := 0, joiningCount := 0, epochTaken := false }
    mute := ⟨0, 0⟩
    rx := { s.rx with st := if s.line.idle then .ready else .waitIdle }
    eu := { s.eu with unit := .follow, counter := 0 } }
  let s := if s.line.busFault then s.post .busFault else s
  s.settle before

/-- START (R135, R171). -/
def execStart (s : State) : Answer := .next (s.writeAct true s.startCheck State.start)

/-- LEAVE's state check (R141, R164). -/
def State.leaveCheck (s : State) : Result :=
  if s.mem.station.onBus then .ok else .wrongState

/-- What LEAVE does (R141): in LISTEN it completes at once (R56), in the running states it sets
leave-pending. -/
def State.leave (s : State) : State :=
  if s.mem.station = .listen then s.leaveNow.settle s.eu.low
  else { s with mem := { s.mem with leavePending := true } }

/-- LEAVE (R141, R171). -/
def execLeave (s : State) : Answer := .next (s.writeAct true s.leaveCheck State.leave)

end Sys2Proof.Machine
end

