-- ==== Sys2Proof/Machine/Transmit.lean ====
section
/-! DEFINITION. The Dispatch Transmitter (chapter 6): claims, arbitration, the answer slot of the
own dispatch, bit faults. -/

namespace Sys2Proof.Machine

/-- What a claim fixes (R16, R17, R77, R107): the epoch number, the sequence, the words of the
span from the draft, and the characters with the check value. -/
def State.attemptFor (s : State) (e : Entry) : Attempt :=
  match e.duty with
  | .update b sp =>
      let seq := s.image.lastSeq[b] + 1
      let ws := s.image.draft.readSpan b sp
      ⟨e, s.eu.epoch, seq, ws, blockDispatch .update s.straps.sid b s.eu.epoch seq sp ws⟩
  | .refresh b =>
      let seq := s.image.lastSeq[b]
      let ws := s.image.draft.readSpan b .full
      ⟨e, s.eu.epoch, seq, ws, blockDispatch .refresh s.straps.sid b s.eu.epoch seq .full ws⟩
  | .roll => ⟨e, s.eu.epoch, 0, [], rollDispatch s.straps.sid s.eu.epoch⟩

/-- CLAIM (R99, R107): with an eligible entry and the bus free, the first eligible entry moves into
the in-flight slot and its claim is driven. Otherwise there is no claim (log entry 1). -/
def execClaim (s : State) : Answer :=
  match s.nextEntry with
  | some e =>
      .next (if s.busFree then
        { s with
          tx := .active .claiming (s.attemptFor e)
          pub := { s.pub with queue := s.pub.queue.erase e }
          line := { s.line with sendPos := 0, sampled := none } }
      else s)
  | none => .next s

/-- A loss on the stop bit, taken after the claim's delivery at the same sample: the claim was not driven
to its end without a loss, so it is a received one with a framing error (R72, R80, R84; log
entry 39). -/
def State.ownWasLost (s : State) : State :=
  match s.rx.st with
  | .following _ d => if d.own then s.malformed else s
  | _ => s

/-- ARBITRATION_LOSS (R72, R108): the entry returns without a failure; the loss is counted. The bit was
read dominant, and the character in assembly goes on with that reading; the Receiver takes the winner's
claim when it is delivered. -/
def execArbitrationLoss (s : State) : Answer :=
  match s.tx with
  | .active .claiming _ =>
      let s := State.ownWasLost { s.endAttempt with line := s.line.readBack .dominant }
      .next { s with counters :=
        { s.counters with arbitrationLosses := bump s.counters.arbitrationLosses } }
  | _ => .next s

/-- The Receiver knows the dispatch as the station's own at the latest when the claim has been won
(R80, R83; log entry 21). -/
def State.knowOwn (s : State) (a : Attempt) : State :=
  match s.rx.st with
  | .ready => { s with rx := { s.rx with st := .following .header (Incoming.ofAttempt s.straps.sid a) } }
  | _ => s

/-- CLAIM_WON (R108): the claim character has ended, and the next bit begins; SENDING. With a mismatch of
the claim told and not yet reported there is no win (R72; log entries 1 and 39). -/
def execClaimWon (s : State) : Answer :=
  match s.tx with
  | .active .claiming a =>
      .next (if s.line.mismatchTold then s
      else State.knowOwn { s with
        tx := .active .sending a
        line := { s.line with sendPos := max s.line.sendPos characterBits, sampled := none } } a)
  | _ => .next s

/-- LAST_CHECK_SENT (R66, R83, R109): the answer slot opens, the Receiver waits on it, SLOT_WAIT. The
reading of the line goes on: a line that fell since the last stop sample reads dominant in the slot,
and its run is still counted from that fall (R66, R67). With a mismatch told and not yet reported the
dispatch does not reach its end (R72; log entries 1 and 39). -/
def execLastCheckSent (s : State) : Answer :=
  match s.tx with
  | .active .sending a =>
      if s.line.mismatchTold then .next s
      else
        let s := { s with
          tx := .active .slotWait a
          line := { s.line.openSlot with
            st := .hunt, charTime := none, samples := [], sampled := none, sendPos := 0 } }
        .next (match s.rx.st with
          | .following _ d => { s with rx := { s.rx with st := .following .answer d } }
          | _ => s)
  | _ => .next s

/-- The Receiver enters DISCARD when the Transmitter gives up at a bit fault (R83). -/
def State.giveUp (s : State) : State :=
  match s.rx.st with
  | .off => s
  | _ => { s with rx := { s.rx with st := .discard } }

/-- An attempt ends at a bit fault that read the given level: the character in assembly goes on with that
reading, the Receiver gives the dispatch up, and the attempt fails once (R72, R83, R112). -/
def State.faultAt (s : State) (level : Level) : State :=
  (State.failAttempt { s.giveUp with line := s.line.readBack level }).settle s.eu.low

/-- BIT_FAULT (R72, R83, R112): the drive stops and the attempt fails once. In the claim a dominant bit
was read recessive; in any later character the level read is the other one than that driven (log
entry 43). -/
def execBitFault (s : State) : Answer :=
  match s.tx with
  | .active .claiming _ => .next (s.faultAt .recessive)
  | .active .sending a => .next (s.faultAt (otherLevel (sentLevel a.chars s.line.sendPos)))
  | _ => .next s

end Sys2Proof.Machine
end

