-- ==== Sys2Proof/Machine/Dispatch.lean ====
section
/-! DEFINITION. The meaning of each command, one arm for each constructor of Instr. -/

namespace Sys2Proof.Machine

def exec (i : Instr) (s : State) : Host.Outcome State Fault Refusal :=
  match i with
  | .hardwareReset sid rate lrx eln csLow => Sys2Proof.Machine.execHardwareReset sid rate lrx eln csLow s
  | .transactionStart => Sys2Proof.Machine.execTransactionStart s
  | .readStatus => Sys2Proof.Machine.execReadStatus s
  | .readConfig => Sys2Proof.Machine.execReadConfig s
  | .readCounters => Sys2Proof.Machine.execReadCounters s
  | .readEvents maximum => Sys2Proof.Machine.execReadEvents maximum s
  | .readPeers => Sys2Proof.Machine.execReadPeers s
  | .readCommitReport => Sys2Proof.Machine.execReadCommitReport s
  | .readImage block first count => Sys2Proof.Machine.execReadImage block first count s
  | .readBlockStatus first count => Sys2Proof.Machine.execReadBlockStatus first count s
  | .readDraft block first count => Sys2Proof.Machine.execReadDraft block first count s
  | .writeDraft block first count data => Sys2Proof.Machine.execWriteDraft block first count data s
  | .publish block first count => Sys2Proof.Machine.execPublish block first count s
  | .configure args => Sys2Proof.Machine.execConfigure args s
  | .start => Sys2Proof.Machine.execStart s
  | .leave => Sys2Proof.Machine.execLeave s
  | .unknownCommand command => Sys2Proof.Machine.execUnknownCommand command s
  | .frameError => Sys2Proof.Machine.execFrameError s
  | .readTransactionEnd => Sys2Proof.Machine.execReadTransactionEnd s
  | .readEventsEnd clocked => Sys2Proof.Machine.execReadEventsEnd clocked s
  | .startEdge => Sys2Proof.Machine.execStartEdge s
  | .falseStart => Sys2Proof.Machine.execFalseStart s
  | .characterDelivered data marker framing => Sys2Proof.Machine.execCharacterDelivered data marker framing s
  | .heldCharacterRise => Sys2Proof.Machine.execHeldCharacterRise s
  | .breakDriveStart => Sys2Proof.Machine.execBreakDriveStart s
  | .breakDriven => Sys2Proof.Machine.execBreakDriven s
  | .breakSeen => Sys2Proof.Machine.execBreakSeen s
  | .breakEnd => Sys2Proof.Machine.execBreakEnd s
  | .busFault => Sys2Proof.Machine.execBusFault s
  | .busIdle => Sys2Proof.Machine.execBusIdle s
  | .slotBroken => Sys2Proof.Machine.execSlotBroken s
  | .slotClean => Sys2Proof.Machine.execSlotClean s
  | .claim => Sys2Proof.Machine.execClaim s
  | .arbitrationLoss => Sys2Proof.Machine.execArbitrationLoss s
  | .claimWon => Sys2Proof.Machine.execClaimWon s
  | .lastCheckSent => Sys2Proof.Machine.execLastCheckSent s
  | .bitFault => Sys2Proof.Machine.execBitFault s
  | .lowConditionStart => Sys2Proof.Machine.execLowConditionStart s
  | .quietTailEnd => Sys2Proof.Machine.execQuietTailEnd s
  | .epochExpiry => Sys2Proof.Machine.execEpochExpiry s
  | .elnFall => Sys2Proof.Machine.execElnFall s
  | .elnRise => Sys2Proof.Machine.execElnRise s
  | .notDrivable => Sys2Proof.Machine.execNotDrivable s
  | .holdRunOut eln => Sys2Proof.Machine.execHoldRunOut eln s
  | .lineLowLimit => Sys2Proof.Machine.execLineLowLimit s
  | .lineRestored => Sys2Proof.Machine.execLineRestored s
  | .commitPassEnd eln => Sys2Proof.Machine.execCommitPassEnd eln s
  | .firstRecessiveReading => Sys2Proof.Machine.execFirstRecessiveReading s

end Sys2Proof.Machine
end

