-- ==== Sys2Proof/Machine/Clock.lean ====
section
/-! DEFINITION. The station alone with its clock: what one bit time moves, which steps the station's
own clocks and conditions then make due, and the step of an empty queue (log entries 3 to 5). -/

namespace Sys2Proof.Machine

/-! ### One bit time -/

/-- The Line Interface over one bit time in which the line reads the given level: the character in
assembly takes its sample and comes to its boundary, and the idle count, the dominant run, the answer
slot and the break drive go on (R61, R64 to R68, R70). Idle count and slot begin at the boundary of the
character before them. -/
def Line.advance (l : Line) (level : Level) : Line :=
  { l with
    lrx := level
    charTime := l.charTime.bind fun n => if n + 1 < characterBits then some (n + 1) else none
    samples := if l.st = .assemble ∧ l.charTime.isSome then l.samples ++ [level] else l.samples
    sampled := none
    idleCount := if level = .dominant then 0
      else if l.st = .hunt ∧ l.slot = none ∧ l.charTime = none then min 11 (l.idleCount + 1)
      else l.idleCount
    run := if level = .dominant then min busFaultBits (l.run + 1) else 0
    slot := if l.charTime.isSome then l.slot else l.slot.map fun n => min 11 (n + 1)
    drive := l.drive.map fun n => min 14 (n + 1) }

/-- The Epoch Unit over one bit time: the epoch counter (R19), the hold (R28), the not-drivable test
(R30), the line-low timer (R33), the restoration timer (R36) and the quiet tail (R34). -/
def EpochUnit.advance (u : EpochUnit) (epochLen holdLen : Nat) : EpochUnit :=
  { u with
    counter := if u.unit = .dormant then u.counter else min Config.counterTop (u.counter + 1)
    hold := if u.unit = .assert ∧ u.holdOut = false then min holdLen (u.hold + 1) else u.hold
    driveTest := u.driveTest.map fun n => min 4 (n + 1)
    lowTimer := if u.unit = .waitRise then min (4 * holdLen) (u.lowTimer + 1) else u.lowTimer
    restTimer := if u.unit = .coast then
        (if u.eln = .recessive then min epochLen (u.restTimer + 1) else 0)
      else u.restTimer
    tail := u.tail.map fun n => min 11 (n + 1) }

/-- Bit times of the dispatch the station drives, claim included; 0 in STANDBY and SLOT_WAIT. -/
def TxState.driven : TxState → Nat
  | .active .claiming a => characterBits * a.chars.length
  | .active .sending a => characterBits * a.chars.length
  | .active .slotWait _ => 0
  | .standby => 0

/-- A running commit pass over one bit time: its time, and some of its entries (R51). -/
def State.advancePass (s : State) : State :=
  match s.commit.pass with
  | none => s
  | some p =>
      State.commitSome p.epoch (Config.passProgress s.free % (s.staging.length + 1))
        { s with commit := { s.commit with pass := some { p with time := p.time + 1 } } }

/-- One bit time passes. -/
def State.advance (s : State) : State :=
  let s := s.advancePass
  { s with
    line := { s.line.advance s.lineNow with
      sendPos := if s.line.sendPos < s.tx.driven then s.line.sendPos + 1 else s.line.sendPos }
    eu := s.eu.advance s.cfg.epochLen s.cfg.holdLen
    free := s.free + 1 }

/-! ### The steps that are due -/

/-- The step is listed if its condition holds. -/
def dueIf (b : Bool) (i : Instr) : List Instr := if b then [i] else []

/-- The level the unit reads if it releases ELN now: its peers decide (R31). -/
def State.releaseLevel (s : State) : Level :=
  if Config.lineHigh s.free then .recessive else .dominant

/-- Steps of the Epoch Unit and the Commit Unit that have come due. ELN_FALL is the station's own pull,
which the line shows (00_scope.md, Line levels), so that the not-drivable test passes; a driver that
fails is told by commands (log entry 4). -/
def State.dueEpoch (s : State) : List Instr :=
  let u := s.eu
  let atLength := decide (s.cfg.epochLen ≤ u.counter)
  let noPass := s.commit.pass.isNone
  dueIf (atLength && (u.unit == .follow || u.unit == .run || (u.unit == .coast && noPass)))
      .epochExpiry
    ++ dueIf (u.unit == .assert && !u.holdOut && decide (s.cfg.holdLen ≤ u.hold))
      (.holdRunOut s.releaseLevel)
    ++ dueIf (u.eln == .recessive && s.elnNow == .dominant) .elnFall
    ++ dueIf (u.unit == .assert && u.driveTest == some 4 && u.eln == .recessive) .notDrivable
    ++ dueIf (u.unit == .waitRise && (decide (4 * s.cfg.holdLen ≤ u.lowTimer) || atLength))
      .lineLowLimit
    ++ dueIf (u.unit == .coast && noPass && decide (s.cfg.epochLen ≤ u.restTimer)) .lineRestored
    ++ dueIf (u.tail == some 11) .quietTailEnd
    ++ match s.commit.pass with
      | none => []
      | some p =>
          dueIf (decide (p.bound ≤ p.time) || Config.passEndsNow s.free)
            (.commitPassEnd s.releaseLevel)

/-- What the line reads makes due: a fall in HUNT, a dominant reading in an answer slot, the rise that ends
a dominant run, and what the samples of a character give at its start and stop bits (R61, R62, R66,
R67). In the step of an empty queue only the station's own pull and release change the reading. -/
def State.dueReading (s : State) : List Instr :=
  let l := s.line
  let low := s.lineNow == .dominant
  let rises := l.lrx == .dominant && !low
  let isBreak := l.st == .inBreak
    || (l.st == .awaitRecessive && l.runSeen && decide (breakBits ≤ l.run))
  dueIf (l.st == .hunt && l.slot == none && l.lrx == .recessive && low) .startEdge
    ++ dueIf (l.slot.isSome && l.charTime == none && low) .slotBroken
    ++ dueIf (rises && isBreak) .breakEnd
    ++ dueIf (rises && !isBreak && (l.st == .awaitRecessive || l.st == .hunt)) .firstRecessiveReading
    ++ dueIf (l.st == .assemble && l.charTime == some 0 && !low) .falseStart
    ++ (if l.st = .assemble ∧ l.charTime = some 10 then
        (judgeSamples (l.samples ++ [s.lineNow])).toList else [])

/-- Steps of the Line Interface that have come due. -/
def State.dueLine (s : State) : List Instr :=
  let l := s.line
  dueIf (l.st == .hunt && l.slot == none && l.idleCount == 11 && !l.idle) .busIdle
    ++ dueIf (l.slot == some 11 && s.lineNow == .recessive) .slotClean
    ++ dueIf (l.request && l.atBoundary) .breakDriveStart
    ++ dueIf (l.drive == some 14) .breakDriven
    ++ dueIf (l.lrx == .dominant && decide (breakBits ≤ l.run) && !l.runSeen && l.slot == none)
      .breakSeen
    ++ dueIf (l.lrx == .dominant && decide (busFaultBits ≤ l.run) && !l.busFault) .busFault
    ++ s.dueReading

/-- What the comparison of the bit under way makes due, in the claim or in a later character (R72). It is
made once, at the mid-bit sample: where a command has told that sample, of the sample told, whatever the
line has done since; else of what the line reads. It is not made while a break is driven (R68). -/
def State.dueReadback (s : State) (inClaim : Bool) (a : Attempt) : List Instr :=
  if s.line.drive.isSome then []
  else match s.line.sampled with
    | some b => (readback inClaim b.form b.read).toList
    | none => (readback inClaim (sentLevel a.chars s.line.sendPos) s.lineNow).toList

/-- Steps of the Dispatch Transmitter that have come due: a claim, the end of the characters driven, or
until then a mismatch of the bit under way. -/
def State.dueTransmit (s : State) : List Instr :=
  dueIf (s.busFree && s.nextEntry.isSome) .claim
    ++ match s.tx with
      | .active .claiming a =>
          if characterBits ≤ s.line.sendPos ∧ s.line.mismatchTold = false then [.claimWon]
          else s.dueReadback true a
      | .active .sending a =>
          if s.tx.driven ≤ s.line.sendPos ∧ s.line.mismatchTold = false then [.lastCheckSent]
          else s.dueReadback false a
      | .active .slotWait _ => []
      | .standby => []

/-- Every step that the station's own clocks and conditions make due. The steps that tell what a peer
does to a wire, a transaction of the port or a reset come as commands only (log entry 4). -/
def State.due (s : State) : List Instr := s.dueEpoch ++ s.dueLine ++ s.dueTransmit

/-- The step of an empty queue (log entry 3): one of the due steps is taken, or, when none is due,
one bit time passes. Where several are due, either may be taken first (log entry 5). -/
def State.idleStep (s : State) : Answer :=
  match s.due with
  | [] => .next s.advance
  | [i] => exec i { s with free := s.free + 1 }
  | i :: j :: rest =>
      exec ((i :: j :: rest).getD (Config.dueChoice s.free % (rest.length + 2)) i)
        { s with free := s.free + 1 }

end Sys2Proof.Machine
end

