-- ==== Sys2Proof/Safety.lean ====
section
/-! DEFINITION. The predicates that the statements about every step speak of. Each is decidable on a
concrete state. -/

namespace Sys2Proof.Machine

/-! ### Events (R152, R153) -/

/-- At most 32 records; only the newest may be OVERFLOW, and the 32nd place is its alone. -/
def eventsBounded (q : List Event) : Prop :=
  q.length ≤ 32 ∧ (∀ e ∈ q.dropLast, e.kind ≠ .overflow)
    ∧ (q.length = 32 → ∀ e, q.getLast? = some e → e.kind = .overflow)

/-! ### Staging (R38) -/

/-- At most 16 entries, never two for one block. -/
def stagingBounded (t : List StagingEntry) : Prop :=
  t.length ≤ Config.stagingSize ∧ (t.map StagingEntry.block).Nodup

/-! ### Publish queue (R98 to R100) -/

/-- The keys of the queued entries. -/
def queueKeys (q : List Entry) : List Key := q.map fun e => e.duty.key

/-- No two entries with one key, failure counts below 8, the queue order of R99, and a place for the
entry in flight to return to (R100). -/
def queueBounded (q : List Entry) (flight : Option Attempt) : Prop :=
  keysInUse q (flight.map fun a => a.entry.duty.key) ≤ Config.queueSize
    ∧ (queueKeys q).Nodup
    ∧ (∀ e ∈ q, e.failures ≤ 7)
    ∧ (∀ a, flight = some a → a.entry.failures ≤ 7)
    ∧ q.Pairwise (fun a b => b.before a = false)

/-- The place that stays free for the ROLL of JOINING (R100, R106): off the bus the queue is empty, in
LISTEN it holds at most 7 entries and no ROLL, with no attempt under way in either, and in JOINING
the ROLL waits or is in flight. -/
def rollHasPlace (s : State) : Prop :=
  match s.mem.station with
  | .unconfigured | .idle => s.pub.queue = [] ∧ s.tx = .standby
  | .listen => s.pub.queue.length ≤ 7 ∧ Key.ofRoll ∉ queueKeys s.pub.queue ∧ s.tx = .standby
  | .joining => Key.ofRoll ∈ queueKeys s.pub.queue ∨ s.flightKey = some .ofRoll
  | .member | .mute => True

/-- What R98 says of the queue and the slot, in every state. -/
def publishOk (s : State) : Prop :=
  queueBounded s.pub.queue s.tx.inFlight ∧ rollHasPlace s

/-! ### Voice (R59, R116, R120) -/

/-- Outside JOINING and MEMBER no attempt is under way, no break is driven and none is requested. -/
def voiceOk (s : State) : Prop :=
  s.mem.station.objects = false →
    s.tx = .standby ∧ s.line.drive = none ∧ s.line.request = false

/-! ### Station and Epoch Unit (R21, R132) -/

/-- The correspondence of R21 with the delay of R26, and where leave-pending can be set (section
8.1). -/
def stationMatchesUnit (s : State) : Prop :=
  match s.mem.station with
  | .unconfigured | .idle => s.eu.unit = .dormant ∧ s.mem.leavePending = false
  | .listen => s.eu.unit = .follow ∧ s.mem.leavePending = false
  | .joining | .member | .mute =>
      s.eu.unit ≠ .dormant ∧ (s.eu.unit = .follow → s.commit.pass.isSome = true)

/-- Where a commit pass can run: never in DORMANT, RUN or WAIT_RISE; and a LEAVE recorded at a pass
end stands in ASSERT after that pass (R31, R32, R37). -/
def passMatchesUnit (s : State) : Prop :=
  (s.eu.unit = .dormant ∨ s.eu.unit = .run ∨ s.eu.unit = .waitRise → s.commit.pass = none)
    ∧ (s.eu.leaveOut = true → s.eu.unit = .assert ∧ s.commit.pass = none)

/-! ### Mute counters (R124, R128) -/

/-- The clean-receive counter counts in MUTE alone and stays below 32; the consecutive-objection
counter reaches 16 in MUTE alone. -/
def muteBounded (s : State) : Prop :=
  s.mute.consecutive ≤ 16 ∧ s.mute.clean ≤ 31
    ∧ (s.mem.station ≠ .mute → s.mute.consecutive ≤ 15 ∧ s.mute.clean = 0)

/-! ### Word buffers -/

/-- Image and draft keep their canonical form. -/
def storesWf (s : State) : Prop := s.image.words.wf = true ∧ s.image.draft.wf = true

/-! ### Blocks and peers (R9, R144) -/

/-- The block's words can be followed. -/
def BlockStatus.live : BlockStatus → Bool
  | .current | .torn => true
  | .empty | .stale => false

/-- The own record is the one SELF record (R144). -/
def ownRecordSelf (s : State) : Prop :=
  ∀ n : StationNo, s.mem.peers[n].state = .self ↔ n = s.straps.sid

/-- The station number is this station's or that of a peer on the bus. -/
def onBusPeer (s : State) (n : StationNo) : Prop :=
  n = s.straps.sid ∨ s.mem.peers[n].state = .present

/-- R9: a block that is CURRENT or TORN has an owner, which is this station or a PRESENT peer. -/
def liveBlocksHaveOwner (s : State) : Prop :=
  ∀ b : Block, s.image.blocks[b].status.live = true → ∃ n, s.owner b = some n ∧ onBusPeer s n

/-- R2, R42, R9: what is staged came from the block's mapped owner, which has been heard in the epoch
whose pass has not ended. -/
def stagedFromOwner (s : State) : Prop :=
  ∀ e ∈ s.staging, s.owner e.block = some e.source ∧ onBusPeer s e.source
    ∧ (e.source = s.straps.sid ∨ s.mem.peers[e.source].heard = true
        ∨ s.commit.pass.isSome = true)

/-- What is queued or in flight belongs to owned blocks (R4, R101, R103). -/
def publishesOwned (s : State) : Prop :=
  (∀ e ∈ s.pub.queue, ∀ b, e.duty.block = some b → s.owned b = true)
    ∧ ∀ a, s.tx.inFlight = some a → ∀ b, a.entry.duty.block = some b → s.owned b = true

/-- R9 with what keeps it true from step to step. -/
def imageFollowsOwners (s : State) : Prop :=
  ownRecordSelf s ∧ liveBlocksHaveOwner s ∧ stagedFromOwner s ∧ publishesOwned s
    ∧ passMatchesUnit s ∧ stationMatchesUnit s

/-! ### What the resets and the completion of LEAVE leave behind -/

/-- The values after hardware reset (R1, R3, R5, R6, R15, R17, R22, R32, R57, R73, R97, R118, R130, R144,
R150, R158, R173, R174, R182), whatever the straps and the levels read. -/
def resetValues (t : State) : Prop :=
  t.mem.station = .unconfigured ∧ t.mem.leavePending = false ∧ t.mem.listenCount = 0
    ∧ t.mem.joiningCount = 0 ∧ t.mem.epochTaken = false
    ∧ (∀ n : StationNo, t.mem.peers[n]
        = ⟨if n = t.straps.sid then .self else .absent, false, 0, none⟩)
    ∧ (t.cfg.epochLen = 0 ∧ t.cfg.holdLen = 0 ∧ t.cfg.silenceLimit = 0 ∧ t.cfg.refreshPeriod = 0
        ∧ t.cfg.listenLimit = 0 ∧ t.cfg.mode = .none)
    ∧ (∀ b : Block, t.cfg.owners[b] = none ∧ t.cfg.subs[b] = false
        ∧ t.image.blocks[b] = ⟨.empty, 0, none⟩ ∧ t.image.lastSeq[b] = 0
        ∧ t.pub.countdown[b] = 0)
    ∧ (∀ a, t.image.words.read a = 0) ∧ (∀ a, t.image.draft.read a = 0)
    ∧ t.eu.unit = .dormant ∧ t.eu.counter = 0 ∧ t.eu.epoch = 0 ∧ t.eu.hold = 0
    ∧ t.eu.lowTimer = 0 ∧ t.eu.restTimer = 0
    ∧ t.staging = [] ∧ t.commit.pass = none ∧ t.commit.report = none
    ∧ t.line.st = .hunt ∧ t.line.slot = none ∧ t.line.idleCount = 0 ∧ t.line.idle = false
    ∧ t.line.busFault = false ∧ t.line.request = false ∧ t.line.drive = none
    ∧ t.rx = ⟨.off, 0xFFFF⟩ ∧ t.tx = .standby ∧ t.pub.queue = [] ∧ t.pub.silence = 0
    ∧ t.pub.ownAccepted = false ∧ t.mute = ⟨0, 0⟩ ∧ t.events = []
    ∧ t.counters = ⟨0, 0, 0, 0, 0, 0, 0, 0⟩
    ∧ t.port.last = .ok ∧ t.port.txn = none ∧ t.port.buffer = []

/-- t is the station u after the completion of LEAVE (R143, with R11, R22, R55, R59, R79, R117, R130,
R144): what changes, and what is kept. -/
def leftTheBus (u t : State) : Prop :=
  t.mem.station = .idle ∧ t.mem.leavePending = false ∧ t.mem.listenCount = 0
    ∧ t.mem.joiningCount = 0 ∧ t.mem.epochTaken = false
    ∧ (∀ n : StationNo, t.mem.peers[n]
        = ⟨if n = u.straps.sid then .self else .absent, false, 0, none⟩)
    ∧ (∀ b : Block, t.image.blocks[b]
        = if u.owned b = false ∧ u.image.blocks[b].status.live = true
          then { u.image.blocks[b] with status := .stale } else u.image.blocks[b])
    ∧ t.image.words = u.image.words ∧ t.image.draft = u.image.draft
    ∧ t.image.lastSeq = u.image.lastSeq
    ∧ t.staging = [] ∧ t.pub.queue = [] ∧ t.pub.countdown = u.pub.countdown
    ∧ t.pub.silence = u.pub.silence ∧ t.pub.ownAccepted = u.pub.ownAccepted
    ∧ t.tx = .standby ∧ t.rx.st = .off ∧ t.line.drive = none ∧ t.line.request = false
    ∧ t.eu.unit = .dormant ∧ t.eu.counter = 0 ∧ t.eu.hold = 0 ∧ t.eu.lowTimer = 0
    ∧ t.eu.restTimer = 0 ∧ t.eu.epoch = u.eu.epoch ∧ t.eu.eln = u.eu.eln
    ∧ t.mute = ⟨0, 0⟩ ∧ t.cfg = u.cfg ∧ t.straps = u.straps ∧ t.commit = u.commit
    ∧ t.counters = u.counters
    ∧ t.events = addEvent u.events ⟨.left, u.eu.epoch, none, none, none⟩ u.eu.epoch

/-- t is the station u after a fall-back from JOINING to LISTEN without leave-pending (R23, R106, R139,
R124, R126, R130): what changes, and what is kept. Of the publish queue the ROLL alone is removed. -/
def fellBack (u t : State) : Prop :=
  t.mem = { u.mem with station := .listen, listenCount := 0, joiningCount := 0 }
    ∧ t.mute = ⟨0, 0⟩ ∧ t.eu.unit = .follow ∧ t.eu.epoch = u.eu.epoch
    ∧ t.eu.counter = u.eu.counter ∧ t.eu.eln = u.eu.eln ∧ t.eu.lowTimer = 0 ∧ t.eu.restTimer = 0
    ∧ t.line.drive = none ∧ t.line.request = false ∧ t.tx = .standby
    ∧ t.staging = u.staging ∧ t.image = u.image ∧ t.commit = u.commit ∧ t.cfg = u.cfg
    ∧ t.straps = u.straps
    ∧ t.pub = { u.pub with queue := t.pub.queue }
    ∧ (u.tx = .standby → t.pub.queue = u.pub.queue.filter fun e => e.duty.key != .ofRoll)
    ∧ (∀ ph a, u.tx = .active ph a →
        t.pub.queue = (giveBack u.pub.queue a.entry).filter fun e => e.duty.key != .ofRoll)
    ∧ t.events = addEvent u.events ⟨.joinFailed, u.eu.epoch, none, none, none⟩ u.eu.epoch

/-! ### The low condition and the boundary as relations (R27, R34) -/

/-- The queue after some events arrive, one after another, with the station's epoch number. -/
def eventsAfter (q : List Event) (epoch : Byte) (es : List Event) : List Event :=
  es.foldl (fun acc e => addEvent acc e epoch) q

/-- t is the station u after the beginning of the low condition is offered (R34, R69, R89, R113, R124):
a request is withdrawn and a drive marked as met; the attempt under way returns without a failure, it
or the dispatch being followed is cut, and the cut is counted once; a character in assembly is marked
(log entry 12). -/
def lowOffered (u t : State) : Prop :=
  t = { u with line := t.line, eu := { u.eu with tail := none }, tx := .standby, rx := t.rx,
               pub := { u.pub with queue := t.pub.queue }, counters := t.counters }
    ∧ t.line = { u.line with
        request := false, metLow := u.line.metLow || u.line.drive.isSome, edgeLow := t.line.edgeLow }
    ∧ match u.tx with
      | .active _ a =>
          t.pub.queue = giveBack u.pub.queue a.entry ∧ t.rx = { u.rx with st := .discard }
            ∧ t.counters = { u.counters with cuts := bump u.counters.cuts }
            ∧ t.line.edgeLow = u.line.edgeLow
      | .standby => t.pub.queue = u.pub.queue ∧ match u.rx.st with
          | .following _ _ =>
              t.rx = { u.rx with st := .discard }
                ∧ t.counters = { u.counters with cuts := bump u.counters.cuts }
                ∧ t.line.edgeLow = u.line.edgeLow
          | _ => t.rx = u.rx ∧ t.counters = u.counters
              ∧ t.line.edgeLow
                = (u.line.edgeLow || decide (u.rx.st = .ready ∧ u.line.st = .assemble))

/-- t is u after the low condition has been compared with what it was before the step: offered if it
begins, the quiet tail from 0 if it ends, else nothing (R34). -/
def settled (before : Bool) (u t : State) : Prop :=
  (before = false ∧ u.eu.low = true ∧ lowOffered u t)
    ∨ (before = true ∧ u.eu.low = false ∧ t = { u with eu := { u.eu with tail := some 0 } })
    ∨ (before = u.eu.low ∧ t = u)

/-- The peer becomes SILENT at a boundary taken now (R146). -/
abbrev turnsSilent (u : State) (n : StationNo) : Prop :=
  u.mem.peers[n].state = .present ∧ u.mem.peers[n].heard = false
    ∧ u.cfg.silenceLimit ≤ u.mem.peers[n].silence + 1

/-- t is the station u after the start of a boundary (R9, R27, R47, R52, R103, R105, R112, R146, R147):
the epoch number advances and the counter restarts, the pass starts with a fresh report, silence is
counted and what it stales is staled, PEER_SILENT posted for each in ascending station number, and the held
flags are cleared. In MEMBER with leave-pending clear
the refresh schedule runs over the owned blocks in ascending number unless P is 0, then the own-silence
count (their order is the model's, log entry 19); else the publish queue keeps all but the held flags. -/
def startedBoundary (u t : State) : Prop :=
  t = { u with eu := { u.eu with epoch := u.eu.epoch + 1, counter := 0 }
               commit := t.commit, events := t.events, pub := t.pub
               mem := { u.mem with peers := t.mem.peers }
               image := { u.image with blocks := t.image.blocks } }
    ∧ t.commit.pass
        = some ⟨u.eu.epoch + 1, 0, (2 + u.staging.length + bitMicros u.straps.rate - 1)
            / bitMicros u.straps.rate⟩
    ∧ t.commit.report = some ⟨u.eu.epoch + 1, []⟩
    ∧ (∀ n : StationNo,
        (u.mem.peers[n].state ≠ .present → t.mem.peers[n] = { u.mem.peers[n] with heard := false })
        ∧ (u.mem.peers[n].state = .present → u.mem.peers[n].heard = true →
            t.mem.peers[n] = { u.mem.peers[n] with heard := false, silence := 0 })
        ∧ (turnsSilent u n → t.mem.peers[n]
            = { u.mem.peers[n] with state := .silent, silence := u.mem.peers[n].silence + 1 })
        ∧ (u.mem.peers[n].state = .present → u.mem.peers[n].heard = false → ¬ turnsSilent u n →
            t.mem.peers[n] = { u.mem.peers[n] with silence := u.mem.peers[n].silence + 1 }))
    ∧ (∀ b : Block,
        ((∃ n, u.owner b = some n ∧ turnsSilent u n) ∧ u.image.blocks[b].status.live = true →
          t.image.blocks[b] = { u.image.blocks[b] with status := .stale })
        ∧ (¬ ((∃ n, u.owner b = some n ∧ turnsSilent u n)
            ∧ u.image.blocks[b].status.live = true) → t.image.blocks[b] = u.image.blocks[b]))
    ∧ t.events = eventsAfter u.events (u.eu.epoch + 1)
        ((((List.range 32).map (Fin.ofNat 32)).filter fun n => decide (turnsSilent u n)).map
          fun n => ⟨.peerSilent, u.eu.epoch + 1, some n, none, none⟩)
    ∧ (∀ e ∈ t.pub.queue, e.held = false)
    ∧ (u.mem.station ≠ .member ∨ u.mem.leavePending = true →
        t.pub = { u.pub with queue := u.pub.queue.map fun e => { e with held := false } })
    ∧ (u.mem.station = .member → u.mem.leavePending = false →
        t.pub.ownAccepted = false
          ∧ t.pub.silence = (if u.pub.ownAccepted then 0 else min 15 (u.pub.silence + 1))
          ∧ (∀ b : Block, u.owned b = false ∨ u.cfg.refreshPeriod = 0 →
              t.pub.countdown[b] = u.pub.countdown[b])
          ∧ ∃ p q : Publish,
            p = (if u.cfg.refreshPeriod = 0 then u.pub
              else (((List.range 64).map (Fin.ofNat 64)).filter u.owned).foldl
                (stepRefresh u.cfg.refreshPeriod u.flightKey) u.pub)
            ∧ q = stepSilence u.cfg.silenceLimit u.flightKey p
            ∧ t.pub = { q with queue := q.queue.map fun e => { e with held := false } })

/-- The unit enters RUN from the state v, and t is what the step then answers: with the counter below L
nothing more; with the counter at L or above the expiry that waited is taken at once, a pull of the
line (R19, R28). -/
def enteredRun (before : Bool) (v t : State) : Prop :=
  (v.eu.counter < v.cfg.epochLen → settled before { v with eu := { v.eu with
      unit := .run, holdOut := false, leaveOut := false, driveTest := none } } t)
    ∧ (v.cfg.epochLen ≤ v.eu.counter → ∃ u,
      startedBoundary { v with eu := { v.eu with
        unit := .assert, hold := 0, holdOut := false, leaveOut := false, ownWindow := true
        driveTest := if v.eu.eln = .recessive then some 0 else none } } u
      ∧ settled before u t)

/-- w is the station u, in LISTEN right after the start of a boundary, after the boundary has been counted
(R136, R137): towards the listen limit, and once an epoch number has been taken towards joining; at
either limit the station is JOINING with a ROLL queued, the epoch number 0 if none was taken. -/
def countedBoundary (u w : State) : Prop :=
  ∀ listen joining : Nat, listen = min 15 (u.mem.listenCount + 1) →
    joining = (if u.mem.epochTaken then min 2 (u.mem.joiningCount + 1) else u.mem.joiningCount) →
    (joining < 2 → listen < u.cfg.listenLimit → w = { u with
        mem := { u.mem with listenCount := listen, joiningCount := joining } })
    ∧ (2 ≤ joining ∨ u.cfg.listenLimit ≤ listen →
        w = { u with
          mem := { u.mem with
            listenCount := listen, joiningCount := joining, station := .joining
            epochTaken := true }
          eu := { u.eu with epoch := if u.mem.epochTaken then u.eu.epoch else 0 }
          pub := { u.pub with queue := w.pub.queue, nextOrder := w.pub.nextOrder } }
        ∧ (Key.ofRoll ∉ queueKeys u.pub.queue →
            w.pub.queue.Perm (⟨.roll, 0, u.pub.nextOrder, false⟩ :: u.pub.queue)))

/-! ### The acceptance of a received dispatch as relations (R90 to R94) -/

/-- HUNT with a fresh idle count: the line reads recessive and no character is being timed. -/
def huntLine (l : Line) : Line :=
  { l with
    st := .hunt, lrx := .recessive, peers := .recessive, idleCount := 0, run := 0, runSeen := false
    charTime := none, samples := [] }

/-- The sample of the bit under way has been told, and it is not what a character has there (R60, R72). -/
def sampleRefutes (l : Line) : Bool := l.sampled.any fun b => decide (b.form ≠ b.read)

/-- A line on which readback has met a level that the station did not drive (R72): it is the peers', and
the character in assembly has read it, a dominant run going on or beginning with it (R67; log
entry 43). A sample that was told is part of the line already. -/
def lineRead (l : Line) (level : Level) : Line :=
  if sampleRefutes l = true then l
  else if l.st = .assemble then
    { l with
      lrx := level
      peers := level
      run := if level = .dominant ∧ l.lrx = .dominant then l.run else 0
      runSeen := if level = .dominant ∧ l.lrx = .dominant then l.runSeen else false }
  else { l with peers := level }

/-- u is the station s as the acceptance of a received dispatch begins (R88, R90, R96): the slot is closed
into HUNT, the Receiver waits for idle, the acceptance is counted and reported to the objection rules. In
JOINING and MEMBER that resets the consecutive-objection counter (R124). In MUTE it is one clean
reception more, and the thirty-second posts MUTE_LEFT and makes the station a MEMBER (R128, R129), with
its refresh countdowns at 1 unless P is 0 and its own-silence count at 0 (R102, R105), and its listening
counts at 0 (log entry 18). -/
def acceptanceTaken (s u : State) : Prop :=
  u = { s with
      line := { huntLine s.line with slot := none }
      rx := { s.rx with st := .waitIdle }
      counters := { s.counters with accepted := bump s.counters.accepted }
      mem := u.mem, mute := u.mute, pub := u.pub, events := u.events }
    ∧ (s.mem.station ≠ .mute → u.mem = s.mem ∧ u.pub = s.pub ∧ u.events = s.events
        ∧ u.mute = if s.mem.station = .joining ∨ s.mem.station = .member
            then { s.mute with consecutive := 0 } else s.mute)
    ∧ (s.mem.station = .mute → s.mute.clean + 1 < 32 → u.mem = s.mem ∧ u.pub = s.pub
        ∧ u.events = s.events ∧ u.mute = { s.mute with clean := s.mute.clean + 1 })
    ∧ (s.mem.station = .mute → 32 ≤ s.mute.clean + 1 →
        u.mem = { s.mem with station := .member, listenCount := 0, joiningCount := 0 }
        ∧ u.pub = { s.pub with silence := 0, countdown := u.pub.countdown }
        ∧ (∀ b : Block, u.pub.countdown[b]
            = if s.cfg.refreshPeriod ≠ 0 ∧ s.cfg.owners[b] = some s.straps.sid then 1
              else s.pub.countdown[b])
        ∧ u.events = addEvent s.events ⟨.muteLeft, s.eu.epoch, none, none, none⟩ s.eu.epoch
        ∧ u.mute = ⟨0, 0⟩)

/-- v is the station u after the sender of an accepted dispatch has been heard (R91, R145): its record is
PRESENT with heard set and the dispatch's epoch number, with PEER_PRESENT where it was not PRESENT; every
other record stays. -/
def senderHeard (d : Incoming) (u v : State) : Prop :=
  v = { u with mem := { u.mem with peers := v.mem.peers }, events := v.events }
    ∧ v.mem.peers[d.sender] = ⟨.present, true,
        if u.mem.peers[d.sender].state = .present then u.mem.peers[d.sender].silence else 0,
        some d.epoch⟩
    ∧ (∀ n, n ≠ d.sender → v.mem.peers[n] = u.mem.peers[n])
    ∧ v.events = if u.mem.peers[d.sender].state = .present then u.events
        else addEvent u.events ⟨.peerPresent, u.eu.epoch, some d.sender, none, none⟩ u.eu.epoch

/-- t is the station v after a dispatch that matches has been handed on (R93, R94, R39, R45): a ROLL has
no further effect; from the block's mapped owner it is staged where the block is subscribed, the room
answer was not "no room" and the table has room (without a question that last test decides, log
entry 25); from any other sender it gives USURP for an owned block, else OWNER_MISMATCH. -/
def handedOn (d : Incoming) (v t : State) : Prop :=
  t = { v with
      staging := t.staging, events := t.events
      counters := { v.counters with staged := t.counters.staged } }
    ∧ (d.kind = .roll → t = v)
    ∧ (d.kind ≠ .roll → v.cfg.owners[d.block] = some d.sender → t.events = v.events
      ∧ ∀ staged : Prop,
        (staged ↔ (v.cfg.subs[d.block] = true ∨ d.sender = v.straps.sid) ∧ d.room ≠ some false
          ∧ roomFor v.staging d.block = true) →
        (staged →
          t.staging = stage v.staging d.block d.sender d.seq (spanWords d.span d.words)
            ∧ t.counters.staged = bump v.counters.staged)
        ∧ (¬ staged → t.staging = v.staging ∧ t.counters.staged = v.counters.staged))
    ∧ (d.kind ≠ .roll → v.cfg.owners[d.block] ≠ some d.sender →
        t.staging = v.staging ∧ t.counters.staged = v.counters.staged
        ∧ t.events = addEvent v.events
            ⟨if v.cfg.owners[d.block] = some v.straps.sid then .usurp else .ownerMismatch,
              v.eu.epoch, some d.sender, some d.block, none⟩ v.eu.epoch)

/-! ### Receiving a run of characters -/

/-- The line after a character has been delivered at its stop sample (R62): HUNT, or after a framing error
out of HUNT inside the dominant run that reaches into the stop bit (R67); its boundary follows (R65). -/
def afterCharacter (l : Line) (data : Byte) (marker framing : Bool) : Line :=
  if framing then
    { l with
      st := .awaitRecessive, lrx := .dominant, peers := .dominant, run := dominantTail data marker
      charTime := some 10, samples := [], sampled := some ⟨.recessive, .dominant⟩ }
  else { huntLine l with charTime := some 10, sampled := some ⟨.recessive, .recessive⟩ }

/-- What a malformed condition does besides the discard (R85, R121, R128): a break is asked for in
JOINING and MEMBER, and in MUTE the clean-receive counter returns to 0. -/
def objected (s t : State) : Prop :=
  t.rx.st = .discard
    ∧ t.line.request = (s.line.request
        || decide (s.mem.station = .joining ∨ s.mem.station = .member))
    ∧ t.mute = (if s.mem.station = .mute then { s.mute with clean := 0 } else s.mute)

/-- The malformed conditions inside a dispatch (R84), character by character. -/
def malformedCharacter (ph : RxPhase) (d : Incoming) (check : Word) (data : Byte)
    (marker framing : Bool) : Prop :=
  marker = true ∨ framing = true
    ∨ (ph = .header ∧ d.kind ≠ .roll ∧ d.chars = 0 ∧ 63 < data.toNat)
    ∨ (ph = .header ∧ d.kind ≠ .roll ∧ 3 ≤ d.chars ∧ 16 < data.toNat / 16 + (data.toNat % 16 + 1))
    ∨ (ph = .header ∧ d.kind = .refresh ∧ 3 ≤ d.chars ∧ data ≠ 0x0F)
    ∨ (ph = .check ∧ ∃ high, d.high = some high ∧ high ++ data ≠ check)


/-- The steps by which the Line Interface receives the characters of a dispatch: each from its start
edge, well framed, marker 1 in the claim alone (R61, R62, R74). -/
def hearingSteps : List Byte → List Instr
  | [] => []
  | claim :: rest =>
      [.startEdge, .characterDelivered claim true false]
        ++ rest.flatMap fun c => [.startEdge, .characterDelivered c false false]

/-- The state after a run of commands, carried out one after another. -/
def State.after (s : State) (cs : List Instr) : State :=
  cs.foldl (fun acc c => match exec c acc with
    | .next t => t
    | .fault _ => acc
    | .refused _ => acc) s

end Sys2Proof.Machine
end

