-- ==== Sys2Proof/Certificates/Slice0/Obligations.lean ====
section
/-! DEFINITION. The statements for the provers. -/

open Sys2Proof Sys2Proof.Machine

/-! ### The step -/

/-- A step takes the command at the front of the queue and is its meaning on the queue's rest. -/
def Obligations.StepRunsFrontCommand : Prop :=
  ∀ (c : Instr) (rest : List Instr) (s : State), s.pending = c :: rest →
    step s = exec c { s with pending := rest }

/-- With an empty queue a step is one bit time when nothing is due, else one of the due steps (the
model's choice, log entries 3 and 5). One bit time moves what the rules time in bit times: the running
pass, the epoch counter, the hold, the not-drivable test, the line-low and restoration timers, the quiet
tail, the character in reception, the idle count, the dominant run, the answer slot and the break drive
(R19, R28, R30, R33, R34, R36, R51, R61, R64 to R68, R70); the data line reads dominant while the
station pulls it, else what its peers were last said to give it, and its own pull of ELN is read as a fall
(log entry 4). A mismatch is due once for each bit driven: of the
mid-bit sample where a command has told it, else of what the line reads (R72). Each timed step is due exactly when
its time has come. -/
def Obligations.EmptyQueueStepIsDueStepOrBitTime : Prop :=
  (∀ s : State, s.pending = [] →
    (s.due = [] → step s = .next s.advance)
      ∧ (s.due ≠ [] → ∃ i ∈ s.due, step s = exec i { s with free := s.free + 1 }))
  ∧ (∀ s t : State, t = s.advance →
    (∃ u : State, t = { u with line := t.line, eu := t.eu, free := s.free + 1 }
      ∧ (s.commit.pass = none → u = s)
      ∧ (∀ p, s.commit.pass = some p → ∃ k ≤ s.staging.length, u = State.commitSome p.epoch k
          { s with commit := { s.commit with pass := some { p with time := p.time + 1 } } }))
    ∧ t.eu = { s.eu with
        counter := if s.eu.unit = .dormant then s.eu.counter else min 65535 (s.eu.counter + 1)
        hold := if s.eu.unit = .assert ∧ s.eu.holdOut = false
          then min s.cfg.holdLen (s.eu.hold + 1) else s.eu.hold
        driveTest := s.eu.driveTest.map fun n => min 4 (n + 1)
        lowTimer := if s.eu.unit = .waitRise then min (4 * s.cfg.holdLen) (s.eu.lowTimer + 1)
          else s.eu.lowTimer
        restTimer := if s.eu.unit ≠ .coast then s.eu.restTimer
          else if s.eu.eln = .recessive then min s.cfg.epochLen (s.eu.restTimer + 1) else 0
        tail := s.eu.tail.map fun n => min 11 (n + 1) }
    ∧ t.line = { s.line with
        lrx := s.lineNow
        charTime := (match s.line.charTime with
          | some n => if n < 10 then some (n + 1) else none
          | none => none)
        samples := if s.line.st = .assemble ∧ s.line.charTime ≠ none
          then s.line.samples ++ [s.lineNow] else s.line.samples
        sampled := none
        idleCount := if s.lineNow = .dominant then 0
          else if s.line.st = .hunt ∧ s.line.slot = none ∧ s.line.charTime = none
          then min 11 (s.line.idleCount + 1) else s.line.idleCount
        run := if s.lineNow = .dominant then min 88 (s.line.run + 1) else 0
        slot := if s.line.charTime = none then s.line.slot.map (fun n => min 11 (n + 1))
          else s.line.slot
        drive := s.line.drive.map fun n => min 14 (n + 1)
        sendPos := t.line.sendPos }
    ∧ (∀ a, s.tx = .active .claiming a ∨ s.tx = .active .sending a →
        t.line.sendPos = if s.line.sendPos < 11 * a.chars.length then s.line.sendPos + 1
          else s.line.sendPos)
    ∧ (s.line.drive ≠ none → s.lineNow = .dominant)
    ∧ (s.line.drive = none → (∀ a, s.tx = .active .claiming a ∨ s.tx = .active .sending a →
        s.lineNow = if sentLevel a.chars s.line.sendPos = .dominant then .dominant
          else s.line.peers))
    ∧ (s.line.drive = none →
        s.tx = .standby ∨ (∃ a, s.tx = .active .slotWait a) → s.lineNow = s.line.peers))
  ∧ (∀ s : State,
    (.epochExpiry ∈ s.due ↔ s.cfg.epochLen ≤ s.eu.counter ∧ (s.eu.unit = .follow
      ∨ s.eu.unit = .run ∨ (s.eu.unit = .coast ∧ s.commit.pass = none)))
    ∧ ((∃ l, .holdRunOut l ∈ s.due)
      ↔ s.eu.unit = .assert ∧ s.eu.holdOut = false ∧ s.cfg.holdLen ≤ s.eu.hold)
    ∧ (.elnFall ∈ s.due ↔ s.eu.unit = .assert ∧ s.eu.eln = .recessive)
    ∧ (.notDrivable ∈ s.due ↔ s.eu.unit = .assert ∧ s.eu.driveTest = some 4
      ∧ s.eu.eln = .recessive)
    ∧ (.lineLowLimit ∈ s.due ↔ s.eu.unit = .waitRise
      ∧ (4 * s.cfg.holdLen ≤ s.eu.lowTimer ∨ s.cfg.epochLen ≤ s.eu.counter))
    ∧ (.lineRestored ∈ s.due ↔ s.eu.unit = .coast ∧ s.commit.pass = none
      ∧ s.cfg.epochLen ≤ s.eu.restTimer)
    ∧ (.quietTailEnd ∈ s.due ↔ s.eu.tail = some 11)
    ∧ (∀ p, s.commit.pass = some p → p.bound ≤ p.time → ∃ l, .commitPassEnd l ∈ s.due)
    ∧ (s.commit.pass = none → ∀ l, .commitPassEnd l ∉ s.due)
    ∧ (.busIdle ∈ s.due ↔ s.line.st = .hunt ∧ s.line.slot = none ∧ s.line.idleCount = 11
      ∧ s.line.idle = false)
    ∧ (.slotClean ∈ s.due ↔ s.line.slot = some 11 ∧ s.lineNow = .recessive)
    ∧ (.slotBroken ∈ s.due ↔ s.line.slot ≠ none ∧ s.line.charTime = none ∧ s.lineNow = .dominant)
    ∧ (.startEdge ∈ s.due ↔ s.line.st = .hunt ∧ s.line.slot = none ∧ s.line.lrx = .recessive
      ∧ s.lineNow = .dominant)
    ∧ (.breakDriveStart ∈ s.due ↔ s.line.request = true
      ∧ (s.line.charTime = none ∨ s.line.charTime = some 0))
    ∧ (.breakDriven ∈ s.due ↔ s.line.drive = some 14)
    ∧ (.breakSeen ∈ s.due ↔ s.line.lrx = .dominant ∧ 11 ≤ s.line.run ∧ s.line.runSeen = false
      ∧ s.line.slot = none)
    ∧ (.breakEnd ∈ s.due ↔ s.line.lrx = .dominant ∧ s.lineNow = .recessive
      ∧ (s.line.st = .inBreak
        ∨ (s.line.st = .awaitRecessive ∧ s.line.runSeen = true ∧ 11 ≤ s.line.run)))
    ∧ (.busFault ∈ s.due ↔ s.line.lrx = .dominant ∧ 88 ≤ s.line.run ∧ s.line.busFault = false)
    ∧ (s.line.st = .assemble → s.line.charTime = some 10 →
      ∀ i, judgeSamples (s.line.samples ++ [s.lineNow]) = some i → i ∈ s.due)
    ∧ (.claim ∈ s.due ↔ s.busFree = true ∧ s.nextEntry ≠ none)
    ∧ (.claimWon ∈ s.due ↔ (∃ a, s.tx = .active .claiming a) ∧ 11 ≤ s.line.sendPos
      ∧ sampleRefutes s.line = false)
    ∧ (.lastCheckSent ∈ s.due ↔ ∃ a, s.tx = .active .sending a
      ∧ 11 * a.chars.length ≤ s.line.sendPos ∧ sampleRefutes s.line = false)
    ∧ (.arbitrationLoss ∈ s.due ↔ s.line.drive = none ∧ ∃ a, s.tx = .active .claiming a
      ∧ (s.line.sampled = some ⟨.recessive, .dominant⟩
        ∨ (s.line.sampled = none ∧ s.lineNow = .dominant ∧ s.line.sendPos < 11
          ∧ sentLevel a.chars s.line.sendPos = .recessive)))
    ∧ (.bitFault ∈ s.due ↔ s.line.drive = none
      ∧ ((∃ a, s.tx = .active .claiming a ∧ s.line.sampled = some ⟨.dominant, .recessive⟩)
        ∨ ∃ a, s.tx = .active .sending a ∧ (sampleRefutes s.line = true
          ∨ (s.line.sampled = none ∧ s.lineNow = .dominant
            ∧ s.line.sendPos < 11 * a.chars.length
            ∧ sentLevel a.chars s.line.sendPos = .recessive)))))

/-- Every command answers a next state (no rule says so of all of them: log entry 27, and log entry 1 for
an event that cannot come about); it leaves the queue of commands, which is the model's, alone; the straps
change at hardware reset only (R133), and the configuration at hardware reset and CONFIGURE only (R3,
R170). -/
def Obligations.CommandsCompleteAndKeepStrapsAndConfig : Prop :=
  ∀ (i : Instr) (s : State), ∃ t, exec i s = .next t ∧ t.pending = s.pending
    ∧ ((∀ a b c d e, i ≠ .hardwareReset a b c d e) →
        t.straps = s.straps ∧ ((∀ args, i ≠ .configure args) → t.cfg = s.cfg))

/-! ### Reset -/

/-- State.reset holds the reset values of the spec; HARDWARE_RESET brings every block to them at once,
whatever was in progress, with the straps, the line levels and CS_N as sampled; its outputs are released or
high, and SDO is undriven, or carries filler while CS_N is still low from before (R160, R185). In every
state ELN is driven exactly in ASSERT (R21), EPO is low exactly while a commit pass runs (R32), ATTN_N is
low exactly while the Event Queue holds a record (R157), LTX is low for a break being driven and for a
dominant bit being sent alone (R59), and SDO is undriven exactly with no transaction in progress (R160). -/
def Obligations.ResetGivesResetValues : Prop :=
  (resetValues State.reset ∧ State.reset.pending = [])
    ∧ (∀ (sid : StationNo) (rate : BitVec 2) (lrx eln : Level) (csLow : Bool) (s : State),
      ∃ t, exec (.hardwareReset sid rate lrx eln csLow) s = .next t ∧ resetValues t
        ∧ t.straps = ⟨sid, rate⟩ ∧ t.line.lrx = lrx ∧ t.eu.eln = eln
        ∧ t.port.straddling = csLow
        ∧ ∀ n, t.outputs n = ⟨.recessive, false, false, false, if csLow then some 0xFF else none⟩)
    ∧ outputsInReset = ⟨.recessive, false, false, false, none⟩
    ∧ ∀ (s : State) (n : Nat),
      s.outputs n = ⟨s.ltx, decide (s.eu.unit = .assert), s.commit.pass.isSome,
          decide (s.events ≠ []), s.sdo n⟩
        ∧ (s.line.drive ≠ none → s.ltx = .dominant)
        ∧ (s.line.drive = none → (∀ a, s.tx = .active .claiming a ∨ s.tx = .active .sending a →
            s.ltx = sentLevel a.chars s.line.sendPos)
          ∧ (s.tx = .standby ∨ (∃ a, s.tx = .active .slotWait a) → s.ltx = .recessive))
        ∧ (s.sdo n = none ↔ s.port.straddling = false ∧ s.port.txn = none)

/-! ### The local port: transactions and reads -/

/-- TRANSACTION_START fixes the summary byte (R162, R184), sent as byte 0, and changes nothing but the port.
The codes of the station states and of the results are those of R184. -/
def Obligations.TransactionStartFixesSummary : Prop :=
  ∀ s : State, ∃ b : Byte,
    exec .transactionStart s = .next { s with port := { s.port with
      summary := b, txn := some ⟨none, 0, false⟩, straddling := false } }
      ∧ State.sdo { s with port := { s.port with
          summary := b, txn := some ⟨none, 0, false⟩, straddling := false } } 0 = some b
      ∧ b.toNat = s.mem.station.code * 32 + (if s.events = [] then 0 else 16)
          + (if s.commit.pass.isSome then 8 else 0) + s.port.last.code
      ∧ [StationState.unconfigured, .idle, .listen, .joining, .member, .mute].map StationState.code
        = [0, 1, 2, 3, 4, 5]
      ∧ [Result.ok, .busyCommit, .wrongState, .notOwner, .badArgument, .queueFull, .unknownCommand,
          .frameError].map Result.code = [0, 1, 2, 3, 4, 5, 6, 7]

/-- READ_STATUS sends the nine bytes of the status record, in every state and during a pass, and
changes nothing but the port; a transaction that straddles reset is ignored. The codes of the station and
unit states are those of R184. What any read then sends on SDO, byte by byte from the fall of CS_N (R161,
R163, R167): the summary byte, 0xFF under the argument bytes, the result byte, with OK the port buffer in
order, and 0xFF after it, or after any other result; until a frame is complete, and for a write, 0xFF. -/
def Obligations.ReadStatusSnapshot : Prop :=
  [StationState.unconfigured, .idle, .listen, .joining, .member, .mute].map StationState.code
      = [0, 1, 2, 3, 4, 5]
  ∧ [UnitState.dormant, .follow, .run, .assert, .waitRise, .coast].map UnitState.code
      = [0, 1, 2, 3, 4, 5]
  ∧ (∀ (s : State) (c : Byte) (b : Nat), s.port.straddling = false →
      s.port.txn = some ⟨some c, b, true⟩ → 1 ≤ b →
      s.sdo 0 = some s.port.summary
      ∧ (∀ n, 0 < n → n < b → s.sdo n = some 0xFF)
      ∧ s.sdo b = some (BitVec.ofNat 8 s.port.result.code)
      ∧ ∀ k, s.sdo (b + 1 + k) = some (if s.port.result = .ok then s.port.buffer.getD k 0xFF else 0xFF))
  ∧ (∀ (s : State) (c : Option Byte) (b : Nat), s.port.straddling = false →
      s.port.txn = some ⟨c, b, false⟩ →
      s.sdo 0 = some s.port.summary ∧ ∀ n, 0 < n → s.sdo n = some 0xFF)
  ∧ ∀ s : State,
    (s.port.straddling = true → exec .readStatus s = .next s)
      ∧ (s.port.straddling = false →
        exec .readStatus s = .next { s with port := { s.port with
          txn := some ⟨some 0x10, 1, true⟩
          result := .ok
          evSnap := []
          buffer :=
            [BitVec.ofNat 8 (s.mem.station.code * 32 + if s.mem.leavePending then 16 else 0),
              BitVec.ofNat 8 (s.eu.unit.code * 32 + (if s.eu.eln = .recessive then 16 else 0)
                + if s.tx = .standby then 0 else 8),
              s.eu.epoch, BitVec.ofNat 8 (s.eu.counter / 256), BitVec.ofNat 8 s.eu.counter,
              BitVec.ofNat 8 s.pub.queue.length, BitVec.ofNat 8 s.staging.length,
              BitVec.ofNat 8 s.mute.consecutive, BitVec.ofNat 8 s.mute.clean] } })

/-- READ_CONFIG sends the configuration record of 82 bytes with the subscription flags as given;
READ_COUNTERS the eight counters in order, two bytes each, high byte first. Both are taken in every
state. -/
def Obligations.ReadConfigAndCountersSnapshot : Prop :=
  (∀ s : State,
      (s.port.straddling = true → exec .readConfig s = .next s)
        ∧ (s.port.straddling = false → ∃ t, exec .readConfig s = .next t
          ∧ t = { s with port := { s.port with
              txn := some ⟨some 0x11, 1, true⟩, result := .ok, evSnap := []
              buffer := t.port.buffer } }
          ∧ t.port.buffer.length = 82
          ∧ t.port.buffer.take 8 = [BitVec.ofNat 8 (s.cfg.epochLen / 256),
              BitVec.ofNat 8 s.cfg.epochLen, BitVec.ofNat 8 (s.cfg.holdLen / 256),
              BitVec.ofNat 8 s.cfg.holdLen, BitVec.ofNat 8 s.cfg.silenceLimit,
              BitVec.ofNat 8 s.cfg.refreshPeriod, BitVec.ofNat 8 s.cfg.listenLimit,
              BitVec.ofNat 8 (match s.cfg.mode with
                | .none => 0
                | .changes => 1
                | .every => 2)]
          ∧ (∀ b : Block, t.port.buffer.getD (8 + b.val) 0
              = match s.cfg.owners[b] with
                | some n => BitVec.ofNat 8 n.val
                | none => 0xFF)
          ∧ (∀ b : Block, (t.port.buffer.getD (72 + b.val / 8) 0).getLsbD (7 - b.val % 8)
              = s.cfg.subs[b])
          ∧ t.port.buffer.drop 80
              = [BitVec.ofNat 8 s.straps.sid.val, BitVec.ofNat 8 s.straps.rate.toNat]))
    ∧ (∀ s : State,
      (s.port.straddling = true → exec .readCounters s = .next s)
        ∧ (s.port.straddling = false →
          exec .readCounters s = .next { s with port := { s.port with
            txn := some ⟨some 0x12, 1, true⟩
            result := .ok
            evSnap := []
            buffer := [s.counters.accepted, s.counters.staged, s.counters.breaksRaised,
                s.counters.breaksSeen, s.counters.arbitrationLosses, s.counters.cuts,
                s.counters.mismatches, s.counters.truncations].flatMap fun n =>
              [BitVec.ofNat 8 (n / 256), BitVec.ofNat 8 n] } }))

/-- READ_PEERS is refused in UNCONFIGURED; in every other state it sends the 32 peer records.
READ_COMMIT_REPORT: WRONG_STATE in UNCONFIGURED, then BUSY_COMMIT while a pass runs, else the report; the
empty report as epoch number 0 and count 0. -/
def Obligations.ReadPeersAndCommitReportSnapshot : Prop :=
  (∀ s : State,
      (s.port.straddling = true → exec .readPeers s = .next s)
        ∧ (s.port.straddling = false → ∃ t, exec .readPeers s = .next t
          ∧ t = { s with port := { s.port with
              txn := t.port.txn, result := t.port.result, buffer := t.port.buffer
              evSnap := if t.port.result = .ok then [] else s.port.evSnap } }
          ∧ t.port.txn = some ⟨some 0x14, 1, true⟩
          ∧ (s.mem.station = .unconfigured →
              t.port.result = .wrongState ∧ t.port.buffer = s.port.buffer)
          ∧ (s.mem.station ≠ .unconfigured → t.port.result = .ok ∧ t.port.buffer.length = 64
              ∧ ∀ n : StationNo,
                t.port.buffer.getD (2 * n.val) 0 = BitVec.ofNat 8 ((match s.mem.peers[n].state with
                    | .absent => 0
                    | .present => 64
                    | .silent => 128
                    | .self => 192)
                  + (if s.mem.peers[n].heard then 32 else 0)
                  + (if s.mem.peers[n].lastHeard.isSome then 16 else 0) + s.mem.peers[n].silence)
                ∧ t.port.buffer.getD (2 * n.val + 1) 0 = s.mem.peers[n].lastHeard.getD 0)))
    ∧ (∀ s : State,
      (s.port.straddling = true → exec .readCommitReport s = .next s)
        ∧ (s.port.straddling = false → ∃ t, exec .readCommitReport s = .next t
          ∧ t = { s with port := { s.port with
              txn := t.port.txn, result := t.port.result, buffer := t.port.buffer
              evSnap := if t.port.result = .ok then [] else s.port.evSnap } }
          ∧ t.port.txn = some ⟨some 0x15, 1, true⟩
          ∧ t.port.result = (if s.mem.station = .unconfigured then .wrongState
              else if s.commit.pass.isSome then .busyCommit else .ok)
          ∧ (t.port.result ≠ .ok → t.port.buffer = s.port.buffer)
          ∧ (t.port.result = .ok → t.port.buffer = match s.commit.report with
              | none => [0, 0]
              | some r => r.epoch :: BitVec.ofNat 8 r.blocks.length
                  :: (r.blocks.map fun p => [BitVec.ofNat 8 p.1.val, BitVec.ofNat 8 p.2.val]).flatten)))

/-- READ_IMAGE: the checks in the order of R163, then the block's status record and the words of the span,
all as they stand. READ_DRAFT: the same checks but that of the pass, then the draft words of the span.
Nothing but the port changes. -/
def Obligations.ReadImageAndDraftSnapshot : Prop :=
  (∀ (block first count : Byte) (s : State),
      (s.port.straddling = true → exec (.readImage block first count) s = .next s)
        ∧ (s.port.straddling = false → ∃ t, exec (.readImage block first count) s = .next t
          ∧ t = { s with port := { s.port with
              txn := t.port.txn, result := t.port.result, buffer := t.port.buffer
              evSnap := if t.port.result = .ok then [] else s.port.evSnap } }
          ∧ t.port.txn = some ⟨some 0x20, 4, true⟩
          ∧ t.port.result = (if s.mem.station = .unconfigured then .wrongState
              else if ¬ (block.toNat ≤ 63 ∧ first.toNat ≤ 15 ∧ 1 ≤ count.toNat ∧ count.toNat ≤ 16
                ∧ first.toNat + count.toNat ≤ 16) then .badArgument
              else if s.commit.pass.isSome then .busyCommit else .ok)
          ∧ (t.port.result ≠ .ok → t.port.buffer = s.port.buffer)
          ∧ (t.port.result = .ok →
              t.port.buffer.take 4 = s.blockBytes (Fin.ofNat 64 block.toNat)
                ∧ t.port.buffer.length = 4 + 2 * count.toNat
                ∧ ∀ k < count.toNat,
                  t.port.buffer.getD (4 + 2 * k) 0 ++ t.port.buffer.getD (5 + 2 * k) 0
                    = s.image.words.read (16 * block.toNat + first.toNat + k))))
    ∧ (∀ (block first count : Byte) (s : State),
      (s.port.straddling = true → exec (.readDraft block first count) s = .next s)
        ∧ (s.port.straddling = false → ∃ t, exec (.readDraft block first count) s = .next t
          ∧ t = { s with port := { s.port with
              txn := t.port.txn, result := t.port.result, buffer := t.port.buffer
              evSnap := if t.port.result = .ok then [] else s.port.evSnap } }
          ∧ t.port.txn = some ⟨some 0x22, 4, true⟩
          ∧ t.port.result = (if s.mem.station = .unconfigured then .wrongState
              else if ¬ (block.toNat ≤ 63 ∧ first.toNat ≤ 15 ∧ 1 ≤ count.toNat ∧ count.toNat ≤ 16
                ∧ first.toNat + count.toNat ≤ 16) then .badArgument else .ok)
          ∧ (t.port.result ≠ .ok → t.port.buffer = s.port.buffer)
          ∧ (t.port.result = .ok → t.port.buffer.length = 2 * count.toNat
              ∧ ∀ k < count.toNat,
                t.port.buffer.getD (2 * k) 0 ++ t.port.buffer.getD (2 * k + 1) 0
                  = s.image.draft.read (16 * block.toNat + first.toNat + k))))

/-- READ_BLOCK_STATUS: the checks in the order of R163, then the status records of the run of blocks,
each of four bytes as R184 lays them out. -/
def Obligations.ReadBlockStatusSnapshot : Prop :=
  ∀ (first count : Byte) (s : State),
    (s.port.straddling = true → exec (.readBlockStatus first count) s = .next s)
      ∧ (s.port.straddling = false → ∃ t, exec (.readBlockStatus first count) s = .next t
        ∧ t = { s with port := { s.port with
            txn := t.port.txn, result := t.port.result, buffer := t.port.buffer
            evSnap := if t.port.result = .ok then [] else s.port.evSnap } }
        ∧ t.port.txn = some ⟨some 0x21, 3, true⟩
        ∧ t.port.result = (if s.mem.station = .unconfigured then .wrongState
            else if ¬ (first.toNat ≤ 63 ∧ 1 ≤ count.toNat ∧ count.toNat ≤ 64
              ∧ first.toNat + count.toNat ≤ 64) then .badArgument
            else if s.commit.pass.isSome then .busyCommit else .ok)
        ∧ (t.port.result ≠ .ok → t.port.buffer = s.port.buffer)
        ∧ (t.port.result = .ok → t.port.buffer.length = 4 * count.toNat
            ∧ ∀ b : Block, first.toNat ≤ b.val → b.val < first.toNat + count.toNat →
              (t.port.buffer.drop (4 * (b.val - first.toNat))).take 4 =
                [BitVec.ofNat 8 ((match s.image.blocks[b].status with
                    | .empty => 0
                    | .current => 64
                    | .torn => 128
                    | .stale => 192)
                  + (if s.cfg.subs[b] = true ∨ s.cfg.owners[b] = some s.straps.sid then 32 else 0)
                  + (if s.cfg.owners[b] = some s.straps.sid then 16 else 0)
                  + (if s.image.blocks[b].lce.isSome then 8 else 0)),
                  (match s.cfg.owners[b] with
                    | some n => BitVec.ofNat 8 n.val
                    | none => 0xFF),
                  s.image.blocks[b].seq, s.image.blocks[b].lce.getD 0]))

/-- READ_EVENTS: a maximum of 0 or above 32 is BAD_ARGUMENT; else the response is k, the smaller of
the maximum and the number held, and the k oldest records of seven bytes; no record leaves yet. The codes
of the kinds are those of R184. -/
def Obligations.ReadEventsSnapshot : Prop :=
  [EventKind.epochCommitted, .peerPresent, .peerSilent, .usurp, .ownerMismatch, .duplicateId,
      .stagingRefused, .txAbandoned, .epochAdopted, .joined, .joinFailed, .muteEntered, .muteLeft,
      .left, .lineFault, .lineRestored, .busFault, .busRestored, .overflow].map EventKind.code
    = [1, 2, 3, 4, 5, 6, 7, 8, 9, 10, 11, 12, 13, 14, 15, 16, 17, 18, 19]
  ∧ ∀ (maximum : Byte) (s : State),
    (s.port.straddling = true → exec (.readEvents maximum) s = .next s)
      ∧ (s.port.straddling = false → ∃ t, exec (.readEvents maximum) s = .next t
        ∧ t = { s with port := { s.port with
            txn := t.port.txn, result := t.port.result, buffer := t.port.buffer
            evSnap := t.port.evSnap } }
        ∧ t.port.txn = some ⟨some 0x13, 2, true⟩
        ∧ (¬ (1 ≤ maximum.toNat ∧ maximum.toNat ≤ 32) →
            t.port.result = .badArgument ∧ t.port.buffer = s.port.buffer
              ∧ t.port.evSnap = s.port.evSnap)
        ∧ (1 ≤ maximum.toNat ∧ maximum.toNat ≤ 32 →
            t.port.result = .ok ∧ t.port.evSnap = s.events.take maximum.toNat
              ∧ t.port.buffer
                = BitVec.ofNat 8 (min maximum.toNat s.events.length)
                  :: (t.port.evSnap.map fun e =>
                    [BitVec.ofNat 8 e.kind.code, e.epoch,
                      BitVec.ofNat 8 ((if e.station.isSome then 128 else 0)
                        + (if e.block.isSome then 64 else 0) + if e.value.isSome then 32 else 0),
                      (match e.station with
                        | some n => BitVec.ofNat 8 n.val
                        | none => 0xFF),
                      (match e.block with
                        | some b => BitVec.ofNat 8 b.val
                        | none => 0xFF),
                      BitVec.ofNat 8 (e.value.getD 0 / 256),
                      BitVec.ofNat 8 (e.value.getD 0)]).flatten))

/-- READ_EVENTS_END removes exactly the snapshot records whose last byte was clocked out. A grown
OVERFLOW record clocked out whole stays with the difference. -/
def Obligations.ReadEventsEndRemovesClockedRecords : Prop :=
  ∀ (clocked n : Nat) (s : State),
    s.port.txn = some ⟨some 0x13, n, true⟩ → s.port.straddling = false →
    ∃ t, exec (.readEventsEnd clocked) s = .next t
      ∧ t = { s with events := t.events
                     port := { s.port with last := s.port.result, txn := none } }
      ∧ (s.port.result ≠ .ok → t.events = s.events)
      ∧ (s.port.result = .ok → s.events.take s.port.evSnap.length = s.port.evSnap →
          t.events = s.events.drop (min s.port.evSnap.length ((clocked - 4) / 7)))
      ∧ (∀ pre o v w, s.port.result = .ok → s.port.evSnap = pre ++ [o] →
          s.events = pre ++ [{ o with value := some w }] → o.kind = .overflow →
          o.value = some v → v < w →
          t.events = if 4 + 7 * s.port.evSnap.length ≤ clocked
            then [{ o with value := some (w - v) }] else s.events.drop ((clocked - 4) / 7))

/-- READ_TRANSACTION_END records the result that the read's result byte carried (after READ_EVENTS it removes
no record: log entry 23); FRAME_ERROR and UNKNOWN_COMMAND record theirs, also where the framing state holds
a complete read (log entry 38). None has another effect. The end of a transaction that straddles reset,
whichever row tells it, a write included, records nothing, and the write does not act (R160, log
entry 32). -/
def Obligations.TransactionEndsRecordTheirResult : Prop :=
  (∀ (c : Byte) (n : Nat) (s : State), s.port.txn = some ⟨some c, n, true⟩ →
      s.port.straddling = false → exec .readTransactionEnd s
        = .next { s with port := { s.port with last := s.port.result, txn := none } })
    ∧ (∀ s : State, s.port.straddling = false →
      exec .frameError s = .next { s with port := { s.port with last := .frameError, txn := none } }
        ∧ ∀ c : Byte, (∀ k ∈ commandBytes, k ≠ c) → exec (.unknownCommand c) s
          = .next { s with port := { s.port with last := .unknownCommand, txn := none } })
    ∧ (∀ s t : State, s.port.straddling = true →
      t = { s with port := { s.port with straddling := false, txn := none } } →
      exec .readTransactionEnd s = .next t ∧ (∀ clocked, exec (.readEventsEnd clocked) s = .next t)
        ∧ exec .frameError s = .next t
        ∧ (∀ c : Byte, (∀ k ∈ commandBytes, k ≠ c) → exec (.unknownCommand c) s = .next t)
        ∧ (∀ block first count data, exec (.writeDraft block first count data) s = .next t)
        ∧ (∀ block first count, exec (.publish block first count) s = .next t)
        ∧ (∀ args, exec (.configure args) s = .next t)
        ∧ exec .start s = .next t ∧ exec .leave s = .next t)

/-! ### The local port: writes -/

/-- WRITE_DRAFT: the checks in the order of R163; a write that passes puts all its words into the
draft of the owned block together and touches no other word; one that fails changes nothing but the
recorded result. -/
def Obligations.WriteDraftWritesItsWords : Prop :=
  ∀ (block first count : Byte) (data : List Byte) (s : State), s.port.straddling = false →
    ∃ t, exec (.writeDraft block first count data) s = .next t
      ∧ t.port = { s.port with last := t.port.last, txn := none }
      ∧ t.port.last =
        (if (1 ≤ count.toNat ∧ count.toNat ≤ 16) ∧ data.length < 2 * count.toNat then .frameError
        else if s.mem.station = .unconfigured then .wrongState
        else if ¬ (block.toNat ≤ 63 ∧ first.toNat ≤ 15 ∧ 1 ≤ count.toNat ∧ count.toNat ≤ 16
          ∧ first.toNat + count.toNat ≤ 16) then .badArgument
        else if s.cfg.owners[(Fin.ofNat 64 block.toNat : Block)] ≠ some s.straps.sid then .notOwner
        else .ok)
      ∧ t = { s with port := t.port, image := { s.image with draft := t.image.draft } }
      ∧ (t.port.last ≠ .ok → t.image.draft = s.image.draft)
      ∧ (t.port.last = .ok → s.image.draft.wf = true →
          t.image.draft.wf = true ∧
          ∀ (b : Block) (w : WordNo), t.image.draft.read (16 * b.val + w.val)
            = if b.val = block.toNat ∧ first.toNat ≤ w.val ∧ w.val < first.toNat + count.toNat
              then data.getD (2 * (w.val - first.toNat)) 0
                ++ data.getD (2 * (w.val - first.toNat) + 1) 0
              else s.image.draft.read (16 * b.val + w.val))

/-- PUBLISH: the checks in the order of R163, with QUEUE_FULL when a new entry would bring the keys in
use above 8, or above 7 in LISTEN and JOINING; the queued UPDATE of the block widens, a queued
REFRESH stays, and else a new UPDATE joins the queue. Nothing else changes. A span widened by another goes
from the lower first word to the higher last word. -/
def Obligations.PublishQueuesAnUpdate : Prop :=
  (∀ a b : Span, (a.union b).first.val = min a.first.val b.first.val
      ∧ (a.union b).last.val = max a.last.val b.last.val)
  ∧ ∀ (block first count : Byte) (s : State), s.port.straddling = false →
    ∃ t, exec (.publish block first count) s = .next t
      ∧ t.port = { s.port with last := t.port.last, txn := none }
      ∧ t = { s with port := t.port
                     pub := { s.pub with queue := t.pub.queue, nextOrder := t.pub.nextOrder } }
      ∧ (t.port.last ≠ .ok → t.pub = s.pub)
      ∧ ((s.mem.station.onBus = false ∨ s.mem.leavePending = true) → t.port.last = .wrongState)
      ∧ ((s.mem.station.onBus = true ∧ s.mem.leavePending = false) →
        (¬ (block.toNat ≤ 63 ∧ first.toNat ≤ 15 ∧ 1 ≤ count.toNat ∧ count.toNat ≤ 16
            ∧ first.toNat + count.toNat ≤ 16) → t.port.last = .badArgument)
        ∧ ∀ (b : Block) (sp : Span), b.val = block.toNat → sp.first.val = first.toNat →
            sp.last.val + 1 = first.toNat + count.toNat → 1 ≤ count.toNat →
          (s.cfg.owners[b] ≠ some s.straps.sid → t.port.last = .notOwner)
          ∧ (s.cfg.owners[b] = some s.straps.sid →
            (Key.ofBlock b ∈ queueKeys s.pub.queue → t.port.last = .ok
              ∧ t.pub.nextOrder = s.pub.nextOrder
              ∧ t.pub.queue = s.pub.queue.map fun e => match e.duty with
                  | .update b' old =>
                      if b' = b then { e with duty := .update b (old.union sp) } else e
                  | .refresh _ => e
                  | .roll => e)
            ∧ (Key.ofBlock b ∉ queueKeys s.pub.queue →
              (t.port.last = .ok ↔ s.pub.queue.length + 1
                  + (match s.flightKey with
                      | some k => if k = .ofBlock b ∨ k ∈ queueKeys s.pub.queue then 0 else 1
                      | none => 0)
                  ≤ if s.mem.station = .listen ∨ s.mem.station = .joining then 7 else 8)
              ∧ (t.port.last ≠ .ok → t.port.last = .queueFull)
              ∧ (t.port.last = .ok →
                t.pub.queue.Perm (⟨.update b sp, 0, s.pub.nextOrder, false⟩ :: s.pub.queue)))))

/-- The argument tests of CONFIGURE (R169) and the values it takes: with 80 bytes, settings come out
exactly when every range and relation holds. -/
def Obligations.ConfigureArgumentTests : Prop :=
  ∀ args : List Byte, ∀ v : Nat → Nat, (∀ i, v i = (args.getD i 0).toNat) →
    ((parseSettings args).isSome = true ↔
      2048 ≤ v 0 * 256 + v 1 ∧ 32 ≤ v 2 * 256 + v 3 ∧ v 2 * 256 + v 3 ≤ 1023
        ∧ (v 2 * 256 + v 3) * 8 ≤ v 0 * 256 + v 1
        ∧ 2 ≤ v 4 ∧ v 4 ≤ 15 ∧ 2 ≤ v 6 ∧ v 6 ≤ 15 ∧ v 7 ≤ 2
        ∧ ∀ b : Block, v (8 + b.val) ≤ 31 ∨ v (8 + b.val) = 255)
    ∧ ∀ c, parseSettings args = some c →
      c.epochLen = v 0 * 256 + v 1 ∧ c.holdLen = v 2 * 256 + v 3 ∧ c.silenceLimit = v 4
        ∧ c.refreshPeriod = v 5 ∧ c.listenLimit = v 6
        ∧ c.mode = (if v 7 = 0 then .none else if v 7 = 1 then .changes else .every)
        ∧ (∀ b : Block, c.owners[b].map Fin.val
            = if v (8 + b.val) = 255 then none else some (v (8 + b.val)))
        ∧ ∀ b : Block, c.subs[b] = (args.getD (72 + b.val / 8) 0).getLsbD (7 - b.val % 8)

/-- CONFIGURE: a short frame, a station on the bus or a bad argument changes nothing but the recorded
result; else the blocks take their values and the station is IDLE (R134, R169, R170). -/
def Obligations.ConfigureSetsEverythingOrNothing : Prop :=
  ∀ (args : List Byte) (s : State), s.port.straddling = false →
    ∃ t, exec (.configure args) s = .next t
      ∧ t.port = { s.port with last := t.port.last, txn := none }
      ∧ t.port.last = (if args.length < 80 then .frameError
          else if s.mem.station.onBus then .wrongState
          else if parseSettings args = none then .badArgument else .ok)
      ∧ (t.port.last ≠ .ok → t = { s with port := t.port })
      ∧ (t.port.last = .ok →
          parseSettings args = some t.cfg ∧ t.mem.station = .idle ∧ t.mem.leavePending = false
          ∧ t.mem.listenCount = 0 ∧ t.mem.joiningCount = 0 ∧ t.mem.epochTaken = false
          ∧ (∀ n : StationNo, t.mem.peers[n]
              = ⟨if n = s.straps.sid then .self else .absent, false, 0, none⟩)
          ∧ (∀ a, t.image.words.read a = 0) ∧ (∀ a, t.image.draft.read a = 0)
          ∧ (∀ b : Block, t.image.blocks[b] = ⟨.empty, 0, none⟩ ∧ t.image.lastSeq[b] = 0
              ∧ t.pub.countdown[b] = 0)
          ∧ t.staging = [] ∧ t.commit = ⟨none, none⟩ ∧ t.pub.queue = [] ∧ t.tx = .standby
          ∧ t.pub.silence = 0 ∧ t.pub.ownAccepted = false
          ∧ t.eu.unit = .dormant ∧ t.eu.counter = 0 ∧ t.eu.epoch = 0 ∧ t.eu.eln = s.eu.eln
          ∧ t.rx = ⟨.off, 0xFFFF⟩ ∧ t.counters = ⟨0, 0, 0, 0, 0, 0, 0, 0⟩ ∧ t.mute = ⟨0, 0⟩
          ∧ t.events = s.events ∧ t.straps = s.straps ∧ t.line = s.line)

/-- START in IDLE moves the station to LISTEN with the effects of R135 and keeps the image, the
staging table, the report, the peer table and the counters; in every other state it is WRONG_STATE
and changes nothing. -/
def Obligations.StartEntersListen : Prop :=
  ∀ s : State, s.port.straddling = false → ∃ t, exec .start s = .next t
    ∧ t.port = { s.port with last := t.port.last, txn := none }
    ∧ (s.mem.station ≠ .idle → t = { s with port := { s.port with last := .wrongState, txn := none } })
    ∧ (s.mem.station = .idle → s.tx = .standby → t.port.last = .ok
      ∧ t.mem = { s.mem with
          station := .listen, listenCount := 0, joiningCount := 0, epochTaken := false }
      ∧ t.mute = ⟨0, 0⟩
      ∧ t.rx = { s.rx with st := if s.line.idle then .ready else .waitIdle }
      ∧ t.eu.unit = .follow ∧ t.eu.counter = 0 ∧ t.eu.epoch = s.eu.epoch ∧ t.eu.eln = s.eu.eln
      ∧ t.events = (if s.line.busFault
          then addEvent s.events ⟨.busFault, s.eu.epoch, none, none, none⟩ s.eu.epoch else s.events)
      ∧ t.cfg = s.cfg ∧ t.straps = s.straps ∧ t.image = s.image ∧ t.staging = s.staging
      ∧ t.commit = s.commit ∧ t.pub = s.pub ∧ t.tx = .standby ∧ t.counters = s.counters)

/-- LEAVE: WRONG_STATE off the bus; in JOINING, MEMBER and MUTE it sets leave-pending and nothing
else; in LISTEN it completes at once, after the commit pass that may be running. -/
def Obligations.LeaveSetsPendingOrCompletes : Prop :=
  ∀ s : State, s.port.straddling = false → ∃ t, exec .leave s = .next t
    ∧ t.port = { s.port with last := t.port.last, txn := none }
    ∧ (s.mem.station.onBus = false →
        t = { s with port := { s.port with last := .wrongState, txn := none } })
    ∧ (s.mem.station = .joining ∨ s.mem.station = .member ∨ s.mem.station = .mute →
        t = { s with port := { s.port with last := .ok, txn := none }
                     mem := { s.mem with leavePending := true } })
    ∧ (s.mem.station = .listen → t.port.last = .ok ∧ leftTheBus s.finishPass t)

/-- The configuration record round trip: the bytes READ_CONFIG sends for settings in range, given to
CONFIGURE, are read back as those settings. -/
def Obligations.ConfigurationRecordRoundTrip : Prop :=
  ∀ c : Settings, 2048 ≤ c.epochLen → c.epochLen ≤ 65535 → 32 ≤ c.holdLen → c.holdLen ≤ 1023 →
    c.holdLen * 8 ≤ c.epochLen → 2 ≤ c.silenceLimit → c.silenceLimit ≤ 15 →
    c.refreshPeriod ≤ 255 → 2 ≤ c.listenLimit → c.listenLimit ≤ 15 →
    (settingsBytes c).length = 80 ∧ parseSettings (settingsBytes c) = some c

/-! ### Characters on the line -/

/-- A character is eleven bits in the order of R60; the characters of a dispatch are sent back to back,
marker 1 in the first alone; and the eleven mid-bit samples of a character are judged as that character,
well framed (R61, R62). -/
def Obligations.CharacterLevelsReadBack : Prop :=
  ∀ (data : Byte) (marker : Bool),
    (characterLevels data marker).length = 11
      ∧ (characterLevels data marker)[0]? = some .dominant
      ∧ (∀ i : Fin 8, (characterLevels data marker)[1 + i.val]?
          = some (if data.getLsbD (7 - i.val) then .recessive else .dominant))
      ∧ (characterLevels data marker)[9]? = some (if marker then .recessive else .dominant)
      ∧ (characterLevels data marker)[10]? = some .recessive
      ∧ judgeSamples (characterLevels data marker) = some (.characterDelivered data marker false)
      ∧ ∀ (chars : List Byte) (n i : Nat), chars[n]? = some data → i < 11 →
          (characterLevels data (decide (n = 0)))[i]? = some (sentLevel chars (11 * n + i))

/-- The check value (R77). For each data bit the register is shifted towards bit 15, a 0 entering bit 0, and
bits 12, 5 and 0 are inverted if bit 15 before the shift differed from it; the register starts at 0xFFFF,
and each covered character enters most significant bit first. The covered characters of an UPDATE or
REFRESH are claim, block, epoch, sequence, span and body, of a ROLL claim and epoch; the value follows as
two characters, bits 15 to 8 first. Over a dispatch with its check characters the register ends at 0 (a
consequence). -/
def Obligations.CheckValueOfWholeDispatchIsZero : Prop :=
  (∀ (r : Word) (d : Bool) (i : Nat), i < 16 → (crcBit r d).getLsbD i
      = ((decide (0 < i) && r.getLsbD (i - 1))
        ^^ (decide (i = 12 ∨ i = 5 ∨ i = 0) && (r.getLsbD 15 ^^ d))))
    ∧ checkValue [] = 0xFFFF
    ∧ (∀ (bs : List Byte) (b : Byte), checkValue (bs ++ [b])
      = crcBit (crcBit (crcBit (crcBit (crcBit (crcBit (crcBit (crcBit (checkValue bs)
          (b.getLsbD 7)) (b.getLsbD 6)) (b.getLsbD 5)) (b.getLsbD 4)) (b.getLsbD 3)) (b.getLsbD 2))
          (b.getLsbD 1)) (b.getLsbD 0))
    ∧ (∀ (bs : List Byte) (high low : Byte), high ++ low = checkValue bs →
      withCheck bs = bs ++ [high, low])
    ∧ (∀ (k : Kind) (sid : StationNo) (b : Block) (epoch seq : Byte) (sp : Span) (ws : List Word),
      blockDispatch k sid b epoch seq sp ws
        = withCheck (claimByte k sid :: BitVec.ofNat 8 b.val :: epoch :: seq :: spanByte sp
          :: wordBytes ws))
    ∧ (∀ (sid : StationNo) (epoch : Byte),
      rollDispatch sid epoch = withCheck [claimByte .roll sid, epoch])
    ∧ ∀ bs : List Byte, checkValue (withCheck bs) = 0

/-- START_EDGE, FALSE_START, FIRST_RECESSIVE_READING and BREAK_END move the Line Interface between HUNT
and ASSEMBLE, and touch nothing else (R61, R62, R64, R67). A start edge times the character from there
(R61); FIRST_RECESSIVE_READING also tells the rise of a line that read dominant as reset ended (R64). A fall
between the stop sample that marks an answer slot and the boundary at which the slot begins starts no
character: the level and the run are kept for the slot (R66, R67, log entry 40). The rise of a framing error
keeps the boundary of a slot that has been marked, and with no slot ends the character (log entry 41).
Where the line is not in the state that the step needs, nothing changes (the model's choice, log entry 1). -/
def Obligations.HuntMoves : Prop :=
  ∀ s : State,
    (s.line.st = .hunt → s.line.slot = none →
      exec .startEdge s = .next { s with line := { s.line with
        st := .assemble, lrx := .dominant, idle := false, idleCount := 0, run := 0, runSeen := false
        peers := if s.ltx = .dominant then s.line.peers else .dominant
        charTime := some 0, samples := [], edgeLow := s.eu.low } })
    ∧ (s.line.st = .hunt → s.line.slot ≠ none → s.line.charTime ≠ none → s.line.lrx = .recessive →
      exec .startEdge s = .next { s with line := { s.line with
        lrx := .dominant, run := 0, runSeen := false
        peers := if s.ltx = .dominant then s.line.peers else .dominant } })
    ∧ (s.line.st ≠ .hunt
        ∨ (s.line.slot ≠ none ∧ (s.line.charTime = none ∨ s.line.lrx = .dominant)) →
      exec .startEdge s = .next s)
    ∧ ∀ l : Line, l = { s.line with
        st := .hunt, lrx := .recessive, peers := .recessive, idleCount := 0, run := 0
        runSeen := false, charTime := none, samples := [] } →
      (exec .falseStart s = .next (if s.line.st = .assemble
          then { s with line := { l with sampled := some ⟨.dominant, .recessive⟩ } } else s))
      ∧ (exec .firstRecessiveReading s
          = .next (if s.line.st = .awaitRecessive ∨ (s.line.st = .hunt ∧ s.line.lrx = .dominant)
            then { s with line := { l with
              charTime := if s.line.slot ≠ none then s.line.charTime else none } }
            else s))
      ∧ (s.line.st = .inBreak → exec .breakEnd s = .next { s with line := l })
      ∧ (s.line.st = .awaitRecessive → s.line.runSeen = true →
          exec .breakEnd s = .next { s with line := l })
      ∧ (s.line.st = .awaitRecessive → s.line.runSeen = false → exec .breakEnd s = .next s)
      ∧ (s.line.st = .hunt ∨ s.line.st = .assemble → exec .breakEnd s = .next s)

/-! ### The Receiver -/

/-- The first character of a dispatch, in READY (R80): marker 0 is no claim and is discarded. With no attempt
under way a claim that met the low condition is cut (R89; a claim met after its start edge is cut at its
delivery, log entry 12), one with a framing error or an invalid kind code is malformed, and any other is
followed from its header, with the check register over the claim. With an attempt under way a well-framed
claim is the own one (log entry 21), and a stop bit read dominant makes it a received one, malformed (log
entry 39). -/
def Obligations.FirstCharacterInReady : Prop :=
  (∀ (data : Byte) (marker framing : Bool) (s : State),
    s.line.st = .assemble → s.rx.st = .ready → marker = false ∨ s.tx = .standby →
    ∃ t, exec (.characterDelivered data marker framing) s = .next t
      ∧ t = { s with line := t.line, rx := t.rx, counters := t.counters, mute := t.mute }
      ∧ t.line = { afterCharacter s.line data marker framing with request := t.line.request }
      ∧ (marker = false → t.rx = { s.rx with st := .discard } ∧ t.counters = s.counters
          ∧ t.mute = s.mute ∧ t.line.request = s.line.request)
      ∧ (marker = true → t.rx.check = checkValue [data]
        ∧ (s.line.edgeLow = true ∨ s.eu.low = true →
            t.rx.st = .discard ∧ t.counters = { s.counters with cuts := bump s.counters.cuts }
              ∧ t.mute = s.mute ∧ t.line.request = s.line.request)
        ∧ (s.line.edgeLow = false → s.eu.low = false → t.counters = s.counters
          ∧ (framing = true ∨ data.toNat / 32 = 0 ∨ 4 ≤ data.toNat / 32 → objected s t)
          ∧ (framing = false → 1 ≤ data.toNat / 32 → data.toNat / 32 ≤ 3 →
              t.mute = s.mute ∧ t.line.request = s.line.request
              ∧ ∃ d : Incoming, t.rx.st = .following .header d ∧ d.own = false ∧ d.chars = 0
                ∧ d.sender.val = data.toNat % 32 ∧ kindCode d.kind = data.toNat / 32))))
  ∧ ∀ (data : Byte) (framing : Bool) (ph : TxPhase) (a : Attempt) (s : State),
    s.line.st = .assemble → s.rx.st = .ready → s.tx = .active ph a →
    ∃ t, exec (.characterDelivered data true framing) s = .next t
      ∧ t = { s with line := t.line, rx := t.rx, mute := t.mute }
      ∧ t.line = { afterCharacter s.line data true framing with request := t.line.request }
      ∧ t.rx.check = checkValue [data]
      ∧ (framing = true → objected s t)
      ∧ (framing = false → t.mute = s.mute ∧ t.line.request = s.line.request
          ∧ ∃ d : Incoming, t.rx.st = .following .header d ∧ d.own = true ∧ d.chars = 0
            ∧ d.sender = s.straps.sid ∧ d.kind = a.entry.duty.kind ∧ d.span = a.entry.duty.span)

/-- A malformed condition in a received dispatch gives it up with an objection where the state makes
one; at the second check character the answer slot opens all the same (log entry 13). -/
def Obligations.MalformedCharacterIsObjectedTo : Prop :=
  ∀ (data : Byte) (marker framing : Bool) (ph : RxPhase) (d : Incoming) (s : State),
    s.line.st = .assemble → s.rx.st = .following ph d → d.own = false → ph ≠ .answer →
    malformedCharacter ph d s.rx.check data marker framing →
    ∃ t, exec (.characterDelivered data marker framing) s = .next t
      ∧ t = { s with line := t.line, rx := t.rx, mute := t.mute }
      ∧ objected s t ∧ t.rx.check = s.rx.check
      ∧ t.line = if ph = .check ∧ d.high.isSome = true
          then { afterCharacter s.line data marker framing with
            request := t.line.request, slot := some 0, idle := false, idleCount := 0 }
          else { afterCharacter s.line data marker framing with request := t.line.request }

/-- HELD_CHARACTER_RISE delivers data 0, marker 0 and a framing error and puts the line in HUNT (R62): a
dispatch being followed is malformed, a first character is no claim, the own dispatch counts on, and a
second check character marks the slot, whose boundary is still to come (R66, log entry 13). Of
CHARACTER_DELIVERED: in OFF, WAIT_IDLE and DISCARD the Receiver ignores it (R79, R87) and the line alone
moves; of the own dispatch it is counted and not tested (R83); after a framing error the dominant run that
reaches into the stop bit is measured from its own fall (R67). Outside ASSEMBLE there is no such step (the
model's choice, log entry 1). -/
def Obligations.HeldCharacterIsAFramingError : Prop :=
  (∀ s : State, (s.line.st ≠ .assemble → exec .heldCharacterRise s = .next s)
    ∧ (s.line.st = .assemble → ∃ t, exec .heldCharacterRise s = .next t
      ∧ t = { s with line := t.line, rx := t.rx, mute := t.mute }
      ∧ t.line = { huntLine s.line with
          request := t.line.request, slot := t.line.slot, idle := t.line.idle
          charTime := t.line.charTime, sampled := some ⟨.recessive, .dominant⟩ }
      ∧ ((∃ d, s.rx.st = .following .check d ∧ d.own = false ∧ d.high.isSome = true) →
          t.line.slot = some 0 ∧ t.line.charTime = some 10 ∧ t.line.idle = false)
      ∧ ((∀ d, s.rx.st = .following .check d → d.own = true ∨ d.high = none) →
          t.line.slot = s.line.slot ∧ t.line.charTime = none ∧ t.line.idle = s.line.idle)
      ∧ (s.rx.st = .off ∨ s.rx.st = .waitIdle ∨ s.rx.st = .discard →
          t.rx = s.rx ∧ t.mute = s.mute ∧ t.line.request = s.line.request)
      ∧ (s.rx.st = .ready → t.rx = { s.rx with st := .discard } ∧ t.mute = s.mute
          ∧ t.line.request = s.line.request)
      ∧ (∀ ph d, s.rx.st = .following ph d → d.own = true →
          t.mute = s.mute ∧ t.line.request = s.line.request
            ∧ ∃ ph', t.rx = { s.rx with st := .following ph' { d with chars := d.chars + 1 } })
      ∧ (∀ ph d, s.rx.st = .following ph d → d.own = false → ph ≠ .answer → objected s t)))
  ∧ (∀ (data : Byte) (marker framing : Bool) (s : State),
    (s.line.st ≠ .assemble → exec (.characterDelivered data marker framing) s = .next s)
    ∧ (s.line.st = .assemble → s.rx.st = .off ∨ s.rx.st = .waitIdle ∨ s.rx.st = .discard →
      exec (.characterDelivered data marker framing) s
        = .next { s with line := afterCharacter s.line data marker framing })
    ∧ (∀ ph d, s.line.st = .assemble → s.rx.st = .following ph d → d.own = true →
      ∀ header body : Nat, header = (if d.kind = .roll then 1 else 4) →
      body = (if d.kind = .roll then 0 else 2 * (d.span.last.val + 1 - d.span.first.val)) →
      ∀ part : RxPhase, part = (if d.chars + 1 < header then .header
        else if d.chars + 1 < header + body then .body else .check) →
      exec (.characterDelivered data marker framing) s = .next { s with
        line := afterCharacter s.line data marker framing
        rx := { s.rx with st := .following part { d with chars := d.chars + 1 } } }))
  ∧ ∀ (data : Byte) (marker : Bool), dominantTail data marker ≤ 10
    ∧ (∀ i < dominantTail data marker,
      (characterLevels data marker)[9 - i]? = some .dominant)
    ∧ (dominantTail data marker < 10 →
      (characterLevels data marker)[9 - dominantTail data marker]? = some .recessive)

/-- The room question at the epoch character of an UPDATE or REFRESH (R43, R44, R122): asked exactly under
the four conditions; room when the block has an entry or fewer than 16 stand; no room makes JOINING and
MEMBER post STAGING_REFUSED and object, and in LISTEN and MUTE is kept for the acceptance. -/
def Obligations.RoomQuestionAtEpochCharacter : Prop :=
  ∀ (data : Byte) (d : Incoming) (s : State),
    s.line.st = .assemble → s.rx.st = .following .header d → d.own = false → d.kind ≠ .roll →
    d.chars = 1 → ∀ asked room : Prop,
    (asked ↔ (s.cfg.subs[d.block] = true ∨ s.cfg.owners[d.block] = some s.straps.sid)
      ∧ s.cfg.owners[d.block] = some d.sender ∧ d.sender ≠ s.straps.sid
      ∧ ((s.mem.station = .listen ∧ s.mem.epochTaken = false) ∨ data = s.eu.epoch)) →
    (room ↔ (∃ e ∈ s.staging, e.block = d.block) ∨ s.staging.length < 16) →
    ∃ t, exec (.characterDelivered data false false) s = .next t
      ∧ t = { s with line := t.line, rx := t.rx, events := t.events }
      ∧ t.rx.check = crcByte s.rx.check data
      ∧ t.line = { afterCharacter s.line data false false with request := t.line.request }
      ∧ (¬ asked → t.rx.st = .following .header { d with chars := 2, epoch := data }
          ∧ t.events = s.events ∧ t.line.request = s.line.request)
      ∧ (asked → room →
          t.rx.st = .following .header { d with chars := 2, epoch := data, room := some true }
          ∧ t.events = s.events ∧ t.line.request = s.line.request)
      ∧ (asked → ¬ room → s.mem.station ≠ .joining → s.mem.station ≠ .member →
          t.rx.st = .following .header { d with chars := 2, epoch := data, room := some false }
          ∧ t.events = s.events ∧ t.line.request = s.line.request)
      ∧ (asked → ¬ room → s.mem.station = .joining ∨ s.mem.station = .member →
          t.rx.st = .discard ∧ t.line.request = true
          ∧ t.events = addEvent s.events
              ⟨.stagingRefused, s.eu.epoch, some d.sender, some d.block, none⟩ s.eu.epoch)

/-- Every dispatch heard whole is followed to its answer slot with what its characters carried: decoding of
the characters of R75, R76 and R183 is the dispatch itself (R75 to R78, R80 to R82), for an UPDATE or
REFRESH wherever a room question would not be answered with an objection. -/
def Obligations.DispatchIsHeardAsSent : Prop :=
  (∀ (k : Kind) (sid : StationNo) (b : Block) (epoch seq : Byte) (sp : Span) (ws : List Word)
      (s : State), k ≠ .roll → (k = .refresh → sp = ⟨0, 15⟩) → sp.first ≤ sp.last →
      ws.length = sp.last.val + 1 - sp.first.val → s.line.st = .hunt → s.line.slot = none →
      s.eu.low = false → s.rx.st = .ready → s.tx = .standby →
      roomFor s.staging b = true ∨ s.mem.station.objects = false →
      ∃ room, (s.after (hearingSteps (blockDispatch k sid b epoch seq sp ws))).rx.st
          = .following .answer
            { own := false, kind := k, sender := sid, chars := 4 + 2 * ws.length + 2, block := b
              epoch := epoch, seq := seq, span := sp, room := room, words := ws, high := none }
        ∧ (s.after (hearingSteps (blockDispatch k sid b epoch seq sp ws))).line.slot = some 0)
    ∧ (∀ (sid : StationNo) (epoch : Byte) (s : State), s.line.st = .hunt → s.line.slot = none →
      s.eu.low = false → s.rx.st = .ready → s.tx = .standby →
      ∃ d : Incoming, (s.after (hearingSteps (rollDispatch sid epoch))).rx.st = .following .answer d
        ∧ d.own = false ∧ d.kind = .roll ∧ d.sender = sid ∧ d.epoch = epoch
        ∧ (s.after (hearingSteps (rollDispatch sid epoch))).line.slot = some 0)

/-! ### Breaks, faults and idle -/

/-- BREAK_DRIVE_START begins the requested drive, but not in the middle of a character (R65, R68); without a
request, or there, nothing changes, and BREAK_DRIVEN without a drive changes nothing (the model's choice,
log entry 1). BREAK_DRIVEN ends it, counts a break raised, and unless
the low condition met the drive counts a consecutive objection: the sixteenth takes a member to MUTE and
a joining station back to LISTEN, or with leave-pending set completes its LEAVE. -/
def Obligations.BreakDriveAndObjections : Prop :=
  ∀ s : State,
    (s.line.request = true →
      (s.line.st ≠ .assemble ∨ s.line.charTime = none ∨ s.line.charTime = some 0) →
      exec .breakDriveStart s = .next { s with line := { s.line with
        request := false, drive := some 0, metLow := s.eu.low } })
    ∧ (s.line.request = false
        ∨ (s.line.st = .assemble ∧ ∃ n, s.line.charTime = some (n + 1)) →
      exec .breakDriveStart s = .next s)
    ∧ (s.line.drive = none → exec .breakDriven s = .next s)
    ∧ (s.line.drive ≠ none → ∀ u : State,
        u = { s with line := { s.line with drive := none, metLow := false }
                     counters := { s.counters with breaksRaised := bump s.counters.breaksRaised } } →
        (s.line.metLow = true ∨ (s.mem.station ≠ .joining ∧ s.mem.station ≠ .member) →
          exec .breakDriven s = .next u)
        ∧ (s.line.metLow = false → s.mem.station = .joining ∨ s.mem.station = .member →
          (s.mute.consecutive + 1 < 16 → exec .breakDriven s
            = .next { u with mute := { s.mute with consecutive := s.mute.consecutive + 1 } })
          ∧ (16 ≤ s.mute.consecutive + 1 → s.mem.station = .member →
            ∃ t, exec .breakDriven s = .next t
              ∧ t = { u with
                  mem := { s.mem with station := .mute }, mute := ⟨16, 0⟩, rx := t.rx
                  events := addEvent s.events ⟨.muteEntered, s.eu.epoch, none, none, none⟩
                    s.eu.epoch
                  tx := .standby, pub := { s.pub with queue := t.pub.queue }
                  line := { u.line with request := false } }
              ∧ (s.tx = .standby → t.pub.queue = s.pub.queue))
          ∧ (16 ≤ s.mute.consecutive + 1 → s.mem.station = .joining → s.mem.leavePending = false →
            ∃ t, exec .breakDriven s = .next t ∧ fellBack s t
              ∧ t.counters.breaksRaised = bump s.counters.breaksRaised)
          ∧ (16 ≤ s.mute.consecutive + 1 → s.mem.station = .joining → s.mem.leavePending = true →
            ∃ t, exec .breakDriven s = .next t
              ∧ leftTheBus (State.finishPass (State.post u .joinFailed)) t)))

/-- BREAK_SEEN with no attempt in SENDING, and SLOT_BROKEN with no attempt in SLOT_WAIT: a request is
withdrawn and the break is counted on the bus (R66, R67, R69, R87). BREAK_SEEN puts the line in a break
and discards a dispatch that does not wait on its answer slot; SLOT_BROKEN closes the slot and discards
the dispatch that waits on it. The run is 11 bt at a break seen and goes on from its own fall at a broken
slot. A run already reported is not reported again, and without an open slot there is no SLOT_BROKEN (the
model's choices, log entries 1 and 31). -/
def Obligations.BreakDiscardsDispatch : Prop :=
  (∀ s : State,
      (s.line.runSeen = true ∨ s.line.slot ≠ none → exec .breakSeen s = .next s)
      ∧ (s.line.runSeen = false → s.line.slot = none → (∀ a, s.tx ≠ .active .sending a) →
        ∃ t, exec .breakSeen s = .next t
          ∧ t = { s with
              rx := t.rx, counters := t.counters
              line := { s.line with
                st := .inBreak, lrx := .dominant, idle := false, idleCount := 0, run := 11
                peers := if s.ltx = .dominant then s.line.peers else .dominant
                charTime := none, samples := [], runSeen := true, request := false } }
          ∧ t.counters = { s.counters with breaksSeen :=
              if s.mem.station.onBus then bump s.counters.breaksSeen else s.counters.breaksSeen }
          ∧ (∀ ph d, s.rx.st = .following ph d → ph ≠ .answer →
              t.rx = { s.rx with st := .discard })
          ∧ ((∀ ph d, s.rx.st = .following ph d → ph = .answer) → t.rx = s.rx)))
    ∧ (∀ s : State,
      (s.line.slot = none → exec .slotBroken s = .next s)
      ∧ (s.line.slot ≠ none → (∀ a, s.tx ≠ .active .slotWait a) →
        ∃ t, exec .slotBroken s = .next t
          ∧ t = { s with
              rx := t.rx
              line := { s.line with
                slot := none, st := .awaitRecessive, lrx := .dominant, idle := false, idleCount := 0
                run := if s.line.lrx = .dominant then s.line.run else 0
                peers := if s.ltx = .dominant then s.line.peers else .dominant
                charTime := none, samples := [], runSeen := true, request := false }
              counters := { s.counters with breaksSeen :=
                if s.mem.station.onBus then bump s.counters.breaksSeen else s.counters.breaksSeen } }
          ∧ (∀ d, s.rx.st = .following .answer d → t.rx = { s.rx with st := .discard })
          ∧ ((∀ d, s.rx.st ≠ .following .answer d) → t.rx = s.rx)))

/-- BUS_FAULT enters the bus-fault state once and posts the event while the station is on the bus; the
next BUS_IDLE ends it with BUS_RESTORED. At BUS_IDLE the line is idle and the Receiver is READY from
WAIT_IDLE and DISCARD, and a received dispatch in HEADER, BODY or CHECK is truncated (R86). BUS_IDLE
outside HUNT or in an open slot, and BUS_FAULT in the bus-fault state, change nothing (the model's choice,
log entry 1). -/
def Obligations.BusFaultAndBusIdle : Prop :=
  ∀ s : State,
    (s.line.busFault = true → exec .busFault s = .next s)
    ∧ (s.line.busFault = false → exec .busFault s = .next { s with
        line := { s.line with busFault := true, idle := false, run := 88 }
        events := if s.mem.station.onBus
          then addEvent s.events ⟨.busFault, s.eu.epoch, none, none, none⟩ s.eu.epoch
          else s.events })
    ∧ (¬ (s.line.st = .hunt ∧ s.line.slot = none) → exec .busIdle s = .next s)
    ∧ (s.line.st = .hunt → s.line.slot = none → ∃ t, exec .busIdle s = .next t
      ∧ t = { s with
          line := { s.line with
            idle := true, idleCount := 11, lrx := .recessive, peers := .recessive, charTime := none
            busFault := false }
          rx := t.rx, counters := t.counters, mute := t.mute
          events := if s.line.busFault && s.mem.station.onBus
            then addEvent s.events ⟨.busRestored, s.eu.epoch, none, none, none⟩ s.eu.epoch
            else s.events }
      ∧ (s.rx.st = .off → t.rx = s.rx)
      ∧ (s.rx.st = .ready ∨ s.rx.st = .waitIdle ∨ s.rx.st = .discard →
          t.rx = { s.rx with st := .ready })
      ∧ (∀ ph d, s.rx.st = .following ph d → ph = .answer ∨ d.own = true → t.rx = s.rx)
      ∧ (∀ ph d, s.rx.st = .following ph d → ph ≠ .answer → d.own = false →
          t.rx = { s.rx with st := .ready }
            ∧ t.counters = { s.counters with truncations := bump s.counters.truncations }
            ∧ t.mute = if s.mem.station = .mute then { s.mute with clean := 0 } else s.mute)
      ∧ ((∀ ph d, s.rx.st = .following ph d → ph = .answer ∨ d.own = true) →
          t.counters = s.counters ∧ t.mute = s.mute))

/-! ### Acceptance -/

/-- SLOT_CLEAN with the low condition absent accepts the dispatch in ANSWER (R88, R90, R124, R128): the slot
closes into HUNT, the Receiver waits for idle, the accepted counter advances, and the objection rules take
the acceptance first. One that names this station's own number is DUPLICATE_ID and goes no further. A
slot that no dispatch waits on closes and does no more; with the low condition present a received dispatch is
discarded. Without an open slot nothing changes, and an own attempt that has met the low condition has been
cut by then (R113), so it is left as it is (the model's choice, log entry 1). -/
def Obligations.SlotCleanAcceptsAndTestsIdentity : Prop :=
  ∀ (d : Incoming) (s : State),
    (s.line.slot = none → exec .slotClean s = .next s)
    ∧ (s.line.slot ≠ none → ∀ l : Line, l = { huntLine s.line with slot := none } →
      ((∀ a, s.tx ≠ .active .slotWait a) → (∀ d', s.rx.st ≠ .following .answer d') →
          exec .slotClean s = .next { s with line := l })
      ∧ ((∀ a, s.tx ≠ .active .slotWait a) → s.rx.st = .following .answer d →
          d.own = true ∨ s.eu.low = true →
          exec .slotClean s = .next { s with line := l, rx := { s.rx with st := .discard } })
      ∧ ((∃ a, s.tx = .active .slotWait a) → s.eu.low = true →
          exec .slotClean s = .next { s with line := l }))
    ∧ (s.line.slot ≠ none → (∀ a, s.tx ≠ .active .slotWait a) → s.rx.st = .following .answer d →
      d.own = false → s.eu.low = false → ∃ t u, exec .slotClean s = .next t ∧ acceptanceTaken s u
      ∧ t.line = { huntLine s.line with slot := none }
      ∧ t.rx = { s.rx with st := .waitIdle }
      ∧ t.counters.accepted = bump s.counters.accepted
      ∧ t.mute = u.mute
      ∧ (s.mem.station ≠ .mute →
          t.mute = if s.mem.station = .joining ∨ s.mem.station = .member
            then { s.mute with consecutive := 0 } else s.mute)
      ∧ (d.sender = s.straps.sid → t = { u with
          events := addEvent u.events ⟨.duplicateId, s.eu.epoch, some d.sender, none, none⟩
            s.eu.epoch }))

/-- An accepted dispatch of a peer is heard (R91, R145): its record becomes PRESENT with heard set and
the dispatch's epoch number, with PEER_PRESENT where it was not PRESENT; every other record stays. With
a matching epoch number, a ROLL has no further effect, a sender that is the owner is staged where the
block is subscribed and the room answer was not "no room", and any other sender gives USURP for an owned
block, else OWNER_MISMATCH (R92 to R94, R39, R45). In every state on the bus, MUTE included (R127). -/
def Obligations.AcceptedDispatchIsHeardAndTested : Prop :=
  ∀ (d : Incoming) (s : State), s.line.slot ≠ none → (∀ a, s.tx ≠ .active .slotWait a) →
    s.rx.st = .following .answer d → d.own = false → s.eu.low = false →
    d.sender ≠ s.straps.sid → s.mem.peers[d.sender].state ≠ .self →
    d.epoch = s.eu.epoch → ¬ (s.mem.station = .listen ∧ s.mem.epochTaken = false) →
    ∃ t u v, exec .slotClean s = .next t
      ∧ acceptanceTaken s u ∧ senderHeard d u v ∧ handedOn d v t

/-- The epoch compare (R92, R136, R140), after the sender has been heard. The first dispatch accepted in LISTEN
is taken as matching: its number is adopted with EPOCH_ADOPTED, the old number as value, the joining count
is 0, and it is handed on like any that matches (staged, USURP, OWNER_MISMATCH). In any other case a
dispatch whose epoch number differs is staged nowhere and counted as a mismatch, and from a lower-numbered
sender its number is adopted. Neither changes the epoch counter or the listening count; in MUTE as in
MEMBER (R127, R149). -/
def Obligations.EpochCompareAndAdoption : Prop :=
  ∀ (d : Incoming) (s : State), s.line.slot ≠ none → (∀ a, s.tx ≠ .active .slotWait a) →
    s.rx.st = .following .answer d → d.own = false → s.eu.low = false →
    d.sender ≠ s.straps.sid → s.mem.peers[d.sender].state ≠ .self →
    ∃ t u v, exec .slotClean s = .next t ∧ acceptanceTaken s u ∧ senderHeard d u v
      ∧ ∀ events : List Event, events = addEvent v.events
          ⟨.epochAdopted, d.epoch, some d.sender, none, some s.eu.epoch.toNat⟩ d.epoch →
      (s.mem.station = .listen → s.mem.epochTaken = false → handedOn d { v with
          eu := { s.eu with epoch := d.epoch }, events := events
          mem := { v.mem with epochTaken := true, joiningCount := 0 } } t)
      ∧ (¬ (s.mem.station = .listen ∧ s.mem.epochTaken = false) → d.epoch ≠ s.eu.epoch →
        (d.sender < s.straps.sid → t = { v with
            eu := { s.eu with epoch := d.epoch }, events := events
            counters := { v.counters with mismatches := bump s.counters.mismatches } })
        ∧ (s.straps.sid < d.sender → t = { v with
            counters := { v.counters with mismatches := bump s.counters.mismatches } }))

/-- Clean receptions in MUTE (R128, R129, R102, R105): each acceptance counts one; at the 32nd both mute
counters are 0, MUTE_LEFT is posted ahead of the other events of the dispatch, a peer's or a twin's, and
the station is a MEMBER with its refresh countdowns at 1 unless P is 0 and its own-silence count at 0. -/
def Obligations.MuteCountsCleanReceptions : Prop :=
  ∀ (d : Incoming) (s : State), s.line.slot ≠ none → (∀ a, s.tx ≠ .active .slotWait a) →
    s.rx.st = .following .answer d → d.own = false → s.eu.low = false → s.mem.station = .mute →
    ∃ t u, exec .slotClean s = .next t ∧ acceptanceTaken s u
      ∧ t.counters.accepted = bump s.counters.accepted
      ∧ (s.mute.clean + 1 < 32 → t.mem.station = .mute
          ∧ t.mute = { s.mute with clean := s.mute.clean + 1 } ∧ t.pub = s.pub)
      ∧ (32 ≤ s.mute.clean + 1 → t.mem.station = .member ∧ t.mute = ⟨0, 0⟩
          ∧ t.mem.leavePending = s.mem.leavePending
          ∧ t.pub = { s.pub with silence := 0, countdown := t.pub.countdown }
          ∧ (∀ b : Block, t.pub.countdown[b]
              = if s.cfg.refreshPeriod ≠ 0 ∧ s.cfg.owners[b] = some s.straps.sid then 1
                else s.pub.countdown[b])
          ∧ u.events = addEvent s.events ⟨.muteLeft, s.eu.epoch, none, none, none⟩ s.eu.epoch)
      ∧ (d.sender = s.straps.sid → t.events = addEvent u.events
          ⟨.duplicateId, s.eu.epoch, some d.sender, none, none⟩ s.eu.epoch)
      ∧ (d.sender ≠ s.straps.sid → s.mem.peers[d.sender].state ≠ .self → ∃ v, senderHeard d u v
        ∧ (d.epoch = s.eu.epoch → handedOn d v t)
        ∧ (d.epoch ≠ s.eu.epoch → t.events = if d.sender < s.straps.sid
            then addEvent v.events
              ⟨.epochAdopted, d.epoch, some d.sender, none, some s.eu.epoch.toNat⟩ d.epoch
            else v.events))

/-- A staged dispatch creates an entry at the end of the table, or merges into the block's entry (R40,
R41): its words overwrite those of its span, the gap flag is set unless its sequence is one more than
the last, the last sequence is its own, and the rest of the entry and of the table is kept. -/
def Obligations.StagingCreatesOrMerges : Prop :=
  ∀ (t : List StagingEntry) (b : Block) (source : StationNo) (seq : Byte) (sp : Span)
    (ws : List Word),
    (∀ w : WordNo, (spanWords sp ws)[w] = if sp.first ≤ w ∧ w ≤ sp.last
      then some (ws.getD (w.val - sp.first.val) 0) else none)
    ∧ ((∀ e ∈ t, e.block ≠ b) → t.length < 16 →
        stage t b source seq (spanWords sp ws)
          = t ++ [⟨b, source, spanWords sp ws, seq, seq, false⟩])
    ∧ ∀ pre e post, t = pre ++ e :: post → e.block = b → (∀ x ∈ pre, x.block ≠ b) →
        (∀ x ∈ post, x.block ≠ b) → ∃ e',
          stage t b source seq (spanWords sp ws) = pre ++ e' :: post
          ∧ e'.block = e.block ∧ e'.source = e.source ∧ e'.firstSeq = e.firstSeq
          ∧ e'.lastSeq = seq ∧ e'.gap = (e.gap || decide (seq ≠ e.lastSeq + 1))
          ∧ ∀ w : WordNo, e'.words[w] = if sp.first ≤ w ∧ w ≤ sp.last
              then some (ws.getD (w.val - sp.first.val) 0) else e.words[w]

/-- SLOT_CLEAN accepts the station's own dispatch (R83, R104, R105, R110, R17, R138): the slot of the
Transmitter is empty, the own-accepted flag set, the dispatch staged as the station's own; an UPDATE
moves the last accepted sequence, a whole block restarts the countdown; and a ROLL in JOINING makes the
station a MEMBER with JOINED, its listening counts at 0 (log entry 18). -/
def Obligations.SlotCleanAcceptsOwnDispatch : Prop :=
  ∀ (a : Attempt) (s : State), s.line.slot ≠ none → s.tx = .active .slotWait a →
    s.eu.low = false → ∃ t, exec .slotClean s = .next t
      ∧ t.tx = .standby ∧ t.rx = { s.rx with st := .waitIdle } ∧ t.pub.ownAccepted = true
      ∧ t.pub.queue = s.pub.queue ∧ t.counters.accepted = bump s.counters.accepted
      ∧ t.line = { huntLine s.line with slot := none }
      ∧ t.mute = (if s.mem.station = .joining ∨ s.mem.station = .member
          then { s.mute with consecutive := 0 } else s.mute)
      ∧ t.eu = s.eu ∧ t.commit = s.commit ∧ t.image.words = s.image.words
      ∧ t.image.draft = s.image.draft ∧ t.image.blocks = s.image.blocks
      ∧ (a.entry.duty = .roll → t.image = s.image ∧ t.staging = s.staging
        ∧ (s.mem.station = .joining →
            t.mem = { s.mem with station := .member, listenCount := 0, joiningCount := 0 }
            ∧ t.pub.silence = 0
            ∧ t.events = addEvent s.events ⟨.joined, s.eu.epoch, none, none, none⟩ s.eu.epoch
            ∧ ∀ b : Block, t.pub.countdown[b]
              = if s.cfg.refreshPeriod ≠ 0 ∧ s.cfg.owners[b] = some s.straps.sid then 1
                else s.pub.countdown[b])
        ∧ (s.mem.station ≠ .joining → t.mem = s.mem ∧ t.events = s.events
            ∧ t.pub = { s.pub with ownAccepted := true }))
      ∧ ∀ b, a.entry.duty.block = some b → t.mem = s.mem ∧ t.events = s.events
        ∧ t.pub.silence = s.pub.silence
        ∧ (roomFor s.staging b = true →
            t.staging = stage s.staging b s.straps.sid a.seq (spanWords a.entry.duty.span a.words)
              ∧ t.counters = { s.counters with
                accepted := bump s.counters.accepted, staged := bump s.counters.staged })
        ∧ (∀ c : Block, t.image.lastSeq[c]
            = if c = b ∧ a.entry.duty.kind = .update then a.seq else s.image.lastSeq[c])
        ∧ (∀ c : Block, t.pub.countdown[c]
            = if c = b ∧ a.entry.duty.span = ⟨0, 15⟩ then s.cfg.refreshPeriod
              else s.pub.countdown[c])

/-! ### The Transmitter -/

/-- CLAIM takes the first eligible entry of the queue when the bus is free (R99, R107): the entry moves
into the slot, and the claim fixes the epoch number, the sequence (one more than the last accepted for
an UPDATE, that number for a REFRESH), the words of the draft and the characters. Nothing else moves;
with no eligible entry, or the bus not free, there is no claim. -/
def Obligations.ClaimTakesFirstEligibleEntry : Prop :=
  ∀ (s : State) (free : Prop) (eligible : Entry → Prop),
    (free ↔ s.tx = .standby ∧ s.line.idle = true ∧ s.eu.low = false ∧ s.eu.tail = none
      ∧ s.line.busFault = false) →
    (∀ e, eligible e ↔ (s.mem.station = .member ∨ (s.mem.station = .joining ∧ e.duty = .roll))
      ∧ s.mem.leavePending = false ∧ e.held = false
      ∧ ∀ b, e.duty.block = some b → (∃ x ∈ s.staging, x.block = b) ∨ s.staging.length < 16) →
    (¬ free ∨ (∀ e ∈ s.pub.queue, ¬ eligible e) → exec .claim s = .next s)
    ∧ ∀ pre e post, free → s.pub.queue = pre ++ e :: post → eligible e →
      (∀ x ∈ pre, ¬ eligible x) → ∃ a, exec .claim s = .next { s with
          tx := .active .claiming a, pub := { s.pub with queue := pre ++ post }
          line := { s.line with sendPos := 0, sampled := none } }
        ∧ a.entry = e ∧ a.epoch = s.eu.epoch
        ∧ (∀ b sp, e.duty = .update b sp → a.seq = s.image.lastSeq[b] + 1
            ∧ a.words = (List.range sp.count).map
                (fun i => s.image.draft.read (16 * b.val + sp.first.val + i))
            ∧ a.chars = withCheck ([BitVec.ofNat 8 (32 + s.straps.sid.val), BitVec.ofNat 8 b.val,
                s.eu.epoch, a.seq, BitVec.ofNat 8 (sp.first.val * 16 + (sp.count - 1))]
                ++ wordBytes a.words))
        ∧ (∀ b, e.duty = .refresh b → a.seq = s.image.lastSeq[b]
            ∧ a.words = (List.range 16).map (fun i => s.image.draft.read (16 * b.val + i))
            ∧ a.chars = withCheck ([BitVec.ofNat 8 (64 + s.straps.sid.val), BitVec.ofNat 8 b.val,
                s.eu.epoch, a.seq, 0x0F] ++ wordBytes a.words))
        ∧ (e.duty = .roll →
            a.chars = withCheck [BitVec.ofNat 8 (96 + s.straps.sid.val), s.eu.epoch])

/-- An attempt goes from CLAIMING by CLAIM_WON to SENDING and by LAST_CHECK_SENT to SLOT_WAIT with the
answer slot open and the reading of the line going on into it (R108, R109, R66, R67, log entry 40);
ARBITRATION_LOSS takes it out with its entry back in the queue as it was, no failure more, and the loss
counted; a Receiver that has taken the claim as the own one, which a loss on the stop bit can find, then
has a received claim with a framing error (R72, R80, R84, log entry 39), and the character in assembly goes
on with the bit read dominant (R72, log entry 43). A Receiver in READY at CLAIM_WON follows the attempt as its own (log
entry 21). While a mismatch has been told and not reported there is no win and no end of the dispatch, and in
any other phase these steps change nothing (the model's choice, log entries 1 and 39). -/
def Obligations.AttemptPhases : Prop :=
  ∀ (ph : TxPhase) (a : Attempt) (s : State),
    (s.tx = .active .claiming a →
      (∃ t, exec .arbitrationLoss s = .next t
        ∧ t = { s with
            tx := .standby, pub := { s.pub with queue := giveBack s.pub.queue a.entry }
            counters := { s.counters with
              arbitrationLosses := bump s.counters.arbitrationLosses }
            line := { lineRead s.line .dominant with request := t.line.request }
            rx := { s.rx with st := t.rx.st }, mute := t.mute }
        ∧ ((∀ p d, s.rx.st = .following p d → d.own = false) →
            t.rx = s.rx ∧ t.line = lineRead s.line .dominant ∧ t.mute = s.mute)
        ∧ (∀ p d, s.rx.st = .following p d → d.own = true → objected s t))
      ∧ (sampleRefutes s.line = true → exec .claimWon s = .next s)
      ∧ (sampleRefutes s.line = false → ∃ t, exec .claimWon s = .next t
        ∧ t = { s with
            tx := .active .sending a, rx := t.rx
            line := { s.line with sendPos := max s.line.sendPos 11, sampled := none } }
        ∧ (s.rx.st ≠ .ready → t.rx = s.rx)
        ∧ (s.rx.st = .ready → ∃ d, t.rx = { s.rx with st := .following .header d } ∧ d.own = true)))
    ∧ (s.tx = .active .sending a → sampleRefutes s.line = true → exec .lastCheckSent s = .next s)
    ∧ (s.tx = .active .sending a → sampleRefutes s.line = false → ∃ t, exec .lastCheckSent s = .next t
        ∧ t = { s with
            tx := .active .slotWait a, rx := t.rx
            line := { s.line with
              st := .hunt, slot := some 0, idle := false, idleCount := 0, charTime := none
              samples := [], sampled := none, sendPos := 0 } }
        ∧ (∀ p d, s.rx.st = .following p d → t.rx = { s.rx with st := .following .answer d })
        ∧ ((∀ p d, s.rx.st ≠ .following p d) → t.rx = s.rx))
    ∧ (s.tx = .standby ∨ (s.tx = .active ph a ∧ ph ≠ .claiming) →
        exec .arbitrationLoss s = .next s ∧ exec .claimWon s = .next s)
    ∧ (s.tx = .standby ∨ (s.tx = .active ph a ∧ ph ≠ .sending) →
        exec .lastCheckSent s = .next s)

/-- The return of an entry (R111): alone in its key it is inserted in queue order with all it carried; with
a queued entry of its key it merges, UPDATE if either is, with the span that covers both (from the lower
first word to the higher last word), its own failures and held flag, and the earlier order. -/
def Obligations.ReturnedEntryMerges : Prop :=
  (∀ a b : Span, (a.union b).first.val = min a.first.val b.first.val
      ∧ (a.union b).last.val = max a.last.val b.last.val)
  ∧ ∀ (q : List Entry) (e : Entry),
    (q.Pairwise (fun a b => b.before a = false) →
      (giveBack q e).Pairwise (fun a b => b.before a = false))
    ∧ ((∀ x ∈ q, x.duty.key ≠ e.duty.key) → (giveBack q e).Perm (e :: q))
    ∧ ∀ pre x post, q = pre ++ x :: post → x.duty.key = e.duty.key →
        (∀ y ∈ pre, y.duty.key ≠ e.duty.key) → (∀ y ∈ post, y.duty.key ≠ e.duty.key) →
        ∃ m, (giveBack q e).Perm (m :: (pre ++ post))
          ∧ m.failures = e.failures ∧ m.held = e.held ∧ m.order = min e.order x.order
          ∧ (∀ b sp sp', e.duty = .update b sp → x.duty = .update b sp' →
              m.duty = .update b (sp.union sp'))
          ∧ (∀ b sp, (e.duty = .update b sp ∧ x.duty = .refresh b)
                ∨ (e.duty = .refresh b ∧ x.duty = .update b sp) → m.duty = .update b ⟨0, 15⟩)
          ∧ (∀ b, e.duty = .refresh b → x.duty = .refresh b → m.duty = .refresh b)
          ∧ (e.duty = .roll → m.duty = .roll)

/-- A failed attempt (R112): a bit fault in CLAIMING or SENDING, a break seen in SENDING, or a broken
answer slot. Below the eighth failure the entry returns held with one failure more; at the eighth it
leaves with TX_ABANDONED, and no ROLL of JOINING is kept: the station falls back to LISTEN (R139), or
with leave-pending set leaves. At a break seen in SENDING the line is in a break of 11 bt and the Receiver
in DISCARD; at a broken slot the slot closes and its run goes on, and the Receiver is in DISCARD; either
withdraws a request and counts the break while the station is on the bus (R66, R67, R69, R83, R87). At a
bit fault the character in assembly goes on with the level that was read: recessive in the claim, and in a
later character the other level than the one driven; where the sample had been told the line goes on as
told (R72, log entry 43). -/
def Obligations.FailedAttemptIsHeldOrAbandoned : Prop :=
  ∀ (i : Instr) (a : Attempt) (s : State),
    (i = .bitFault ∧ s.tx = .active .claiming a) ∨ (i = .bitFault ∧ s.tx = .active .sending a)
      ∨ (i = .breakSeen ∧ s.tx = .active .sending a ∧ s.line.runSeen = false ∧ s.line.slot = none)
      ∨ (i = .slotBroken ∧ s.tx = .active .slotWait a ∧ s.line.slot ≠ none) →
    ∃ t, exec i s = .next t ∧ t.tx = .standby
      ∧ (∀ level : Level, i = .bitFault →
          (s.tx = .active .claiming a → level = .recessive) →
          (s.tx = .active .sending a →
            (level = .dominant ↔ sentLevel a.chars s.line.sendPos = .recessive)) →
          t.line = { lineRead s.line level with
            request := t.line.request, drive := t.line.drive, edgeLow := t.line.edgeLow })
      ∧ (i = .breakSeen → t.line = { s.line with
          st := .inBreak, lrx := .dominant, idle := false, idleCount := 0, run := 11
          peers := if s.ltx = .dominant then s.line.peers else .dominant
          charTime := none, samples := [], runSeen := true, request := false
          drive := t.line.drive })
      ∧ (i = .slotBroken → t.line = { s.line with
          slot := none, st := .awaitRecessive, lrx := .dominant, idle := false, idleCount := 0
          run := if s.line.lrx = .dominant then s.line.run else 0
          peers := if s.ltx = .dominant then s.line.peers else .dominant
          charTime := none, samples := [], runSeen := true, request := false
          drive := t.line.drive })
      ∧ t.counters = { s.counters with
          cuts := t.counters.cuts
          breaksSeen := if i = .bitFault ∨ s.mem.station.onBus = false then s.counters.breaksSeen
            else bump s.counters.breaksSeen }
      ∧ (s.eu.unit ≠ .dormant → t.counters.cuts = s.counters.cuts)
      ∧ (s.mem.station ≠ .joining ∨ a.entry.duty ≠ .roll ∨ a.entry.failures + 1 < 8 →
        t.line.drive = s.line.drive ∧ t.counters.cuts = s.counters.cuts
        ∧ (i = .bitFault → t.line.request = s.line.request ∧ t.line.edgeLow = s.line.edgeLow
          ∧ t.rx = if s.rx.st = .off then s.rx else { s.rx with st := .discard })
        ∧ (i = .breakSeen →
          (∀ p d, s.rx.st = .following p d → p ≠ .answer → t.rx = { s.rx with st := .discard })
          ∧ ((∀ p d, s.rx.st = .following p d → p = .answer) → t.rx = s.rx))
        ∧ (i = .slotBroken →
          (∀ d, s.rx.st = .following .answer d → t.rx = { s.rx with st := .discard })
          ∧ ((∀ d, s.rx.st ≠ .following .answer d) → t.rx = s.rx)))
      ∧ (a.entry.failures + 1 < 8 → ∀ e : Entry,
          e = { a.entry with failures := a.entry.failures + 1, held := true } →
          t = { s with
            tx := .standby, line := t.line, rx := t.rx
            counters := t.counters, pub := { s.pub with queue := giveBack s.pub.queue e } })
      ∧ (8 ≤ a.entry.failures + 1 → ∀ u : State,
          u = State.post { s with tx := .standby, line := t.line, rx := t.rx, counters := t.counters }
            .txAbandoned none a.entry.duty.block (some (kindCode a.entry.duty.kind)) →
          (¬ (a.entry.duty = .roll ∧ s.mem.station = .joining) → t = u)
          ∧ (a.entry.duty = .roll → s.mem.station = .joining → s.mem.leavePending = false →
              fellBack u t)
          ∧ (a.entry.duty = .roll → s.mem.station = .joining → s.mem.leavePending = true →
              leftTheBus (State.finishPass (u.post .joinFailed)) t))

/-! ### The epoch line -/

/-- LOW_CONDITION_START: a low condition that begins cuts what is on the line and withdraws a request (R34,
R69, R89, R113), a character in assembly in READY is marked for its delivery (log entry 12), and the low
reading of ELN is recorded without a boundary (log entry 11), passing a not-drivable test (R30); one that
is present already, by ELN or by an own expiry whatever ELN reads, changes nothing, and in DORMANT there
is none. QUIET_TAIL_END closes the quiet window. ELN_RISE (R33, R34): the end of the low condition starts the quiet tail, in ASSERT too (log
entry 16); in WAIT_RISE the unit returns to RUN, where a counter at L expires at once (R19). -/
def Obligations.LowConditionBeginsAndEnds : Prop :=
  (∀ s : State,
      (s.eu.unit = .dormant → exec .lowConditionStart s = .next s)
      ∧ (s.eu.low = true → exec .lowConditionStart s = .next s)
      ∧ (s.eu.unit ≠ .dormant → s.eu.low = false → ∃ t, exec .lowConditionStart s = .next t
          ∧ lowOffered { s with eu := { s.eu with eln := .dominant, driveTest := none } } t)
      ∧ exec .quietTailEnd s = .next { s with eu := { s.eu with tail := none } })
    ∧ (∀ s v : State, v = { s with eu := { s.eu with eln := .recessive } } →
      (s.eu.unit ≠ .waitRise → ∃ t, exec .elnRise s = .next t ∧ settled s.eu.low v t)
      ∧ (s.eu.unit = .waitRise → ∃ t, exec .elnRise s = .next t ∧ enteredRun s.eu.low v t))

/-- EPOCH_EXPIRY (R25, R28, R35): in FOLLOW outside LISTEN the counter restarts and nothing else; in RUN
the line is pulled at a boundary with the not-drivable test unless it reads low already; in COAST a
boundary without drive; in ASSERT, WAIT_RISE and DORMANT, and in COAST while a pass runs (log
entry 24), nothing. -/
def Obligations.EpochExpiryByUnit : Prop :=
  ∀ s : State,
    (s.eu.unit = .dormant ∨ s.eu.unit = .assert ∨ s.eu.unit = .waitRise
        ∨ (s.eu.unit = .coast ∧ s.commit.pass ≠ none) → exec .epochExpiry s = .next s)
    ∧ (s.eu.unit = .follow → s.mem.station ≠ .listen →
        exec .epochExpiry s = .next { s with eu := { s.eu with counter := 0 } })
    ∧ (s.eu.unit = .run → ∃ t u, exec .epochExpiry s = .next t
        ∧ startedBoundary { s with eu := { s.eu with
            unit := .assert, hold := 0, holdOut := false, leaveOut := false, ownWindow := true
            driveTest := if s.eu.eln = .recessive then some 0 else none } } u
        ∧ settled s.eu.low u t)
    ∧ (s.eu.unit = .coast → s.commit.pass = none → ∃ t u, exec .epochExpiry s = .next t
        ∧ startedBoundary { s with eu := { s.eu with ownWindow := true } } u
        ∧ settled s.eu.low u t)

/-- What counts in LISTEN (R24, R25, R136, R137): an unclocked period and a boundary count towards the
listen limit, a boundary also towards the joining count once an epoch number has been taken. At the
limit, or at the second such boundary, the station is JOINING with a ROLL queued (R106) and the epoch
number 0 if none was taken; the Epoch Unit leaves FOLLOW by the line at once, or as the pass ends
(R26). -/
def Obligations.ListeningCountsToJoining : Prop :=
  (∀ s : State, s.eu.unit = .follow → s.mem.station = .listen → s.mem.joiningCount < 2 →
      0 < s.cfg.epochLen →
      (min 15 (s.mem.listenCount + 1) < s.cfg.listenLimit → exec .epochExpiry s = .next { s with
          eu := { s.eu with counter := 0 }
          mem := { s.mem with listenCount := min 15 (s.mem.listenCount + 1) } })
      ∧ (s.cfg.listenLimit ≤ min 15 (s.mem.listenCount + 1) → ∃ t, exec .epochExpiry s = .next t
          ∧ t = { s with
              eu := t.eu
              pub := { s.pub with queue := t.pub.queue, nextOrder := t.pub.nextOrder }
              mem := { s.mem with
                listenCount := min 15 (s.mem.listenCount + 1), station := .joining
                epochTaken := true } }
          ∧ t.eu.epoch = (if s.mem.epochTaken then s.eu.epoch else 0) ∧ t.eu.counter = 0
          ∧ t.eu.eln = s.eu.eln
          ∧ t.eu.unit = (if s.commit.pass ≠ none then .follow
              else if s.eu.eln = .recessive then .run else .waitRise)
          ∧ (t.eu.unit = .waitRise → t.eu.lowTimer = 0)
          ∧ (Key.ofRoll ∉ queueKeys s.pub.queue →
              t.pub.queue.Perm (⟨.roll, 0, s.pub.nextOrder, false⟩ :: s.pub.queue))))
    ∧ (∀ s : State, s.eu.unit = .follow → s.mem.station = .listen → s.commit.pass = none →
      ∃ t u w, exec .elnFall s = .next t
        ∧ startedBoundary { s with eu := { s.eu with eln := .dominant, keptFall := false } } u
        ∧ countedBoundary u w ∧ settled s.eu.low w t)

/-- ELN_FALL outside LISTEN (R24, R29, R30, R36): in FOLLOW a boundary, or kept while a pass runs (several
falls of one pass as one, log entry 36); in RUN
the boundary is joined and the hold starts with no test; in ASSERT it passes the not-drivable test; in
COAST with the line high for 4 × H and no pass running LINE_RESTORED and the boundary is joined, else
the restoration timer returns to 0; in WAIT_RISE and DORMANT the level alone. -/
def Obligations.ElnFallByUnit : Prop :=
  ∀ s v : State, v = { s with eu := { s.eu with eln := .dominant } } →
    (s.eu.unit = .dormant → exec .elnFall s = .next v)
    ∧ (s.eu.unit = .waitRise → ∃ t, exec .elnFall s = .next t ∧ settled s.eu.low v t)
    ∧ (s.eu.unit = .assert → ∃ t, exec .elnFall s = .next t
        ∧ settled s.eu.low { v with eu := { v.eu with driveTest := none } } t)
    ∧ (s.eu.unit = .run → ∃ t u, exec .elnFall s = .next t
        ∧ startedBoundary { v with eu := { v.eu with
            unit := .assert, hold := 0, holdOut := false, leaveOut := false, driveTest := none } } u
        ∧ settled s.eu.low u t)
    ∧ (s.eu.unit = .follow → s.commit.pass ≠ none → ∃ t, exec .elnFall s = .next t
        ∧ settled s.eu.low { v with eu := { v.eu with keptFall := true } } t)
    ∧ (s.eu.unit = .follow → s.commit.pass = none → s.mem.station ≠ .listen →
        ∃ t u, exec .elnFall s = .next t
          ∧ startedBoundary { v with eu := { v.eu with keptFall := false } } u
          ∧ settled s.eu.low u t)
    ∧ (s.eu.unit = .coast → s.commit.pass = none → 4 * s.cfg.holdLen ≤ s.eu.restTimer →
        ∃ t u, exec .elnFall s = .next t
          ∧ startedBoundary { v with
              eu := { v.eu with
                unit := .assert, hold := 0, holdOut := false, leaveOut := false, driveTest := none }
              events := addEvent s.events ⟨.lineRestored, s.eu.epoch, none, none, none⟩
                s.eu.epoch } u
          ∧ settled s.eu.low u t)
    ∧ (s.eu.unit = .coast → s.commit.pass ≠ none ∨ s.eu.restTimer < 4 * s.cfg.holdLen →
        ∃ t, exec .elnFall s = .next t
          ∧ settled s.eu.low { v with eu := { v.eu with restTimer := 0 } } t)

/-- Entry to COAST and the way back (R30, R33, R36): LINE_FAULT with value 2 when the line cannot be driven
and value 1 at the line-low limit; LINE_RESTORED and RUN when the line has been high for L, or remembered
while a pass runs. With the counter at L and no pass running, the expiry that waited is taken at once
(R19, R33): a boundary in COAST, a pull of the line after the restoration. A LEAVE recorded for the release
completes at NOT_DRIVABLE, after LINE_FAULT (log entry 15); where the unit is not in the state that the
step needs, nothing changes (the model's choice, log entry 1). -/
def Obligations.CoastAndRestoration : Prop :=
  (∀ s : State, s.eu.counter < s.cfg.epochLen →
      (s.eu.unit = .assert → s.eu.driveTest ≠ none → s.eu.eln = .recessive → s.eu.leaveOut = false →
        ∃ t, exec .notDrivable s = .next t
          ∧ settled s.eu.low { s with
              eu := { s.eu with
                unit := .coast, restTimer := 0, holdOut := false, leaveOut := false
                driveTest := none }
              events := addEvent s.events ⟨.lineFault, s.eu.epoch, none, none, some 2⟩ s.eu.epoch } t)
      ∧ (s.eu.unit = .assert → s.eu.driveTest ≠ none → s.eu.eln = .recessive → s.eu.leaveOut = true →
          ∃ t, exec .notDrivable s = .next t
            ∧ leftTheBus (s.post .lineFault none none (some 2)) t)
      ∧ (s.eu.unit ≠ .assert ∨ s.eu.driveTest = none ∨ s.eu.eln = .dominant →
          exec .notDrivable s = .next s)
      ∧ (s.eu.unit = .waitRise → ∃ t, exec .lineLowLimit s = .next t
          ∧ settled s.eu.low { s with
              eu := { s.eu with
                unit := .coast, restTimer := 0, holdOut := false, leaveOut := false
                driveTest := none }
              events := addEvent s.events ⟨.lineFault, s.eu.epoch, none, none, some 1⟩ s.eu.epoch } t)
      ∧ (s.eu.unit ≠ .waitRise → exec .lineLowLimit s = .next s)
      ∧ (s.eu.unit = .coast → s.commit.pass = none → ∃ t, exec .lineRestored s = .next t
          ∧ enteredRun s.eu.low { s with
              events := addEvent s.events ⟨.lineRestored, s.eu.epoch, none, none, none⟩
                s.eu.epoch } t)
      ∧ (s.eu.unit = .coast → s.commit.pass ≠ none → exec .lineRestored s
          = .next { s with eu := { s.eu with restTimer := s.cfg.epochLen } })
      ∧ (s.eu.unit ≠ .coast → exec .lineRestored s = .next s))
    ∧ (∀ s : State, s.cfg.epochLen ≤ s.eu.counter → s.commit.pass = none →
      (s.eu.unit = .waitRise → ∃ t u, exec .lineLowLimit s = .next t
        ∧ startedBoundary { s with
            eu := { s.eu with
              unit := .coast, restTimer := 0, holdOut := false, leaveOut := false, driveTest := none
              ownWindow := true }
            events := addEvent s.events ⟨.lineFault, s.eu.epoch, none, none, some 1⟩ s.eu.epoch } u
        ∧ settled s.eu.low u t)
      ∧ (s.eu.unit = .coast → ∃ t, exec .lineRestored s = .next t
        ∧ enteredRun s.eu.low { s with
            events := addEvent s.events ⟨.lineRestored, s.eu.epoch, none, none, none⟩
              s.eu.epoch } t))

/-- HOLD_RUN_OUT (R31, R37): while the pass runs it is recorded; after the pass the line is released: the
unit reads it and is in RUN when it is high, in WAIT_RISE with the line-low timer from 0 when it is low,
or in DORMANT, with the completion of LEAVE, when the pass ended with leave-pending set. At a release to a
high line with the counter at L the expiry that waited is taken at once (R19). Outside ASSERT or with the
hold already out nothing changes (the model's choice, log entry 1). -/
def Obligations.HoldRunOutReleasesTheLine : Prop :=
  ∀ (eln : Level) (s : State),
    (s.eu.unit ≠ .assert ∨ s.eu.holdOut = true → exec (.holdRunOut eln) s = .next s)
    ∧ (s.eu.unit = .assert → s.eu.holdOut = false → s.commit.pass ≠ none →
        exec (.holdRunOut eln) s = .next { s with eu := { s.eu with holdOut := true } })
    ∧ (s.eu.unit = .assert → s.eu.holdOut = false → s.commit.pass = none →
      (s.eu.leaveOut = true → ∃ t, exec (.holdRunOut eln) s = .next t
          ∧ leftTheBus { s with eu := { s.eu with eln := eln } } t)
      ∧ (s.eu.leaveOut = false → eln = .recessive → ∃ t, exec (.holdRunOut eln) s = .next t
          ∧ enteredRun s.eu.low { s with eu := { s.eu with eln := .recessive } } t)
      ∧ (s.eu.leaveOut = false → eln = .dominant → ∃ t, exec (.holdRunOut eln) s = .next t
          ∧ settled s.eu.low { s with eu := { s.eu with
              eln := .dominant, unit := .waitRise, lowTimer := 0, holdOut := false
              leaveOut := false, driveTest := none } } t))

/-! ### The commit pass -/

/-- The status transition table (R49), for a full, a following and a broken entry. -/
def Obligations.StatusTransitionTable : Prop :=
  ∀ (e : StagingEntry) (before : BlockStatus) (stored : Byte) (full following : Prop),
    (full ↔ (∀ w : WordNo, e.words[w] ≠ none) ∧ e.gap = false) →
    (following ↔ (∃ w : WordNo, e.words[w] = none) ∧ e.gap = false ∧ e.firstSeq = stored + 1) →
    (full → commitStatus e before stored = .current)
    ∧ (following → commitStatus e before stored = match before with
        | .empty => .torn
        | .current => .current
        | .torn => .torn
        | .stale => .stale)
    ∧ (¬ full → ¬ following → commitStatus e before stored = match before with
        | .empty => .torn
        | .current => .torn
        | .torn => .torn
        | .stale => .stale)

/-- The end of a commit pass (R48 to R52, R54), whatever the state of the Epoch Unit (u is the station as the
pass has ended): each entry's words are in its block's places and no other word has moved, each entry's
block has the status of R49, the last sequence of the entry and the pass's epoch number, the blocks and
their sources have joined the report in arrival order, the table is empty, and EPOCH_COMMITTED is posted as
the mode calls for. The draft and the last accepted sequences are not touched. In ASSERT with the hold
still running COMMIT_PASS_END records besides whether leave-pending is set, and the quiet tail begins if
the low condition ends; the other states are those of the statement on the unit's moves. -/
def Obligations.CommitPassEndCommitsEveryEntry : Prop :=
  ∀ (eln : Level) (p : Pass) (r : Report) (s u : State), s.commit.pass = some p →
    s.commit.report = some r → stagingBounded s.staging → s.image.words.wf = true →
    u = s.finishPass →
    u = { s with
        image := { s.image with words := u.image.words, blocks := u.image.blocks }
        staging := [], commit := ⟨none, u.commit.report⟩, events := u.events
        eu := { s.eu with ownWindow := false } }
      ∧ u.commit.report
          = some { r with blocks := r.blocks ++ s.staging.map fun e => (e.block, e.source) }
      ∧ (∀ e ∈ s.staging,
          (∀ w : WordNo, u.image.words.read (16 * e.block.val + w.val)
            = (e.words[w]).getD (s.image.words.read (16 * e.block.val + w.val)))
          ∧ u.image.blocks[e.block]
            = ⟨commitStatus e s.image.blocks[e.block].status s.image.blocks[e.block].seq,
                e.lastSeq, some p.epoch⟩)
      ∧ (∀ b : Block, (∀ e ∈ s.staging, e.block ≠ b) → u.image.blocks[b] = s.image.blocks[b]
          ∧ ∀ w : WordNo, u.image.words.read (16 * b.val + w.val)
            = s.image.words.read (16 * b.val + w.val))
      ∧ u.events = (if s.cfg.mode = .every
            ∨ (s.cfg.mode = .changes ∧ 0 < r.blocks.length + s.staging.length)
          then addEvent s.events ⟨.epochCommitted, p.epoch, none, none,
              some (r.blocks.length + s.staging.length)⟩ s.eu.epoch
          else s.events)
      ∧ (s.eu.unit = .assert → s.eu.holdOut = false → exec (.commitPassEnd eln) s
          = .next { u with eu := { u.eu with
              leaveOut := s.mem.leavePending
              tail := if s.eu.low = true ∧ s.eu.eln = .recessive then some 0 else s.eu.tail } })

/-- What follows the end of a pass (R24, R26, R31, R36, R37), from the state u in which the pass has ended:
the line is released if the hold has run out; with leave-pending set the LEAVE completes, and a fall kept in
FOLLOW is dropped (the model's choice, log entry 42); without it, in FOLLOW a
kept fall is a boundary, counted in LISTEN, and a station that has become JOINING enters RUN or WAIT_RISE
by the line, but after a kept fall only as the pass of that boundary ends (log entry 14); in COAST a
restoration that waited is taken if the line has read high until then. -/
def Obligations.UnitMovesAsThePassEnds : Prop :=
  ∀ (eln : Level) (s u : State), s.commit.pass ≠ none → u = s.finishPass →
    (s.mem.leavePending = true → s.eu.unit ≠ .dormant →
        (s.eu.unit = .assert → s.eu.holdOut = true) → ∃ t v,
          exec (.commitPassEnd eln) s = .next t
          ∧ v = { u with eu := { u.eu with
              eln := if s.eu.unit = .assert then eln else u.eu.eln } }
          ∧ leftTheBus v t)
    ∧ (s.mem.leavePending = false →
      (s.eu.unit = .assert → s.eu.holdOut = true → eln = .recessive →
          ∃ t, exec (.commitPassEnd eln) s = .next t
            ∧ enteredRun s.eu.low { u with eu := { u.eu with eln := .recessive, leaveOut := false } } t)
      ∧ (s.eu.unit = .assert → s.eu.holdOut = true → eln = .dominant →
          ∃ t, exec (.commitPassEnd eln) s = .next t
            ∧ settled s.eu.low { u with eu := { u.eu with
                eln := .dominant, unit := .waitRise, lowTimer := 0, holdOut := false
                leaveOut := false, driveTest := none } } t)
      ∧ (s.eu.unit = .follow → s.eu.keptFall = false → s.mem.station = .listen →
          ∃ t, exec (.commitPassEnd eln) s = .next t ∧ settled s.eu.low u t)
      ∧ (s.eu.unit = .follow → s.eu.keptFall = false → s.mem.station ≠ .listen →
          s.eu.eln = .recessive → ∃ t, exec (.commitPassEnd eln) s = .next t
            ∧ enteredRun s.eu.low u t)
      ∧ (s.eu.unit = .follow → s.eu.keptFall = false → s.mem.station ≠ .listen →
          s.eu.eln = .dominant → ∃ t, exec (.commitPassEnd eln) s = .next t
            ∧ settled s.eu.low { u with eu := { u.eu with
                unit := .waitRise, lowTimer := 0, holdOut := false, leaveOut := false
                driveTest := none } } t)
      ∧ (s.eu.unit = .follow → s.eu.keptFall = true → s.mem.station ≠ .listen →
          ∃ t w, exec (.commitPassEnd eln) s = .next t
            ∧ startedBoundary { u with eu := { u.eu with keptFall := false } } w
            ∧ settled s.eu.low w t)
      ∧ (s.eu.unit = .follow → s.eu.keptFall = true → s.mem.station = .listen →
          ∃ t v w, exec (.commitPassEnd eln) s = .next t
            ∧ startedBoundary { u with eu := { u.eu with keptFall := false } } v
            ∧ countedBoundary v w ∧ settled s.eu.low w t)
      ∧ (s.eu.unit = .coast → s.cfg.epochLen ≤ s.eu.restTimer → s.eu.eln = .recessive →
          ∃ t, exec (.commitPassEnd eln) s = .next t
            ∧ enteredRun s.eu.low { u with
                events := addEvent u.events ⟨.lineRestored, s.eu.epoch, none, none, none⟩
                  s.eu.epoch } t)
      ∧ (s.eu.unit = .coast → s.eu.restTimer < s.cfg.epochLen ∨ s.eu.eln = .dominant →
          ∃ t, exec (.commitPassEnd eln) s = .next t ∧ settled s.eu.low u t))

/-! ### The schedules and the events -/

/-- The refresh schedule of one block at a boundary (R103): the countdown goes down by one; at 0 a queued
UPDATE is widened to the whole block, a queued REFRESH stands, else a REFRESH is added if the queue has
room, and the countdown restarts at P; without room it stays 0. The own-silence count (R105): 0 with the
own-accepted flag set, which is then clear, else one more up to 15; at S - 1 or above a ROLL is added
unless one is queued or the queue has no room. At which boundaries, over which blocks and in which order
they run is said by startedBoundary in the statements on boundaries (their order is log entry 19). -/
def Obligations.SchedulesOfABoundary : Prop :=
  (∀ (period : Nat) (flight : Option Key) (p : Publish) (b : Block), ∀ r,
      r = stepRefresh period flight p b →
      (∀ c : Block, c ≠ b → r.countdown[c] = p.countdown[c])
      ∧ r.silence = p.silence ∧ r.ownAccepted = p.ownAccepted
      ∧ (2 ≤ p.countdown[b] → r.countdown[b] = p.countdown[b] - 1 ∧ r.queue = p.queue)
      ∧ (p.countdown[b] ≤ 1 → Key.ofBlock b ∈ queueKeys p.queue →
          r.countdown[b] = period ∧ r.nextOrder = p.nextOrder
          ∧ ((queueKeys p.queue).Nodup → r.queue = p.queue.map fun e => match e.duty with
              | .update b' old =>
                  if b' = b then { e with duty := .update b (old.union ⟨0, 15⟩) } else e
              | .refresh _ => e
              | .roll => e))
      ∧ (p.countdown[b] ≤ 1 → Key.ofBlock b ∉ queueKeys p.queue →
          (hasRoom p.queue flight 8 (.refresh b) = true → r.countdown[b] = period
            ∧ r.queue.Perm (⟨.refresh b, 0, p.nextOrder, false⟩ :: p.queue))
          ∧ (hasRoom p.queue flight 8 (.refresh b) = false →
              r.countdown[b] = 0 ∧ r.queue = p.queue)))
    ∧ (∀ (limit : Nat) (flight : Option Key) (p r : Publish), r = stepSilence limit flight p →
      r.ownAccepted = false ∧ r.countdown = p.countdown
      ∧ r.silence = (if p.ownAccepted then 0 else min 15 (p.silence + 1))
      ∧ (limit - 1 ≤ r.silence → Key.ofRoll ∉ queueKeys p.queue →
          hasRoom p.queue flight 8 .roll = true →
          r.queue.Perm (⟨.roll, 0, p.nextOrder, false⟩ :: p.queue))
      ∧ (r.silence < limit - 1 ∨ Key.ofRoll ∈ queueKeys p.queue
          ∨ hasRoom p.queue flight 8 .roll = false → r.queue = p.queue))

/-- An event that arrives is stored while the queue holds fewer than 31 records and none is OVERFLOW; with
31 an OVERFLOW record of count 1 takes its place; and an OVERFLOW record, always the newest, counts it,
up to 65535 (R153, R154). -/
def Obligations.FullQueueCountsIntoOverflow : Prop :=
  ∀ (q : List Event) (e : Event) (epoch : Byte),
    ((∀ x ∈ q, x.kind ≠ .overflow) → q.length ≤ 30 → addEvent q e epoch = q ++ [e])
    ∧ ((∀ x ∈ q, x.kind ≠ .overflow) → q.length = 31 →
        addEvent q e epoch = q ++ [⟨.overflow, epoch, none, none, some 1⟩])
    ∧ ∀ old o n, q = old ++ [o] → o.kind = .overflow → o.value = some n → n ≤ 65535 →
        addEvent q e epoch = old ++ [{ o with value := some (min 65535 (n + 1)) }]

/-! ### What no other command touches -/

/-- The image words and the draft (R2, R15): while no pass runs, only hardware reset and CONFIGURE change
image words; only hardware reset, CONFIGURE and WRITE_DRAFT ever change the draft. -/
def Obligations.WhatChangesImageAndDraft : Prop :=
  ∀ (i : Instr) (s t : State), exec i s = .next t →
    (∀ a b c d e, i ≠ .hardwareReset a b c d e) → (∀ args, i ≠ .configure args) →
    (s.commit.pass = none → t.image.words = s.image.words)
    ∧ ((∀ a b c d, i ≠ .writeDraft a b c d) → t.image.draft = s.image.draft)

/-! ### Invariants of every step -/

/-- At most 32 events, only the newest OVERFLOW (R152, R153): every step keeps it. -/
def Obligations.EveryStepKeepsEventsBounded : Prop :=
  ∀ s t : State, eventsBounded s.events → step s = .next t → eventsBounded t.events

/-- At most 16 staging entries, never two for one block (R38, R40), and the canonical form of image and
draft: every step keeps them. -/
def Obligations.EveryStepKeepsStagingAndStores : Prop :=
  ∀ s t : State, stagingBounded s.staging → storesWf s → step s = .next t →
    stagingBounded t.staging ∧ storesWf t

/-- The publish queue keeps at most 8 keys in use with the slot, no two entries of one key, its order, and
the place of the ROLL (R98 to R100, R106): every step keeps it. -/
def Obligations.EveryStepKeepsPublishQueue : Prop :=
  ∀ s t : State, publishOk s → step s = .next t → publishOk t

/-- Outside JOINING and MEMBER nothing is sent and no break is raised or asked for (R59, R116, R120), and the
mute counters stay in their ranges (R124, R128): every step keeps each. -/
def Obligations.EveryStepKeepsSilenceAndMuteCounters : Prop :=
  (∀ s t : State, voiceOk s → step s = .next t → voiceOk t)
    ∧ (∀ s t : State, muteBounded s → step s = .next t → muteBounded t)

/-- The Epoch Unit's state fits the station's (R21, R26), and leave-pending is set in the running states
alone (section 8.1): every step keeps it. -/
def Obligations.EveryStepKeepsStationAndUnitTogether : Prop :=
  ∀ s t : State, stationMatchesUnit s → passMatchesUnit s → step s = .next t →
    stationMatchesUnit t ∧ passMatchesUnit t

/-- A CURRENT or TORN block has an owner that is this station or a PRESENT peer (R9), with what keeps that
true: every step keeps it. -/
def Obligations.EveryStepKeepsImageWithOwners : Prop :=
  ∀ s t : State, imageFollowsOwners s → step s = .next t → imageFollowsOwners t

/-- The invariants hold in State.reset. -/
def Obligations.ResetStateMeetsInvariants : Prop :=
  eventsBounded State.reset.events ∧ stagingBounded State.reset.staging ∧ storesWf State.reset
    ∧ publishOk State.reset ∧ voiceOk State.reset ∧ stationMatchesUnit State.reset
    ∧ passMatchesUnit State.reset ∧ muteBounded State.reset ∧ imageFollowsOwners State.reset
end

