-- ==== Sys2Proof/Laws/PerInstr.lean ====
section
/-! SUPPORT. A family of statements about the commands as syntax, one lemma for each constructor:
a well-formed step of the local port is named by one of the fourteen command bytes, and
UNKNOWN_COMMAND by none of them (R163, R165, R184). -/

namespace Sys2Proof.Laws.CommandByte

/-- The command byte of a well-formed step is one of the fourteen, but for UNKNOWN_COMMAND's. -/
def Statement (i : Instr) : Prop :=
  i.wellFormed = true → ∀ c, i.commandByte = some c →
    (commandBytes.contains c = true ↔ ∀ b, i ≠ .unknownCommand b)

theorem hardwareReset (sid : StationNo) (rate : BitVec 2) (lrx eln : Level) (csLow : Bool) : Statement (.hardwareReset sid rate lrx eln csLow) := by
  intro _ c hc
  cases hc

theorem transactionStart : Statement (.transactionStart) := by
  intro _ c hc
  cases hc

theorem readStatus : Statement (.readStatus) := by
  intro _ c hc
  cases hc
  exact ⟨fun _ b => Instr.noConfusion, fun _ => by decide⟩

theorem readConfig : Statement (.readConfig) := by
  intro _ c hc
  cases hc
  exact ⟨fun _ b => Instr.noConfusion, fun _ => by decide⟩

theorem readCounters : Statement (.readCounters) := by
  intro _ c hc
  cases hc
  exact ⟨fun _ b => Instr.noConfusion, fun _ => by decide⟩

theorem readEvents (maximum : Byte) : Statement (.readEvents maximum) := by
  intro _ c hc
  cases hc
  exact ⟨fun _ b => Instr.noConfusion, fun _ => by decide⟩

theorem readPeers : Statement (.readPeers) := by
  intro _ c hc
  cases hc
  exact ⟨fun _ b => Instr.noConfusion, fun _ => by decide⟩

theorem readCommitReport : Statement (.readCommitReport) := by
  intro _ c hc
  cases hc
  exact ⟨fun _ b => Instr.noConfusion, fun _ => by decide⟩

theorem readImage (block first count : Byte) : Statement (.readImage block first count) := by
  intro _ c hc
  cases hc
  exact ⟨fun _ b => Instr.noConfusion, fun _ => by decide⟩

theorem readBlockStatus (first count : Byte) : Statement (.readBlockStatus first count) := by
  intro _ c hc
  cases hc
  exact ⟨fun _ b => Instr.noConfusion, fun _ => by decide⟩

theorem readDraft (block first count : Byte) : Statement (.readDraft block first count) := by
  intro _ c hc
  cases hc
  exact ⟨fun _ b => Instr.noConfusion, fun _ => by decide⟩

theorem writeDraft (block first count : Byte) (data : List Byte) : Statement (.writeDraft block first count data) := by
  intro _ c hc
  cases hc
  exact ⟨fun _ b => Instr.noConfusion, fun _ => by decide⟩

theorem publish (block first count : Byte) : Statement (.publish block first count) := by
  intro _ c hc
  cases hc
  exact ⟨fun _ b => Instr.noConfusion, fun _ => by decide⟩

theorem configure (args : List Byte) : Statement (.configure args) := by
  intro _ c hc
  cases hc
  exact ⟨fun _ b => Instr.noConfusion, fun _ => by decide⟩

theorem start : Statement (.start) := by
  intro _ c hc
  cases hc
  exact ⟨fun _ b => Instr.noConfusion, fun _ => by decide⟩

theorem leave : Statement (.leave) := by
  intro _ c hc
  cases hc
  exact ⟨fun _ b => Instr.noConfusion, fun _ => by decide⟩

theorem unknownCommand (command : Byte) : Statement (.unknownCommand command) := by
  intro h c hc
  cases hc
  simp only [Instr.wellFormed, Bool.not_eq_true'] at h
  exact ⟨fun hm => absurd hm (by rw [h]; decide), fun hn => absurd rfl (hn command)⟩

theorem frameError : Statement (.frameError) := by
  intro _ c hc
  cases hc

theorem readTransactionEnd : Statement (.readTransactionEnd) := by
  intro _ c hc
  cases hc

theorem readEventsEnd (clocked : Nat) : Statement (.readEventsEnd clocked) := by
  intro _ c hc
  cases hc

theorem startEdge : Statement (.startEdge) := by
  intro _ c hc
  cases hc

theorem falseStart : Statement (.falseStart) := by
  intro _ c hc
  cases hc

theorem characterDelivered (data : Byte) (marker framing : Bool) : Statement (.characterDelivered data marker framing) := by
  intro _ c hc
  cases hc

theorem heldCharacterRise : Statement (.heldCharacterRise) := by
  intro _ c hc
  cases hc

theorem breakDriveStart : Statement (.breakDriveStart) := by
  intro _ c hc
  cases hc

theorem breakDriven : Statement (.breakDriven) := by
  intro _ c hc
  cases hc

theorem breakSeen : Statement (.breakSeen) := by
  intro _ c hc
  cases hc

theorem breakEnd : Statement (.breakEnd) := by
  intro _ c hc
  cases hc

theorem busFault : Statement (.busFault) := by
  intro _ c hc
  cases hc

theorem busIdle : Statement (.busIdle) := by
  intro _ c hc
  cases hc

theorem slotBroken : Statement (.slotBroken) := by
  intro _ c hc
  cases hc

theorem slotClean : Statement (.slotClean) := by
  intro _ c hc
  cases hc

theorem claim : Statement (.claim) := by
  intro _ c hc
  cases hc

theorem arbitrationLoss : Statement (.arbitrationLoss) := by
  intro _ c hc
  cases hc

theorem claimWon : Statement (.claimWon) := by
  intro _ c hc
  cases hc

theorem lastCheckSent : Statement (.lastCheckSent) := by
  intro _ c hc
  cases hc

theorem bitFault : Statement (.bitFault) := by
  intro _ c hc
  cases hc

theorem lowConditionStart : Statement (.lowConditionStart) := by
  intro _ c hc
  cases hc

theorem quietTailEnd : Statement (.quietTailEnd) := by
  intro _ c hc
  cases hc

theorem epochExpiry : Statement (.epochExpiry) := by
  intro _ c hc
  cases hc

theorem elnFall : Statement (.elnFall) := by
  intro _ c hc
  cases hc

theorem elnRise : Statement (.elnRise) := by
  intro _ c hc
  cases hc

theorem notDrivable : Statement (.notDrivable) := by
  intro _ c hc
  cases hc

theorem holdRunOut (eln : Level) : Statement (.holdRunOut eln) := by
  intro _ c hc
  cases hc

theorem lineLowLimit : Statement (.lineLowLimit) := by
  intro _ c hc
  cases hc

theorem lineRestored : Statement (.lineRestored) := by
  intro _ c hc
  cases hc

theorem commitPassEnd (eln : Level) : Statement (.commitPassEnd eln) := by
  intro _ c hc
  cases hc

theorem firstRecessiveReading : Statement (.firstRecessiveReading) := by
  intro _ c hc
  cases hc

end Sys2Proof.Laws.CommandByte
end

