-- ==== Sys2Proof/Laws/State.lean ====
section
/-! SUPPORT. The frame of each named operation: the parts of the station it leaves as they were. One
theorem for an operation, a clause for each part. -/

namespace Sys2Proof.Machine

variable (s : State)

@[simp] theorem State.postAt_frame (e : Byte) (k : EventKind) (n : Option StationNo) (b : Option Block) (v : Option Nat) :
    (s.postAt e k n b v).straps = s.straps ∧ (s.postAt e k n b v).cfg = s.cfg
      ∧ (s.postAt e k n b v).line = s.line ∧ (s.postAt e k n b v).rx = s.rx
      ∧ (s.postAt e k n b v).tx = s.tx ∧ (s.postAt e k n b v).pub = s.pub
      ∧ (s.postAt e k n b v).eu = s.eu ∧ (s.postAt e k n b v).staging = s.staging
      ∧ (s.postAt e k n b v).commit = s.commit ∧ (s.postAt e k n b v).image = s.image
      ∧ (s.postAt e k n b v).mem = s.mem ∧ (s.postAt e k n b v).mute = s.mute
      ∧ (s.postAt e k n b v).counters = s.counters ∧ (s.postAt e k n b v).port = s.port
      ∧ (s.postAt e k n b v).pending = s.pending ∧ (s.postAt e k n b v).free = s.free := by
  unfold State.postAt
  (try dsimp only)
  (repeat' split) <;> simp

@[simp] theorem State.post_frame (k : EventKind) (n : Option StationNo) (b : Option Block) (v : Option Nat) :
    (s.post k n b v).straps = s.straps ∧ (s.post k n b v).cfg = s.cfg
      ∧ (s.post k n b v).line = s.line ∧ (s.post k n b v).rx = s.rx ∧ (s.post k n b v).tx = s.tx
      ∧ (s.post k n b v).pub = s.pub ∧ (s.post k n b v).eu = s.eu
      ∧ (s.post k n b v).staging = s.staging ∧ (s.post k n b v).commit = s.commit
      ∧ (s.post k n b v).image = s.image ∧ (s.post k n b v).mem = s.mem
      ∧ (s.post k n b v).mute = s.mute ∧ (s.post k n b v).counters = s.counters
      ∧ (s.post k n b v).port = s.port ∧ (s.post k n b v).pending = s.pending
      ∧ (s.post k n b v).free = s.free := by
  unfold State.post
  (try dsimp only)
  (repeat' split) <;> simp

@[simp] theorem State.schedules_frame :
    (s.schedules).straps = s.straps ∧ (s.schedules).cfg = s.cfg ∧ (s.schedules).line = s.line
      ∧ (s.schedules).rx = s.rx ∧ (s.schedules).tx = s.tx ∧ (s.schedules).eu = s.eu
      ∧ (s.schedules).staging = s.staging ∧ (s.schedules).commit = s.commit
      ∧ (s.schedules).image = s.image ∧ (s.schedules).mem = s.mem ∧ (s.schedules).mute = s.mute
      ∧ (s.schedules).events = s.events ∧ (s.schedules).counters = s.counters
      ∧ (s.schedules).port = s.port ∧ (s.schedules).pending = s.pending
      ∧ (s.schedules).free = s.free := by
  unfold State.schedules
  (try dsimp only)
  (repeat' split) <;> simp

@[simp] theorem State.stageDispatch_frame (b : Block) (n : StationNo) (q : Byte) (sp : Span) (ws : List Word) :
    (s.stageDispatch b n q sp ws).straps = s.straps
      ∧ (s.stageDispatch b n q sp ws).cfg = s.cfg ∧ (s.stageDispatch b n q sp ws).line = s.line
      ∧ (s.stageDispatch b n q sp ws).rx = s.rx ∧ (s.stageDispatch b n q sp ws).tx = s.tx
      ∧ (s.stageDispatch b n q sp ws).pub = s.pub ∧ (s.stageDispatch b n q sp ws).eu = s.eu
      ∧ (s.stageDispatch b n q sp ws).commit = s.commit
      ∧ (s.stageDispatch b n q sp ws).image = s.image ∧ (s.stageDispatch b n q sp ws).mem = s.mem
      ∧ (s.stageDispatch b n q sp ws).mute = s.mute
      ∧ (s.stageDispatch b n q sp ws).events = s.events
      ∧ (s.stageDispatch b n q sp ws).port = s.port
      ∧ (s.stageDispatch b n q sp ws).pending = s.pending
      ∧ (s.stageDispatch b n q sp ws).free = s.free := by
  unfold State.stageDispatch
  (try dsimp only)
  (repeat' split) <;> simp

@[simp] theorem State.commitHead_frame (e : Byte) :
    (s.commitHead e).straps = s.straps ∧ (s.commitHead e).cfg = s.cfg
      ∧ (s.commitHead e).line = s.line ∧ (s.commitHead e).rx = s.rx ∧ (s.commitHead e).tx = s.tx
      ∧ (s.commitHead e).pub = s.pub ∧ (s.commitHead e).eu = s.eu ∧ (s.commitHead e).mem = s.mem
      ∧ (s.commitHead e).mute = s.mute ∧ (s.commitHead e).events = s.events
      ∧ (s.commitHead e).counters = s.counters ∧ (s.commitHead e).port = s.port
      ∧ (s.commitHead e).pending = s.pending ∧ (s.commitHead e).free = s.free := by
  unfold State.commitHead
  (try dsimp only)
  (repeat' split) <;> simp

@[simp] theorem State.commitSome_frame (e : Byte) (n : Nat) :
    (State.commitSome e n s).straps = s.straps ∧ (State.commitSome e n s).cfg = s.cfg
      ∧ (State.commitSome e n s).line = s.line ∧ (State.commitSome e n s).rx = s.rx
      ∧ (State.commitSome e n s).tx = s.tx ∧ (State.commitSome e n s).pub = s.pub
      ∧ (State.commitSome e n s).eu = s.eu ∧ (State.commitSome e n s).mem = s.mem
      ∧ (State.commitSome e n s).mute = s.mute ∧ (State.commitSome e n s).events = s.events
      ∧ (State.commitSome e n s).counters = s.counters ∧ (State.commitSome e n s).port = s.port
      ∧ (State.commitSome e n s).pending = s.pending ∧ (State.commitSome e n s).free = s.free := by
  induction n generalizing s with
  | zero => simp [State.commitSome]
  | succ n ih => simp [State.commitSome, ih]

@[simp] theorem State.postCommitted_frame (e : Byte) :
    (s.postCommitted e).straps = s.straps ∧ (s.postCommitted e).cfg = s.cfg
      ∧ (s.postCommitted e).line = s.line ∧ (s.postCommitted e).rx = s.rx
      ∧ (s.postCommitted e).tx = s.tx ∧ (s.postCommitted e).pub = s.pub
      ∧ (s.postCommitted e).eu = s.eu ∧ (s.postCommitted e).staging = s.staging
      ∧ (s.postCommitted e).commit = s.commit ∧ (s.postCommitted e).image = s.image
      ∧ (s.postCommitted e).mem = s.mem ∧ (s.postCommitted e).mute = s.mute
      ∧ (s.postCommitted e).counters = s.counters ∧ (s.postCommitted e).port = s.port
      ∧ (s.postCommitted e).pending = s.pending ∧ (s.postCommitted e).free = s.free := by
  unfold State.postCommitted
  (try dsimp only)
  (repeat' split) <;> simp

@[simp] theorem State.finishPass_frame :
    (s.finishPass).straps = s.straps ∧ (s.finishPass).cfg = s.cfg
      ∧ (s.finishPass).line = s.line ∧ (s.finishPass).rx = s.rx ∧ (s.finishPass).tx = s.tx
      ∧ (s.finishPass).pub = s.pub ∧ (s.finishPass).mem = s.mem ∧ (s.finishPass).mute = s.mute
      ∧ (s.finishPass).counters = s.counters ∧ (s.finishPass).port = s.port
      ∧ (s.finishPass).pending = s.pending ∧ (s.finishPass).free = s.free := by
  unfold State.finishPass
  (try dsimp only)
  (repeat' split) <;> simp

@[simp] theorem State.startPass_frame :
    (s.startPass).straps = s.straps ∧ (s.startPass).cfg = s.cfg ∧ (s.startPass).line = s.line
      ∧ (s.startPass).rx = s.rx ∧ (s.startPass).tx = s.tx ∧ (s.startPass).pub = s.pub
      ∧ (s.startPass).eu = s.eu ∧ (s.startPass).staging = s.staging
      ∧ (s.startPass).image = s.image ∧ (s.startPass).mem = s.mem ∧ (s.startPass).mute = s.mute
      ∧ (s.startPass).events = s.events ∧ (s.startPass).counters = s.counters
      ∧ (s.startPass).port = s.port ∧ (s.startPass).pending = s.pending
      ∧ (s.startPass).free = s.free := by
  unfold State.startPass
  (try dsimp only)
  (repeat' split) <;> simp

@[simp] theorem State.setPeer_frame (n : StationNo) (p : Peer) :
    (s.setPeer n p).straps = s.straps ∧ (s.setPeer n p).cfg = s.cfg
      ∧ (s.setPeer n p).line = s.line ∧ (s.setPeer n p).rx = s.rx ∧ (s.setPeer n p).tx = s.tx
      ∧ (s.setPeer n p).pub = s.pub ∧ (s.setPeer n p).eu = s.eu
      ∧ (s.setPeer n p).staging = s.staging ∧ (s.setPeer n p).commit = s.commit
      ∧ (s.setPeer n p).image = s.image ∧ (s.setPeer n p).mute = s.mute
      ∧ (s.setPeer n p).events = s.events ∧ (s.setPeer n p).counters = s.counters
      ∧ (s.setPeer n p).port = s.port ∧ (s.setPeer n p).pending = s.pending
      ∧ (s.setPeer n p).free = s.free := by
  unfold State.setPeer
  (try dsimp only)
  (repeat' split) <;> simp

@[simp] theorem State.hear_frame (n : StationNo) (e : Byte) :
    (s.hear n e).straps = s.straps ∧ (s.hear n e).cfg = s.cfg ∧ (s.hear n e).line = s.line
      ∧ (s.hear n e).rx = s.rx ∧ (s.hear n e).tx = s.tx ∧ (s.hear n e).pub = s.pub
      ∧ (s.hear n e).eu = s.eu ∧ (s.hear n e).staging = s.staging ∧ (s.hear n e).commit = s.commit
      ∧ (s.hear n e).image = s.image ∧ (s.hear n e).mute = s.mute
      ∧ (s.hear n e).counters = s.counters ∧ (s.hear n e).port = s.port
      ∧ (s.hear n e).pending = s.pending ∧ (s.hear n e).free = s.free := by
  unfold State.hear
  (try dsimp only)
  (repeat' split) <;> simp

@[simp] theorem State.countPeer_frame (n : StationNo) :
    (s.countPeer n).straps = s.straps ∧ (s.countPeer n).cfg = s.cfg
      ∧ (s.countPeer n).line = s.line ∧ (s.countPeer n).rx = s.rx ∧ (s.countPeer n).tx = s.tx
      ∧ (s.countPeer n).pub = s.pub ∧ (s.countPeer n).eu = s.eu
      ∧ (s.countPeer n).staging = s.staging ∧ (s.countPeer n).commit = s.commit
      ∧ (s.countPeer n).mute = s.mute ∧ (s.countPeer n).counters = s.counters
      ∧ (s.countPeer n).port = s.port ∧ (s.countPeer n).pending = s.pending
      ∧ (s.countPeer n).free = s.free := by
  unfold State.countPeer
  (try dsimp only)
  (repeat' split) <;> simp

@[simp] theorem State.countSilence_frame :
    (s.countSilence).straps = s.straps ∧ (s.countSilence).cfg = s.cfg
      ∧ (s.countSilence).line = s.line ∧ (s.countSilence).rx = s.rx ∧ (s.countSilence).tx = s.tx
      ∧ (s.countSilence).pub = s.pub ∧ (s.countSilence).eu = s.eu
      ∧ (s.countSilence).staging = s.staging ∧ (s.countSilence).commit = s.commit
      ∧ (s.countSilence).mute = s.mute ∧ (s.countSilence).counters = s.counters
      ∧ (s.countSilence).port = s.port ∧ (s.countSilence).pending = s.pending
      ∧ (s.countSilence).free = s.free := by
  simp only [State.countSilence]
  generalize allStations = l
  induction l generalizing s with
  | nil => simp
  | cons x l ih => simpa using ih (s.countPeer x)

@[simp] theorem State.boundary_frame :
    (s.boundary).straps = s.straps ∧ (s.boundary).cfg = s.cfg ∧ (s.boundary).line = s.line
      ∧ (s.boundary).rx = s.rx ∧ (s.boundary).tx = s.tx ∧ (s.boundary).staging = s.staging
      ∧ (s.boundary).mute = s.mute ∧ (s.boundary).counters = s.counters
      ∧ (s.boundary).port = s.port ∧ (s.boundary).pending = s.pending ∧ (s.boundary).free = s.free := by
  unfold State.boundary
  (try dsimp only)
  (repeat' split) <;> simp

@[simp] theorem State.withdraw_frame :
    (s.withdraw).straps = s.straps ∧ (s.withdraw).cfg = s.cfg ∧ (s.withdraw).rx = s.rx
      ∧ (s.withdraw).tx = s.tx ∧ (s.withdraw).pub = s.pub ∧ (s.withdraw).eu = s.eu
      ∧ (s.withdraw).staging = s.staging ∧ (s.withdraw).commit = s.commit
      ∧ (s.withdraw).image = s.image ∧ (s.withdraw).mem = s.mem ∧ (s.withdraw).mute = s.mute
      ∧ (s.withdraw).events = s.events ∧ (s.withdraw).counters = s.counters
      ∧ (s.withdraw).port = s.port ∧ (s.withdraw).pending = s.pending ∧ (s.withdraw).free = s.free := by
  unfold State.withdraw
  (try dsimp only)
  (repeat' split) <;> simp

@[simp] theorem State.endAttempt_frame :
    (s.endAttempt).straps = s.straps ∧ (s.endAttempt).cfg = s.cfg
      ∧ (s.endAttempt).line = s.line ∧ (s.endAttempt).rx = s.rx ∧ (s.endAttempt).eu = s.eu
      ∧ (s.endAttempt).staging = s.staging ∧ (s.endAttempt).commit = s.commit
      ∧ (s.endAttempt).image = s.image ∧ (s.endAttempt).mem = s.mem ∧ (s.endAttempt).mute = s.mute
      ∧ (s.endAttempt).events = s.events ∧ (s.endAttempt).counters = s.counters
      ∧ (s.endAttempt).port = s.port ∧ (s.endAttempt).pending = s.pending
      ∧ (s.endAttempt).free = s.free := by
  unfold State.endAttempt
  (try dsimp only)
  (repeat' split) <;> simp

@[simp] theorem State.dropOwn_frame :
    (s.dropOwn).straps = s.straps ∧ (s.dropOwn).cfg = s.cfg ∧ (s.dropOwn).line = s.line
      ∧ (s.dropOwn).tx = s.tx ∧ (s.dropOwn).pub = s.pub ∧ (s.dropOwn).eu = s.eu
      ∧ (s.dropOwn).staging = s.staging ∧ (s.dropOwn).commit = s.commit
      ∧ (s.dropOwn).image = s.image ∧ (s.dropOwn).mem = s.mem ∧ (s.dropOwn).mute = s.mute
      ∧ (s.dropOwn).events = s.events ∧ (s.dropOwn).counters = s.counters
      ∧ (s.dropOwn).port = s.port ∧ (s.dropOwn).pending = s.pending ∧ (s.dropOwn).free = s.free := by
  unfold State.dropOwn
  (try dsimp only)
  (repeat' split) <;> simp

@[simp] theorem State.stopVoice_frame :
    (s.stopVoice).straps = s.straps ∧ (s.stopVoice).cfg = s.cfg ∧ (s.stopVoice).eu = s.eu
      ∧ (s.stopVoice).staging = s.staging ∧ (s.stopVoice).commit = s.commit
      ∧ (s.stopVoice).image = s.image ∧ (s.stopVoice).mem = s.mem ∧ (s.stopVoice).mute = s.mute
      ∧ (s.stopVoice).events = s.events ∧ (s.stopVoice).counters = s.counters
      ∧ (s.stopVoice).port = s.port ∧ (s.stopVoice).pending = s.pending
      ∧ (s.stopVoice).free = s.free := by
  unfold State.stopVoice
  (try dsimp only)
  (repeat' split) <;> simp

@[simp] theorem State.completeLeave_frame :
    (s.completeLeave).straps = s.straps ∧ (s.completeLeave).cfg = s.cfg
      ∧ (s.completeLeave).commit = s.commit ∧ (s.completeLeave).counters = s.counters
      ∧ (s.completeLeave).port = s.port ∧ (s.completeLeave).pending = s.pending
      ∧ (s.completeLeave).free = s.free := by
  unfold State.completeLeave
  (try dsimp only)
  (repeat' split) <;> simp

@[simp] theorem State.leaveNow_frame :
    (s.leaveNow).straps = s.straps ∧ (s.leaveNow).cfg = s.cfg
      ∧ (s.leaveNow).counters = s.counters ∧ (s.leaveNow).port = s.port
      ∧ (s.leaveNow).pending = s.pending ∧ (s.leaveNow).free = s.free := by
  unfold State.leaveNow
  (try dsimp only)
  (repeat' split) <;> simp

@[simp] theorem State.expireRun_frame :
    (s.expireRun).straps = s.straps ∧ (s.expireRun).cfg = s.cfg ∧ (s.expireRun).line = s.line
      ∧ (s.expireRun).rx = s.rx ∧ (s.expireRun).tx = s.tx ∧ (s.expireRun).staging = s.staging
      ∧ (s.expireRun).mute = s.mute ∧ (s.expireRun).counters = s.counters
      ∧ (s.expireRun).port = s.port ∧ (s.expireRun).pending = s.pending
      ∧ (s.expireRun).free = s.free := by
  unfold State.expireRun
  (try dsimp only)
  (repeat' split) <;> simp

@[simp] theorem State.joinFall_frame :
    (s.joinFall).straps = s.straps ∧ (s.joinFall).cfg = s.cfg ∧ (s.joinFall).line = s.line
      ∧ (s.joinFall).rx = s.rx ∧ (s.joinFall).tx = s.tx ∧ (s.joinFall).staging = s.staging
      ∧ (s.joinFall).mute = s.mute ∧ (s.joinFall).counters = s.counters
      ∧ (s.joinFall).port = s.port ∧ (s.joinFall).pending = s.pending ∧ (s.joinFall).free = s.free := by
  unfold State.joinFall
  (try dsimp only)
  (repeat' split) <;> simp

@[simp] theorem State.expireCoast_frame :
    (s.expireCoast).straps = s.straps ∧ (s.expireCoast).cfg = s.cfg
      ∧ (s.expireCoast).line = s.line ∧ (s.expireCoast).rx = s.rx ∧ (s.expireCoast).tx = s.tx
      ∧ (s.expireCoast).staging = s.staging ∧ (s.expireCoast).mute = s.mute
      ∧ (s.expireCoast).counters = s.counters ∧ (s.expireCoast).port = s.port
      ∧ (s.expireCoast).pending = s.pending ∧ (s.expireCoast).free = s.free := by
  unfold State.expireCoast
  (try dsimp only)
  (repeat' split) <;> simp

@[simp] theorem State.enterRun_frame :
    (s.enterRun).straps = s.straps ∧ (s.enterRun).cfg = s.cfg ∧ (s.enterRun).line = s.line
      ∧ (s.enterRun).rx = s.rx ∧ (s.enterRun).tx = s.tx ∧ (s.enterRun).staging = s.staging
      ∧ (s.enterRun).mute = s.mute ∧ (s.enterRun).counters = s.counters
      ∧ (s.enterRun).port = s.port ∧ (s.enterRun).pending = s.pending ∧ (s.enterRun).free = s.free := by
  unfold State.enterRun
  (try dsimp only)
  (repeat' split) <;> simp

@[simp] theorem State.enterCoast_frame (c : Nat) :
    (s.enterCoast c).straps = s.straps ∧ (s.enterCoast c).cfg = s.cfg
      ∧ (s.enterCoast c).line = s.line ∧ (s.enterCoast c).rx = s.rx ∧ (s.enterCoast c).tx = s.tx
      ∧ (s.enterCoast c).staging = s.staging ∧ (s.enterCoast c).mute = s.mute
      ∧ (s.enterCoast c).counters = s.counters ∧ (s.enterCoast c).port = s.port
      ∧ (s.enterCoast c).pending = s.pending ∧ (s.enterCoast c).free = s.free := by
  unfold State.enterCoast
  (try dsimp only)
  (repeat' split) <;> simp

@[simp] theorem State.enterWaitRise_frame :
    (s.enterWaitRise).straps = s.straps ∧ (s.enterWaitRise).cfg = s.cfg
      ∧ (s.enterWaitRise).line = s.line ∧ (s.enterWaitRise).rx = s.rx
      ∧ (s.enterWaitRise).tx = s.tx ∧ (s.enterWaitRise).pub = s.pub
      ∧ (s.enterWaitRise).staging = s.staging ∧ (s.enterWaitRise).commit = s.commit
      ∧ (s.enterWaitRise).image = s.image ∧ (s.enterWaitRise).mem = s.mem
      ∧ (s.enterWaitRise).mute = s.mute ∧ (s.enterWaitRise).events = s.events
      ∧ (s.enterWaitRise).counters = s.counters ∧ (s.enterWaitRise).port = s.port
      ∧ (s.enterWaitRise).pending = s.pending ∧ (s.enterWaitRise).free = s.free := by
  unfold State.enterWaitRise
  (try dsimp only)
  (repeat' split) <;> simp

@[simp] theorem State.byLine_frame :
    (s.byLine).straps = s.straps ∧ (s.byLine).cfg = s.cfg ∧ (s.byLine).line = s.line
      ∧ (s.byLine).rx = s.rx ∧ (s.byLine).tx = s.tx ∧ (s.byLine).staging = s.staging
      ∧ (s.byLine).mute = s.mute ∧ (s.byLine).counters = s.counters ∧ (s.byLine).port = s.port
      ∧ (s.byLine).pending = s.pending ∧ (s.byLine).free = s.free := by
  unfold State.byLine
  (try dsimp only)
  (repeat' split) <;> simp

@[simp] theorem State.release_frame (l : Level) :
    (s.release l).straps = s.straps ∧ (s.release l).cfg = s.cfg
      ∧ (s.release l).counters = s.counters ∧ (s.release l).port = s.port
      ∧ (s.release l).pending = s.pending ∧ (s.release l).free = s.free := by
  unfold State.release
  (try dsimp only)
  (repeat' split) <;> simp

@[simp] theorem State.enterJoining_frame :
    (s.enterJoining).straps = s.straps ∧ (s.enterJoining).cfg = s.cfg
      ∧ (s.enterJoining).line = s.line ∧ (s.enterJoining).rx = s.rx ∧ (s.enterJoining).tx = s.tx
      ∧ (s.enterJoining).staging = s.staging ∧ (s.enterJoining).mute = s.mute
      ∧ (s.enterJoining).counters = s.counters ∧ (s.enterJoining).port = s.port
      ∧ (s.enterJoining).pending = s.pending ∧ (s.enterJoining).free = s.free := by
  unfold State.enterJoining
  (try dsimp only)
  (repeat' split) <;> simp

@[simp] theorem State.countListening_frame (b : Bool) :
    (s.countListening b).straps = s.straps ∧ (s.countListening b).cfg = s.cfg
      ∧ (s.countListening b).line = s.line ∧ (s.countListening b).rx = s.rx
      ∧ (s.countListening b).tx = s.tx ∧ (s.countListening b).staging = s.staging
      ∧ (s.countListening b).mute = s.mute ∧ (s.countListening b).counters = s.counters
      ∧ (s.countListening b).port = s.port ∧ (s.countListening b).pending = s.pending
      ∧ (s.countListening b).free = s.free := by
  unfold State.countListening
  (try dsimp only)
  (repeat' split) <;> simp

@[simp] theorem State.followBoundary_frame :
    (s.followBoundary).straps = s.straps ∧ (s.followBoundary).cfg = s.cfg
      ∧ (s.followBoundary).line = s.line ∧ (s.followBoundary).rx = s.rx
      ∧ (s.followBoundary).tx = s.tx ∧ (s.followBoundary).staging = s.staging
      ∧ (s.followBoundary).mute = s.mute ∧ (s.followBoundary).counters = s.counters
      ∧ (s.followBoundary).port = s.port ∧ (s.followBoundary).pending = s.pending
      ∧ (s.followBoundary).free = s.free := by
  unfold State.followBoundary
  (try dsimp only)
  (repeat' split) <;> simp

@[simp] theorem State.enterMember_frame :
    (s.enterMember).straps = s.straps ∧ (s.enterMember).cfg = s.cfg
      ∧ (s.enterMember).line = s.line ∧ (s.enterMember).rx = s.rx ∧ (s.enterMember).tx = s.tx
      ∧ (s.enterMember).eu = s.eu ∧ (s.enterMember).staging = s.staging
      ∧ (s.enterMember).commit = s.commit ∧ (s.enterMember).image = s.image
      ∧ (s.enterMember).mute = s.mute ∧ (s.enterMember).events = s.events
      ∧ (s.enterMember).counters = s.counters ∧ (s.enterMember).port = s.port
      ∧ (s.enterMember).pending = s.pending ∧ (s.enterMember).free = s.free := by
  unfold State.enterMember
  (try dsimp only)
  (repeat' split) <;> simp

@[simp] theorem State.fallBack_frame :
    (s.fallBack).straps = s.straps ∧ (s.fallBack).cfg = s.cfg
      ∧ (s.fallBack).counters = s.counters ∧ (s.fallBack).port = s.port
      ∧ (s.fallBack).pending = s.pending ∧ (s.fallBack).free = s.free := by
  unfold State.fallBack
  (try dsimp only)
  (repeat' split) <;> simp

@[simp] theorem State.enterMute_frame :
    (s.enterMute).straps = s.straps ∧ (s.enterMute).cfg = s.cfg ∧ (s.enterMute).eu = s.eu
      ∧ (s.enterMute).staging = s.staging ∧ (s.enterMute).commit = s.commit
      ∧ (s.enterMute).image = s.image ∧ (s.enterMute).counters = s.counters
      ∧ (s.enterMute).port = s.port ∧ (s.enterMute).pending = s.pending
      ∧ (s.enterMute).free = s.free := by
  unfold State.enterMute
  (try dsimp only)
  (repeat' split) <;> simp

@[simp] theorem State.offerLow_frame :
    (s.offerLow).straps = s.straps ∧ (s.offerLow).cfg = s.cfg
      ∧ (s.offerLow).staging = s.staging ∧ (s.offerLow).commit = s.commit
      ∧ (s.offerLow).image = s.image ∧ (s.offerLow).mem = s.mem ∧ (s.offerLow).mute = s.mute
      ∧ (s.offerLow).events = s.events ∧ (s.offerLow).port = s.port
      ∧ (s.offerLow).pending = s.pending ∧ (s.offerLow).free = s.free := by
  unfold State.offerLow
  (try dsimp only)
  (repeat' split) <;> simp

@[simp] theorem State.settle_frame (b : Bool) :
    (State.settle b s).straps = s.straps ∧ (State.settle b s).cfg = s.cfg
      ∧ (State.settle b s).staging = s.staging ∧ (State.settle b s).commit = s.commit
      ∧ (State.settle b s).image = s.image ∧ (State.settle b s).mem = s.mem
      ∧ (State.settle b s).mute = s.mute ∧ (State.settle b s).events = s.events
      ∧ (State.settle b s).port = s.port ∧ (State.settle b s).pending = s.pending
      ∧ (State.settle b s).free = s.free := by
  unfold State.settle
  (try dsimp only)
  (repeat' split) <;> simp

@[simp] theorem State.failAttempt_frame :
    (s.failAttempt).straps = s.straps ∧ (s.failAttempt).cfg = s.cfg
      ∧ (s.failAttempt).counters = s.counters ∧ (s.failAttempt).port = s.port
      ∧ (s.failAttempt).pending = s.pending ∧ (s.failAttempt).free = s.free := by
  unfold State.failAttempt
  (try dsimp only)
  (repeat' split) <;> simp

@[simp] theorem State.noteError_frame :
    (s.noteError).straps = s.straps ∧ (s.noteError).cfg = s.cfg ∧ (s.noteError).line = s.line
      ∧ (s.noteError).rx = s.rx ∧ (s.noteError).tx = s.tx ∧ (s.noteError).pub = s.pub
      ∧ (s.noteError).eu = s.eu ∧ (s.noteError).staging = s.staging
      ∧ (s.noteError).commit = s.commit ∧ (s.noteError).image = s.image
      ∧ (s.noteError).mem = s.mem ∧ (s.noteError).events = s.events
      ∧ (s.noteError).counters = s.counters ∧ (s.noteError).port = s.port
      ∧ (s.noteError).pending = s.pending ∧ (s.noteError).free = s.free := by
  unfold State.noteError
  (try dsimp only)
  (repeat' split) <;> simp

@[simp] theorem State.object_frame :
    (s.object).straps = s.straps ∧ (s.object).cfg = s.cfg ∧ (s.object).tx = s.tx
      ∧ (s.object).pub = s.pub ∧ (s.object).eu = s.eu ∧ (s.object).staging = s.staging
      ∧ (s.object).commit = s.commit ∧ (s.object).image = s.image ∧ (s.object).mem = s.mem
      ∧ (s.object).mute = s.mute ∧ (s.object).events = s.events ∧ (s.object).counters = s.counters
      ∧ (s.object).port = s.port ∧ (s.object).pending = s.pending ∧ (s.object).free = s.free := by
  unfold State.object
  (try dsimp only)
  (repeat' split) <;> simp

@[simp] theorem State.malformed_frame :
    (s.malformed).straps = s.straps ∧ (s.malformed).cfg = s.cfg ∧ (s.malformed).tx = s.tx
      ∧ (s.malformed).pub = s.pub ∧ (s.malformed).eu = s.eu ∧ (s.malformed).staging = s.staging
      ∧ (s.malformed).commit = s.commit ∧ (s.malformed).image = s.image
      ∧ (s.malformed).mem = s.mem ∧ (s.malformed).events = s.events
      ∧ (s.malformed).counters = s.counters ∧ (s.malformed).port = s.port
      ∧ (s.malformed).pending = s.pending ∧ (s.malformed).free = s.free := by
  unfold State.malformed
  (try dsimp only)
  (repeat' split) <;> simp

@[simp] theorem State.resetObjections_frame :
    (s.resetObjections).straps = s.straps ∧ (s.resetObjections).cfg = s.cfg
      ∧ (s.resetObjections).line = s.line ∧ (s.resetObjections).rx = s.rx
      ∧ (s.resetObjections).tx = s.tx ∧ (s.resetObjections).pub = s.pub
      ∧ (s.resetObjections).eu = s.eu ∧ (s.resetObjections).staging = s.staging
      ∧ (s.resetObjections).commit = s.commit ∧ (s.resetObjections).image = s.image
      ∧ (s.resetObjections).mem = s.mem ∧ (s.resetObjections).events = s.events
      ∧ (s.resetObjections).counters = s.counters ∧ (s.resetObjections).port = s.port
      ∧ (s.resetObjections).pending = s.pending ∧ (s.resetObjections).free = s.free := by
  unfold State.resetObjections
  (try dsimp only)
  (repeat' split) <;> simp

@[simp] theorem State.noteAcceptance_frame :
    (s.noteAcceptance).straps = s.straps ∧ (s.noteAcceptance).cfg = s.cfg
      ∧ (s.noteAcceptance).line = s.line ∧ (s.noteAcceptance).rx = s.rx
      ∧ (s.noteAcceptance).tx = s.tx ∧ (s.noteAcceptance).eu = s.eu
      ∧ (s.noteAcceptance).staging = s.staging ∧ (s.noteAcceptance).commit = s.commit
      ∧ (s.noteAcceptance).image = s.image ∧ (s.noteAcceptance).counters = s.counters
      ∧ (s.noteAcceptance).port = s.port ∧ (s.noteAcceptance).pending = s.pending
      ∧ (s.noteAcceptance).free = s.free := by
  unfold State.noteAcceptance
  (try dsimp only)
  (repeat' split) <;> simp

@[simp] theorem State.adopt_frame (d : Incoming) :
    (s.adopt d).straps = s.straps ∧ (s.adopt d).cfg = s.cfg ∧ (s.adopt d).line = s.line
      ∧ (s.adopt d).rx = s.rx ∧ (s.adopt d).tx = s.tx ∧ (s.adopt d).pub = s.pub
      ∧ (s.adopt d).staging = s.staging ∧ (s.adopt d).commit = s.commit
      ∧ (s.adopt d).image = s.image ∧ (s.adopt d).mem = s.mem ∧ (s.adopt d).mute = s.mute
      ∧ (s.adopt d).counters = s.counters ∧ (s.adopt d).port = s.port
      ∧ (s.adopt d).pending = s.pending ∧ (s.adopt d).free = s.free := by
  unfold State.adopt
  (try dsimp only)
  (repeat' split) <;> simp

@[simp] theorem State.handOn_frame (d : Incoming) :
    (s.handOn d).straps = s.straps ∧ (s.handOn d).cfg = s.cfg ∧ (s.handOn d).line = s.line
      ∧ (s.handOn d).rx = s.rx ∧ (s.handOn d).tx = s.tx ∧ (s.handOn d).pub = s.pub
      ∧ (s.handOn d).eu = s.eu ∧ (s.handOn d).commit = s.commit ∧ (s.handOn d).image = s.image
      ∧ (s.handOn d).mem = s.mem ∧ (s.handOn d).mute = s.mute ∧ (s.handOn d).port = s.port
      ∧ (s.handOn d).pending = s.pending ∧ (s.handOn d).free = s.free := by
  unfold State.handOn
  (try dsimp only)
  (repeat' split) <;> simp

@[simp] theorem State.compareEpoch_frame (d : Incoming) :
    (s.compareEpoch d).straps = s.straps ∧ (s.compareEpoch d).cfg = s.cfg
      ∧ (s.compareEpoch d).line = s.line ∧ (s.compareEpoch d).rx = s.rx
      ∧ (s.compareEpoch d).tx = s.tx ∧ (s.compareEpoch d).pub = s.pub
      ∧ (s.compareEpoch d).commit = s.commit ∧ (s.compareEpoch d).image = s.image
      ∧ (s.compareEpoch d).mute = s.mute ∧ (s.compareEpoch d).port = s.port
      ∧ (s.compareEpoch d).pending = s.pending ∧ (s.compareEpoch d).free = s.free := by
  unfold State.compareEpoch
  (try dsimp only)
  (repeat' split) <;> simp

@[simp] theorem State.acceptReceived_frame (d : Incoming) :
    (s.acceptReceived d).straps = s.straps ∧ (s.acceptReceived d).cfg = s.cfg
      ∧ (s.acceptReceived d).line = s.line ∧ (s.acceptReceived d).tx = s.tx
      ∧ (s.acceptReceived d).commit = s.commit ∧ (s.acceptReceived d).image = s.image
      ∧ (s.acceptReceived d).port = s.port ∧ (s.acceptReceived d).pending = s.pending
      ∧ (s.acceptReceived d).free = s.free := by
  unfold State.acceptReceived
  (try dsimp only)
  (repeat' split) <;> simp

@[simp] theorem State.ownBlock_frame (a : Attempt) (b : Block) :
    (s.ownBlock a b).straps = s.straps ∧ (s.ownBlock a b).cfg = s.cfg
      ∧ (s.ownBlock a b).line = s.line ∧ (s.ownBlock a b).rx = s.rx ∧ (s.ownBlock a b).tx = s.tx
      ∧ (s.ownBlock a b).eu = s.eu ∧ (s.ownBlock a b).commit = s.commit
      ∧ (s.ownBlock a b).mem = s.mem ∧ (s.ownBlock a b).mute = s.mute
      ∧ (s.ownBlock a b).events = s.events ∧ (s.ownBlock a b).port = s.port
      ∧ (s.ownBlock a b).pending = s.pending ∧ (s.ownBlock a b).free = s.free := by
  unfold State.ownBlock
  (try dsimp only)
  (repeat' split) <;> simp

@[simp] theorem State.acceptOwn_frame (a : Attempt) :
    (s.acceptOwn a).straps = s.straps ∧ (s.acceptOwn a).cfg = s.cfg
      ∧ (s.acceptOwn a).line = s.line ∧ (s.acceptOwn a).eu = s.eu
      ∧ (s.acceptOwn a).commit = s.commit ∧ (s.acceptOwn a).port = s.port
      ∧ (s.acceptOwn a).pending = s.pending ∧ (s.acceptOwn a).free = s.free := by
  unfold State.acceptOwn
  (try dsimp only)
  (repeat' split) <;> simp

end Sys2Proof.Machine
end

