-- ==== Sys2Proof/Laws/Ports.lean ====
section
/-! SUPPORT. The shared operations of the local port and of the low condition: everything each can
do, said once. -/

namespace Sys2Proof.Machine

/-! ### Transactions of the local port -/

/-- A read of a transaction that straddles reset changes nothing (R160). -/
theorem readReply_straddling {s : State} (h : s.port.straddling = true) (c : Byte) (n : Nat)
    (r : Result) (data : List Byte) (records : List Event) :
    s.readReply c n r data records = s := by simp [State.readReply, h]

/-- A read that is taken: the frame is complete, the result and the data are fixed (R167). -/
theorem readReply_ok {s : State} (h : s.port.straddling = false) (c : Byte) (n : Nat)
    (data : List Byte) (records : List Event) :
    s.readReply c n .ok data records
      = { s with port := { s.port with
            txn := some ⟨some c, n, true⟩, result := .ok, buffer := data, evSnap := records } } := by
  simp [State.readReply, h]

/-- A read that is refused fixes its result and leaves the port buffer (R163). -/
theorem readReply_refused {s : State} (h : s.port.straddling = false) {r : Result} (hr : r ≠ .ok)
    (c : Byte) (n : Nat) (data : List Byte) (records : List Event) :
    s.readReply c n r data records
      = { s with port := { s.port with txn := some ⟨some c, n, true⟩, result := r } } := by
  simp [State.readReply, h, hr]

/-- A read touches nothing but the port (R167). -/
@[simp] theorem readReply_frame (s : State) (c : Byte) (n : Nat) (r : Result) (data : List Byte)
    (records : List Event) :
    (s.readReply c n r data records).straps = s.straps
      ∧ (s.readReply c n r data records).cfg = s.cfg
      ∧ (s.readReply c n r data records).line = s.line
      ∧ (s.readReply c n r data records).rx = s.rx
      ∧ (s.readReply c n r data records).tx = s.tx
      ∧ (s.readReply c n r data records).pub = s.pub
      ∧ (s.readReply c n r data records).eu = s.eu
      ∧ (s.readReply c n r data records).staging = s.staging
      ∧ (s.readReply c n r data records).commit = s.commit
      ∧ (s.readReply c n r data records).image = s.image
      ∧ (s.readReply c n r data records).mem = s.mem
      ∧ (s.readReply c n r data records).mute = s.mute
      ∧ (s.readReply c n r data records).events = s.events
      ∧ (s.readReply c n r data records).counters = s.counters
      ∧ (s.readReply c n r data records).pending = s.pending
      ∧ (s.readReply c n r data records).free = s.free := by
  unfold State.readReply
  split <;> simp

/-- The end of a transaction touches nothing but the port (R162). -/
@[simp] theorem endTransaction_frame (s : State) (r : Result) :
    (s.endTransaction r).straps = s.straps ∧ (s.endTransaction r).cfg = s.cfg
      ∧ (s.endTransaction r).line = s.line ∧ (s.endTransaction r).rx = s.rx
      ∧ (s.endTransaction r).tx = s.tx ∧ (s.endTransaction r).pub = s.pub
      ∧ (s.endTransaction r).eu = s.eu ∧ (s.endTransaction r).staging = s.staging
      ∧ (s.endTransaction r).commit = s.commit ∧ (s.endTransaction r).image = s.image
      ∧ (s.endTransaction r).mem = s.mem ∧ (s.endTransaction r).mute = s.mute
      ∧ (s.endTransaction r).events = s.events ∧ (s.endTransaction r).counters = s.counters
      ∧ (s.endTransaction r).pending = s.pending ∧ (s.endTransaction r).free = s.free := by
  unfold State.endTransaction
  split <;> simp

/-- The result a transaction's end leaves (R160, R162). -/
@[simp] theorem endTransaction_last (s : State) (r : Result) :
    (s.endTransaction r).port.last = if s.port.straddling then s.port.last else r := by
  unfold State.endTransaction
  split <;> simp_all

/-- What a write can do: end a straddling transaction, record FRAME_ERROR, record a refusal, or act
and record OK (R160, R163, R166, R168). -/
theorem writeAct_cases (s : State) (complete : Bool) (r : Result) (act : State → State) :
    s.writeAct complete r act =
      if s.port.straddling then s.endTransaction .ok
      else if complete = false then s.endTransaction .frameError
      else if r = .ok then (act s).endTransaction .ok
      else s.endTransaction r := by
  unfold State.writeAct
  cases complete <;> rfl

/-- A write that is taken (R168). -/
theorem writeAct_taken {s : State} (h : s.port.straddling = false) (act : State → State) :
    s.writeAct true .ok act = (act s).endTransaction .ok := by simp [State.writeAct, h]

/-- A write that is refused has no effect but its result (R163). -/
theorem writeAct_refused {s : State} (h : s.port.straddling = false) {r : Result} (hr : r ≠ .ok)
    (act : State → State) : s.writeAct true r act = s.endTransaction r := by
  simp [State.writeAct, h, hr]

/-! ### The low condition (R34) -/

/-- A low condition that begins is offered. -/
theorem settle_begin {s : State} (h : s.eu.low = true) : State.settle false s = s.offerLow := by
  simp [State.settle, h]

/-- A low condition that ends starts the quiet tail. -/
theorem settle_end {s : State} (h : s.eu.low = false) :
    State.settle true s = { s with eu := { s.eu with tail := some 0 } } := by
  simp [State.settle, h]

/-- No change of the low condition, no offer. -/
theorem settle_same {s : State} {before : Bool} (h : s.eu.low = before) :
    State.settle before s = s := by
  cases before <;> simp [State.settle, h]

@[simp] theorem offerLow_unit (s : State) : s.offerLow.eu = { s.eu with tail := none } := by
  unfold State.offerLow State.endAttempt
  dsimp only
  (repeat' split) <;> simp

/-- The quiet tail is all that a change of the low condition does to the Epoch Unit. -/
@[simp] theorem settle_unit (before : Bool) (s : State) :
    (State.settle before s).eu.unit = s.eu.unit := by
  unfold State.settle
  split <;> simp

end Sys2Proof.Machine
end

