-- ==== Sys2Proof/Laws/Queues.lean ====
section
/-! SUPPORT. The event queue, the staging table and the publish queue: what each operation on them can
do, said once. -/

namespace Sys2Proof.Machine

/-! ### The event queue (R153, R154) -/

theorem addEvent_empty (e : Event) (epoch : Byte) : addEvent [] e epoch = [e] := rfl

/-- R154: while an OVERFLOW record stands, an event is counted into it. -/
theorem addEvent_counted {q : List Event} {newest : Event} (e : Event) (epoch : Byte)
    (h : q.getLast? = some newest) (hk : newest.kind = .overflow) :
    addEvent q e epoch
      = q.dropLast ++ [{ newest with value := some (bump (newest.value.getD 0)) }] := by
  simp [addEvent, h, hk]

/-- R153: with 30 records or fewer and no OVERFLOW record, an event is stored. -/
theorem addEvent_stored {q : List Event} (e : Event) (epoch : Byte)
    (h : ∀ n, q.getLast? = some n → n.kind ≠ .overflow) (hl : q.length ≤ 30) :
    addEvent q e epoch = q ++ [e] := by
  unfold addEvent
  cases hq : q.getLast? with
  | none => simp [List.getLast?_eq_none_iff.1 hq]
  | some n => simp [h n hq, Config.eventRoom, show q.length < 31 by omega]

/-- R153: with 31 records and no OVERFLOW record, a new OVERFLOW record takes the place. -/
theorem addEvent_overflow {q : List Event} (e : Event) (epoch : Byte)
    (h : ∀ n, q.getLast? = some n → n.kind ≠ .overflow) (hl : q.length = 31) :
    addEvent q e epoch = q ++ [⟨.overflow, epoch, none, none, some 1⟩] := by
  unfold addEvent
  cases hq : q.getLast? with
  | none => rw [List.getLast?_eq_none_iff.1 hq] at hl; simp at hl
  | some n => simp [h n hq, Config.eventRoom, hl]

theorem addEvent_ne_nil (q : List Event) (e : Event) (epoch : Byte) : addEvent q e epoch ≠ [] := by
  unfold addEvent
  split
  · simp
  · split
    · simp
    · split <;> simp

/-- An event that arrives keeps the queue within its bounds. -/
theorem addEvent_bounded {q : List Event} (h : eventsBounded q) (e : Event) (epoch : Byte) :
    eventsBounded (addEvent q e epoch) := by
  obtain ⟨hl, hd, hf⟩ := h
  rcases List.eq_nil_or_concat q with rfl | ⟨init, last, rfl⟩
  · simp [addEvent, eventsBounded]
  · have hlast : (init ++ [last]).getLast? = some last := by simp
    simp only [List.concat_eq_append] at *
    simp only [List.dropLast_concat, List.length_append, List.length_singleton] at hl hd hf
    by_cases hk : last.kind = .overflow
    · rw [addEvent_counted e epoch hlast hk]
      simp only [List.dropLast_concat]
      refine ⟨by simpa using hl, by simpa using hd, ?_⟩
      intro _ x hx
      simp only [List.getLast?_append, List.getLast?_singleton, Option.some_or,
        Option.some.injEq] at hx
      rw [← hx]; exact hk
    · have hne : ∀ n, (init ++ [last]).getLast? = some n → n.kind ≠ .overflow := by
        intro n hn; rw [hlast] at hn; cases hn; exact hk
      have hall : ∀ x ∈ init ++ [last], x.kind ≠ .overflow := by
        intro x hx
        rcases List.mem_append.1 hx with hx | hx
        · exact hd x hx
        · simp only [List.mem_singleton] at hx; rw [hx]; exact hk
      have hlen : init.length + 1 ≠ 32 := fun h32 => hk (hf h32 last hlast)
      by_cases hr : init.length + 1 ≤ 30
      · rw [addEvent_stored e epoch hne (by simpa using hr)]
        refine ⟨by simp; omega, by simpa using hall, ?_⟩
        intro h32; simp at h32; omega
      · rw [addEvent_overflow e epoch hne (by simp; omega)]
        refine ⟨by simp; omega, by simpa using hall, ?_⟩
        intro _ x hx
        simp at hx
        rw [← hx]

/-! ### The staging table (R40, R41) -/

@[simp] theorem merge_block (e : StagingEntry) (q : Byte) (ws : Vector (Option Word) 16) :
    (e.merge q ws).block = e.block := rfl

@[simp] theorem merge_source (e : StagingEntry) (q : Byte) (ws : Vector (Option Word) 16) :
    (e.merge q ws).source = e.source := rfl

theorem hasEntry_iff (t : List StagingEntry) (b : Block) :
    hasEntry t b = true ↔ b ∈ t.map StagingEntry.block := by
  simp [hasEntry, List.any_eq_true, List.mem_map]

/-- The blocks of the table after a staging: the same, or one more at the tail. -/
theorem stage_blocks (t : List StagingEntry) (b : Block) (n : StationNo) (q : Byte)
    (ws : Vector (Option Word) 16) :
    (stage t b n q ws).map StagingEntry.block
      = if hasEntry t b = true ∨ Config.stagingSize ≤ t.length then t.map StagingEntry.block
        else t.map StagingEntry.block ++ [b] := by
  unfold stage
  by_cases h : hasEntry t b = true
  · rw [if_pos h, if_pos (Or.inl h)]
    simp only [List.map_map]
    refine List.map_congr_left fun e _ => ?_
    simp only [Function.comp]
    split <;> rfl
  · rw [if_neg h]
    by_cases hl : t.length < Config.stagingSize
    · rw [if_pos hl, if_neg (fun hc => hc.elim h fun h' => absurd hl (Nat.not_lt.2 h'))]
      simp
    · rw [if_neg hl, if_pos (Or.inr (by omega))]

/-- A staging keeps the table within its bounds (R38). -/
theorem stage_bounded {t : List StagingEntry} (h : stagingBounded t) (b : Block) (n : StationNo)
    (q : Byte) (ws : Vector (Option Word) 16) : stagingBounded (stage t b n q ws) := by
  have hb := stage_blocks t b n q ws
  have hlen : (stage t b n q ws).length = ((stage t b n q ws).map StagingEntry.block).length := by
    simp
  unfold stagingBounded
  rw [hlen, hb]
  by_cases hc : hasEntry t b = true ∨ Config.stagingSize ≤ t.length
  · rw [if_pos hc]
    exact ⟨by simpa using h.1, h.2⟩
  · rw [if_neg hc]
    have h1 : b ∉ t.map StagingEntry.block := fun hm => hc (Or.inl ((hasEntry_iff t b).2 hm))
    have h2 : t.length < Config.stagingSize := by
      rcases Nat.lt_or_ge t.length Config.stagingSize with h | h
      · exact h
      · exact absurd (Or.inr h) hc
    refine ⟨by simp; omega, ?_⟩
    rw [List.nodup_append]
    exact ⟨h.2, by simp, by
      intro x hx y hy hxy
      simp only [List.mem_singleton] at hy
      rw [hxy, hy] at hx
      exact h1 hx⟩

/-! ### The publish queue (R98 to R101, R111) -/

theorem insertEntry_perm (q : List Entry) (e : Entry) : (insertEntry q e).Perm (e :: q) := by
  induction q with
  | nil => exact List.Perm.refl _
  | cons x rest ih =>
    unfold insertEntry
    split
    · exact List.Perm.refl _
    · exact (ih.cons x).trans (List.Perm.swap e x rest)

@[simp] theorem insertEntry_length (q : List Entry) (e : Entry) :
    (insertEntry q e).length = q.length + 1 := by simpa using (insertEntry_perm q e).length_eq

theorem mem_insertEntry {q : List Entry} {e x : Entry} :
    x ∈ insertEntry q e ↔ x = e ∨ x ∈ q := by
  rw [(insertEntry_perm q e).mem_iff, List.mem_cons]

theorem Entry.before_iff (a b : Entry) :
    a.before b = true ↔ kindRank a.duty.kind < kindRank b.duty.kind
      ∨ (kindRank a.duty.kind = kindRank b.duty.kind ∧ a.order < b.order) := by
  simp [Entry.before]

/-- An insertion keeps the queue order (R99). -/
theorem insertEntry_sorted {q : List Entry} (h : q.Pairwise fun a b => b.before a = false)
    (e : Entry) : (insertEntry q e).Pairwise fun a b => b.before a = false := by
  induction q with
  | nil => simp [insertEntry]
  | cons x rest ih =>
    rw [List.pairwise_cons] at h
    unfold insertEntry
    split
    · rename_i hb
      rw [List.pairwise_cons, List.pairwise_cons]
      refine ⟨?_, h⟩
      intro y hy
      rcases List.mem_cons.1 hy with rfl | hy
      · rw [Bool.eq_false_iff, Ne, Entry.before_iff]
        rw [Entry.before_iff] at hb
        omega
      · have := h.1 y hy
        rw [Bool.eq_false_iff, Ne, Entry.before_iff] at this ⊢
        rw [Entry.before_iff] at hb
        omega
    · rename_i hb
      rw [List.pairwise_cons]
      refine ⟨?_, ih h.2⟩
      intro y hy
      rcases mem_insertEntry.1 hy with rfl | hy
      · simpa using hb
      · exact h.1 y hy

theorem findKey_none_iff (q : List Entry) (k : Key) : findKey q k = none ↔ k ∉ queueKeys q := by
  simp [findKey, queueKeys, List.find?_eq_none, List.mem_map]

/-- Widening keeps every entry's key. -/
@[simp] theorem widen_keys (q : List Entry) (b : Block) (sp : Span) :
    queueKeys (widen q b sp) = queueKeys q := by
  unfold queueKeys widen
  rw [List.map_map]
  refine List.map_congr_left fun e _ => ?_
  obtain ⟨d, f, o, hd⟩ := e
  cases d with
  | update b' sp' =>
    simp only [Function.comp]
    split <;> simp [Duty.key]
  | refresh b' => rfl
  | roll => rfl

@[simp] theorem clearHeld_keys (q : List Entry) : queueKeys (clearHeld q) = queueKeys q := by
  simp [queueKeys, clearHeld, Function.comp_def]

theorem insertEntry_keys_perm (q : List Entry) (e : Entry) :
    (queueKeys (insertEntry q e)).Perm (e.duty.key :: queueKeys q) := by
  have := (insertEntry_perm q e).map fun x => x.duty.key
  simpa [queueKeys] using this

/-- A new entry with a key that is not queued keeps the keys distinct. -/
theorem insertEntry_nodup {q : List Entry} {e : Entry} (h : (queueKeys q).Nodup)
    (hk : e.duty.key ∉ queueKeys q) : (queueKeys (insertEntry q e)).Nodup := by
  rw [(insertEntry_keys_perm q e).nodup_iff, List.nodup_cons]
  exact ⟨hk, h⟩

/-- Entries of one key merge to an entry of that key (R111). -/
theorem mergeDuty_key (d d' : Duty) : (mergeDuty d d').key = d.key := by
  cases d <;> cases d' <;> rfl

/-- A returning entry keeps the keys distinct (R111). -/
theorem giveBack_nodup {q : List Entry} (h : (queueKeys q).Nodup) (e : Entry) :
    (queueKeys (giveBack q e)).Nodup := by
  unfold giveBack
  split
  · rename_i hn
    exact insertEntry_nodup h ((findKey_none_iff q _).1 hn)
  · refine insertEntry_nodup ?_ ?_
    · refine List.Sublist.nodup ?_ h
      exact List.Sublist.map _ List.filter_sublist
    · simp [queueKeys, mergeDuty_key]

/-- The keys after a return: the entry's own and those that were queued (R111). -/
theorem giveBack_keys {q : List Entry} (e : Entry) (k : Key) :
    k ∈ queueKeys (giveBack q e) ↔ k = e.duty.key ∨ k ∈ queueKeys q := by
  unfold giveBack
  split
  · rw [(insertEntry_keys_perm q e).mem_iff, List.mem_cons]
  · rw [(insertEntry_keys_perm _ _).mem_iff, List.mem_cons, mergeDuty_key]
    constructor
    · rintro (h | h)
      · exact Or.inl h
      · refine Or.inr ?_
        simp only [queueKeys, List.mem_map, List.mem_filter] at h ⊢
        obtain ⟨x, hx, rfl⟩ := h
        exact ⟨x, hx.1, rfl⟩
    · rintro (h | h)
      · exact Or.inl h
      · by_cases he : k = e.duty.key
        · exact Or.inl he
        · refine Or.inr ?_
          simp only [queueKeys, List.mem_map, List.mem_filter] at h ⊢
          obtain ⟨x, hx, rfl⟩ := h
          exact ⟨x, ⟨hx, by simpa using he⟩, rfl⟩

end Sys2Proof.Machine
end

