-- ==== Sys2Proof/Laws/Store.lean ====
section
/-! SUPPORT. Tables (put) and word buffers (Store): what a read gives after a write, and that every
operation keeps the canonical form. -/

namespace Sys2Proof.Machine

/-! ### Tables -/

theorem put_get {α : Type} {n : Nat} (v : Vector α n) (i j : Fin n) (a : α) :
    (put v i a)[j] = if j = i then a else v[j] := by
  simp only [put, Fin.getElem_fin, Vector.getElem_set]
  by_cases h : j = i
  · simp [h]
  · have : (i : Nat) ≠ j := fun e => h (Fin.ext e.symm)
    simp [h, this]

@[simp] theorem put_get_self {α : Type} {n : Nat} (v : Vector α n) (i : Fin n) (a : α) :
    (put v i a)[i] = a := by rw [put_get, if_pos rfl]

theorem put_get_ne {α : Type} {n : Nat} (v : Vector α n) {i j : Fin n} (a : α) (h : j ≠ i) :
    (put v i a)[j] = v[j] := by rw [put_get, if_neg h]

@[simp] theorem ofFn_get {α : Type} {n : Nat} (f : Fin n → α) (j : Fin n) :
    (Vector.ofFn f)[j] = f j := by simp

/-! ### The four cases of a write -/

theorem Store.write_nil (a : Nat) (w : Word) :
    Store.write [] a w = if w = 0 then [] else [(a, w)] := rfl

theorem Store.write_lt {a k : Nat} (h : a < k) (v w : Word) (rest : Store) :
    Store.write ((k, v) :: rest) a w
      = if w = 0 then (k, v) :: rest else (a, w) :: (k, v) :: rest := by
  rw [Store.write, if_pos h]

theorem Store.write_eq (k : Nat) (v w : Word) (rest : Store) :
    Store.write ((k, v) :: rest) k w = if w = 0 then rest else (k, w) :: rest := by
  rw [Store.write, if_neg (Nat.lt_irrefl k), if_pos rfl]

theorem Store.write_gt {a k : Nat} (h : k < a) (v w : Word) (rest : Store) :
    Store.write ((k, v) :: rest) a w = (k, v) :: Store.write rest a w := by
  rw [Store.write, if_neg (by omega), if_neg (by omega)]

theorem Store.read_cons (k a : Nat) (v : Word) (rest : Store) :
    Store.read ((k, v) :: rest) a = if k = a then v else Store.read rest a := rfl

theorem Store.wfFrom_cons {low k : Nat} {v : Word} {rest : Store} :
    Store.wfFrom low ((k, v) :: rest) = true
      ↔ low ≤ k ∧ v ≠ 0 ∧ Store.wfFrom (k + 1) rest = true := by
  simp only [Store.wfFrom, Bool.and_eq_true, decide_eq_true_eq, bne_iff_ne, and_assoc]

/-! ### Reads after writes -/

/-- Below the lowest listed address a canonical buffer reads as 0. -/
theorem Store.read_below {m : Store} {low a : Nat} (h : m.wfFrom low = true) (ha : a < low) :
    m.read a = 0 := by
  induction m generalizing low with
  | nil => rfl
  | cons c rest ih =>
    obtain ⟨k, v⟩ := c
    rw [Store.wfFrom_cons] at h
    rw [Store.read_cons, if_neg (by omega)]
    exact ih h.2.2 (by omega)

theorem Store.wfFrom_mono {m : Store} {low low' : Nat} (h : m.wfFrom low = true)
    (hl : low' ≤ low) : m.wfFrom low' = true := by
  cases m with
  | nil => rfl
  | cons c rest =>
    obtain ⟨k, v⟩ := c
    rw [Store.wfFrom_cons] at h ⊢
    exact ⟨by omega, h.2⟩

/-- A write changes the word it names and no other. -/
theorem Store.read_write {m : Store} {low : Nat} (h : m.wfFrom low = true) (a b : Nat) (w : Word) :
    (m.write a w).read b = if b = a then w else m.read b := by
  induction m generalizing low with
  | nil =>
    rw [Store.write_nil]
    split
    · rename_i hw; split <;> simp [Store.read, hw]
    · rw [Store.read_cons]
      by_cases hb : b = a
      · rw [if_pos hb.symm, if_pos hb]
      · rw [if_neg fun e => hb e.symm, if_neg hb]
  | cons c rest ih =>
    obtain ⟨k, v⟩ := c
    have hc := Store.wfFrom_cons.1 h
    rcases Nat.lt_trichotomy a k with hlt | heq | hgt
    · rw [Store.write_lt hlt]
      split
      · rename_i hw
        by_cases hb : b = a
        · rw [if_pos hb, hb, hw]
          exact Store.read_below (low := k) (Store.wfFrom_cons.2 ⟨le_refl k, hc.2⟩) hlt
        · rw [if_neg hb]
      · rw [Store.read_cons]
        by_cases hb : b = a
        · rw [if_pos hb.symm, if_pos hb]
        · rw [if_neg fun e => hb e.symm, if_neg hb]
    · subst heq
      rw [Store.write_eq]
      split
      · rename_i hw
        by_cases hb : b = a
        · rw [if_pos hb, hb, hw]
          exact Store.read_below hc.2.2 (by omega)
        · rw [if_neg hb, Store.read_cons, if_neg fun e => hb e.symm]
      · rw [Store.read_cons, Store.read_cons]
        by_cases hb : b = a
        · rw [if_pos hb.symm, if_pos hb]
        · rw [if_neg fun e => hb e.symm, if_neg hb, if_neg fun e => hb e.symm]
    · rw [Store.write_gt hgt, Store.read_cons, Store.read_cons, ih hc.2.2]
      by_cases hb : b = a
      · rw [if_neg (by omega), if_pos hb, if_pos hb]
      · rw [if_neg hb, if_neg hb]

/-! ### The canonical form is kept -/

theorem Store.write_wfFrom {m : Store} {low : Nat} (h : m.wfFrom low = true) (a : Nat) (w : Word)
    (ha : low ≤ a) : (m.write a w).wfFrom low = true := by
  induction m generalizing low with
  | nil =>
    rw [Store.write_nil]
    split
    · rfl
    · rename_i hw; exact Store.wfFrom_cons.2 ⟨ha, hw, rfl⟩
  | cons c rest ih =>
    obtain ⟨k, v⟩ := c
    have hc := Store.wfFrom_cons.1 h
    rcases Nat.lt_trichotomy a k with hlt | heq | hgt
    · rw [Store.write_lt hlt]
      split
      · exact h
      · rename_i hw
        exact Store.wfFrom_cons.2 ⟨ha, hw, Store.wfFrom_cons.2 ⟨by omega, hc.2⟩⟩
    · subst heq
      rw [Store.write_eq]
      split
      · exact Store.wfFrom_mono hc.2.2 (by omega)
      · rename_i hw; exact Store.wfFrom_cons.2 ⟨ha, hw, hc.2.2⟩
    · rw [Store.write_gt hgt]
      exact Store.wfFrom_cons.2 ⟨hc.1, hc.2.1, ih hc.2.2 (by omega)⟩

/-- Every write keeps the canonical form. -/
theorem Store.write_wf {m : Store} (h : m.wf = true) (a : Nat) (w : Word) :
    (m.write a w).wf = true := Store.write_wfFrom h a w (Nat.zero_le a)

theorem Store.writeAll_wf {m : Store} (h : m.wf = true) (a : Nat) (ws : List Word) :
    (m.writeAll a ws).wf = true := by
  induction ws generalizing m a with
  | nil => exact h
  | cons w ws ih => exact ih (Store.write_wf h a w) (a + 1)

theorem Store.writeMasked_wf {m : Store} (h : m.wf = true) (b : Block)
    (ws : Vector (Option Word) 16) : (m.writeMasked b ws).wf = true := by
  unfold Store.writeMasked
  generalize allWords = l
  induction l generalizing m with
  | nil => exact h
  | cons w l ih =>
    simp only [List.foldl_cons]
    split
    · exact ih (Store.write_wf h _ _)
    · exact ih h

/-- The word that a run of consecutive writes leaves at an address. -/
theorem Store.read_writeAll {m : Store} (h : m.wf = true) (a b : Nat) (ws : List Word) :
    (m.writeAll a ws).read b =
      if a ≤ b ∧ b < a + ws.length then ws.getD (b - a) 0 else m.read b := by
  induction ws generalizing m a with
  | nil => simp only [Store.writeAll, List.length_nil]; rw [if_neg (by omega)]
  | cons w ws ih =>
    simp only [Store.writeAll]
    rw [ih (Store.write_wf h a w), Store.read_write h]
    simp only [List.length_cons]
    by_cases hb : b = a
    · subst hb
      rw [if_neg (by omega), if_pos rfl, if_pos (by omega)]
      simp
    · by_cases hr : a + 1 ≤ b ∧ b < a + 1 + ws.length
      · rw [if_pos hr, if_pos (by omega)]
        obtain ⟨k, hk⟩ : ∃ k, b - a = k + 1 := ⟨b - a - 1, by omega⟩
        have : b - (a + 1) = k := by omega
        rw [hk, this]
        simp
      · rw [if_neg hr, if_neg hb, if_neg (by omega)]

/-- Two canonical buffers that read alike are equal. -/
theorem Store.ext_of_wf {m m' : Store} {low : Nat} (h : m.wfFrom low = true)
    (h' : m'.wfFrom low = true) (he : ∀ a, m.read a = m'.read a) : m = m' := by
  induction m generalizing m' low with
  | nil =>
    cases m' with
    | nil => rfl
    | cons c rest =>
      obtain ⟨k, v⟩ := c
      have e := he k
      rw [Store.read_cons, if_pos rfl] at e
      exact absurd e.symm (Store.wfFrom_cons.1 h').2.1
  | cons c rest ih =>
    obtain ⟨k, v⟩ := c
    have hc := Store.wfFrom_cons.1 h
    cases m' with
    | nil =>
      have e := he k
      rw [Store.read_cons, if_pos rfl] at e
      exact absurd e hc.2.1
    | cons c' rest' =>
      obtain ⟨k', v'⟩ := c'
      have hc' := Store.wfFrom_cons.1 h'
      have hk : k = k' := by
        rcases Nat.lt_trichotomy k k' with hlt | heq | hgt
        · have e := he k
          rw [Store.read_below (low := k') (Store.wfFrom_cons.2 ⟨le_refl k', hc'.2⟩) hlt,
            Store.read_cons, if_pos rfl] at e
          exact absurd e hc.2.1
        · exact heq
        · have e := he k'
          rw [Store.read_below (low := k) (Store.wfFrom_cons.2 ⟨le_refl k, hc.2⟩) hgt,
            Store.read_cons, if_pos rfl] at e
          exact absurd e.symm hc'.2.1
      subst hk
      have hv : v = v' := by
        have e := he k
        rwa [Store.read_cons, Store.read_cons, if_pos rfl, if_pos rfl] at e
      subst hv
      refine congrArg _ (ih hc.2.2 hc'.2.2 fun a => ?_)
      by_cases ha : k = a
      · subst ha
        rw [Store.read_below hc.2.2 (by omega), Store.read_below hc'.2.2 (by omega)]
      · have e := he a
        rwa [Store.read_cons, Store.read_cons, if_neg ha, if_neg ha] at e

end Sys2Proof.Machine
end

