-- ==== Sys2Proof/Laws/Station.lean ====
section
/-! SUPPORT. What the shared operations of a boundary, of the low condition and of the moves of the
station do, one lemma for each: they say which relation of Safety.lean holds, so that no proof needs to
unfold them. -/

namespace Sys2Proof.Machine

/-! ### Leaving and falling back -/

theorem State.stopVoice_keeps (u : State) :
    u.stopVoice.eu = u.eu ∧ u.stopVoice.image = u.image ∧ u.stopVoice.straps = u.straps
      ∧ u.stopVoice.cfg = u.cfg ∧ u.stopVoice.commit = u.commit
      ∧ u.stopVoice.counters = u.counters ∧ u.stopVoice.events = u.events
      ∧ u.stopVoice.tx = .standby ∧ u.stopVoice.line.drive = none
      ∧ u.stopVoice.line.request = false ∧ u.stopVoice.pub.countdown = u.pub.countdown
      ∧ u.stopVoice.pub.silence = u.pub.silence
      ∧ u.stopVoice.pub.ownAccepted = u.pub.ownAccepted := by
  unfold State.stopVoice
  cases h : u.tx <;> cases h' : u.rx.st <;> simp [State.endAttempt, State.dropOwn, h, h'] <;> grind

theorem State.completeLeave_blocks (u : State) (b : Block) :
    u.completeLeave.image.blocks[b]
      = if u.owned b = false then u.image.blocks[b].stale else u.image.blocks[b] := by
  simp [State.completeLeave, ImageStore.staleWhere, State.owned, State.owner,
    State.post, State.postAt]

theorem BlockRec.stale_eq (r : BlockRec) :
    r.stale = if r.status.live = true then { r with status := .stale } else r := by
  rcases r with ⟨st, q, l⟩
  cases st <;> simp [BlockRec.stale, BlockStatus.live]

theorem State.completeLeave_leftTheBus (u : State) : leftTheBus u u.completeLeave := by
  have hb : ∀ b : Block, u.completeLeave.image.blocks[b]
      = if u.owned b = false ∧ u.image.blocks[b].status.live = true
        then { u.image.blocks[b] with status := .stale } else u.image.blocks[b] := by
    intro b
    rw [u.completeLeave_blocks b, BlockRec.stale_eq]
    cases u.owned b <;> simp
  obtain ⟨e1, e2, e3, e4, e5, e6, e7, e8, e9, e10, e11, e12, e13⟩ := u.stopVoice_keeps
  refine ⟨?_, ?_, ?_, ?_, ?_, ?_, hb, ?_⟩
  all_goals simp [State.completeLeave, e1, e2, e3, e4, e5, e6, e7, e8, e9, e10, e11, e12, e13,
    State.post, State.postAt, EpochUnit.dormant, ImageStore.staleWhere, Membership.peersAway, ofFn_get,
    Peer.away]

theorem State.fallBack_fellBack {s : State} (h : s.mem.leavePending = false) :
    fellBack s s.fallBack := by
  unfold fellBack State.fallBack State.stopVoice
  have h' : (s.post .joinFailed).mem.leavePending = false := h
  cases ht : s.tx <;> cases hr : s.rx.st <;>
    simp [State.post, State.postAt, State.endAttempt, State.dropOwn, h, ht, hr] <;> grind

/-! ### The low condition -/

theorem State.offerLow_lowOffered (u : State) : lowOffered u u.offerLow := by
  unfold lowOffered State.offerLow
  cases ht : u.tx <;> cases hr : u.rx.st <;> simp [State.endAttempt, ht, hr] <;> (try split)
    <;> simp_all

theorem State.settle_settled (before : Bool) (u : State) : settled before u (State.settle before u) := by
  unfold settled State.settle
  have := u.offerLow_lowOffered
  cases before <;> cases h : u.eu.low <;> simp_all

/-! ### The silence count -/

theorem State.countPeer_cases (s : State) (n : StationNo) :
   (s.countPeer n) = { s with events := (s.countPeer n).events, mem := {s.mem with peers := (s.countPeer n).mem.peers}, image := {s.image with blocks := (s.countPeer n).image.blocks}}
   ∧ (∀ m, m ≠ n → (s.countPeer n).mem.peers[m] = s.mem.peers[m])
   ∧ (s.mem.peers[n].state ≠ .present → (s.countPeer n).mem.peers[n] = s.mem.peers[n])
   ∧ (s.mem.peers[n].state = .present → s.mem.peers[n].heard = true → (s.countPeer n).mem.peers[n] = {s.mem.peers[n] with silence := 0})
   ∧ (turnsSilent s n → (s.countPeer n).mem.peers[n] = {s.mem.peers[n] with state := .silent, silence := s.mem.peers[n].silence + 1}
      ∧ (s.countPeer n).events = addEvent s.events ⟨.peerSilent, s.eu.epoch, some n, none, none⟩ s.eu.epoch
      ∧ ∀ b : Block, (s.countPeer n).image.blocks[b] = if s.owner b = some n then s.image.blocks[b].stale else s.image.blocks[b])
   ∧ (s.mem.peers[n].state = .present → s.mem.peers[n].heard = false → ¬ turnsSilent s n → (s.countPeer n).mem.peers[n] = {s.mem.peers[n] with silence := s.mem.peers[n].silence + 1})
   ∧ (¬ turnsSilent s n → (s.countPeer n).events = s.events ∧ (s.countPeer n).image = s.image) := by
  by_cases h1 : s.mem.peers[n].state = .present
  · by_cases h2 : s.mem.peers[n].heard = true
    · have e : s.countPeer n = s.setPeer n { s.mem.peers[n] with silence := 0 } := by simp only [State.countPeer, h1, h2, if_true]
      rw [e]; simp [-Fin.getElem_fin, State.setPeer, put_get, turnsSilent, h1, h2]
      grind
    · by_cases h3 : s.cfg.silenceLimit ≤ s.mem.peers[n].silence + 1
      · rw [Bool.not_eq_true] at h2
        have e : s.countPeer n = (let s' := (s.setPeer n { s.mem.peers[n] with state := .silent, silence := s.mem.peers[n].silence + 1 }).post .peerSilent (some n)
           { s' with image := s'.image.staleWhere fun b => s'.owner b == some n }) := by simp only [State.countPeer, h1, h2, if_true, h3, if_false]; try simp [-Fin.getElem_fin, h2]
        rw [e]; simp [-Fin.getElem_fin, State.setPeer, put_get, turnsSilent, h1, h2, h3, State.post, State.postAt, ImageStore.staleWhere, State.owner]
        exact ⟨fun m hm h => absurd h hm, fun _ => rfl⟩
      · rw [Bool.not_eq_true] at h2
        have e : s.countPeer n = s.setPeer n { s.mem.peers[n] with silence := s.mem.peers[n].silence + 1 } := by simp only [State.countPeer, h1, h2, h3, if_true, if_false]; try simp [-Fin.getElem_fin, h2]
        rw [e]; simp [-Fin.getElem_fin, State.setPeer, put_get, turnsSilent, h1, h2, h3]
        grind
  · have e : s.countPeer n = s := by simp only [State.countPeer, h1, if_false]
    rw [e]; simp [-Fin.getElem_fin, turnsSilent, h1]

theorem countPeers_cases (u : State) (l : List StationNo) (hl : l.Nodup) :
   (l.foldl State.countPeer u) = { u with events := (l.foldl State.countPeer u).events, mem := {u.mem with peers := (l.foldl State.countPeer u).mem.peers}, image := {u.image with blocks := (l.foldl State.countPeer u).image.blocks}}
   ∧ (∀ n, n ∉ l → (l.foldl State.countPeer u).mem.peers[n] = u.mem.peers[n])
   ∧ (∀ n ∈ l, (u.mem.peers[n].state ≠ .present → (l.foldl State.countPeer u).mem.peers[n] = u.mem.peers[n])
     ∧ (u.mem.peers[n].state = .present → u.mem.peers[n].heard = true → (l.foldl State.countPeer u).mem.peers[n] = {u.mem.peers[n] with silence := 0})
     ∧ (turnsSilent u n → (l.foldl State.countPeer u).mem.peers[n] = {u.mem.peers[n] with state := .silent, silence := u.mem.peers[n].silence + 1})
     ∧ (u.mem.peers[n].state = .present → u.mem.peers[n].heard = false → ¬ turnsSilent u n → (l.foldl State.countPeer u).mem.peers[n] = {u.mem.peers[n] with silence := u.mem.peers[n].silence + 1}))
   ∧ (∀ b : Block, ((∃ n ∈ l, u.owner b = some n ∧ turnsSilent u n) → (l.foldl State.countPeer u).image.blocks[b] = u.image.blocks[b].stale)
       ∧ ((¬ ∃ n ∈ l, u.owner b = some n ∧ turnsSilent u n) → (l.foldl State.countPeer u).image.blocks[b] = u.image.blocks[b]))
   ∧ (l.foldl State.countPeer u).events = eventsAfter u.events u.eu.epoch
      ((l.filter fun n => decide (turnsSilent u n)).map fun n => ⟨.peerSilent, u.eu.epoch, some n, none, none⟩) := by
  induction l generalizing u with
  | nil => simp [eventsAfter]
  | cons k l ih =>
    obtain ⟨hk, hl⟩ := List.nodup_cons.1 hl
    obtain ⟨c1, c2, c3, c4, c5, c6, c7⟩ := State.countPeer_cases u k
    obtain ⟨i1, i2, i3, i4, i5⟩ := ih (u.countPeer k) hl
    simp only [List.foldl_cons]
    have hts : ∀ n ∈ l, (turnsSilent (u.countPeer k) n ↔ turnsSilent u n) := by
      intro n hn
      have hne : n ≠ k := fun h => hk (h ▸ hn)
      unfold turnsSilent; rw [c2 n hne]; rw [c1]
    have ho : ∀ b, (u.countPeer k).owner b = u.owner b := by intro b; unfold State.owner; rw [c1]
    have hep : (u.countPeer k).eu = u.eu := by rw [c1]
    refine ⟨?_, ?_, ?_, ?_, ?_⟩
    · rw [i1, c1]
    · intro n hn
      rw [List.mem_cons, not_or] at hn
      rw [i2 n hn.2, c2 n hn.1]
    · intro n hn
      rcases List.mem_cons.1 hn with rfl | hn
      · rw [i2 n hk]; exact ⟨c3, c4, fun h => (c5 h).1, c6⟩
      · have hne : n ≠ k := fun h => hk (h ▸ hn)
        have := i3 n hn
        rw [c2 n hne, hts n hn] at this; exact this
    · intro b
      have := i4 b
      rw [ho] at this
      by_cases hs : turnsSilent u k
      · have hb := (c5 hs).2.2 b
        constructor
        · rintro ⟨n, hn, h1, h2⟩
          rcases List.mem_cons.1 hn with rfl | hn
          · rw [if_pos h1] at hb
            rw [this.2, hb]
            rintro ⟨m, hm, hm1, _⟩
            rw [h1] at hm1; cases hm1; exact hk hm
          · rw [this.1 ⟨n, hn, h1, (hts n hn).2 h2⟩, hb, if_neg]
            rw [h1]; rintro h; cases h; exact hk hn
        · intro hno
          have hne : u.owner b ≠ some k := fun h => hno ⟨k, by simp, h, hs⟩
          rw [if_neg hne] at hb
          rw [this.2, hb]
          rintro ⟨m, hm, h1, h2⟩
          exact hno ⟨m, List.mem_cons_of_mem _ hm, h1, (hts m hm).1 h2⟩
      · have hb : (u.countPeer k).image.blocks[b] = u.image.blocks[b] := by rw [(c7 hs).2]
        constructor
        · rintro ⟨n, hn, h1, h2⟩
          rcases List.mem_cons.1 hn with rfl | hn
          · exact absurd h2 hs
          · rw [this.1 ⟨n, hn, h1, (hts n hn).2 h2⟩, hb]
        · intro hno
          rw [this.2, hb]
          rintro ⟨m, hm, h1, h2⟩
          exact hno ⟨m, List.mem_cons_of_mem _ hm, h1, (hts m hm).1 h2⟩
    · have hfil : l.filter (fun n => decide (turnsSilent (u.countPeer k) n))
          = l.filter (fun n => decide (turnsSilent u n)) :=
        List.filter_congr fun n hn => by rw [decide_eq_decide]; exact hts n hn
      rw [i5, hfil, hep]
      by_cases hs : turnsSilent u k
      · rw [List.filter_cons_of_pos (p := fun n => decide (turnsSilent u n)) (decide_eq_true hs), (c5 hs).2.1]; rfl
      · rw [List.filter_cons_of_neg (p := fun n => decide (turnsSilent u n))
          (fun h => hs (of_decide_eq_true h)), (c7 hs).1]

theorem allStations_nodup : allStations.Nodup := by decide +kernel
theorem mem_allStations (n : StationNo) : n ∈ allStations := by revert n; decide +kernel

/-! ### The schedules -/

theorem stepRefresh_keeps (period : Nat) (fl) (p : Publish) (b : Block) :
   (stepRefresh period fl p b).silence = p.silence ∧ (stepRefresh period fl p b).ownAccepted = p.ownAccepted
   ∧ (∀ c, c ≠ b → (stepRefresh period fl p b).countdown[c] = p.countdown[c]) := by
  unfold stepRefresh
  simp only
  split
  · exact ⟨rfl, rfl, fun c h => put_get_ne _ _ h⟩
  · cases findKey p.queue (.ofBlock b) with
    | some e => exact ⟨rfl, rfl, fun c h => put_get_ne _ _ h⟩
    | none =>
      simp only
      split <;> exact ⟨rfl, rfl, fun c h => put_get_ne _ _ h⟩

theorem foldRefresh_keeps (period : Nat) (fl) (l : List Block) (p : Publish) :
   (l.foldl (stepRefresh period fl) p).silence = p.silence ∧ (l.foldl (stepRefresh period fl) p).ownAccepted = p.ownAccepted
   ∧ (∀ c, c ∉ l → (l.foldl (stepRefresh period fl) p).countdown[c] = p.countdown[c]) := by
  induction l generalizing p with
  | nil => simp
  | cons b l ih =>
    obtain ⟨a1, a2, a3⟩ := stepRefresh_keeps period fl p b
    obtain ⟨b1, b2, b3⟩ := ih (stepRefresh period fl p b)
    simp only [List.foldl_cons]
    refine ⟨b1.trans a1, b2.trans a2, fun c hc => ?_⟩
    rw [List.mem_cons, not_or] at hc
    rw [b3 c hc.2, a3 c hc.1]

theorem stepSilence_counts (lim : Nat) (fl) (p : Publish) :
   (stepSilence lim fl p).silence = (if p.ownAccepted then 0 else min 15 (p.silence + 1)) ∧ (stepSilence lim fl p).ownAccepted = false
   ∧ (stepSilence lim fl p).countdown = p.countdown := by
  unfold stepSilence
  simp only
  generalize (if p.ownAccepted = true then 0 else min 15 (p.silence + 1)) = n
  split <;> simp [Publish.add]

theorem State.schedules_counts (s : State) (h : s.mem.station = .member)
    (h' : s.mem.leavePending = false) :
    s.schedules.pub.ownAccepted = false
      ∧ s.schedules.pub.silence = (if s.pub.ownAccepted then 0 else min 15 (s.pub.silence + 1))
      ∧ (∀ b : Block, s.owned b = false ∨ s.cfg.refreshPeriod = 0 →
          s.schedules.pub.countdown[b] = s.pub.countdown[b])
      ∧ ∃ p : Publish,
        p = (if s.cfg.refreshPeriod = 0 then s.pub
          else (allBlocks.filter s.owned).foldl (stepRefresh s.cfg.refreshPeriod s.flightKey) s.pub)
        ∧ s.schedules.pub = stepSilence s.cfg.silenceLimit s.flightKey p := by
  unfold State.schedules
  rw [if_pos ⟨h, h'⟩]
  simp only
  refine ⟨(stepSilence_counts _ _ _).2.1, ?_, ?_, _, rfl, rfl⟩
  · rw [(stepSilence_counts _ _ _).1]
    split
    · rfl
    · rw [(foldRefresh_keeps _ _ _ _).1, (foldRefresh_keeps _ _ _ _).2.1]
  · intro b hb
    rw [(stepSilence_counts _ _ _).2.2]
    split
    · rfl
    · rename_i hp
      apply (foldRefresh_keeps _ _ _ _).2.2
      have : s.owned b = false := hb.resolve_right hp
      simp [this]

/-! ### The boundary -/

theorem State.boundary_startedBoundary (u : State) : startedBoundary u u.boundary := by
  obtain ⟨f1, f2, f3, f4, f5⟩ := countPeers_cases (State.startPass { u with eu := { u.eu with epoch := u.eu.epoch + 1, counter := 0 } }) allStations allStations_nodup
  have ts : ∀ n, turnsSilent (State.startPass { u with eu := { u.eu with epoch := u.eu.epoch + 1, counter := 0 } }) n ↔ turnsSilent u n := by
    intro n; unfold turnsSilent State.startPass; rfl
  simp only [ts] at f3 f4 f5
  generalize hv : allStations.foldl State.countPeer (State.startPass { u with eu := { u.eu with epoch := u.eu.epoch + 1, counter := 0 } }) = v at f1 f2 f3 f4 f5
  have hb : u.boundary = (let s := State.schedules { v with mem := { v.mem with peers := Vector.ofFn fun n => { v.mem.peers[n] with heard := false } } }
     { s with pub := { s.pub with queue := clearHeld s.pub.queue } }) := by
    unfold State.boundary State.countSilence; simp only [hv]
  have hsch : ∀ s : State, s.schedules = { s with pub := s.schedules.pub } := by
    intro s; unfold State.schedules; simp only; split <;> rfl
  rw [hb]
  unfold startedBoundary
  simp only
  rw [hsch]
  refine ⟨?_, ?_, ?_, ?_, ?_, ?_, ?_, ?_, ?_⟩
  · simp only; rw [f1]; rfl
  · simp only; rw [f1]; simp [State.startPass, passBound]
  · simp only; rw [f1]; simp [State.startPass]
  · intro n
    simp only [ofFn_get]
    obtain ⟨g1, g2, g3, g4⟩ := f3 n (mem_allStations n)
    refine ⟨fun h => ?_, fun h h' => ?_, fun h => ?_, fun h h' h'' => ?_⟩
    · rw [g1 h]; rfl
    · rw [g2 h h']; rfl
    · rw [g3 h]; have := h.2.1; simp [-Fin.getElem_fin, State.startPass, this]
    · rw [g4 h h' h'']; simp [-Fin.getElem_fin, State.startPass, h']
  · intro b
    simp only
    have hb := f4 b
    have ho : ∀ n, State.owner (State.startPass { u with eu := { u.eu with epoch := u.eu.epoch + 1, counter := 0 } }) b = some n ↔ u.owner b = some n := by intro n; rfl
    simp only [ho] at hb
    have hx : (State.startPass { u with eu := { u.eu with epoch := u.eu.epoch + 1, counter := 0 } }).image = u.image := rfl
    rw [hx] at hb
    constructor
    · rintro ⟨⟨n, h1, h2⟩, h3⟩
      rw [hb.1 ⟨n, mem_allStations n, h1, h2⟩]
      rcases hs : u.image.blocks[b] with ⟨st, q, l⟩
      rw [hs] at h3
      cases st <;> simp [BlockStatus.live] at h3 <;> rfl
    · intro hno
      by_cases hex : ∃ n, u.owner b = some n ∧ turnsSilent u n
      · obtain ⟨n, h1, h2⟩ := hex
        rw [hb.1 ⟨n, mem_allStations n, h1, h2⟩]
        have h3 : u.image.blocks[b].status.live ≠ true := fun h => hno ⟨⟨n, h1, h2⟩, h⟩
        rcases hs : u.image.blocks[b] with ⟨st, q, l⟩
        rw [hs] at h3
        cases st <;> simp [BlockStatus.live] at h3 <;> rfl
      · rw [hb.2]; rintro ⟨n, _, h⟩; exact hex ⟨n, h⟩
  · exact f5
  · intro e he
    simp [clearHeld] at he
    obtain ⟨a, _, rfl⟩ := he; rfl
  · intro h
    have : v.mem.station = u.mem.station ∧ v.mem.leavePending = u.mem.leavePending ∧ v.pub = u.pub := by rw [f1]; exact ⟨rfl, rfl, rfl⟩
    unfold State.schedules
    rw [if_neg (by simp only; rw [this.1, this.2.1]; rcases h with h | h <;> simp [h])]
    simp only [this.2.2]; rfl
  · intro h h'
    generalize hw : ({ v with mem := { v.mem with peers := Vector.ofFn fun n => { v.mem.peers[n] with heard := false } } } : State) = w
    have hwm : w.mem.station = u.mem.station ∧ w.mem.leavePending = u.mem.leavePending ∧ w.pub = u.pub ∧ w.cfg = u.cfg ∧ w.straps = u.straps ∧ w.tx = u.tx := by
      rw [← hw, f1]; exact ⟨rfl, rfl, rfl, rfl, rfl, rfl⟩
    obtain ⟨w1, w2, w3, w4, w5, w6⟩ := hwm
    obtain ⟨k1, k2, k3, p, kp, kq⟩ := State.schedules_counts w (w1.trans h) (w2.trans h')
    have ho : w.owned = u.owned := by funext b; unfold State.owned State.owner; rw [w4, w5]
    have hf : w.flightKey = u.flightKey := by unfold State.flightKey; rw [w6]
    refine ⟨k1, by simp only; rw [k2, w3], fun b hb => ?_, p, w.schedules.pub, ?_, ?_, rfl⟩
    · have := k3 b (by rw [ho, w4]; exact hb)
      simp only; rw [this, w3]
    · rw [kp, ho, hf, w3, w4]; rfl
    · rw [kq, hf, w4]

/-! ### Entry to RUN and the listening counts -/

theorem State.enterRun_enteredRun (before : Bool) (v : State) :
    enteredRun before v (State.settle before v.enterRun) := by
  refine ⟨fun h => ?_, fun h => ⟨_, State.boundary_startedBoundary _, ?_⟩⟩
  · have : ¬ v.cfg.epochLen ≤ v.eu.counter := by omega
    have e := State.settle_settled before { v with eu := { v.eu with
      unit := .run, holdOut := false, leaveOut := false, driveTest := none } }
    simpa [State.enterRun, this] using e
  · simpa [State.enterRun, h, State.expireRun] using State.settle_settled before v.enterRun

theorem State.countListening_counted {u : State} (h : u.mem.station = .listen)
    (h' : u.commit.pass ≠ none) : countedBoundary u (u.countListening true) := by
  rintro _ _ rfl rfl
  have hj : (if (true && u.mem.epochTaken) = true then min 2 (u.mem.joiningCount + 1)
      else u.mem.joiningCount) = if u.mem.epochTaken = true then min 2 (u.mem.joiningCount + 1)
      else u.mem.joiningCount := by simp
  unfold State.countListening
  rw [if_pos h]
  simp only [hj]
  generalize (if u.mem.epochTaken = true then min 2 (u.mem.joiningCount + 1)
    else u.mem.joiningCount) = joining
  generalize min 15 (u.mem.listenCount + 1) = listen
  refine ⟨fun h1 h2 => if_neg (by omega), fun h1 => ?_⟩
  rw [if_pos h1]
  simp only [State.enterJoining, if_neg h']
  by_cases hr : (findKey u.pub.queue .ofRoll).isNone
  · simp only [hr, if_true]
    exact ⟨rfl, fun _ => insertEntry_perm _ _⟩
  · simp only [hr]
    refine ⟨rfl, fun hk => ?_⟩
    exact absurd (by simp [(findKey_none_iff _ _).2 hk]) hr

theorem State.followBoundary_counted {s : State} (h : s.mem.station = .listen) :
    ∃ u, startedBoundary { s with eu := { s.eu with keptFall := false } } u
      ∧ countedBoundary u s.followBoundary := by
  have hb := State.boundary_startedBoundary { s with eu := { s.eu with keptFall := false } }
  refine ⟨_, hb, State.countListening_counted ?_ ?_⟩
  · have := congrArg (fun t => t.mem.station) hb.1
    simpa [h] using this
  · simp [hb.2.1]

theorem State.followBoundary_other {s : State} (h : s.mem.station ≠ .listen) :
    s.followBoundary = State.boundary { s with eu := { s.eu with keptFall := false } } := by
  have hb := (State.boundary_startedBoundary { s with eu := { s.eu with keptFall := false } }).1
  unfold State.followBoundary State.countListening
  generalize State.boundary _ = b at hb ⊢
  rw [if_neg (by rw [hb]; exact h)]

/-! ### The acceptance of a received dispatch -/

theorem objects_iff (st : StationState) :
    st.objects = true ↔ st = .joining ∨ st = .member := by
  cases st <;> simp [StationState.objects]

theorem State.noteAcceptance_taken (s : State) :
    acceptanceTaken s (State.noteAcceptance { s with
      line := { huntLine s.line with slot := none }
      rx := { s.rx with st := .waitIdle }
      counters := { s.counters with accepted := bump s.counters.accepted } }) := by
  generalize ht : State.noteAcceptance _ = t
  unfold State.noteAcceptance State.resetObjections at ht
  by_cases hm : s.mem.station = .mute
  · rw [if_pos hm] at ht
    by_cases hc : 32 ≤ s.mute.clean + 1
    · rw [if_pos hc] at ht
      subst ht
      refine ⟨rfl, fun h => absurd hm h, fun _ h => by omega,
        fun _ _ => ⟨rfl, rfl, fun b => ?_, rfl, rfl⟩⟩
      simp [State.enterMember, State.post, State.postAt, State.owned, State.owner]
      grind
    · rw [if_neg hc] at ht
      subst ht
      exact ⟨rfl, fun h => absurd hm h, fun _ _ => ⟨rfl, rfl, rfl, rfl⟩, fun _ h => absurd h hc⟩
  · rw [if_neg hm] at ht
    by_cases ho : s.mem.station.objects = true
    · rw [if_pos ho] at ht
      subst ht
      refine ⟨rfl, fun _ => ⟨rfl, rfl, rfl, ?_⟩, fun h => absurd h hm, fun h => absurd h hm⟩
      rw [if_pos ((objects_iff _).1 ho)]
    · rw [if_neg ho] at ht
      subst ht
      refine ⟨rfl, fun _ => ⟨rfl, rfl, rfl, ?_⟩, fun h => absurd h hm, fun h => absurd h hm⟩
      rw [if_neg (fun h => ho ((objects_iff _).2 h))]

theorem State.hear_senderHeard {u : State} (d : Incoming)
    (h : u.mem.peers[d.sender].state ≠ .self) : senderHeard d u (u.hear d.sender d.epoch) := by
  unfold senderHeard State.hear
  simp only
  cases hp : u.mem.peers[d.sender].state <;>
    simp_all [-Fin.getElem_fin, State.setPeer, put_get, State.post, State.postAt]
  
theorem State.handOn_handedOn (d : Incoming) (v : State) : handedOn d v (v.handOn d) := by
  unfold handedOn State.handOn State.stageDispatch
  by_cases hk : d.kind = .roll
  · rw [if_pos hk]; exact ⟨rfl, fun _ => rfl, fun h => absurd hk h, fun h => absurd hk h⟩
  · rw [if_neg hk]
    by_cases ho : v.owner d.block = some d.sender
    · rw [if_pos ho]
      have hs : (v.subscribed d.block && d.room != some false) = true
          ↔ (v.cfg.subs[d.block] = true ∨ d.sender = v.straps.sid) ∧ d.room ≠ some false := by
        simp [-Fin.getElem_fin, State.subscribed, State.owned, ho]
      refine ⟨by split <;> (try split) <;> rfl, fun h => absurd h hk, fun _ _ => ?_,
        fun _ h => absurd ho h⟩
      refine ⟨by split <;> (try split) <;> rfl, fun staged hst => ⟨fun h => ?_, fun h => ?_⟩⟩
      · have h := hst.1 h
        rw [if_pos (hs.2 ⟨h.1, h.2.1⟩), if_pos h.2.2]; exact ⟨rfl, rfl⟩
      · split
        · rename_i h1
          have h1 := hs.1 h1
          rw [if_neg fun h2 => h (hst.2 ⟨h1.1, h1.2, h2⟩)]; exact ⟨rfl, rfl⟩
        · exact ⟨rfl, rfl⟩
    · rw [if_neg ho]
      have hw : v.owned d.block = true ↔ v.cfg.owners[d.block] = some v.straps.sid := by
        simp [-Fin.getElem_fin, State.owned, State.owner]
      refine ⟨by split <;> rfl, fun h => absurd h hk, fun _ h => absurd h ho, fun _ _ => ?_⟩
      by_cases h : v.owned d.block = true
      · rw [if_pos h, if_pos (hw.1 h)]; exact ⟨rfl, rfl, rfl⟩
      · rw [if_neg h, if_neg fun h' => h (hw.2 h')]; exact ⟨rfl, rfl, rfl⟩

/-- A received dispatch whose slot stays clean with the low condition absent is accepted (R88). -/
theorem execSlotClean_accepts {d : Incoming} {s : State} (slot : s.line.slot ≠ none)
    (noAttempt : ∀ a, s.tx ≠ .active .slotWait a) (waits : s.rx.st = .following .answer d)
    (received : d.own = false) (high : s.eu.low = false) :
    execSlotClean s = .next (State.acceptReceived
      { s with line := { huntLine s.line with slot := none } } d) := by
  unfold execSlotClean
  rw [if_neg slot]
  cases ht : s.tx with
  | standby => simp [waits, received, high]; rfl
  | active ph a => cases ph <;> first | exact absurd ht (noAttempt a) | (simp [waits, received, high]; rfl)

/-! ### Characters and malformed conditions -/

theorem Line.stopSampled_afterCharacter (l : Line) (data : Byte) (marker framing : Bool) :
    l.stopSampled data marker framing = afterCharacter l data marker framing := by
  unfold Line.stopSampled afterCharacter
  cases framing <;> rfl

theorem Line.mismatchTold_sampleRefutes (l : Line) : l.mismatchTold = sampleRefutes l := by
  unfold Line.mismatchTold sampleRefutes
  rcases l.sampled with _ | ⟨f, r⟩
  · rfl
  · cases f <;> cases r <;> rfl

theorem Line.readBack_lineRead (l : Line) (level : Level) : l.readBack level = lineRead l level := by
  unfold Line.readBack lineRead
  rw [l.mismatchTold_sampleRefutes]
  cases level <;> cases h : l.lrx <;> simp <;> rfl

/-- Readback touches the level read, the peers' level and the run alone. -/
theorem Line.readBack_keeps (l : Line) (level : Level) :
    l.readBack level = { l with
      lrx := (l.readBack level).lrx, peers := (l.readBack level).peers
      run := (l.readBack level).run, runSeen := (l.readBack level).runSeen } := by
  unfold Line.readBack
  split
  · rfl
  · split <;> rfl

theorem afterCharacter_keeps (l : Line) (data : Byte) (marker framing : Bool) :
    (afterCharacter l data marker framing).request = l.request
      ∧ (afterCharacter l data marker framing).edgeLow = l.edgeLow
      ∧ (afterCharacter l data marker framing).slot = l.slot
      ∧ (afterCharacter l data marker framing).drive = l.drive := by
  unfold afterCharacter
  cases framing <;> exact ⟨rfl, rfl, rfl, rfl⟩

theorem State.malformed_objected (s : State) : objected s s.malformed := by
  refine ⟨rfl, ?_, ?_⟩
  · unfold State.malformed State.object State.noteError
    cases h : s.mem.station <;> simp [StationState.objects, h]
  · unfold State.malformed State.object State.noteError
    simp only
    split <;> rfl

end Sys2Proof.Machine
end

