-- ==== Sys2Proof/Tests/Slice0.lean ====
section
/-! SUPPORT. Tests: ill-formed commands refused, values written out from the spec, and for every
statement with hypotheses a concrete state and operands that meet them. -/

namespace Sys2Proof.Tests

-- The tests are many small evaluations; one after the other they need few threads.
set_option Elab.async false

open Sys2Proof Sys2Proof.Machine

/-! ### WellFormed: one ill-formed term for each check -/

theorem test_writeDraft_short_is_ill_formed :
    (Instr.writeDraft 0 0 2 [1, 2, 3]).wellFormed = false
      ∧ (Instr.writeDraft 0 0 2 [1, 2, 3, 4]).wellFormed = true
      ∧ (Instr.writeDraft 0 0 0 []).wellFormed = true
      ∧ (Instr.writeDraft 0 0 17 []).wellFormed = true := by decide

theorem test_configure_short_is_ill_formed :
    (Instr.configure (List.replicate 79 0)).wellFormed = false
      ∧ (Instr.configure (List.replicate 80 0)).wellFormed = true := by decide

theorem test_unknownCommand_known_byte_is_ill_formed :
    (Instr.unknownCommand 0x42).wellFormed = false
      ∧ (Instr.unknownCommand 0x43).wellFormed = true := by decide

theorem test_readEventsEnd_below_two_is_ill_formed :
    (Instr.readEventsEnd 1).wellFormed = false ∧ (Instr.readEventsEnd 2).wellFormed = true := by decide

theorem test_characterDelivered_all_dominant_is_ill_formed :
    (Instr.characterDelivered 0 false true).wellFormed = false
      ∧ (Instr.characterDelivered 0 true true).wellFormed = true
      ∧ (Instr.characterDelivered 0 false false).wellFormed = true := by decide

/-! ### Values written out from the spec -/

/-- The check value of the two characters of a ROLL of station 3 in epoch 0x12, by the rule of R77. -/
theorem test_checkValue_of_roll : checkValue [0x63, 0x12] = 0x7105 := by decide +kernel

/-- The span byte 0x41 names words 4 and 5 (R183). -/
theorem test_spanByte_words_4_5 :
    spanByte ⟨4, 5⟩ = 0x41 ∧ spanOfByte 0x41 = some ⟨4, 5⟩ ∧ spanOfByte 0xF1 = none := by decide

/-- A claim of an UPDATE by station 5 (R183): kind 001, station 00101. -/
theorem test_claimByte_update_5 :
    claimByte .update 5 = 0x25 ∧ claimKind 0x25 = some .update ∧ claimSender 0x25 = 5
      ∧ claimKind 0x85 = none ∧ claimKind 0x05 = none := by decide

/-- The largest hold for L = 4096 is 512 and for L = 2048 it is 256 (R169). -/
def configArgs (epochLen holdLen : Nat) : List Byte :=
  twoBytes epochLen ++ twoBytes holdLen ++ [2, 4, 2, 2] ++ List.replicate 64 (0xFF : Byte)
    ++ List.replicate 8 (0 : Byte)

theorem test_configure_hold_limit :
    (parseSettings (configArgs 4096 512)).isSome = true
      ∧ parseSettings (configArgs 4096 513) = none
      ∧ (parseSettings (configArgs 2048 256)).isSome = true
      ∧ parseSettings (configArgs 2048 257) = none
      ∧ parseSettings (configArgs 2047 100) = none := by decide +kernel

/-! ### States for the tests -/

/-- Station 9 with a valid configuration: it owns block 0; station 5 owns blocks 1 and 63. -/
def base (k : StationState) (u : UnitState) : State :=
  { State.reset with
    straps := ⟨9, 1⟩
    cfg :=
      { epochLen := 2048
        holdLen := 256
        silenceLimit := 2
        refreshPeriod := 4
        listenLimit := 2
        mode := .every
        owners := Vector.ofFn fun b =>
          if b = 0 then some 9 else if b = 1 ∨ b = 63 then some 5 else none
        subs := Vector.replicate 64 true }
    eu := { State.reset.eu with unit := u }
    mem := { Membership.reset 9 with station := k } }

/-- What a command answers, where it answers a next state. -/
def after (c : Instr) (s : State) : State := s.after [c]

/-- A dispatch of station 5 that waits on its answer slot: an UPDATE of word 0 of block 1. -/
def heard (sender : StationNo) (epoch : Byte) : Incoming where
  own := false
  kind := .update
  sender := sender
  chars := 8
  block := 1
  epoch := epoch
  seq := 1
  span := ⟨0, 0⟩
  room := some true
  words := [7]
  high := none

/-- The state with a dispatch in ANSWER and its slot open. -/
def answering (s : State) (d : Incoming) : State :=
  { s with rx := ⟨.following .answer d, 0⟩, line := { s.line with slot := some 11 } }

def rollEntry (failures : Nat) : Entry := ⟨.roll, failures, 0, false⟩

def attemptOf (e : Entry) : Attempt := ⟨e, 0, 0, [], []⟩

/-! ### A few steps whose results the spec gives -/

theorem test_publish_queues_update :
    (after (.publish 0 4 2) (base .member .run)).pub.queue = [⟨.update 0 ⟨4, 5⟩, 0, 0, false⟩] := by
  decide +kernel

theorem test_publish_not_owner :
    (after (.publish 1 4 2) (base .member .run)).port.last = .notOwner := by decide +kernel

theorem test_start_enters_listen :
    (after .start (base .idle .dormant)).mem.station = .listen
      ∧ (after .start (base .idle .dormant)).eu.unit = .follow := by decide +kernel

theorem test_acceptance_stages_the_words :
    (after .slotClean (answering (base .member .run) (heard 5 0))).staging.map StagingEntry.block
      = [1] := by decide +kernel

theorem test_expiry_pulls_the_line :
    (after .epochExpiry (base .member .run)).eu.unit = .assert
      ∧ (after .epochExpiry (base .member .run)).eu.epoch = 1
      ∧ (after .epochExpiry (base .member .run)).epoLow = true := by decide +kernel

theorem test_commit_pass_commits :
    (State.after (answering (base .member .run) (heard 5 0))
      [.slotClean, .elnFall, .commitPassEnd .recessive]).image.words = [(16, 7)] := by decide +kernel

theorem test_claim_of_a_roll :
    (after .claim { base .joining .run with
      pub := { Publish.reset with queue := [rollEntry 0] }
      line := { (base .joining .run).line with idle := true } }).tx
      = .active .claiming ⟨rollEntry 0, 0, 0, [], [0x69, 0x00, 0xAC, 0xBD]⟩ := by decide +kernel

/-! ### Witnesses: the hypotheses of the statements can be met -/

theorem witness_StepRunsFrontCommand :
    ∃ (c : Instr) (rest : List Instr) (s : State), s.pending = c :: rest :=
  ⟨.busIdle, [], { base .idle .dormant with pending := [.busIdle] }, rfl⟩

theorem witness_EmptyQueueStep :
    (∃ s : State, s.pending = [] ∧ s.due = []) ∧ ∃ s : State, s.pending = [] ∧ s.due ≠ [] :=
  ⟨⟨State.reset, by decide +kernel⟩,
    { base .idle .dormant with line := { (base .idle .dormant).line with idleCount := 11 } },
    by decide +kernel⟩

/-- A break being driven for n bit times, with the answer slot as given. -/
def pullingLine (n : Nat) (slot : Option Nat) : State :=
  { base .member .run with line := { (base .member .run).line with
    lrx := .dominant, run := n, drive := some n, slot := slot } }

/-- The own break comes due as a break at 11 bt, not before, and breaks an open slot at once. -/
theorem witness_OwnDriveIsRead :
    (pullingLine 11 none).lineNow = .dominant ∧ .breakSeen ∈ (pullingLine 11 none).due
      ∧ .breakSeen ∉ (pullingLine 10 none).due ∧ .slotBroken ∈ (pullingLine 0 (some 3)).due
      ∧ .slotClean ∉ (pullingLine 11 (some 11)).due
      ∧ (pullingLine 10 none).advance.line.run = 11 := by decide +kernel

/-- A pass at its bound, and the tenth sample of a character. -/
theorem witness_DueSteps :
    (∃ s : State, s.commit.pass = some ⟨0, 1, 1⟩)
      ∧ ∃ s : State, s.line.st = .assemble ∧ s.line.charTime = some 10
        ∧ judgeSamples (s.line.samples ++ [s.lineNow]) = some (.characterDelivered 0 false false) :=
  ⟨⟨{ base .member .assert with commit := ⟨some ⟨0, 1, 1⟩, none⟩ }, rfl⟩,
    { base .member .run with line := { (base .member .run).line with
      st := .assemble, charTime := some 10, samples := List.replicate 10 .dominant } },
    by decide +kernel⟩

/-- An attempt that drives its start bit, and one that waits. -/
theorem witness_LineNow :
    (∃ (a : Attempt) (s : State), s.tx = .active .claiming a ∧ s.line.drive = none
        ∧ s.lineNow = .dominant)
      ∧ ∃ (a : Attempt) (s : State), s.tx = .active .slotWait a ∧ s.line.drive = none :=
  ⟨⟨⟨⟨.roll, 0, 0, false⟩, 0, 0, [], [0x69]⟩, { base .member .run with
      tx := .active .claiming ⟨⟨.roll, 0, 0, false⟩, 0, 0, [], [0x69]⟩ }, by decide +kernel⟩,
    ⟨⟨.roll, 0, 0, false⟩, 0, 0, [], []⟩, { base .member .run with
      tx := .active .slotWait ⟨⟨.roll, 0, 0, false⟩, 0, 0, [], []⟩ }, rfl, rfl⟩

theorem witness_CommandsComplete :
    ∃ i : Instr, (∀ a b c d e, i ≠ .hardwareReset a b c d e) ∧ ∀ args, i ≠ .configure args :=
  ⟨.start, by intros; simp, by intros; simp⟩

/-- A transaction that straddles reset, and one that does not. -/
theorem witness_reads_straddling :
    (base .idle .dormant).port.straddling = false
      ∧ (State.afterReset 9 1 .recessive .recessive true).port.straddling = true := by decide

theorem witness_ReadPeers :
    (∃ s : State, s.port.straddling = false ∧ s.mem.station = .unconfigured)
      ∧ ∃ s : State, s.port.straddling = false ∧ s.mem.station ≠ .unconfigured :=
  ⟨⟨State.reset, by decide⟩, base .member .run, by decide⟩

theorem witness_ReadCommitReport :
    (∃ s : State, s.port.straddling = false ∧ (after .readCommitReport s).port.result ≠ .ok)
      ∧ ∃ s : State, s.port.straddling = false ∧ (after .readCommitReport s).port.result = .ok :=
  ⟨⟨State.reset, by decide +kernel⟩, base .member .run, by decide +kernel⟩

/-- READ_IMAGE and READ_DRAFT at the ends of the ranges: the last word of the last block, the whole
block, one word too many, block 64, during a pass. -/
theorem witness_ReadImageAndDraft :
    (after (.readImage 63 15 1) (base .member .run)).port.result = .ok
      ∧ (after (.readImage 63 0 16) (base .member .run)).port.result = .ok
      ∧ (after (.readImage 63 1 16) (base .member .run)).port.result = .badArgument
      ∧ (after (.readImage 64 0 1) (base .member .run)).port.result = .badArgument
      ∧ (after (.readImage 0 0 0) (base .member .run)).port.result = .badArgument
      ∧ (after (.readImage 0 0 1) { base .member .assert with
          commit := ⟨some ⟨0, 0, 1⟩, none⟩ }).port.result = .busyCommit
      ∧ (after (.readImage 0 0 1) State.reset).port.result = .wrongState
      ∧ (after (.readDraft 63 15 1) (base .member .run)).port.result = .ok
      ∧ (after (.readDraft 63 15 2) (base .member .run)).port.result = .badArgument := by
  decide +kernel

theorem witness_ReadBlockStatus :
    (after (.readBlockStatus 63 1) (base .member .run)).port.result = .ok
      ∧ (after (.readBlockStatus 0 64) (base .member .run)).port.result = .ok
      ∧ (after (.readBlockStatus 1 64) (base .member .run)).port.result = .badArgument
      ∧ ∃ b : Block, (63 : Byte).toNat ≤ b.val ∧ b.val < (63 : Byte).toNat + (1 : Byte).toNat :=
  ⟨by decide +kernel, by decide +kernel, by decide +kernel, 63, by decide⟩

theorem witness_ReadEvents :
    ¬ (1 ≤ (0 : Byte).toNat ∧ (0 : Byte).toNat ≤ 32) ∧ (1 ≤ (1 : Byte).toNat ∧ (1 : Byte).toNat ≤ 32)
      ∧ (1 ≤ (32 : Byte).toNat ∧ (32 : Byte).toNat ≤ 32)
      ∧ ¬ (1 ≤ (33 : Byte).toNat ∧ (33 : Byte).toNat ≤ 32) := by decide

def anEvent (kind : EventKind) (value : Option Nat) : Event := ⟨kind, 0, none, none, value⟩

/-- A READ_EVENTS in progress with this snapshot and these records in the queue. -/
def readingEvents (snap q : List Event) (r : Result) : State :=
  { base .member .run with
    events := q
    port := { Port.reset false with
      txn := some ⟨some 0x13, 2, true⟩, result := r, evSnap := snap } }

theorem witness_ReadEventsEnd :
    (∃ s : State, s.port.txn = some ⟨some 0x13, 2, true⟩ ∧ s.port.straddling = false
        ∧ s.port.result ≠ .ok)
      ∧ (∃ s : State, s.port.txn = some ⟨some 0x13, 2, true⟩ ∧ s.port.straddling = false
        ∧ s.port.result = .ok ∧ s.events.take s.port.evSnap.length = s.port.evSnap
        ∧ (after (.readEventsEnd 10) s).events.length = 2
        ∧ (after (.readEventsEnd 11) s).events.length = 1)
      ∧ ∃ (s : State) (pre : List Event) (o : Event) (v w : Nat),
        s.port.txn = some ⟨some 0x13, 2, true⟩ ∧ s.port.straddling = false ∧ s.port.result = .ok
        ∧ s.port.evSnap = pre ++ [o] ∧ s.events = pre ++ [{ o with value := some w }]
        ∧ o.kind = .overflow ∧ o.value = some v ∧ v < w
        ∧ (after (.readEventsEnd 11) s).events = [{ o with value := some (w - v) }] :=
  ⟨⟨readingEvents [] [] .badArgument, by decide⟩,
    ⟨readingEvents [anEvent .usurp none] [anEvent .usurp none, anEvent .left none] .ok,
      by decide +kernel⟩,
    ⟨readingEvents [anEvent .overflow (some 3)] [anEvent .overflow (some 5)] .ok, [],
      anEvent .overflow (some 3), 3, 5, by decide +kernel⟩⟩

theorem witness_TransactionEnds :
    (∃ (c : Byte) (n : Nat) (s : State), s.port.txn = some ⟨some c, n, true⟩)
      ∧ (∃ c : Byte, ∀ k ∈ commandBytes, k ≠ c)
      ∧ (after .readTransactionEnd (State.afterReset 9 1 .recessive .recessive true)).port.straddling
        = false :=
  ⟨⟨0x13, 2, readingEvents [] [] .ok, rfl⟩, ⟨0xFF, by decide⟩, by decide⟩

/-- SDO carries filler, no summary, in a transaction that straddles reset, the summary as byte 0 of the
next one, and nothing while CS_N is high. -/
theorem test_sdo_of_byte_zero :
    State.sdo (State.afterReset 9 1 .recessive .recessive true) 0 = some 0xFF
      ∧ State.sdo (after .transactionStart (State.afterReset 9 1 .recessive .recessive true)) 0
        = some 0x00
      ∧ State.sdo (State.afterReset 9 1 .recessive .recessive false) 0 = none := by decide +kernel

/-- The bytes of a READ_STATUS on SDO: the result, the record, and filler after it; filler before a
frame is complete. -/
theorem witness_SdoOfARead :
    (after .readStatus (base .member .run)).port.txn = some ⟨some 0x10, 1, true⟩
      ∧ (after .readStatus (base .member .run)).sdo 1 = some 0x00
      ∧ (after .readStatus (base .member .run)).sdo 2 = some 0x80
      ∧ (after .readStatus (base .member .run)).sdo 10 = some 0x00
      ∧ (after .readStatus (base .member .run)).sdo 11 = some 0xFF
      ∧ (after (.readImage 63 0 0) (base .member .run)).sdo 3 = some 0xFF
      ∧ (after (.readImage 63 0 0) (base .member .run)).sdo 4 = some 0x04
      ∧ (after .transactionStart (base .member .run)).sdo 0 = some 0x80
      ∧ (after .transactionStart (base .member .run)).sdo 1 = some 0xFF := by decide +kernel

/-- A write in a transaction that straddles reset does not act and records nothing. -/
theorem test_straddling_write :
    after .leave { base .member .run with port := Port.reset true }
      = { base .member .run with port := Port.reset false } := by decide +kernel

/-- WRITE_DRAFT with each of its results, at the ends of the ranges. -/
theorem witness_WriteDraft :
    (base .member .run).port.straddling = false ∧ (base .member .run).image.draft.wf = true
      ∧ (after (.writeDraft 0 15 1 [1, 2]) (base .member .run)).port.last = .ok
      ∧ (after (.writeDraft 0 15 1 [1, 2]) (base .member .run)).image.draft = [(15, 0x0102)]
      ∧ (after (.writeDraft 0 15 1 [1]) (base .member .run)).port.last = .frameError
      ∧ (after (.writeDraft 0 15 2 [1, 2, 3, 4]) (base .member .run)).port.last = .badArgument
      ∧ (after (.writeDraft 0 0 17 []) (base .member .run)).port.last = .badArgument
      ∧ (after (.writeDraft 63 0 1 [1, 2]) (base .member .run)).port.last = .notOwner
      ∧ (after (.writeDraft 0 0 1 [1, 2]) State.reset).port.last = .wrongState := by decide +kernel

/-- A publish queue with n entries for the blocks from 1 on. -/
def fullQueue (n : Nat) : Publish :=
  { Publish.reset with queue := (List.range n).map fun i =>
      ⟨.refresh (Fin.ofNat 64 (i + 1)), 0, i, false⟩ }

/-- PUBLISH with each of its results; QUEUE_FULL at 8 keys, in JOINING at 7. -/
theorem witness_Publish :
    (after (.publish 0 0 16) (base .member .run)).port.last = .ok
      ∧ (after (.publish 0 0 16) (base .idle .dormant)).port.last = .wrongState
      ∧ (after (.publish 0 15 2) (base .member .run)).port.last = .badArgument
      ∧ (after (.publish 63 0 1) (base .member .run)).port.last = .notOwner
      ∧ (after (.publish 0 0 1) { base .member .run with pub := fullQueue 7 }).port.last = .ok
      ∧ (after (.publish 0 0 1) { base .member .run with pub := fullQueue 8 }).port.last = .queueFull
      ∧ (after (.publish 0 0 1) { base .joining .run with pub := fullQueue 7 }).port.last = .queueFull
      ∧ (after (.publish 0 0 1) { base .joining .run with pub := fullQueue 6 }).port.last = .ok
      ∧ (State.after (base .member .run) [.publish 0 4 2, .publish 0 1 1]).pub.queue
          = [⟨.update 0 ⟨1, 5⟩, 0, 0, false⟩] := by decide +kernel

theorem witness_Publish_operands :
    ∃ (block first count : Byte) (b : Block) (sp : Span), b.val = block.toNat
      ∧ sp.first.val = first.toNat ∧ sp.last.val + 1 = first.toNat + count.toNat ∧ 1 ≤ count.toNat :=
  ⟨63, 15, 1, 63, ⟨15, 15⟩, by decide⟩

theorem witness_ConfigureArguments :
    ∃ (args : List Byte) (c : Settings), parseSettings args = some c ∧ c.epochLen = 2048
      ∧ c.holdLen = 256 ∧ c.mode = .every :=
  ⟨configArgs 2048 256, (parseSettings (configArgs 2048 256)).getD Settings.unset,
    by decide +kernel⟩

theorem witness_Configure :
    (base .idle .dormant).port.straddling = false
      ∧ (after (.configure (configArgs 2048 256)) (base .idle .dormant)).port.last = .ok
      ∧ (after (.configure (configArgs 2048 257)) (base .idle .dormant)).port.last = .badArgument
      ∧ (after (.configure (configArgs 2048 256)) (base .listen .follow)).port.last = .wrongState
      ∧ (after (.configure []) (base .idle .dormant)).port.last = .frameError := by decide +kernel

theorem witness_StartAndLeave :
    (base .idle .dormant).tx = .standby ∧ (base .idle .dormant).port.straddling = false
      ∧ (after .start (base .member .run)).port.last = .wrongState
      ∧ (after .leave (base .idle .dormant)).port.last = .wrongState
      ∧ (after .leave (base .mute .run)).mem.leavePending = true
      ∧ (after .leave (base .listen .follow)).mem.station = .idle := by decide +kernel

theorem witness_ConfigurationRecord :
    ∃ c : Settings, 2048 ≤ c.epochLen ∧ c.epochLen ≤ 65535 ∧ 32 ≤ c.holdLen ∧ c.holdLen ≤ 1023
      ∧ c.holdLen * 8 ≤ c.epochLen ∧ 2 ≤ c.silenceLimit ∧ c.silenceLimit ≤ 15
      ∧ c.refreshPeriod ≤ 255 ∧ 2 ≤ c.listenLimit ∧ c.listenLimit ≤ 15 :=
  ⟨(base .idle .dormant).cfg, by decide⟩

theorem witness_CharacterLevels :
    ∃ (data : Byte) (chars : List Byte) (n i : Nat), chars[n]? = some data ∧ i < 11 :=
  ⟨7, [1, 7], 1, 10, by decide⟩

/-- The state with the Line Interface in a given state. -/
def onLine (s : State) (st : LineState) : State := { s with line := { s.line with st := st } }

/-- The state with the Receiver in a given state and a character in assembly. -/
def receiving (s : State) (st : RxState) : State :=
  { onLine s .assemble with rx := ⟨st, 0⟩ }

theorem witness_HuntMoves :
    (base .idle .dormant).line.st = .hunt ∧ (base .idle .dormant).line.slot = none
      ∧ (onLine (base .idle .dormant) .inBreak).line.st = .inBreak
      ∧ (∃ s : State, s.line.st = .awaitRecessive ∧ s.line.runSeen = true)
      ∧ ∃ s : State, ¬ (s.line.st = .hunt ∧ s.line.slot = none) :=
  ⟨rfl, rfl, rfl,
    ⟨{ base .idle .dormant with
      line := { (base .idle .dormant).line with st := .awaitRecessive, runSeen := true } }, rfl, rfl⟩,
    onLine (base .idle .dormant) .assemble, by decide⟩

/-- The stop bit of the last check character has been sampled, and the answer slot begins a bit time
later. -/
def slotAhead : State :=
  { base .member .run with line := { (base .member .run).line with slot := some 0, charTime := some 10 } }

/-- A second check character that is badly framed, or held until its rise: its slot begins at the boundary,
so that a rise ahead of it leaves a whole slot, and a fall ahead of it breaks the slot there. -/
theorem test_slot_after_framing_error :
    let checking : State := { base .member .run with
      rx := ⟨.following .check { heard 5 0 with high := some 0 }, 0⟩
      line := { (base .member .run).line with st := .assemble, charTime := some 10, lrx := .dominant } }
    let risen := State.after checking [.characterDelivered 0 true true, .firstRecessiveReading]
    let held := after .heldCharacterRise checking
    risen.line.st = .hunt ∧ risen.line.slot = some 0 ∧ risen.line.charTime = some 10
      ∧ risen.advance.line.slot = some 0 ∧ .slotBroken ∈ (after .startEdge risen).advance.due
      ∧ .breakDriveStart ∉ risen.due ∧ .breakDriveStart ∈ risen.advance.due
      ∧ held.line.slot = some 0 ∧ held.line.charTime = some 10
      ∧ .slotBroken ∈ (after .startEdge held).advance.due := by
  decide +kernel

/-- A fall ahead of the slot starts no character and breaks the slot at its beginning; one that has risen
by then does not. The own attempt keeps such a fall. -/
theorem test_fall_ahead_of_the_slot :
    (after .startEdge slotAhead).line.st = .hunt ∧ .slotBroken ∉ (after .startEdge slotAhead).due
      ∧ .slotBroken ∈ (after .startEdge slotAhead).advance.due
      ∧ (after .startEdge slotAhead).advance.line.run = 1
      ∧ .slotBroken ∉ (State.after slotAhead [.startEdge, .firstRecessiveReading]).advance.due
      ∧ (State.after slotAhead [.startEdge, .firstRecessiveReading]).line = slotAhead.line
      ∧ .slotBroken ∈ (after .lastCheckSent { base .member .run with
          tx := .active .sending ⟨⟨.roll, 0, 0, false⟩, 0, 0, [], []⟩
          line := { (base .member .run).line with
            st := .assemble, charTime := some 0, lrx := .dominant, peers := .dominant } }).due := by
  decide +kernel

/-- The rise of a line that read dominant as reset ended. -/
theorem test_rise_after_reset :
    (after .firstRecessiveReading
      (State.afterReset 9 1 .dominant .recessive false)).line.lrx = .recessive := by decide +kernel

theorem witness_FirstCharacter :
    ∃ s : State, s.line.st = .assemble ∧ s.rx.st = .ready ∧ s.tx = .standby
      ∧ s.line.edgeLow = false ∧ s.eu.low = false
      ∧ (after (.characterDelivered 0x25 true false) s).rx.st
        = .following .header (Incoming.ofClaim .update 0x25)
      ∧ (after (.characterDelivered 0x1F true false) s).rx.st = .discard
      ∧ (after (.characterDelivered 0x80 true false) s).line.request = true :=
  ⟨receiving (base .member .run) .ready, by decide +kernel⟩

theorem witness_FirstCharacter_cut :
    ∃ s : State, s.line.st = .assemble ∧ s.rx.st = .ready ∧ s.tx = .standby
      ∧ s.line.edgeLow = true :=
  ⟨{ receiving (base .member .run) .ready with
    line := { (base .member .run).line with st := .assemble, edgeLow := true } }, by decide⟩

/-- A claim delivered while an attempt is under way: the own one, or with its stop bit read dominant a
received one and malformed. -/
theorem witness_FirstCharacter_own :
    ∃ s : State, s.line.st = .assemble ∧ s.rx.st = .ready
      ∧ s.tx = .active .claiming ⟨⟨.roll, 0, 0, false⟩, 0, 0, [], []⟩
      ∧ (after (.characterDelivered 0x69 true false) s).line.request = false
      ∧ (after (.characterDelivered 0x69 true true) s).line.request = true :=
  ⟨{ receiving (base .member .run) .ready with
    tx := .active .claiming ⟨⟨.roll, 0, 0, false⟩, 0, 0, [], []⟩ }, rfl, rfl, rfl, by decide +kernel⟩

/-- Each malformed condition of R84, at the first value that is malformed. -/
theorem witness_MalformedCharacter :
    ∃ d : Incoming, d.own = false
      ∧ malformedCharacter .header { d with chars := 0 } 0 64 false false
      ∧ ¬ malformedCharacter .header { d with chars := 0 } 0 63 false false
      ∧ malformedCharacter .header { d with chars := 3 } 0 0xF1 false false
      ∧ ¬ malformedCharacter .header { d with chars := 3 } 0 0xF0 false false
      ∧ malformedCharacter .header { d with chars := 3, kind := .refresh } 0 0x0E false false
      ∧ malformedCharacter .check { d with high := some 1 } 0x0103 2 false false
      ∧ ¬ malformedCharacter .check { d with high := some 1 } 0x0102 2 false false
      ∧ malformedCharacter .body d 0 0 true false ∧ malformedCharacter .body d 0 0 false true := by
  refine ⟨heard 5 0, rfl, ?_, ?_, ?_, ?_, ?_, ?_, ?_, ?_, ?_⟩ <;>
    simp [malformedCharacter, heard]

theorem witness_MalformedCharacter_state :
    ∃ (d : Incoming) (s : State), s.line.st = .assemble ∧ s.rx.st = .following .body d
      ∧ d.own = false :=
  ⟨heard 5 0, receiving (base .member .run) (.following .body (heard 5 0)), rfl, rfl, rfl⟩

theorem witness_HeldCharacter :
    (∃ s : State, s.line.st ≠ .assemble)
      ∧ (∃ s : State, s.line.st = .assemble ∧ s.rx.st = .ready)
      ∧ (∃ s : State, s.line.st = .assemble ∧ s.rx.st = .discard)
      ∧ (∃ (d : Incoming) (s : State), s.line.st = .assemble ∧ s.rx.st = .following .body d
        ∧ d.own = true)
      ∧ ∃ (d : Incoming) (s : State), s.line.st = .assemble ∧ s.rx.st = .following .body d
        ∧ d.own = false :=
  ⟨⟨base .member .run, by decide⟩,
    ⟨receiving (base .member .run) .ready, rfl, rfl⟩,
    ⟨receiving (base .member .run) .discard, rfl, rfl⟩,
    ⟨Incoming.ofAttempt 9 (attemptOf (rollEntry 0)), receiving (base .member .run)
      (.following .body (Incoming.ofAttempt 9 (attemptOf (rollEntry 0)))), rfl, rfl, rfl⟩,
    ⟨heard 5 0, receiving (base .member .run) (.following .body (heard 5 0)), rfl, rfl, rfl⟩⟩

/-- The run that reaches into a stop bit: from the start bit on, from bit 6 on, from nowhere. -/
theorem test_dominantTail :
    dominantTail 0 false = 10 ∧ dominantTail 0x80 false = 8 ∧ dominantTail 0 true = 0 := by decide

/-- A staging table of n entries, for the blocks from 2 on. -/
def stagingOf (n : Nat) : List StagingEntry :=
  (List.range n).map fun i => ⟨Fin.ofNat 64 (i + 2), 5, Vector.replicate 16 none, 0, 0, false⟩

/-- A dispatch of block 1 by station 5 at its epoch character, with n entries staged. -/
def atEpoch (s : State) (n : Nat) : State :=
  { receiving s (.following .header { heard 5 0 with chars := 1 }) with staging := stagingOf n }

/-- The room question: room with 15 entries, none with 16, in MEMBER and in MUTE; not asked for a
dispatch of another epoch. -/
theorem witness_RoomQuestion :
    (after (.characterDelivered 0 false false) (atEpoch (base .member .run) 15)).rx.st
        = .following .header { heard 5 0 with chars := 2, room := some true }
      ∧ (after (.characterDelivered 0 false false) (atEpoch (base .member .run) 16)).rx.st = .discard
      ∧ (after (.characterDelivered 0 false false) (atEpoch (base .mute .run) 16)).rx.st
        = .following .header { heard 5 0 with chars := 2, room := some false }
      ∧ (after (.characterDelivered 1 false false) (atEpoch (base .member .run) 16)).rx.st
        = .following .header { heard 5 0 with chars := 2, epoch := 1, room := some true } := by
  decide +kernel

/-- A whole UPDATE of station 5 is heard in MEMBER with room, as the statement's hypotheses ask. -/
theorem witness_DispatchIsHeard :
    ∃ (k : Kind) (b : Block) (sp : Span) (ws : List Word) (s : State), k ≠ .roll
      ∧ (k = .refresh → sp = ⟨0, 15⟩) ∧ sp.first ≤ sp.last
      ∧ ws.length = sp.last.val + 1 - sp.first.val ∧ s.line.st = .hunt ∧ s.line.slot = none
      ∧ s.eu.low = false ∧ s.rx.st = .ready ∧ s.tx = .standby
      ∧ (roomFor s.staging b = true ∨ s.mem.station.objects = false)
      ∧ (s.after (hearingSteps (blockDispatch k 5 b 0 1 sp ws))).line.slot = some 0 :=
  ⟨.update, 1, ⟨15, 15⟩, [7], { base .member .run with rx := ⟨.ready, 0xFFFF⟩ }, by decide,
    by decide, by decide, by decide, by decide +kernel⟩

/-- A break being driven, with n consecutive objections so far. -/
def driving (s : State) (n : Nat) : State :=
  { s with mute := ⟨n, 0⟩, line := { s.line with drive := some 14 } }

/-- The fifteenth and the sixteenth objection. -/
theorem witness_BreakDrive :
    (after .breakDriven (driving (base .member .run) 14)).mem.station = .member
      ∧ (after .breakDriven (driving (base .member .run) 14)).mute.consecutive = 15
      ∧ (after .breakDriven (driving (base .member .run) 15)).mem.station = .mute
      ∧ (after .breakDriven (driving (base .joining .run) 15)).mem.station = .listen
      ∧ (after .breakDriven { driving (base .joining .run) 15 with
          mem := { (base .joining .run).mem with leavePending := true } }).mem.station = .idle
      ∧ (after .breakDriven (driving (base .listen .follow) 3)).mute.consecutive = 3
      ∧ (base .member .run).line.drive = none ∧ (base .member .run).line.request = false := by
  decide +kernel

/-- A break asked for begins at a character boundary and not in the middle of a character. -/
def asking (charTime : Option Nat) : State :=
  { base .member .run with line := { (base .member .run).line with
    st := .assemble, request := true, charTime := charTime } }

theorem witness_BreakDriveStart :
    (after .breakDriveStart (asking none)).line.drive = some 0
      ∧ (after .breakDriveStart (asking (some 0))).line.drive = some 0
      ∧ after .breakDriveStart (asking (some 1)) = asking (some 1) := by decide +kernel

theorem witness_BreakDiscards :
    (∃ (d : Incoming) (s : State), s.line.runSeen = false ∧ s.line.slot = none
        ∧ (∀ a, s.tx ≠ .active .sending a) ∧ s.rx.st = .following .body d)
      ∧ (∃ s : State, s.line.runSeen = true)
      ∧ (∃ s : State, s.line.runSeen = false ∧ s.line.slot = none
        ∧ (∀ a, s.tx ≠ .active .sending a) ∧ ∀ ph d, s.rx.st = .following ph d → ph = .answer)
      ∧ (∃ s : State, s.line.slot ≠ none ∧ (∀ a, s.tx ≠ .active .slotWait a)
        ∧ ∀ d, s.rx.st ≠ .following .answer d)
      ∧ ∃ (d : Incoming) (s : State), s.line.slot ≠ none ∧ (∀ a, s.tx ≠ .active .slotWait a)
        ∧ s.rx.st = .following .answer d :=
  ⟨⟨heard 5 0, receiving (base .member .run) (.following .body (heard 5 0)), rfl, rfl, nofun, rfl⟩,
    ⟨{ base .member .run with line := { (base .member .run).line with runSeen := true } }, rfl⟩,
    ⟨receiving (base .member .run) .ready, rfl, rfl, nofun, nofun⟩,
    ⟨{ base .member .run with line := { (base .member .run).line with slot := some 1 } },
      by decide, nofun, nofun⟩,
    ⟨heard 5 0, answering (base .member .run) (heard 5 0), by decide, nofun, rfl⟩⟩

theorem witness_BusFaultAndIdle :
    (∃ s : State, s.line.busFault = true) ∧ (base .member .run).line.busFault = false
      ∧ (∃ s : State, ¬ (s.line.st = .hunt ∧ s.line.slot = none))
      ∧ (base .member .run).rx.st = .off
      ∧ (∃ s : State, s.line.st = .hunt ∧ s.line.slot = none ∧ s.rx.st = .waitIdle)
      ∧ (∃ (d : Incoming) (s : State), s.line.st = .hunt ∧ s.line.slot = none
        ∧ s.rx.st = .following .answer d)
      ∧ ∃ (d : Incoming) (s : State), s.line.st = .hunt ∧ s.line.slot = none
        ∧ s.rx.st = .following .body d ∧ d.own = false
        ∧ (after .busIdle s).counters.truncations = 1 :=
  ⟨⟨{ base .member .run with line := { (base .member .run).line with busFault := true } }, rfl⟩, rfl,
    ⟨onLine (base .member .run) .assemble, by decide⟩, rfl,
    ⟨{ base .member .run with rx := ⟨.waitIdle, 0⟩ }, rfl, rfl, rfl⟩,
    ⟨heard 5 0, { base .member .run with rx := ⟨.following .answer (heard 5 0), 0⟩ }, rfl, rfl, rfl⟩,
    ⟨heard 5 0, { base .member .run with rx := ⟨.following .body (heard 5 0), 0⟩ }, rfl, rfl, rfl, rfl,
      by decide +kernel⟩⟩

/-- A received dispatch that its clean slot accepts: from the own number, from the owner, from a lower
and from a higher sender of another epoch, and from one that is no owner. -/
theorem witness_SlotClean :
    (∀ a, (answering (base .member .run) (heard 5 0)).tx ≠ .active .slotWait a)
      ∧ (answering (base .member .run) (heard 5 0)).eu.low = false
      ∧ (answering (base .member .run) (heard 5 0)).mem.peers[(5 : StationNo)].state ≠ .self
      ∧ roomFor (answering (base .member .run) (heard 5 0)).staging 1 = true
      ∧ ((after .slotClean (answering (base .member .run) (heard 9 0))).events.map Event.kind)
        = [.duplicateId]
      ∧ ((after .slotClean (answering (base .member .run) (heard 5 0))).events.map Event.kind)
        = [.peerPresent]
      ∧ ((after .slotClean (answering (base .member .run) (heard 3 0))).events.map Event.kind)
        = [.peerPresent, .ownerMismatch]
      ∧ ((after .slotClean (answering (base .member .run) { heard 3 0 with block := 0 })).events.map
          Event.kind) = [.peerPresent, .usurp]
      ∧ ((after .slotClean (answering (base .member .run) (heard 5 7))).events.map Event.kind)
        = [.peerPresent, .epochAdopted]
      ∧ (after .slotClean (answering (base .member .run) (heard 5 7))).eu.epoch = 7
      ∧ (after .slotClean (answering (base .member .run) (heard 10 7))).eu.epoch = 0
      ∧ (after .slotClean (answering (base .mute .run) (heard 5 0))).staging.length = 1 :=
  ⟨nofun, by decide +kernel⟩

theorem witness_AcceptedDispatch_unstaged :
    (∃ s : State, s.cfg.subs[(heard 5 0).block] = false ∧ s.rx.st = .following .answer (heard 5 0))
      ∧ (∃ d : Incoming, d.room = some false) ∧ ∃ d : Incoming, d.kind = .roll :=
  ⟨⟨{ answering (base .member .run) (heard 5 0) with
      cfg := { (base .member .run).cfg with subs := Vector.replicate 64 false } }, by decide +kernel,
      rfl⟩,
    ⟨{ heard 5 0 with room := some false }, rfl⟩, { heard 5 0 with kind := .roll }, rfl⟩

theorem witness_EpochCompare :
    (∀ a, (answering (base .member .run) (heard 5 7)).tx ≠ .active .slotWait a)
      ∧ (answering (base .member .run) (heard 5 7)).line.slot ≠ none
      ∧ (heard 5 7).epoch ≠ (answering (base .member .run) (heard 5 7)).eu.epoch
      ∧ (heard 5 7).sender < (base .member .run).straps.sid
      ∧ (base .member .run).straps.sid < (heard 10 7).sender :=
  ⟨nofun, by decide +kernel⟩

/-- The first adoption in LISTEN, from a record that is ABSENT: an UPDATE of the owner is staged, one of
another station is tested as any other. -/
theorem witness_FirstAdoption :
    (answering (base .listen .follow) (heard 5 7)).mem.peers[(5 : StationNo)].state = .absent
      ∧ (after .slotClean (answering (base .listen .follow) (heard 5 7))).eu.epoch = 7
      ∧ (after .slotClean (answering (base .listen .follow) (heard 5 7))).staging.length = 1
      ∧ ((after .slotClean (answering (base .listen .follow) (heard 10 7))).events.map Event.kind)
        = [.peerPresent, .epochAdopted, .ownerMismatch] := by decide +kernel

/-- The thirty-first and the thirty-second clean reception in MUTE. -/
theorem witness_MuteCounts :
    (after .slotClean { answering (base .mute .run) (heard 5 0) with mute := ⟨16, 30⟩ }).mute
        = ⟨16, 31⟩
      ∧ (after .slotClean { answering (base .mute .run) (heard 5 0) with
          mute := ⟨16, 31⟩ }).mem.station = .member
      ∧ ((after .slotClean { answering (base .mute .run) (heard 9 0) with
          mute := ⟨16, 31⟩ }).events.map Event.kind) = [.muteLeft, .duplicateId]
      ∧ ((after .slotClean { answering (base .mute .run) (heard 5 0) with
          mute := ⟨16, 31⟩ }).events.map Event.kind) = [.muteLeft, .peerPresent] := by decide +kernel

/-- A clean slot on which no dispatch waits, and one with the low condition present. -/
theorem test_clean_slot_without_acceptance :
    (after .slotClean { answering (base .member .run) (heard 5 0) with rx := ⟨.discard, 0⟩ }).rx.st
        = .discard
      ∧ (after .slotClean { answering (base .member .run) (heard 5 0) with
          eu := { (base .member .run).eu with eln := .dominant } }).rx.st = .discard
      ∧ (after .slotClean { answering (base .member .run) (heard 5 0) with
          eu := { (base .member .run).eu with eln := .dominant } }).staging = [] := by decide +kernel

theorem witness_Staging :
    (∃ t : List StagingEntry, (∀ e ∈ t, e.block ≠ 1) ∧ t.length < 16)
      ∧ ∃ (t pre : List StagingEntry) (e : StagingEntry) (post : List StagingEntry),
        t = pre ++ e :: post ∧ e.block = 3 ∧ (∀ x ∈ pre, x.block ≠ 3) ∧ ∀ x ∈ post, x.block ≠ 3 :=
  ⟨⟨stagingOf 15, by decide +kernel⟩,
    ⟨stagingOf 3, [⟨2, 5, Vector.replicate 16 none, 0, 0, false⟩],
      ⟨3, 5, Vector.replicate 16 none, 0, 0, false⟩,
      [⟨4, 5, Vector.replicate 16 none, 0, 0, false⟩], by decide +kernel⟩⟩

/-- The own dispatch of an entry waits on its answer slot. -/
def slotWaiting (s : State) (e : Entry) : State :=
  { s with tx := .active .slotWait (attemptOf e), line := { s.line with slot := some 11 } }

def updateEntry (failures : Nat) : Entry := ⟨.update 0 ⟨0, 0⟩, failures, 0, false⟩

theorem witness_SlotCleanOwn :
    (slotWaiting (base .joining .run) (rollEntry 0)).line.slot ≠ none
      ∧ (slotWaiting (base .joining .run) (rollEntry 0)).eu.low = false
      ∧ (after .slotClean (slotWaiting (base .joining .run) (rollEntry 0))).mem.station = .member
      ∧ (after .slotClean (slotWaiting (base .member .run) (rollEntry 0))).tx = .standby
      ∧ (after .slotClean (slotWaiting (base .member .run) (updateEntry 0))).staging.length = 1 := by
  decide +kernel

/-- The bus free, with a queue of one entry that is held and one that is not. -/
def claimable : State :=
  { base .member .run with
    pub := { Publish.reset with queue := [{ updateEntry 0 with held := true }, rollEntry 0] }
    line := { (base .member .run).line with idle := true } }

theorem witness_Claim :
    claimable.tx = .standby ∧ claimable.line.idle = true ∧ claimable.eu.low = false
      ∧ claimable.eu.tail = none ∧ claimable.line.busFault = false
      ∧ claimable.eligible { updateEntry 0 with held := true } = false
      ∧ claimable.eligible (rollEntry 0) = true ∧ claimable.eligible (updateEntry 0) = true
      ∧ claimable.eligible ⟨.refresh 0, 0, 0, false⟩ = true
      ∧ (after .claim claimable).tx.inFlight.map Attempt.entry = some (rollEntry 0)
      ∧ (after .claim (base .member .run)).tx = .standby := by decide +kernel

theorem witness_AttemptPhases :
    (∃ s : State, s.tx = .active .claiming (attemptOf (rollEntry 0)) ∧ s.rx.st = .ready)
      ∧ (∃ s : State, s.tx = .active .claiming (attemptOf (rollEntry 0)) ∧ s.rx.st ≠ .ready)
      ∧ (∃ (p : RxPhase) (d : Incoming) (s : State),
          s.tx = .active .sending (attemptOf (rollEntry 0)) ∧ s.rx.st = .following p d)
      ∧ (base .member .run).tx = .standby :=
  ⟨⟨{ base .member .run with tx := .active .claiming (attemptOf (rollEntry 0)), rx := ⟨.ready, 0⟩ },
      rfl, rfl⟩,
    ⟨{ base .member .run with tx := .active .claiming (attemptOf (rollEntry 0)) }, rfl, nofun⟩,
    ⟨.check, heard 5 0, { base .member .run with
      tx := .active .sending (attemptOf (rollEntry 0)), rx := ⟨.following .check (heard 5 0), 0⟩ },
      rfl, rfl⟩, rfl⟩

/-- A claim being driven, at the bit of this number, with the peers' level as given; the bits of 0x69 with
marker 1 are 0 01101001 1 1, so bits 0, 1, 4, 6 and 7 are dominant. -/
def claimingAt (pos : Nat) (peers : Level) : State :=
  { base .member .run with
    tx := .active .claiming ⟨rollEntry 0, 0, 0, [], [0x69]⟩
    rx := ⟨.ready, 0⟩
    line := { (base .member .run).line with
      st := .assemble, charTime := some pos, sendPos := pos, peers := peers } }

/-- Each bit is compared: recessive driven and dominant read is a loss, and the lost bit is sampled
dominant. A stop bit told dominant is a loss and no win. -/
theorem test_readback :
    .arbitrationLoss ∈ (claimingAt 2 .dominant).due ∧ (claimingAt 2 .recessive).due = []
      ∧ .arbitrationLoss ∉ (claimingAt 4 .dominant).due
      ∧ (after .arbitrationLoss (claimingAt 2 .recessive)).advance.line.samples = [.dominant]
      ∧ (after .arbitrationLoss (claimingAt 2 .recessive)).advance.line.run = 1
      ∧ .arbitrationLoss
        ∈ (after (.characterDelivered 0x69 true true) (claimingAt 10 .recessive)).due
      ∧ .arbitrationLoss ∈ (State.after (claimingAt 10 .recessive)
          [.characterDelivered 0x69 true true, .firstRecessiveReading]).due
      ∧ (State.after (claimingAt 10 .recessive)
          [.characterDelivered 0x69 true true, .claimWon]).tx.inFlight.isSome = true
      ∧ (State.after (claimingAt 10 .recessive)
          [.characterDelivered 0x69 true true, .arbitrationLoss]).tx = .standby
      ∧ (after .bitFault (claimingAt 4 .recessive)).advance.line.samples = [.recessive] := by
  decide +kernel

/-- The comparison of a stop bit is made at its sample: a fall told after a good sample of it is no
mismatch, and the claim is won, or the slot of the last character broken, at the bit's end. A held
character of this station's own, and a start bit of its own read recessive, are bit faults. -/
theorem test_readback_at_the_sample :
    let sent := State.after (claimingAt 10 .recessive) [.characterDelivered 0x69 true false, .startEdge]
    let last : State := { claimingAt 10 .recessive with
      tx := .active .sending ⟨rollEntry 0, 0, 0, [], [0x69]⟩ }
    let fallen := State.after last [.characterDelivered 0x69 true false, .startEdge]
    .arbitrationLoss ∉ sent.due ∧ .claimWon ∈ sent.advance.due
      ∧ .bitFault ∉ fallen.due ∧ .lastCheckSent ∈ fallen.advance.due
      ∧ .slotBroken ∈ (after .lastCheckSent fallen.advance).due
      ∧ .bitFault ∈ (after .heldCharacterRise last).due
      ∧ (State.after last [.heldCharacterRise, .bitFault]).lineNow = .recessive
      ∧ .bitFault ∈ (after .falseStart (claimingAt 0 .recessive)).due := by
  decide +kernel

/-- A loss on the stop bit, taken after the claim's delivery. -/
theorem witness_AttemptLostAtStopBit :
    (after .arbitrationLoss { base .member .run with
      tx := .active .claiming (attemptOf (rollEntry 0))
      rx := ⟨.following .header (Incoming.ofAttempt 9 (attemptOf (rollEntry 0))), 0⟩ }).line.request
      = true := by decide +kernel

theorem witness_ReturnedEntry :
    (∃ q : List Entry, q.Pairwise (fun a b => b.before a = false)
        ∧ ∀ x ∈ q, x.duty.key ≠ (updateEntry 0).duty.key)
      ∧ ∃ (q pre : List Entry) (x : Entry) (post : List Entry), q = pre ++ x :: post
        ∧ x.duty.key = (updateEntry 0).duty.key
        ∧ (∀ y ∈ pre, y.duty.key ≠ (updateEntry 0).duty.key)
        ∧ ∀ y ∈ post, y.duty.key ≠ (updateEntry 0).duty.key :=
  ⟨⟨[rollEntry 0], by decide⟩,
    ⟨[⟨.refresh 0, 0, 1, false⟩, rollEntry 0], [], ⟨.refresh 0, 0, 1, false⟩, [rollEntry 0],
      by decide⟩⟩

/-- The seventh and the eighth failure, in each of the ways of R112. -/
theorem witness_FailedAttempt :
    (after .bitFault { base .member .run with
        tx := .active .claiming (attemptOf (updateEntry 6)) }).pub.queue
        = [{ updateEntry 7 with held := true }]
      ∧ (after .bitFault { base .member .run with
        tx := .active .sending (attemptOf (updateEntry 7)) }).pub.queue = []
      ∧ (after .breakSeen { base .member .run with
        tx := .active .sending (attemptOf (updateEntry 6)) }).pub.queue
        = [{ updateEntry 7 with held := true }]
      ∧ (after .slotBroken (slotWaiting (base .joining .run) (rollEntry 7))).mem.station = .listen
      ∧ (after .slotBroken { slotWaiting (base .joining .run) (rollEntry 7) with
          mem := { (base .joining .run).mem with leavePending := true } }).mem.station = .idle := by
  decide +kernel

/-- A break seen in SENDING: the run of 11 bt, the Receiver in DISCARD, the request withdrawn. -/
theorem test_break_in_sending :
    (after .breakSeen { base .member .run with
        tx := .active .sending (attemptOf (updateEntry 6))
        line := { (base .member .run).line with request := true }
        rx := ⟨.following .body (heard 5 0), 0⟩ }).line
        = { (base .member .run).line with
          st := .inBreak, lrx := .dominant, peers := .dominant, run := 11, runSeen := true }
      ∧ (after .breakSeen { base .member .run with
        tx := .active .sending (attemptOf (updateEntry 6))
        rx := ⟨.following .body (heard 5 0), 0⟩ }).rx.st = .discard
      ∧ (after .slotBroken { slotWaiting (base .member .run) (updateEntry 0) with
        rx := ⟨.following .answer (heard 9 0), 0⟩ }).rx.st = .discard := by decide +kernel

/-- The state with ELN read low. -/
def elnLow (s : State) : State := { s with eu := { s.eu with eln := .dominant } }

theorem witness_LowCondition :
    (base .idle .dormant).eu.unit = .dormant ∧ (elnLow (base .member .run)).eu.low = true
      ∧ (base .member .run).eu.unit ≠ .dormant ∧ (base .member .run).eu.low = false
      ∧ (after .elnRise (elnLow (base .member .run))).eu.tail = some 0
      ∧ (after .elnRise (elnLow (base .member .waitRise))).eu.unit = .run
      ∧ (base .member .waitRise).eu.counter < (base .member .waitRise).cfg.epochLen
      ∧ (after .elnRise { base .member .waitRise with
          eu := { (base .member .waitRise).eu with counter := 2048 } }).eu.unit = .assert := by
  decide +kernel

/-- An own expiry that no line shows: the low condition stands though ELN reads high, and its offer
changes nothing. -/
theorem test_low_condition_without_the_line :
    ({ (base .member .assert).eu with ownWindow := true } : EpochUnit).low = true
      ∧ after .lowConditionStart { base .member .assert with
          eu := { (base .member .assert).eu with ownWindow := true } }
        = { base .member .assert with eu := { (base .member .assert).eu with ownWindow := true } } := by
  decide +kernel

/-- A boundary in MEMBER: the countdown of the owned block, and the own-silence count that queues a
ROLL (R103, R105). -/
theorem test_boundary_in_member :
    (after .elnFall { base .member .run with pub :=
      { Publish.reset with countdown := Vector.replicate 64 1 } }).pub.queue.map (fun e => e.duty)
      = [.refresh 0, .roll] := by decide +kernel

/-- A state in which a commit pass runs. -/
def inPass (s : State) : State := { s with commit := ⟨some ⟨0, 0, 1⟩, some ⟨0, []⟩⟩ }

theorem witness_EpochExpiry :
    (base .member .run).eu.unit = .run ∧ (base .member .coast).eu.unit = .coast
      ∧ (base .member .coast).commit.pass = none ∧ (inPass (base .member .coast)).commit.pass ≠ none
      ∧ (base .joining .follow).eu.unit = .follow ∧ (base .joining .follow).mem.station ≠ .listen := by
  decide

/-- The listen limit 2 at the second unclocked period; the second boundary with an epoch taken. -/
theorem witness_ListeningCounts :
    (base .listen .follow).mem.joiningCount < 2 ∧ 0 < (base .listen .follow).cfg.epochLen
      ∧ min 15 ((base .listen .follow).mem.listenCount + 1) < (base .listen .follow).cfg.listenLimit
      ∧ (after .epochExpiry (base .listen .follow)).mem.station = .listen
      ∧ (State.after (base .listen .follow) [.epochExpiry, .epochExpiry]).mem.station = .joining
      ∧ (State.after (base .listen .follow) [.epochExpiry, .epochExpiry]).eu.unit = .run
      ∧ (after .elnFall (base .listen .follow)).mem.listenCount = 1
      ∧ (after .elnFall { base .listen .follow with
          mem := { (base .listen .follow).mem with joiningCount := 1, epochTaken := true }
        }).mem.station = .joining
      ∧ Key.ofRoll ∉ queueKeys (base .listen .follow).pub.queue := by decide +kernel

/-- The restoration timer at 4 × H, and one below it. -/
def resting (n : Nat) : State :=
  { base .member .coast with eu := { (base .member .coast).eu with restTimer := n } }

theorem witness_ElnFall :
    4 * (resting 1024).cfg.holdLen ≤ (resting 1024).eu.restTimer
      ∧ (resting 1023).eu.restTimer < 4 * (resting 1023).cfg.holdLen
      ∧ (after .elnFall (resting 1024)).eu.unit = .assert
      ∧ (after .elnFall (resting 1023)).eu.unit = .coast
      ∧ (after .elnFall (inPass (base .joining .follow))).eu.keptFall = true
      ∧ (after .elnFall (base .joining .follow)).commit.pass.isSome = true := by decide +kernel

/-- A pull under the not-drivable test. -/
def pulling (leaveOut : Bool) : State :=
  { base .member .assert with
    eu := { (base .member .assert).eu with driveTest := some 4, leaveOut := leaveOut } }

theorem witness_Coast :
    (pulling false).eu.counter < (pulling false).cfg.epochLen
      ∧ (pulling false).eu.driveTest ≠ none
      ∧ (after .notDrivable (pulling false)).eu.unit = .coast
      ∧ (after .notDrivable (pulling true)).mem.station = .idle
      ∧ (after .lineLowLimit (base .member .waitRise)).eu.unit = .coast
      ∧ (after .lineRestored (base .member .coast)).eu.unit = .run
      ∧ (after .lineRestored (inPass (base .member .coast))).eu.restTimer = 2048
      ∧ (after .lineLowLimit { base .member .waitRise with
          eu := { (base .member .waitRise).eu with counter := 2048 } }).commit.pass.isSome = true
      ∧ (after .lineRestored { base .member .coast with
          eu := { (base .member .coast).eu with counter := 2048 } }).eu.unit = .assert := by
  decide +kernel

/-- The own pull is read: alone with its clock the station finds its line low, and the test has passed
(R30); so has it when the low condition is told. With the line low NOT_DRIVABLE changes nothing. -/
theorem test_own_pull_is_read :
    .elnFall ∈ (pulling false).due ∧ (after .elnFall (pulling false)).eu.driveTest = none
      ∧ .elnFall ∉ (after .elnFall (pulling false)).due
      ∧ .notDrivable ∉ (after .elnFall (pulling false)).due
      ∧ (after .lowConditionStart (pulling false)).eu.driveTest = none
      ∧ after .notDrivable (elnLow (pulling false)) = elnLow (pulling false) := by decide +kernel

theorem witness_HoldRunOut :
    (after (.holdRunOut .recessive) (inPass (base .member .assert))).eu.holdOut = true
      ∧ (after (.holdRunOut .recessive) (pulling true)).mem.station = .idle
      ∧ (after (.holdRunOut .recessive) (base .member .assert)).eu.unit = .run
      ∧ (after (.holdRunOut .dominant) (base .member .assert)).eu.unit = .waitRise
      ∧ (after (.holdRunOut .recessive) { base .member .assert with
          eu := { (base .member .assert).eu with counter := 2048 } }).commit.pass.isSome = true
      ∧ (base .member .run).eu.unit ≠ .assert := by decide +kernel

/-- A full, a following and a broken entry against the stored sequence 255. -/
theorem witness_StatusTable :
    commitStatus ⟨1, 5, Vector.replicate 16 (some 0), 9, 9, false⟩ .stale 255 = .current
      ∧ commitStatus ⟨1, 5, Vector.replicate 16 none, 0, 0, false⟩ .current 255 = .current
      ∧ commitStatus ⟨1, 5, Vector.replicate 16 none, 1, 1, false⟩ .current 255 = .torn
      ∧ commitStatus ⟨1, 5, Vector.replicate 16 (some 0), 0, 0, true⟩ .empty 255 = .torn := by
  decide +kernel

theorem witness_CommitPassEnd :
    ∃ (p : Pass) (r : Report) (s : State), s.commit.pass = some p ∧ s.commit.report = some r
      ∧ stagingBounded s.staging ∧ s.staging ≠ [] ∧ s.image.words.wf = true ∧ s.eu.unit = .assert
      ∧ s.eu.holdOut = false :=
  ⟨⟨0, 0, 1⟩, ⟨0, []⟩, { inPass (base .member .assert) with staging := stagingOf 16 }, rfl, rfl,
    by unfold stagingBounded; decide +kernel, by decide +kernel, rfl, rfl, rfl⟩

/-- The state with some fields of the Epoch Unit set and leave-pending as given. -/
def atPassEnd (s : State) (holdOut keptFall leave : Bool) : State :=
  { inPass s with
    eu := { s.eu with holdOut := holdOut, keptFall := keptFall }
    mem := { s.mem with leavePending := leave } }

theorem witness_UnitMoves :
    (after (.commitPassEnd .recessive) (atPassEnd (base .member .assert) true false true)).mem.station
        = .idle
      ∧ (after (.commitPassEnd .dominant) (atPassEnd (base .member .assert) true false false)).eu.unit
        = .waitRise
      ∧ (after (.commitPassEnd .dominant) (atPassEnd (base .listen .follow) false false false)).eu.unit
        = .follow
      ∧ (after (.commitPassEnd .dominant) (atPassEnd (base .joining .follow) false false false)).eu.unit
        = .run
      ∧ (after (.commitPassEnd .dominant)
          (atPassEnd (base .joining .follow) false true false)).commit.pass.isSome = true
      ∧ (after (.commitPassEnd .dominant) (atPassEnd (base .member .coast) false false false)).eu.unit
        = .coast
      ∧ (after (.commitPassEnd .dominant)
          (atPassEnd (base .listen .follow) false true false)).mem.listenCount = 1
      ∧ (after (.commitPassEnd .dominant) (atPassEnd (resting 2048) false false false)).eu.unit
        = .run := by decide +kernel

/-- A countdown at 2, at 1 and at 0; a queued UPDATE; no room. -/
theorem witness_Schedules :
    (stepRefresh 4 none { Publish.reset with countdown := Vector.replicate 64 2 } 0).countdown[(0 : Block)]
        = 1
      ∧ (stepRefresh 4 none { Publish.reset with countdown := Vector.replicate 64 1 } 0).queue
        = [⟨.refresh 0, 0, 0, false⟩]
      ∧ (stepRefresh 4 none { Publish.reset with queue := [updateEntry 0] } 0).queue
        = [⟨.update 0 ⟨0, 15⟩, 0, 0, false⟩]
      ∧ hasRoom (fullQueue 8).queue none 8 (.refresh 0) = false
      ∧ hasRoom (fullQueue 7).queue none 8 .roll = true
      ∧ (stepSilence 2 none Publish.reset).queue = [rollEntry 0]
      ∧ (stepSilence 3 none Publish.reset).queue = [] := by decide +kernel

/-- The queue at 30, 31 and 32 records, and the count at its top. -/
theorem witness_Overflow :
    (addEvent (List.replicate 30 (anEvent .left none)) (anEvent .joined none) 0).length = 31
      ∧ (addEvent (List.replicate 31 (anEvent .left none)) (anEvent .joined none) 0).getLast?
        = some (anEvent .overflow (some 1))
      ∧ addEvent [anEvent .overflow (some 65534)] (anEvent .joined none) 0
        = [anEvent .overflow (some 65535)]
      ∧ addEvent [anEvent .overflow (some 65535)] (anEvent .joined none) 0
        = [anEvent .overflow (some 65535)] := by decide +kernel

theorem witness_WhatChangesImageAndDraft :
    ∃ (i : Instr) (s t : State), exec i s = .next t
      ∧ (∀ a b c d e, i ≠ .hardwareReset a b c d e) ∧ (∀ args, i ≠ .configure args)
      ∧ s.commit.pass = none ∧ ∀ a b c d, i ≠ .writeDraft a b c d :=
  ⟨.quietTailEnd, base .member .run, after .quietTailEnd (base .member .run), rfl, by intros; simp,
    by intros; simp, rfl, by intros; simp⟩

/-- The state after a dispatch has been accepted and committed, with another one staged and an UPDATE
published. -/
def busy : State :=
  State.after (answering (base .member .run) (heard 5 0))
    [.slotClean, .elnFall, .commitPassEnd .recessive, .holdRunOut .recessive, .publish 0 4 2]

theorem busy_tx : busy.tx = .standby := by decide +kernel

/-- A state that a run reaches meets every invariant, with a block that is TORN and two entries queued. -/
theorem witness_Invariants :
    (∃ t, step { busy with pending := [.quietTailEnd] } = .next t) ∧ busy.image.blocks[(1 : Block)].status = .torn
      ∧ busy.pub.queue.length = 2 ∧ eventsBounded busy.events ∧ stagingBounded busy.staging
      ∧ storesWf busy ∧ publishOk busy ∧ voiceOk busy ∧ muteBounded busy := by
  refine ⟨⟨_, rfl⟩, by decide +kernel, by decide +kernel, ?_, ?_, ?_, ⟨?_, ?_⟩, ?_, ?_⟩
  · unfold eventsBounded; decide +kernel
  · unfold stagingBounded; decide +kernel
  · unfold storesWf; decide +kernel
  · exact ⟨by decide +kernel, by decide +kernel, by decide +kernel,
      fun a h => (by rw [busy_tx] at h; cases h), by decide +kernel⟩
  · have h : busy.mem.station = .member := by decide +kernel
    unfold rollHasPlace; rw [h]; trivial
  · unfold voiceOk; decide +kernel
  · unfold muteBounded; decide +kernel

theorem witness_StationAndUnit : stationMatchesUnit busy ∧ passMatchesUnit busy := by
  constructor
  · have h : busy.mem.station = .member := by decide +kernel
    unfold stationMatchesUnit; rw [h]; decide +kernel
  · unfold passMatchesUnit; decide +kernel

/-- Block 1 is TORN and staged again, its owner PRESENT and heard, and the own block 0 is queued. -/
def followed : State :=
  { base .member .run with
    image := { ImageStore.reset with blocks := put ImageStore.reset.blocks 1 ⟨.torn, 1, some 0⟩ }
    staging := [⟨1, 5, Vector.replicate 16 none, 2, 2, false⟩]
    pub := { Publish.reset with queue := [updateEntry 0] }
    mem := { (base .member .run).mem with
      peers := put (base .member .run).mem.peers 5 ⟨.present, true, 0, some 0⟩ } }

theorem witness_ImageWithOwners : imageFollowsOwners followed := by
  refine ⟨?_, ?_, ?_, ⟨?_, nofun⟩, ?_, ?_⟩
  · unfold ownRecordSelf; decide +kernel
  · unfold liveBlocksHaveOwner onBusPeer; decide +kernel
  · unfold stagedFromOwner onBusPeer; decide +kernel
  · decide +kernel
  · unfold passMatchesUnit; decide +kernel
  · exact ⟨by decide, nofun⟩

end Sys2Proof.Tests
end

section
/-! SUPPORT. The commands that leave the image, the staging table, the publish queue and the station's
place on the bus as they are. -/

namespace Sys2Proof.Machine

/-- t is the station s with the same image, staging table, commit pass, peers, publish queue and entry in
flight, under the same ownership map, in the same states of station and Epoch Unit. -/
def keepsOwnership (s t : State) : Prop :=
  (t.straps = s.straps ∧ t.cfg = s.cfg ∧ t.image = s.image ∧ t.staging = s.staging)
    ∧ (t.commit = s.commit ∧ t.mem = s.mem ∧ t.eu.unit = s.eu.unit ∧ t.eu.leaveOut = s.eu.leaveOut)
    ∧ t.pub = s.pub ∧ t.tx.inFlight = s.tx.inFlight

@[simp] theorem keepsOwnership_refl (s : State) : keepsOwnership s s := by
  simp [keepsOwnership]

theorem keepsOwnership_trans {s t u : State} (h : keepsOwnership s t) (h' : keepsOwnership t u) :
    keepsOwnership s u := by
  unfold keepsOwnership at *
  grind

/-! ### Operations of the Receiver -/

theorem takeHeader_keepsOwnership (s : State) (d : Incoming) (data : Byte) :
    keepsOwnership s (s.takeHeader d data) := by
  unfold State.takeHeader State.askRoom
  dsimp only
  (repeat' split) <;> simp [keepsOwnership, State.cover, State.follow]

theorem takeBody_keepsOwnership (s : State) (d : Incoming) (data : Byte) :
    keepsOwnership s (s.takeBody d data) := by
  unfold State.takeBody
  split <;> simp [keepsOwnership, State.cover, State.follow]

theorem takeCheck_keepsOwnership (s : State) (d : Incoming) (data : Byte) :
    keepsOwnership s (s.takeCheck d data) := by
  unfold State.takeCheck
  dsimp only
  (repeat' split) <;> simp [keepsOwnership, State.follow, State.openSlot]

theorem takeClaim_keepsOwnership (s : State) (data : Byte) (framing : Bool) :
    keepsOwnership s (s.takeClaim data framing) := by
  unfold State.takeClaim
  dsimp only
  (repeat' split) <;> simp [keepsOwnership, State.follow]

theorem deliver_keepsOwnership (s : State) (data : Byte) (marker framing : Bool) :
    keepsOwnership s (s.deliver data marker framing) := by
  have malformed (u : State) : keepsOwnership u u.malformed := by simp [keepsOwnership]
  have marked (ph : RxPhase) (d : Incoming) : keepsOwnership s (s.markEnd ph d).malformed := by
    unfold State.markEnd
    split <;> simp [keepsOwnership, State.openSlot]
  have counted (d : Incoming) : keepsOwnership s (s.countOwn d) := by
    simp [keepsOwnership, State.countOwn, State.follow]
  unfold State.deliver
  (repeat' split) <;>
    simp [takeHeader_keepsOwnership, takeBody_keepsOwnership, takeCheck_keepsOwnership,
      takeClaim_keepsOwnership, malformed, marked, counted]
  simp [keepsOwnership]

theorem offerIdle_keepsOwnership (s : State) : keepsOwnership s s.offerIdle := by
  unfold State.offerIdle
  dsimp only
  (repeat' split) <;> simp [keepsOwnership]

theorem endBusFault_keepsOwnership (s : State) : keepsOwnership s s.endBusFault := by
  unfold State.endBusFault
  dsimp only
  (repeat' split) <;> simp [keepsOwnership]

/-! ### Operations of the local port and of the line -/

theorem readReply_keepsOwnership (s : State) (c : Byte) (n : Nat) (r : Result) (data : List Byte)
    (records : List Event) : keepsOwnership s (s.readReply c n r data records) := by
  simp [keepsOwnership]

theorem endTransaction_keepsOwnership (s : State) (r : Result) :
    keepsOwnership s (s.endTransaction r) := by simp [keepsOwnership]

theorem endRead_keepsOwnership (s : State) : keepsOwnership s s.endRead := by
  unfold State.endRead
  (repeat' split) <;> simp [endTransaction_keepsOwnership]

theorem countBreak_keepsOwnership (s : State) : keepsOwnership s s.countBreak := by
  unfold State.countBreak
  split <;> simp [keepsOwnership]

theorem breakInDispatch_keepsOwnership (s : State) : keepsOwnership s s.breakInDispatch := by
  unfold State.breakInDispatch
  split <;> simp [keepsOwnership]

theorem knowOwn_keepsOwnership (s : State) (a : Attempt) : keepsOwnership s (s.knowOwn a) := by
  unfold State.knowOwn
  split <;> simp [keepsOwnership]

theorem giveUp_keepsOwnership (s : State) : keepsOwnership s s.giveUp := by
  unfold State.giveUp
  split <;> simp [keepsOwnership]

theorem ownWasLost_keepsOwnership (s : State) : keepsOwnership s s.ownWasLost := by
  unfold State.ownWasLost
  (repeat' split) <;> simp [keepsOwnership]

/-! ### The commands -/

/-- The commands that move neither the image nor the publish queue nor the station: the reads and the
framing of the local port, the line and its characters, and the progress of an own attempt. -/
def leavesOwnership : Instr → Bool
  | .transactionStart | .readStatus | .readConfig | .readCounters | .readEvents _ | .readPeers
  | .readCommitReport | .readImage .. | .readBlockStatus .. | .readDraft .. | .unknownCommand _
  | .frameError | .readTransactionEnd | .readEventsEnd _ | .startEdge | .falseStart
  | .characterDelivered .. | .heldCharacterRise | .breakDriveStart | .breakEnd | .busFault | .busIdle
  | .claimWon | .lastCheckSent | .quietTailEnd | .firstRecessiveReading => true
  | _ => false

theorem execUnknownCommand_keepsOwnership {c : Byte} {s t : State}
    (h : execUnknownCommand c s = .next t) : keepsOwnership s t := by
  unfold execUnknownCommand at h
  split at h <;> cases h <;> simp [endTransaction_keepsOwnership]

theorem execReadEventsEnd_keepsOwnership {n : Nat} {s t : State}
    (h : execReadEventsEnd n s = .next t) : keepsOwnership s t := by
  unfold execReadEventsEnd at h
  dsimp only at h
  split at h
  · split at h <;> cases h
    · exact keepsOwnership_trans (by simp [keepsOwnership]) (endRead_keepsOwnership _)
    · exact endRead_keepsOwnership s
  · split at h <;> cases h <;> simp [endTransaction_keepsOwnership]

theorem execStartEdge_keepsOwnership {s t : State} (h : execStartEdge s = .next t) :
    keepsOwnership s t := by
  unfold execStartEdge at h
  cases h
  (repeat' split) <;> simp [keepsOwnership]

theorem execCharacterDelivered_keepsOwnership {data : Byte} {marker framing : Bool} {s t : State}
    (h : execCharacterDelivered data marker framing s = .next t) : keepsOwnership s t := by
  unfold execCharacterDelivered at h
  cases h
  split
  · exact keepsOwnership_trans (by simp [keepsOwnership]) (deliver_keepsOwnership _ data marker framing)
  · simp

theorem execHeldCharacterRise_keepsOwnership {s t : State} (h : execHeldCharacterRise s = .next t) :
    keepsOwnership s t := by
  unfold execHeldCharacterRise at h
  cases h
  split
  · exact keepsOwnership_trans (by simp [keepsOwnership]) (deliver_keepsOwnership _ 0 false true)
  · simp

theorem execBusFault_keepsOwnership {s t : State} (h : execBusFault s = .next t) :
    keepsOwnership s t := by
  unfold execBusFault at h
  cases h
  dsimp only
  (repeat' split) <;> simp [keepsOwnership]

theorem execBusIdle_keepsOwnership {s t : State} (h : execBusIdle s = .next t) :
    keepsOwnership s t := by
  unfold execBusIdle at h
  cases h
  split
  · exact keepsOwnership_trans (by simp [keepsOwnership])
      (keepsOwnership_trans (endBusFault_keepsOwnership _) (offerIdle_keepsOwnership _))
  · simp

theorem execClaimWon_keepsOwnership {s t : State} (h : execClaimWon s = .next t) :
    keepsOwnership s t := by
  unfold execClaimWon at h
  split at h
  next a ht =>
    cases h
    split
    · simp
    · exact keepsOwnership_trans (by simp [keepsOwnership, ht, TxState.inFlight])
        (knowOwn_keepsOwnership _ a)
  next => cases h; simp

theorem execLastCheckSent_keepsOwnership {s t : State} (h : execLastCheckSent s = .next t) :
    keepsOwnership s t := by
  unfold execLastCheckSent at h
  split at h
  next a ht =>
    split at h <;> cases h
    · simp
    · split <;> simp [keepsOwnership, ht, TxState.inFlight]
  next => cases h; simp

/-- A command of the list, in whatever state it comes, keeps the ownership side of the station. -/
theorem exec_keepsOwnership {i : Instr} {s t : State} (hi : leavesOwnership i = true)
    (h : exec i s = .next t) : keepsOwnership s t := by
  cases i with
  | transactionStart => cases h; simp [keepsOwnership]
  | readStatus | readConfig | readCounters | readEvents | readPeers | readCommitReport | readImage
  | readBlockStatus | readDraft => cases h; apply readReply_keepsOwnership
  | unknownCommand c => exact execUnknownCommand_keepsOwnership h
  | frameError => cases h; apply endTransaction_keepsOwnership
  | readTransactionEnd => cases h; apply endRead_keepsOwnership
  | readEventsEnd n => exact execReadEventsEnd_keepsOwnership h
  | startEdge => exact execStartEdge_keepsOwnership h
  | falseStart | breakDriveStart | breakEnd | firstRecessiveReading =>
    cases h; split <;> simp [keepsOwnership]
  | characterDelivered => exact execCharacterDelivered_keepsOwnership h
  | heldCharacterRise => exact execHeldCharacterRise_keepsOwnership h
  | busFault => exact execBusFault_keepsOwnership h
  | busIdle => exact execBusIdle_keepsOwnership h
  | claimWon => exact execClaimWon_keepsOwnership h
  | lastCheckSent => exact execLastCheckSent_keepsOwnership h
  | quietTailEnd => cases h; simp [keepsOwnership]
  | _ => cases hi

end Sys2Proof.Machine
end

section
/-! SUPPORT. What the moves of the Epoch Unit and of the station keep: the station state over a boundary,
and the words of image and draft over every move. -/

namespace Sys2Proof.Machine

/-! ### The boundary and the moves of the Epoch Unit -/

/-- A boundary moves neither the unit nor the station and writes no word; a pass runs after it (R27). -/
@[simp] theorem State.boundary_keeps (s : State) :
    s.boundary.eu.unit = s.eu.unit ∧ s.boundary.eu.leaveOut = s.eu.leaveOut
      ∧ s.boundary.mem.station = s.mem.station ∧ s.boundary.mem.leavePending = s.mem.leavePending
      ∧ s.boundary.commit.pass.isSome = true
      ∧ s.boundary.image.words = s.image.words ∧ s.boundary.image.draft = s.image.draft := by
  obtain ⟨hframe, hpass, -⟩ := s.boundary_startedBoundary
  rw [hpass, hframe]
  simp

@[simp] theorem State.expireRun_keeps (s : State) :
    s.expireRun.mem.station = s.mem.station ∧ s.expireRun.image.words = s.image.words
      ∧ s.expireRun.image.draft = s.image.draft := by simp [State.expireRun]

@[simp] theorem State.joinFall_keeps (s : State) :
    s.joinFall.mem.station = s.mem.station ∧ s.joinFall.image.words = s.image.words
      ∧ s.joinFall.image.draft = s.image.draft := by simp [State.joinFall]

@[simp] theorem State.expireCoast_keeps (s : State) :
    s.expireCoast.mem.station = s.mem.station ∧ s.expireCoast.image.words = s.image.words
      ∧ s.expireCoast.image.draft = s.image.draft := by simp [State.expireCoast]

@[simp] theorem State.enterRun_keeps (s : State) :
    s.enterRun.mem.station = s.mem.station ∧ s.enterRun.image.words = s.image.words
      ∧ s.enterRun.image.draft = s.image.draft := by
  unfold State.enterRun
  dsimp only
  split <;> simp

@[simp] theorem State.enterCoast_keeps (s : State) (cause : Nat) :
    (s.enterCoast cause).mem.station = s.mem.station
      ∧ (s.enterCoast cause).image.words = s.image.words
      ∧ (s.enterCoast cause).image.draft = s.image.draft := by
  unfold State.enterCoast
  dsimp only
  split <;> simp

@[simp] theorem State.byLine_keeps (s : State) :
    s.byLine.mem.station = s.mem.station ∧ s.byLine.image.words = s.image.words
      ∧ s.byLine.image.draft = s.image.draft := by
  unfold State.byLine
  split <;> simp

@[simp] theorem State.restore_keeps (s : State) :
    s.restore.mem.station = s.mem.station ∧ s.restore.image.words = s.image.words
      ∧ s.restore.image.draft = s.image.draft := by simp [State.restore]

@[simp] theorem State.settle_leaveOut (before : Bool) (s : State) :
    (State.settle before s).eu.leaveOut = s.eu.leaveOut := by
  unfold State.settle
  split <;> simp

/-! ### The moves of the station -/

/-- Where the completion of LEAVE puts the station and its unit, and the words it keeps (R143). -/
@[simp] theorem State.completeLeave_keeps (s : State) :
    s.completeLeave.mem.station = .idle ∧ s.completeLeave.mem.leavePending = false
      ∧ s.completeLeave.eu.unit = .dormant ∧ s.completeLeave.eu.leaveOut = false
      ∧ s.completeLeave.image.words = s.image.words
      ∧ s.completeLeave.image.draft = s.image.draft := by
  simp [State.completeLeave, EpochUnit.dormant, ImageStore.staleWhere]

@[simp] theorem State.enterJoining_keeps (s : State) :
    s.enterJoining.mem.station = .joining ∧ s.enterJoining.image.words = s.image.words
      ∧ s.enterJoining.image.draft = s.image.draft := by
  unfold State.enterJoining
  dsimp only
  split <;> simp

/-- The state with other listening counts. -/
def State.withCounts (s : State) (listen joining : Nat) : State :=
  { s with mem := { s.mem with listenCount := listen, joiningCount := joining } }

/-- What counting can do: nothing outside LISTEN, else new counts, with JOINING or without (R136, R137). -/
theorem State.countListening_cases (s : State) (isBoundary : Bool) :
    s.countListening isBoundary = s ∨ (s.mem.station = .listen ∧ ∃ listen joining,
      s.countListening isBoundary = s.withCounts listen joining
        ∨ s.countListening isBoundary = (s.withCounts listen joining).enterJoining) := by
  unfold State.countListening
  dsimp only
  generalize (if (isBoundary && s.mem.epochTaken) = true then min 2 (s.mem.joiningCount + 1)
    else s.mem.joiningCount) = joining
  split
  next hs =>
    refine Or.inr ⟨hs, min 15 (s.mem.listenCount + 1), joining, ?_⟩
    split
    · exact Or.inr rfl
    · exact Or.inl rfl
  next => exact Or.inl rfl

@[simp] theorem State.countListening_words (s : State) (isBoundary : Bool) :
    (s.countListening isBoundary).image.words = s.image.words
      ∧ (s.countListening isBoundary).image.draft = s.image.draft := by
  unfold State.countListening
  dsimp only
  (repeat' split) <;> simp

@[simp] theorem State.followBoundary_words (s : State) :
    s.followBoundary.image.words = s.image.words
      ∧ s.followBoundary.image.draft = s.image.draft := by simp [State.followBoundary]

@[simp] theorem State.release_words (s : State) (eln : Level) :
    (s.release eln).image.words = s.image.words ∧ (s.release eln).image.draft = s.image.draft := by
  unfold State.release
  dsimp only
  split <;> simp

@[simp] theorem State.afterPass_words (s : State) (eln : Level) :
    (s.afterPass eln).image.words = s.image.words
      ∧ (s.afterPass eln).image.draft = s.image.draft := by
  unfold State.afterPass
  dsimp only
  (repeat' split) <;> simp

@[simp] theorem State.ownBlock_words (s : State) (a : Attempt) (b : Block) :
    (s.ownBlock a b).image.words = s.image.words
      ∧ (s.ownBlock a b).image.draft = s.image.draft := by
  unfold State.ownBlock
  dsimp only
  (repeat' split) <;> simp

@[simp] theorem State.acceptOwn_words (s : State) (a : Attempt) :
    (s.acceptOwn a).image.words = s.image.words
      ∧ (s.acceptOwn a).image.draft = s.image.draft := by
  unfold State.acceptOwn
  dsimp only
  (repeat' split) <;> simp

/-! ### The commit pass -/

/-- A commit takes the head of the table into the image and writes no draft word (R48). -/
@[simp] theorem State.commitSome_draft (epoch : Byte) (n : Nat) (s : State) :
    (State.commitSome epoch n s).image.draft = s.image.draft := by
  induction n generalizing s with
  | zero => rfl
  | succ n ih =>
    rw [State.commitSome, ih, State.commitHead]
    split <;> simp [ImageStore.commit]

@[simp] theorem State.commitSome_pass (epoch : Byte) (n : Nat) (s : State) :
    (State.commitSome epoch n s).commit.pass = s.commit.pass := by
  induction n generalizing s with
  | zero => rfl
  | succ n ih =>
    rw [State.commitSome, ih, State.commitHead]
    split <;> rfl

/-- A pass that commits as many entries as the table holds leaves it empty (R51). -/
theorem State.commitSome_all (epoch : Byte) (n : Nat) (s : State) (h : s.staging.length ≤ n) :
    (State.commitSome epoch n s).staging = [] := by
  induction n generalizing s with
  | zero => simpa [State.commitSome] using h
  | succ n ih =>
    refine ih _ ?_
    unfold State.commitHead
    split
    next hs => simp [hs]
    next e rest hs => simpa [hs] using h

theorem State.finishPass_idle {s : State} (h : s.commit.pass = none) : s.finishPass = s := by
  simp [State.finishPass, h]

@[simp] theorem State.finishPass_keeps (s : State) :
    s.finishPass.commit.pass = none ∧ s.finishPass.eu.unit = s.eu.unit
      ∧ s.finishPass.eu.leaveOut = s.eu.leaveOut ∧ s.finishPass.image.draft = s.image.draft := by
  unfold State.finishPass
  split
  next h => simp [h]
  next => simp

end Sys2Proof.Machine
end

section
/-! SUPPORT. The Epoch Unit stays with the station (R21, R26): every command keeps the correspondence.
In the running states it is an assertion about the unit and the pass alone, so that a move of the unit
establishes it whatever the station's running state is. -/

namespace Sys2Proof.Machine

/-! ### The correspondence, by the kind of station state -/

/-- The running states JOINING, MEMBER and MUTE (section 8.1). -/
def runs : StationState → Bool
  | .joining | .member | .mute => true
  | .unconfigured | .idle | .listen => false

/-- What the correspondence asks of unit and pass in a running state. -/
def unitRuns (s : State) : Prop :=
  s.eu.unit ≠ .dormant ∧ (s.eu.unit = .follow → s.commit.pass.isSome = true) ∧ passMatchesUnit s

/-- The unit fits the station and the pass. -/
def unitFits (s : State) : Prop := stationMatchesUnit s ∧ passMatchesUnit s

theorem unitFits_of_runs {s : State} (hr : runs s.mem.station = true) (h : unitRuns s) :
    unitFits s := by
  obtain ⟨hd, hf, hp⟩ := h
  refine ⟨?_, hp⟩
  unfold stationMatchesUnit
  cases hs : s.mem.station <;> simp_all [runs]

theorem unitFits_congr {s t : State} (hu : t.eu.unit = s.eu.unit)
    (hl : t.eu.leaveOut = s.eu.leaveOut) (hp : t.commit.pass = s.commit.pass)
    (hs : t.mem.station = s.mem.station) (hq : t.mem.leavePending = s.mem.leavePending)
    (h : unitFits s) : unitFits t := by
  simpa [unitFits, stationMatchesUnit, passMatchesUnit, hu, hl, hp, hs, hq] using h

/-- Outside DORMANT and FOLLOW the station is in a running state. -/
theorem unitFits_runs {s : State} (h : unitFits s) (hd : s.eu.unit ≠ .dormant)
    (hf : s.eu.unit ≠ .follow) : runs s.mem.station = true := by
  have hs := h.1
  unfold stationMatchesUnit at hs
  cases hst : s.mem.station <;> simp_all [runs]

theorem unitRuns_of_fits {s : State} (h : unitFits s) (hr : runs s.mem.station = true) :
    unitRuns s := by
  obtain ⟨hs, hp⟩ := h
  unfold stationMatchesUnit at hs
  cases hst : s.mem.station <;> simp_all [runs, unitRuns]

/-- In FOLLOW the station listens, or runs while a pass goes on (R26). -/
theorem unitFits_follow {s : State} (h : unitFits s) (hf : s.eu.unit = .follow) :
    (s.mem.station = .listen ∧ s.mem.leavePending = false)
      ∨ (runs s.mem.station = true ∧ s.commit.pass.isSome = true) := by
  have hs := h.1
  unfold stationMatchesUnit at hs
  cases hst : s.mem.station <;> simp_all [runs]

theorem unitFits_listen {s : State} (h : unitFits s) (hs : s.mem.station = .listen) :
    s.eu.unit = .follow ∧ s.mem.leavePending = false := by
  have hm := h.1
  unfold stationMatchesUnit at hm
  simpa [hs] using hm

/-- No pass runs in DORMANT, RUN and WAIT_RISE. -/
theorem unitFits_noPass {s : State} (h : unitFits s)
    (hu : s.eu.unit = .dormant ∨ s.eu.unit = .run ∨ s.eu.unit = .waitRise) :
    s.commit.pass = none := h.2.1 hu

/-- A LEAVE recorded for the release stands in ASSERT alone, after the pass (R37). -/
theorem unitFits_leaveOut {s : State} (h : unitFits s) (hl : s.eu.leaveOut = true) :
    s.eu.unit = .assert ∧ s.commit.pass = none := h.2.2 hl

theorem unitFits_noLeaveOut {s : State} (h : unitFits s)
    (hu : s.eu.unit ≠ .assert ∨ s.commit.pass ≠ none) : s.eu.leaveOut = false := by
  have := h.2.2
  grind

/-! ### The moves of the Epoch Unit -/

theorem expireRun_unitRuns (s : State) : unitRuns s.expireRun := by
  simp [unitRuns, passMatchesUnit, State.expireRun]

theorem joinFall_unitRuns (s : State) : unitRuns s.joinFall := by
  simp [unitRuns, passMatchesUnit, State.joinFall]

theorem expireCoast_unitRuns {s : State} (hu : s.eu.unit = .coast) (hl : s.eu.leaveOut = false) :
    unitRuns s.expireCoast := by
  simp [unitRuns, passMatchesUnit, State.expireCoast, hu, hl]

theorem enterRun_unitRuns {s : State} (hp : s.commit.pass = none) : unitRuns s.enterRun := by
  unfold State.enterRun
  dsimp only
  split
  · exact expireRun_unitRuns _
  · simp [unitRuns, passMatchesUnit, hp]

theorem enterCoast_unitRuns (s : State) (cause : Nat) : unitRuns (s.enterCoast cause) := by
  unfold State.enterCoast
  dsimp only
  split
  · exact expireCoast_unitRuns rfl rfl
  · simp [unitRuns, passMatchesUnit]

theorem byLine_unitRuns {s : State} (hp : s.commit.pass = none) : unitRuns s.byLine := by
  unfold State.byLine
  split
  · exact enterRun_unitRuns hp
  · simp [unitRuns, passMatchesUnit, State.enterWaitRise, hp]

theorem restore_unitRuns {s : State} (hp : s.commit.pass = none) : unitRuns s.restore :=
  enterRun_unitRuns (by simpa using hp)

/-! ### Moves of the station -/

theorem completeLeave_unitFits {s : State} (hp : s.commit.pass = none) :
    unitFits s.completeLeave := by
  simp [unitFits, stationMatchesUnit, passMatchesUnit, hp]

theorem leaveNow_unitFits (s : State) : unitFits s.leaveNow :=
  completeLeave_unitFits s.finishPass_keeps.1

theorem release_unitFits {s : State} (eln : Level) (hp : s.commit.pass = none)
    (hr : runs s.mem.station = true) : unitFits (s.release eln) := by
  unfold State.release
  dsimp only
  split
  · exact completeLeave_unitFits hp
  · exact unitFits_of_runs (by simpa using hr) (byLine_unitRuns hp)

/-- JOINING is entered in FOLLOW, and left there only while a pass runs (R26). -/
theorem enterJoining_unitFits {s : State} (hu : s.eu.unit = .follow)
    (hl : s.eu.leaveOut = false) : unitFits s.enterJoining := by
  refine unitFits_of_runs (by simp [runs]) ?_
  unfold State.enterJoining
  dsimp only
  split
  · exact byLine_unitRuns (by assumption)
  next hp => simp [unitRuns, passMatchesUnit, hu, hl, Option.isSome_iff_ne_none, hp]

theorem countListening_unitFits {s : State} (isBoundary : Bool) (h : unitFits s) :
    unitFits (s.countListening isBoundary) := by
  rcases s.countListening_cases isBoundary with hsame | ⟨hs, l, j, hcount | hjoin⟩
  · rwa [hsame]
  · rw [hcount]
    exact unitFits_congr rfl rfl rfl rfl rfl h
  · have hu := (unitFits_listen h hs).1
    have hl := unitFits_noLeaveOut h (Or.inl (by simp [hu]))
    rw [hjoin]
    exact enterJoining_unitFits hu hl

/-- A boundary in FOLLOW (R24): a listening station may join in it, a running one waits for its end. -/
theorem followBoundary_unitFits {s : State} (hu : s.eu.unit = .follow) (hl : s.eu.leaveOut = false)
    (hs : (s.mem.station = .listen ∧ s.mem.leavePending = false) ∨ runs s.mem.station = true) :
    unitFits s.followBoundary := by
  refine countListening_unitFits true ?_
  rcases hs with ⟨hs, hq⟩ | hr
  · simp [unitFits, stationMatchesUnit, passMatchesUnit, hu, hl, hs, hq]
  · exact unitFits_of_runs (by simpa using hr) (by simp [unitRuns, passMatchesUnit, hu, hl])

theorem fallBack_unitFits {s : State} (h : unitFits s) : unitFits s.fallBack := by
  unfold State.fallBack
  dsimp only
  split
  · exact leaveNow_unitFits _
  next hq =>
    have hl := h.2.2
    simp_all [unitFits, stationMatchesUnit, passMatchesUnit]

theorem failAttempt_unitFits {s : State} (h : unitFits s) : unitFits s.failAttempt := by
  unfold State.failAttempt
  dsimp only
  (repeat' split)
  · exact h
  · exact h
  · exact fallBack_unitFits h
  · exact h

theorem settle_unitFits {s : State} (before : Bool) (h : unitFits s) :
    unitFits (State.settle before s) := unitFits_congr (by simp) (by simp) (by simp) (by simp) (by simp) h

/-- As a pass ends the unit moves on, and it still fits (R31, R36, R37, R24, R26). -/
theorem afterPass_unitFits {s : State} (eln : Level) (h : unitFits s)
    (hp : s.commit.pass.isSome = true) : unitFits (s.finishPass.afterPass eln) := by
  have hl : s.finishPass.eu.leaveOut = false := by
    simpa using unitFits_noLeaveOut h (Or.inr (Option.isSome_iff_ne_none.1 hp))
  have hnone := s.finishPass_keeps.1
  have hu : s.finishPass.eu.unit = s.eu.unit := by simp
  have hm : s.finishPass.mem = s.mem := by simp
  have hno := unitFits_noPass h
  have hruns := unitFits_runs h
  have hfollow := unitFits_follow h
  generalize s.finishPass = u at hl hnone hu hm
  rw [← hu, ← hm] at hruns hfollow
  unfold State.afterPass
  cases hunit : u.eu.unit with
  | assert =>
    have hr := hruns (by simp [hunit]) (by simp [hunit])
    dsimp only
    split
    · exact release_unitFits eln hnone hr
    · exact unitFits_of_runs hr (by simp [unitRuns, passMatchesUnit, hunit, hnone])
  | coast =>
    have hr := hruns (by simp [hunit]) (by simp [hunit])
    dsimp only
    split
    · exact completeLeave_unitFits hnone
    · split
      · exact unitFits_of_runs (by simpa using hr) (restore_unitRuns hnone)
      · exact unitFits_of_runs hr (by simp [unitRuns, passMatchesUnit, hunit, hnone, hl])
  | follow =>
    have hf := hfollow hunit
    dsimp only
    split
    · exact completeLeave_unitFits hnone
    · split
      · exact followBoundary_unitFits hunit hl (hf.imp_right And.left)
      · split
        next hs =>
          have hq : u.mem.leavePending = false := by simpa using ‹¬ u.mem.leavePending = true›
          simp [unitFits, stationMatchesUnit, passMatchesUnit, hs, hq, hunit, hl]
        next hs =>
          have hr : runs u.mem.station = true := (hf.resolve_left fun hc => hs hc.1).1
          exact unitFits_of_runs (by simpa using hr) (byLine_unitRuns hnone)
  | run | waitRise | dormant => simp_all

end Sys2Proof.Machine
end

section
/-! SUPPORT. R9 on the image side: what staging, the commit pass, the boundary, the hearing of a sender and
the completion of LEAVE do to blocks, staging entries and peers. -/

namespace Sys2Proof.Machine

/-- R9 with what the staging table and the peer table keep for it. -/
def imageOwned (s : State) : Prop := ownRecordSelf s ∧ liveBlocksHaveOwner s ∧ stagedFromOwner s

theorem imageOwned_congr {s t : State} (hs : t.straps = s.straps) (hc : t.cfg = s.cfg)
    (hn : t.mem.peers = s.mem.peers) (hb : t.image.blocks = s.image.blocks)
    (hg : t.staging = s.staging) (hp : t.commit.pass = s.commit.pass) (h : imageOwned s) :
    imageOwned t := by
  simpa only [imageOwned, ownRecordSelf, liveBlocksHaveOwner, stagedFromOwner, onBusPeer, State.owner,
    hs, hc, hn, hb, hg, hp] using h

/-! ### Staging and the commit pass -/

/-- A staging entry after a staging stands for an entry before it, or for the dispatch staged (R40, R41). -/
theorem mem_stage {t : List StagingEntry} {b : Block} {n : StationNo} {q : Byte}
    {ws : Vector (Option Word) 16} {e : StagingEntry} (h : e ∈ stage t b n q ws) :
    (∃ e' ∈ t, e.block = e'.block ∧ e.source = e'.source) ∨ (e.block = b ∧ e.source = n) := by
  unfold stage at h
  split at h
  · obtain ⟨e', he', rfl⟩ := List.mem_map.1 h
    exact Or.inl ⟨e', he', by split <;> simp⟩
  · split at h
    · rcases List.mem_append.1 h with h | h
      · exact Or.inl ⟨e, h, rfl, rfl⟩
      · rw [List.mem_singleton.1 h]
        exact Or.inr ⟨rfl, rfl⟩
    · exact Or.inl ⟨e, h, rfl, rfl⟩

/-- The source owns the block, is on the bus and has been heard in the epoch whose pass has not ended; what
`stagedFromOwner` asks of each entry. -/
def mayStage (s : State) (b : Block) (n : StationNo) : Prop :=
  s.owner b = some n ∧ onBusPeer s n
    ∧ (n = s.straps.sid ∨ s.mem.peers[n].heard = true ∨ s.commit.pass.isSome = true)

theorem stagedFromOwner_iff (s : State) :
    stagedFromOwner s ↔ ∀ e ∈ s.staging, mayStage s e.block e.source := Iff.rfl

/-- A dispatch from the block's owner may join the table (R93). -/
theorem stageDispatch_imageOwned {s : State} (h : imageOwned s) {b : Block} {n : StationNo}
    (q : Byte) (sp : Span) (ws : List Word) (hn : mayStage s b n) :
    imageOwned (s.stageDispatch b n q sp ws) := by
  unfold State.stageDispatch
  split
  · refine ⟨h.1, h.2.1, (stagedFromOwner_iff _).2 fun e he => ?_⟩
    rcases mem_stage he with ⟨e', he', hb, hs⟩ | ⟨hb, hs⟩ <;> rw [hb, hs]
    · exact h.2.2 e' he'
    · exact hn
  · exact h

theorem commitHead_imageOwned {s : State} (h : imageOwned s) (epoch : Byte) :
    imageOwned (s.commitHead epoch) := by
  obtain ⟨hself, hlive, hstaged⟩ := h
  unfold State.commitHead
  split
  · exact ⟨hself, hlive, hstaged⟩
  next e rest hs =>
    refine ⟨hself, fun b hb => ?_, fun e' he' => hstaged e' (by simp [hs, he'])⟩
    by_cases hbe : b = e.block
    · obtain ⟨ho, hn, -⟩ := hstaged e (by simp [hs])
      exact ⟨e.source, hbe ▸ ho, hn⟩
    · refine hlive b ?_
      simpa [-Fin.getElem_fin, ImageStore.commit, put_get_ne _ _ hbe] using hb

theorem commitSome_imageOwned {s : State} (h : imageOwned s) (epoch : Byte) (n : Nat) :
    imageOwned (State.commitSome epoch n s) := by
  induction n generalizing s with
  | zero => exact h
  | succ n ih => exact ih (commitHead_imageOwned h epoch)

/-- The pass ends with an empty table, so no staging entry is left to lean on it (R51). -/
theorem finishPass_imageOwned {s : State} (h : imageOwned s) : imageOwned s.finishPass := by
  unfold State.finishPass
  split
  · exact h
  next p hp =>
    obtain ⟨hself, hlive, -⟩ := commitSome_imageOwned h p.epoch s.staging.length
    have hempty := State.commitSome_all p.epoch s.staging.length s le_rfl
    generalize State.commitSome p.epoch s.staging.length s = u at hself hlive hempty
    refine ⟨?_, ?_, ?_⟩
    · simpa [-Fin.getElem_fin, ownRecordSelf] using hself
    · simpa [-Fin.getElem_fin, liveBlocksHaveOwner, onBusPeer, State.owner] using hlive
    · simp [stagedFromOwner, hempty]

/-! ### Peers -/

/-- The sender of an accepted dispatch is PRESENT and heard; every other record stays (R145). -/
theorem hear_imageOwned {s : State} (h : imageOwned s) (n : StationNo) (epoch : Byte) :
    imageOwned (s.hear n epoch) := by
  obtain ⟨hself, hlive, hstaged⟩ := h
  have present (p : Peer) (hn : s.mem.peers[n].state ≠ .self) (hp : p.state = .present)
      (hh : p.heard = true) : imageOwned (s.setPeer n p) := by
    have bus (m : StationNo) (hm : onBusPeer s m) : onBusPeer (s.setPeer n p) m := by
      unfold onBusPeer State.setPeer at *
      by_cases hmn : m = n
      · exact Or.inr (by simp [-Fin.getElem_fin, hmn, hp])
      · simpa [-Fin.getElem_fin, put_get_ne _ _ hmn] using hm
    refine ⟨fun m => ?_, fun b hb => ?_, fun e he => ?_⟩
    · by_cases hmn : m = n
      · have := hself n
        simp [-Fin.getElem_fin, State.setPeer, hmn, hp]
        grind
      · simpa [-Fin.getElem_fin, State.setPeer, put_get_ne _ _ hmn] using hself m
    · obtain ⟨m, ho, hm⟩ := hlive b hb
      exact ⟨m, ho, bus m hm⟩
    · obtain ⟨ho, hm, hr⟩ := hstaged e he
      refine ⟨ho, bus _ hm, ?_⟩
      by_cases hmn : e.source = n
      · exact Or.inr (Or.inl (by simp [-Fin.getElem_fin, State.setPeer, hmn, hh]))
      · simpa [-Fin.getElem_fin, State.setPeer, put_get_ne _ _ hmn] using hr
  unfold State.hear
  dsimp only
  split
  · exact ⟨hself, hlive, hstaged⟩
  next hst => exact present _ (by simp [-Fin.getElem_fin, hst]) hst rfl
  next hst => exact present _ (by simp [-Fin.getElem_fin, hst]) rfl rfl
  next hst => exact present _ (by simp [-Fin.getElem_fin, hst]) rfl rfl

/-- A peer's state after a boundary: SILENT where the count reached the limit, else as it was (R146). -/
theorem State.boundary_peerState (s : State) (n : StationNo) :
    s.boundary.mem.peers[n].state
      = if turnsSilent s n then .silent else s.mem.peers[n].state := by
  obtain ⟨-, -, -, hpeers, -⟩ := s.boundary_startedBoundary
  obtain ⟨hother, hheard, hsilent, hcount⟩ := hpeers n
  by_cases ht : turnsSilent s n
  · rw [if_pos ht, hsilent ht]
  · rw [if_neg ht]
    by_cases hp : s.mem.peers[n].state = .present
    · cases hh : s.mem.peers[n].heard with
      | true => rw [hheard hp hh]
      | false => rw [hcount hp hh ht]
    · rw [hother hp]

/-- A boundary stales the blocks of the peers that it finds silent, and no pass went on whose staged
entries could come from one of them (R9, R42, R147). -/
theorem boundary_imageOwned {s : State} (h : imageOwned s) (hp : s.commit.pass = none) :
    imageOwned s.boundary := by
  obtain ⟨hself, hlive, hstaged⟩ := h
  obtain ⟨-, -, -, -, hblocks, -⟩ := s.boundary_startedBoundary
  have bus (n : StationNo) (hn : onBusPeer s n) (ht : ¬ turnsSilent s n) :
      onBusPeer s.boundary n := by
    unfold onBusPeer at *
    rwa [s.boundary_peerState n, if_neg ht, (s.boundary_frame).1]
  have own : ¬ turnsSilent s s.straps.sid := fun ht => by
    have := (hself s.straps.sid).2 rfl
    rw [ht.1] at this
    cases this
  refine ⟨fun n => ?_, fun b hb => ?_, fun e he => ?_⟩
  · rw [s.boundary_peerState n, (s.boundary_frame).1, ← hself n]
    split
    next ht => simp [-Fin.getElem_fin, ht.1]
    next => rfl
  · obtain ⟨hstaled, hkept⟩ := hblocks b
    by_cases hs : (∃ n, s.owner b = some n ∧ turnsSilent s n)
        ∧ s.image.blocks[b].status.live = true
    · rw [hstaled hs] at hb
      cases hb
    · rw [hkept hs] at hb
      obtain ⟨n, ho, hn⟩ := hlive b hb
      exact ⟨n, by simpa [-Fin.getElem_fin, State.owner] using ho,
        bus n hn fun ht => hs ⟨⟨n, ho, ht⟩, hb⟩⟩
  · rw [show s.boundary.staging = s.staging by simp] at he
    obtain ⟨ho, hn, hr⟩ := hstaged e he
    refine ⟨by simpa [-Fin.getElem_fin, State.owner] using ho, bus _ hn fun ht => ?_, by simp⟩
    rcases hr with hr | hr | hr
    · exact own (hr ▸ ht)
    · rw [ht.2.1] at hr
      cases hr
    · simp [hp] at hr

/-- Off the bus only the owned blocks can still be followed (R11, R143). -/
theorem completeLeave_imageOwned (s : State) : imageOwned s.completeLeave := by
  obtain ⟨-, -, -, -, -, hpeers, hblocks, -, -, -, hstaging, -⟩ := s.completeLeave_leftTheBus
  refine ⟨fun n => ?_, fun b hb => ⟨s.straps.sid, ?_, ?_⟩, ?_⟩
  · rw [hpeers n]
    by_cases hn : n = s.straps.sid <;> simp [hn]
  · have howned : s.owned b = true := by
      rw [hblocks b] at hb
      split at hb
      · cases hb
      next hno => exact of_not_not fun hc => hno ⟨by simpa using hc, hb⟩
    simpa [-Fin.getElem_fin, State.owned, State.owner] using howned
  · exact Or.inl (by simp)
  · simp [stagedFromOwner, hstaging]

end Sys2Proof.Machine
end

section
/-! SUPPORT. R4 on the publish side: which blocks wait in the publish queue or stand in the in-flight slot,
and that they stay blocks of this station. -/

namespace Sys2Proof.Machine

/-- The block waits in the publish queue or its entry is in flight. -/
def publishes (s : State) (b : Block) : Prop :=
  Key.ofBlock b ∈ queueKeys s.pub.queue ∨ s.flightKey = some (.ofBlock b)

theorem duty_block_iff (d : Duty) (b : Block) : d.block = some b ↔ d.key = .ofBlock b := by
  cases d <;> simp [Duty.block, Duty.key]

theorem publishesOwned_iff (s : State) :
    publishesOwned s ↔ ∀ b, publishes s b → s.owned b = true := by
  have hflight : s.flightKey = s.tx.inFlight.map fun a => a.entry.duty.key := rfl
  simp only [publishesOwned, publishes, duty_block_iff, queueKeys, List.mem_map, hflight,
    Option.map_eq_some_iff]
  grind

/-- What t publishes is s's own, or was published by s; so it stays owned. -/
theorem publishesOwned_of {s t : State} (h : publishesOwned s)
    (ho : t.straps = s.straps ∧ t.cfg = s.cfg)
    (hb : ∀ b, publishes t b → s.owned b = true ∨ publishes s b) : publishesOwned t := by
  have howned (b : Block) : t.owned b = s.owned b := by
    simp [-Fin.getElem_fin, State.owned, State.owner, ho]
  rw [publishesOwned_iff] at h ⊢
  intro b hp
  rw [howned b]
  exact (hb b hp).elim id (h b)

theorem publishesOwned_congr {s t : State} (hs : t.straps = s.straps) (hc : t.cfg = s.cfg)
    (hq : t.pub.queue = s.pub.queue) (hf : t.tx.inFlight = s.tx.inFlight) (h : publishesOwned s) :
    publishesOwned t :=
  publishesOwned_of h ⟨hs, hc⟩ fun b hb => Or.inr (by
    simpa only [publishes, State.flightKey, hq, hf] using hb)

/-! ### The attempt under way -/

/-- An attempt that ends returns its entry, so the same blocks are published (R111). -/
theorem publishes_endAttempt (s : State) (b : Block) : publishes s.endAttempt b ↔ publishes s b := by
  unfold State.endAttempt
  split
  · rfl
  next ph a hs =>
    simp [publishes, State.flightKey, TxState.inFlight, hs, giveBack_keys, eq_comm, or_comm]

@[simp] theorem dropOwn_publishes (s : State) (b : Block) : publishes s.dropOwn b ↔ publishes s b := by
  simp [publishes, State.flightKey]

theorem stopVoice_publishes (s : State) (b : Block) : publishes s.stopVoice b ↔ publishes s b := by
  rw [← publishes_endAttempt s b, ← dropOwn_publishes s.endAttempt b]
  rfl

theorem offerLow_publishes (s : State) (b : Block) : publishes s.offerLow b ↔ publishes s b := by
  unfold State.offerLow
  dsimp only
  split
  · exact publishes_endAttempt _ b
  · (repeat' split) <;> rfl

theorem settle_publishes (before : Bool) (s : State) (b : Block) :
    publishes (State.settle before s) b ↔ publishes s b := by
  unfold State.settle
  split
  · exact offerLow_publishes s b
  all_goals rfl

/-! ### The schedules of a boundary -/

theorem stepRefresh_keys {period : Nat} {flight : Option Key} {p : Publish} {b : Block} {k : Key}
    (h : k ∈ queueKeys (stepRefresh period flight p b).queue) :
    k = .ofBlock b ∨ k ∈ queueKeys p.queue := by
  unfold stepRefresh at h
  dsimp only at h
  split at h
  · exact Or.inr h
  · split at h
    · dsimp only at h
      split at h
      · exact Or.inr (by simpa using h)
      · exact Or.inr h
    · split at h
      · simpa [Duty.key] using (insertEntry_keys_perm _ _).mem_iff.1 h
      · exact Or.inr h

theorem foldRefresh_keys {period : Nat} {flight : Option Key} {l : List Block} {p : Publish} {k : Key}
    (h : k ∈ queueKeys (l.foldl (stepRefresh period flight) p).queue) :
    (∃ b ∈ l, k = .ofBlock b) ∨ k ∈ queueKeys p.queue := by
  induction l generalizing p with
  | nil => exact Or.inr h
  | cons b l ih =>
    rcases ih h with ⟨c, hc, hk⟩ | hk
    · exact Or.inl ⟨c, List.mem_cons_of_mem b hc, hk⟩
    · exact (stepRefresh_keys hk).imp_left fun hb => ⟨b, by simp, hb⟩

theorem stepSilence_keys {limit : Nat} {flight : Option Key} {p : Publish} {k : Key}
    (h : k ∈ queueKeys (stepSilence limit flight p).queue) :
    k = .ofRoll ∨ k ∈ queueKeys p.queue := by
  unfold stepSilence at h
  dsimp only at h
  generalize (if p.ownAccepted = true then 0 else min 15 (p.silence + 1)) = n at h
  split at h
  · simpa [Duty.key] using (insertEntry_keys_perm _ _).mem_iff.1 h
  · exact Or.inr h

/-- The schedules queue owned blocks alone, and a ROLL (R103, R105). -/
theorem schedules_publishes {s : State} {b : Block} (h : publishes s.schedules b) :
    s.owned b = true ∨ publishes s b := by
  rcases h with h | h
  · unfold State.schedules at h
    split at h
    · rcases stepSilence_keys h with hk | hk
      · cases hk
      · split at hk
        · exact Or.inr (Or.inl hk)
        · rcases foldRefresh_keys hk with ⟨c, hc, hk⟩ | hk
          · cases hk
            exact Or.inl (List.mem_filter.1 hc).2
          · exact Or.inr (Or.inl hk)
    · exact Or.inr (Or.inl h)
  · exact Or.inr (Or.inr (by simpa [State.flightKey] using h))

theorem boundary_publishes {s : State} {b : Block} (h : publishes s.boundary b) :
    s.owned b = true ∨ publishes s b := by
  unfold State.boundary at h
  dsimp only at h
  generalize hu : State.startPass { s with eu := { s.eu with epoch := s.eu.epoch + 1, counter := 0 } }
    = u at h
  have howned : u.countSilence.owned b = s.owned b := by
    simp [-Fin.getElem_fin, State.owned, State.owner, ← hu]
  have hpub : publishes u.countSilence b ↔ publishes s b := by
    simp [publishes, State.flightKey, ← hu]
  rw [← howned, ← hpub]
  refine schedules_publishes ?_
  simpa [publishes, State.flightKey] using h

end Sys2Proof.Machine
end

section
/-! SUPPORT. R9 and R4 together: every operation of the station keeps the image and the publish queue with
their owners. A boundary does so where no pass runs, which is where the station takes one. -/

namespace Sys2Proof.Machine

/-- The image side and the publish side of `imageFollowsOwners`. -/
def ownersKept (s : State) : Prop := imageOwned s ∧ publishesOwned s

theorem imageFollowsOwners_iff (s : State) : imageFollowsOwners s ↔ ownersKept s ∧ unitFits s := by
  unfold imageFollowsOwners ownersKept imageOwned unitFits
  tauto

/-! ### The boundary, the pass and the low condition -/

theorem boundary_ownersKept {s : State} (h : ownersKept s) (hp : s.commit.pass = none) :
    ownersKept s.boundary :=
  ⟨boundary_imageOwned h.1 hp, publishesOwned_of h.2 (by simp) fun _ => boundary_publishes⟩

theorem commitSome_ownersKept {s : State} (h : ownersKept s) (epoch : Byte) (n : Nat) :
    ownersKept (State.commitSome epoch n s) :=
  ⟨commitSome_imageOwned h.1 epoch n,
    publishesOwned_congr (by simp) (by simp) (by simp) (by simp) h.2⟩

theorem finishPass_ownersKept {s : State} (h : ownersKept s) : ownersKept s.finishPass :=
  ⟨finishPass_imageOwned h.1, publishesOwned_congr (by simp) (by simp) (by simp) (by simp) h.2⟩

theorem settle_ownersKept {s : State} (before : Bool) (h : ownersKept s) :
    ownersKept (State.settle before s) :=
  ⟨imageOwned_congr (by simp) (by simp) (by simp) (by simp) (by simp) (by simp) h.1,
    publishesOwned_of h.2 (by simp) fun b hb => Or.inr ((settle_publishes before s b).1 hb)⟩

/-! ### Moves of the Epoch Unit -/

theorem expireRun_ownersKept {s : State} (h : ownersKept s) (hp : s.commit.pass = none) :
    ownersKept s.expireRun := boundary_ownersKept h hp

theorem joinFall_ownersKept {s : State} (h : ownersKept s) (hp : s.commit.pass = none) :
    ownersKept s.joinFall := boundary_ownersKept h hp

theorem expireCoast_ownersKept {s : State} (h : ownersKept s) (hp : s.commit.pass = none) :
    ownersKept s.expireCoast := boundary_ownersKept h hp

theorem enterRun_ownersKept {s : State} (h : ownersKept s) (hp : s.commit.pass = none) :
    ownersKept s.enterRun := by
  unfold State.enterRun
  dsimp only
  split
  · exact expireRun_ownersKept h hp
  · exact h

theorem enterCoast_ownersKept {s : State} (h : ownersKept s) (cause : Nat) :
    ownersKept (s.enterCoast cause) := by
  unfold State.enterCoast
  dsimp only
  split
  next hc => exact expireCoast_ownersKept h hc.2
  next => exact h

theorem byLine_ownersKept {s : State} (h : ownersKept s) (hp : s.commit.pass = none) :
    ownersKept s.byLine := by
  unfold State.byLine
  split
  · exact enterRun_ownersKept h hp
  · exact h

theorem restore_ownersKept {s : State} (h : ownersKept s) (hp : s.commit.pass = none) :
    ownersKept s.restore := enterRun_ownersKept h hp

/-! ### Moves of the station -/

/-- After the completion of LEAVE nothing is staged and nothing published (R117, R143). -/
theorem completeLeave_ownersKept (s : State) : ownersKept s.completeLeave := by
  refine ⟨completeLeave_imageOwned s, (publishesOwned_iff _).2 fun b hb => ?_⟩
  obtain ⟨-, -, -, -, -, -, -, -, -, -, -, hqueue, -, -, -, htx, -⟩ := s.completeLeave_leftTheBus
  simp [publishes, State.flightKey, TxState.inFlight, queueKeys, hqueue, htx] at hb

theorem leaveNow_ownersKept (s : State) : ownersKept s.leaveNow := completeLeave_ownersKept _

theorem release_ownersKept {s : State} (eln : Level) (h : ownersKept s) (hp : s.commit.pass = none) :
    ownersKept (s.release eln) := by
  unfold State.release
  dsimp only
  split
  · exact completeLeave_ownersKept _
  · exact byLine_ownersKept h hp

/-- The ROLL that is queued at the entry to JOINING names no block (R106). -/
theorem enterJoining_ownersKept {s : State} (h : ownersKept s) : ownersKept s.enterJoining := by
  have hk : ownersKept { s with
      pub := if (findKey s.pub.queue .ofRoll).isNone then s.pub.add .roll else s.pub } := by
    refine ⟨h.1, publishesOwned_of h.2 ⟨rfl, rfl⟩ fun b hb => Or.inr (hb.imp_left fun hb => ?_)⟩
    dsimp only at hb
    split at hb
    · simpa [Duty.key] using (insertEntry_keys_perm _ _).mem_iff.1 hb
    · exact hb
  unfold State.enterJoining
  dsimp only
  split
  next hp => exact byLine_ownersKept hk hp
  next => exact hk

theorem countListening_ownersKept {s : State} (isBoundary : Bool) (h : ownersKept s) :
    ownersKept (s.countListening isBoundary) := by
  rcases s.countListening_cases isBoundary with hsame | ⟨-, l, j, hcount | hjoin⟩
  · rwa [hsame]
  · rw [hcount]
    exact h
  · rw [hjoin]
    exact enterJoining_ownersKept h

theorem followBoundary_ownersKept {s : State} (h : ownersKept s) (hp : s.commit.pass = none) :
    ownersKept s.followBoundary := countListening_ownersKept true (boundary_ownersKept h hp)

theorem stopVoice_ownersKept {s : State} (h : ownersKept s) : ownersKept s.stopVoice :=
  ⟨imageOwned_congr (by simp) (by simp) (by simp) (by simp) (by simp) (by simp) h.1,
    publishesOwned_of h.2 (by simp) fun b hb => Or.inr ((stopVoice_publishes s b).1 hb)⟩

theorem enterMute_ownersKept {s : State} (h : ownersKept s) : ownersKept s.enterMute :=
  stopVoice_ownersKept (s := s.post .muteEntered) h

theorem fallBack_ownersKept {s : State} (h : ownersKept s) : ownersKept s.fallBack := by
  unfold State.fallBack
  dsimp only
  split
  · exact leaveNow_ownersKept _
  · have hk := stopVoice_ownersKept (s := s.post .joinFailed) h
    generalize (s.post .joinFailed).stopVoice = u at hk
    refine ⟨hk.1, publishesOwned_of hk.2 ⟨rfl, rfl⟩ fun b hb => Or.inr (hb.imp_left fun hb => ?_)⟩
    exact (List.filter_sublist.map _).subset hb

/-- A failed attempt's entry returns or is dropped (R112). -/
theorem failAttempt_ownersKept {s : State} (h : ownersKept s) : ownersKept s.failAttempt := by
  unfold State.failAttempt
  split
  · exact h
  next ph a hs =>
    dsimp only
    have dropped : ownersKept { s with tx := .standby } :=
      ⟨h.1, publishesOwned_of h.2 ⟨rfl, rfl⟩ fun b hb => Or.inr (hb.imp_right nofun)⟩
    split
    · refine ⟨h.1, publishesOwned_of h.2 ⟨rfl, rfl⟩ fun b hb => Or.inr ?_⟩
      simpa [publishes, State.flightKey, TxState.inFlight, hs, giveBack_keys, eq_comm, or_comm]
        using hb
    · split
      · exact fallBack_ownersKept dropped
      · exact dropped

/-- As a pass has ended none runs, so the unit may take a boundary at once. -/
theorem afterPass_ownersKept {s : State} (eln : Level) (h : ownersKept s)
    (hp : s.commit.pass = none) : ownersKept (s.afterPass eln) := by
  unfold State.afterPass
  cases s.eu.unit with
  | assert =>
    dsimp only
    split
    · exact release_ownersKept eln h hp
    · exact h
  | coast =>
    dsimp only
    split
    · exact completeLeave_ownersKept s
    · split
      · exact restore_ownersKept h hp
      · exact h
  | follow =>
    dsimp only
    split
    · exact completeLeave_ownersKept s
    · split
      · exact followBoundary_ownersKept h hp
      · split
        · exact h
        · exact byLine_ownersKept h hp
  | run | waitRise =>
    dsimp only
    split
    · exact completeLeave_ownersKept s
    · exact h
  | dormant => exact h

/-! ### Acceptances -/

theorem hear_ownersKept {s : State} (h : ownersKept s) (n : StationNo) (epoch : Byte) :
    ownersKept (s.hear n epoch) :=
  ⟨hear_imageOwned h.1 n epoch, publishesOwned_congr (by simp) (by simp) (by simp) (by simp) h.2⟩

theorem stageDispatch_ownersKept {s : State} (h : ownersKept s) {b : Block} {n : StationNo}
    (q : Byte) (sp : Span) (ws : List Word) (hn : mayStage s b n) :
    ownersKept (s.stageDispatch b n q sp ws) :=
  ⟨stageDispatch_imageOwned h.1 q sp ws hn,
    publishesOwned_congr (by simp) (by simp) (by simp) (by simp) h.2⟩

theorem noteAcceptance_ownersKept {s : State} (h : ownersKept s) : ownersKept s.noteAcceptance := by
  unfold State.noteAcceptance State.resetObjections
  (repeat' split)
  all_goals exact h

/-- The peer is on the bus and has been heard. -/
def peerHeard (s : State) (n : StationNo) : Prop :=
  s.mem.peers[n].state = .present ∧ s.mem.peers[n].heard = true

theorem handOn_ownersKept {s : State} (h : ownersKept s) {d : Incoming} (hd : peerHeard s d.sender) :
    ownersKept (s.handOn d) := by
  unfold State.handOn
  split
  · exact h
  · split
    next ho =>
      split
      · exact stageDispatch_ownersKept h _ _ _ ⟨ho, Or.inr hd.1, Or.inr (Or.inl hd.2)⟩
      · exact h
    next => split <;> exact h

theorem compareEpoch_ownersKept {s : State} (h : ownersKept s) {d : Incoming}
    (hd : peerHeard s d.sender) : ownersKept (s.compareEpoch d) := by
  unfold State.compareEpoch
  dsimp only
  split
  · refine handOn_ownersKept ?_ ?_
    · exact h
    · exact hd
  · split
    · exact handOn_ownersKept h hd
    · split <;> exact h

/-- The sender has been heard before its dispatch is handed on (R91 to R94, R145). -/
theorem acceptReceived_ownersKept {s : State} (h : ownersKept s) (d : Incoming) :
    ownersKept (s.acceptReceived d) := by
  unfold State.acceptReceived
  dsimp only
  have hk : ownersKept (State.noteAcceptance { s with
      rx := { s.rx with st := .waitIdle }
      counters := { s.counters with accepted := bump s.counters.accepted } }) :=
    noteAcceptance_ownersKept h
  generalize State.noteAcceptance _ = u at hk
  split
  · exact hk
  next hd =>
    have hself : u.mem.peers[d.sender].state ≠ .self := fun hs => hd ((hk.1.1 d.sender).1 hs)
    obtain ⟨-, hrecord, -⟩ := State.hear_senderHeard d hself
    exact compareEpoch_ownersKept (hear_ownersKept hk d.sender d.epoch)
      (by simp [-Fin.getElem_fin, peerHeard, hrecord])

theorem ownBlock_ownersKept {s : State} (h : ownersKept s) (a : Attempt) {b : Block}
    (hb : s.owned b = true) : ownersKept (s.ownBlock a b) := by
  have hstage := stageDispatch_ownersKept h a.seq a.entry.duty.span a.words
    ⟨by simpa [-Fin.getElem_fin, State.owned] using hb, Or.inl rfl, Or.inl rfl⟩
  unfold State.ownBlock
  dsimp only
  generalize s.stageDispatch b s.straps.sid a.seq a.entry.duty.span a.words = u at hstage
  (repeat' split)
  all_goals exact hstage

theorem acceptOwn_ownersKept {s : State} (h : ownersKept s) {ph : TxPhase} {a : Attempt}
    (ha : s.tx = .active ph a) : ownersKept (s.acceptOwn a) := by
  have hk : ownersKept (State.resetObjections { s with
      tx := .standby
      rx := { s.rx with st := .waitIdle }
      pub := { s.pub with ownAccepted := true }
      counters := { s.counters with accepted := bump s.counters.accepted } }) := by
    have hdrop : ownersKept { s with tx := .standby } :=
      ⟨h.1, publishesOwned_of h.2 ⟨rfl, rfl⟩ fun b hb => Or.inr (hb.imp_right nofun)⟩
    unfold State.resetObjections
    split <;> exact hdrop
  unfold State.acceptOwn
  dsimp only
  split
  next b hb =>
    refine ownBlock_ownersKept hk a ?_
    have := h.2.2 a (by rw [ha]; rfl) b hb
    simpa [-Fin.getElem_fin, State.owned, State.owner] using this
  next =>
    split <;> exact hk

end Sys2Proof.Machine
end

section
/-! SUPPORT. Every command keeps R9, R4 and the correspondence of station and Epoch Unit, one lemma for each
command that can move them. -/

namespace Sys2Proof.Machine

/-- `imageFollowsOwners` as the conjunction in which the commands keep it. -/
def ownersFit (s : State) : Prop := ownersKept s ∧ unitFits s

theorem imageFollowsOwners_iff_ownersFit (s : State) : imageFollowsOwners s ↔ ownersFit s :=
  imageFollowsOwners_iff s

/-- A command that leaves the ownership side alone keeps it in order. -/
theorem ownersFit_of_keeps {s t : State} (hk : keepsOwnership s t) (h : ownersFit s) :
    ownersFit t := by
  obtain ⟨⟨hs, hc, hi, hg⟩, ⟨hcommit, hm, hunit, hleave⟩, hq, hf⟩ := hk
  obtain ⟨⟨himage, hpub⟩, hu⟩ := h
  exact ⟨⟨imageOwned_congr hs hc (by rw [hm]) (by rw [hi]) hg (by rw [hcommit]) himage,
    publishesOwned_congr hs hc (by rw [hq]) hf hpub⟩,
    unitFits_congr hunit hleave (by rw [hcommit]) (by rw [hm]) (by rw [hm]) hu⟩

theorem settle_ownersFit {s : State} (before : Bool) (h : ownersFit s) :
    ownersFit (State.settle before s) := ⟨settle_ownersKept before h.1, settle_unitFits before h.2⟩

theorem failAttempt_ownersFit {s : State} (h : ownersFit s) : ownersFit s.failAttempt :=
  ⟨failAttempt_ownersKept h.1, failAttempt_unitFits h.2⟩

theorem fallBack_ownersFit {s : State} (h : ownersFit s) : ownersFit s.fallBack :=
  ⟨fallBack_ownersKept h.1, fallBack_unitFits h.2⟩

/-! ### Resets -/

/-- Off the bus with nothing in the image, the table, the queue and the slot. -/
theorem ownersFit_fresh {t : State} (hpeers : t.mem.peers = Membership.peersAway t.straps.sid)
    (himage : t.image = ImageStore.reset) (hstaging : t.staging = []) (hpass : t.commit.pass = none)
    (hqueue : t.pub.queue = []) (htx : t.tx = .standby)
    (hunit : t.eu.unit = .dormant ∧ t.eu.leaveOut = false)
    (hstation : t.mem.station = .unconfigured ∨ t.mem.station = .idle)
    (hleave : t.mem.leavePending = false) : ownersFit t := by
  refine ⟨⟨⟨fun n => ?_, fun b hb => ?_, ?_⟩, (publishesOwned_iff t).2 fun b hb => ?_⟩, ?_⟩
  · rw [hpeers, Membership.peersAway, ofFn_get, Peer.away]
    by_cases hn : n = t.straps.sid <;> simp [hn]
  · simp [himage, ImageStore.reset, BlockStatus.live] at hb
  · simp [stagedFromOwner, hstaging]
  · simp [publishes, queueKeys, State.flightKey, TxState.inFlight, hqueue, htx] at hb
  · rcases hstation with hs | hs <;>
      simp [unitFits, stationMatchesUnit, passMatchesUnit, hs, hunit, hleave, hpass]

theorem execHardwareReset_ownersFit {sid : StationNo} {rate : BitVec 2} {lrx eln : Level}
    {csLow : Bool} {s t : State} (he : execHardwareReset sid rate lrx eln csLow s = .next t) :
    ownersFit t := by
  cases he
  exact ownersFit_fresh rfl rfl rfl rfl rfl rfl ⟨rfl, rfl⟩ (Or.inl rfl) rfl

theorem configure_ownersFit (s : State) (c : Settings) : ownersFit (s.configure c) :=
  ownersFit_fresh rfl rfl rfl rfl rfl rfl ⟨rfl, rfl⟩ (Or.inr rfl) rfl

/-! ### Writes of the local port -/

/-- A write keeps what its effect and the end of a transaction keep (R166, R168). -/
theorem writeAct_keeps {P : State → Prop} (hend : ∀ u r, P u → P (u.endTransaction r)) {s : State}
    (h : P s) {complete : Bool} {r : Result} {act : State → State} (ha : r = .ok → P (act s)) :
    P (s.writeAct complete r act) := by
  rw [writeAct_cases]
  split
  · exact hend s _ h
  · split
    · exact hend s _ h
    · split
      next hr => exact hend _ _ (ha hr)
      next => exact hend s _ h

theorem writeAct_ownersFit {s : State} (h : ownersFit s) {complete : Bool} {r : Result}
    {act : State → State} (ha : r = .ok → ownersFit (act s)) :
    ownersFit (s.writeAct complete r act) :=
  writeAct_keeps (fun u r hu => ownersFit_of_keeps (endTransaction_keepsOwnership u r) hu) h ha

theorem orElse_eq_ok {r next : Result} : r.orElse next = .ok ↔ r = .ok ∧ next = .ok := by
  unfold Result.orElse
  split <;> simp_all

theorem ownerCheck_eq_ok {s : State} {b : Block} : s.ownerCheck b = .ok ↔ s.owned b = true := by
  simp [State.ownerCheck]

theorem execWriteDraft_ownersFit {block first count : Byte} {data : List Byte} {s t : State}
    (h : ownersFit s) (he : execWriteDraft block first count data s = .next t) : ownersFit t := by
  unfold execWriteDraft at he
  dsimp only at he
  split at he <;> cases he
  · exact writeAct_ownersFit h fun _ => h
  · exact writeAct_ownersFit h fun _ => h

/-- A PUBLISH widens an entry of its block or adds one, and its block is owned (R4, R101). -/
theorem publish_ownersFit {s : State} (h : ownersFit s) {b : Block} (sp : Span)
    (hb : s.owned b = true) : ownersFit (s.publish b sp) := by
  unfold State.publish
  split
  · refine ⟨⟨h.1.1, publishesOwned_of h.1.2 ⟨rfl, rfl⟩ fun c hc => Or.inr ?_⟩, h.2⟩
    exact hc.imp_left fun hc => by simpa using hc
  · refine ⟨⟨h.1.1, publishesOwned_of h.1.2 ⟨rfl, rfl⟩ fun c hc => ?_⟩, h.2⟩
    rcases hc with hc | hc
    · rcases List.mem_cons.1 ((insertEntry_keys_perm _ _).mem_iff.1 hc) with hk | hk
      · cases hk
        exact Or.inl hb
      · exact Or.inr (Or.inl hk)
    · exact Or.inr (Or.inr hc)

theorem execPublish_ownersFit {block first count : Byte} {s t : State} (h : ownersFit s)
    (he : execPublish block first count s = .next t) : ownersFit t := by
  unfold execPublish at he
  dsimp only at he
  split at he <;> cases he
  · exact writeAct_ownersFit h fun _ => h
  · exact writeAct_ownersFit h fun hr =>
      publish_ownersFit h _ (ownerCheck_eq_ok.1 (orElse_eq_ok.1 (orElse_eq_ok.1 hr).1).2)

theorem execConfigure_ownersFit {args : List Byte} {s t : State} (h : ownersFit s)
    (he : execConfigure args s = .next t) : ownersFit t := by
  unfold execConfigure at he
  dsimp only at he
  split at he <;> cases he
  · exact writeAct_ownersFit h fun _ => h
  · exact writeAct_ownersFit h fun _ => configure_ownersFit s _

/-- START takes the station from IDLE, where the unit is DORMANT, to LISTEN and FOLLOW (R23, R135). -/
theorem start_ownersFit {s : State} (h : ownersFit s) (hs : s.mem.station = .idle) :
    ownersFit s.start := by
  have hmatch := h.2.1
  rw [stationMatchesUnit, hs] at hmatch
  obtain ⟨hdormant, hleave⟩ := hmatch
  have hout := unitFits_noLeaveOut h.2 (Or.inl (by simp [hdormant]))
  unfold State.start
  dsimp only
  refine settle_ownersFit _ ⟨?_, ?_⟩
  · split <;> exact h.1
  · split <;> simp [unitFits, stationMatchesUnit, passMatchesUnit, hleave, hout]

theorem execStart_ownersFit {s t : State} (h : ownersFit s) (he : execStart s = .next t) :
    ownersFit t := by
  cases he
  refine writeAct_ownersFit h fun hr => start_ownersFit h ?_
  simpa [State.startCheck] using hr

theorem leave_ownersFit {s : State} (h : ownersFit s) (hb : s.mem.station.onBus = true) :
    ownersFit s.leave := by
  unfold State.leave
  split
  · exact settle_ownersFit _ ⟨leaveNow_ownersKept s, leaveNow_unitFits s⟩
  next hl =>
    have hr : runs s.mem.station = true := by
      cases hs : s.mem.station <;> simp_all [runs, StationState.onBus]
    have hu := unitRuns_of_fits h.2 hr
    exact ⟨h.1, unitFits_of_runs hr hu⟩

theorem execLeave_ownersFit {s t : State} (h : ownersFit s) (he : execLeave s = .next t) :
    ownersFit t := by
  cases he
  refine writeAct_ownersFit h fun hr => leave_ownersFit h ?_
  simpa [State.leaveCheck] using hr

/-! ### Breaks and the answer slot -/

theorem countObjection_ownersFit {s : State} (h : ownersFit s) (metLow : Bool) :
    ownersFit (s.countObjection metLow) := by
  unfold State.countObjection
  dsimp only
  split
  · exact h
  next hobjects =>
    split
    · exact h
    · split
      · exact settle_ownersFit _ (fallBack_ownersFit h)
      next hj =>
        have hm : runs s.mem.station = true := by
          cases hs : s.mem.station <;> simp_all [runs, StationState.objects]
        refine ⟨enterMute_ownersKept h.1, unitFits_of_runs rfl ?_⟩
        simpa [unitRuns, passMatchesUnit] using unitRuns_of_fits h.2 hm

theorem execBreakDriven_ownersFit {s t : State} (h : ownersFit s) (he : execBreakDriven s = .next t) :
    ownersFit t := by
  cases he
  dsimp only
  split
  · refine countObjection_ownersFit ?_ _
    exact h
  · exact h

/-- A break that is seen discards the dispatch followed and fails an attempt in SENDING (R67, R87). -/
theorem execBreakSeen_ownersFit {s t : State} (h : ownersFit s) (he : execBreakSeen s = .next t) :
    ownersFit t := by
  cases he
  dsimp only
  split
  · exact h
  · have hk := ownersFit_of_keeps (keepsOwnership_trans (countBreak_keepsOwnership _)
      (breakInDispatch_keepsOwnership _)) (show ownersFit { s with line := { s.line with
        st := .inBreak, lrx := .dominant, peers := s.peersAtFall, idle := false, idleCount := 0
        run := breakBits, runSeen := true, charTime := none, samples := [], request := false } } from h)
    split
    · exact settle_ownersFit _ (failAttempt_ownersFit hk)
    · exact hk

theorem execSlotBroken_ownersFit {s t : State} (h : ownersFit s) (he : execSlotBroken s = .next t) :
    ownersFit t := by
  cases he
  dsimp only
  split
  · exact h
  · have hk := ownersFit_of_keeps (countBreak_keepsOwnership _) (show ownersFit { s with line :=
      { s.line with
        slot := none, st := .awaitRecessive, lrx := .dominant, peers := s.peersAtFall, idle := false
        idleCount := 0, run := if s.line.lrx = Level.dominant then s.line.run else 0, runSeen := true
        charTime := none, samples := [], request := false } } from h)
    generalize State.countBreak _ = u at hk
    split
    · exact settle_ownersFit _ (failAttempt_ownersFit (by split <;> exact hk))
    · split <;> exact hk

theorem acceptOwn_unitFits {s : State} (h : unitFits s) (a : Attempt) : unitFits (s.acceptOwn a) := by
  unfold State.acceptOwn
  dsimp only
  split
  · exact unitFits_congr (by simp) (by simp) (by simp) (by simp) (by simp) h
  · split
    next hj =>
      have hr : runs s.mem.station = true := by simp_all [runs]
      refine unitFits_of_runs rfl ?_
      simpa [unitRuns, passMatchesUnit] using unitRuns_of_fits h hr
    next => exact unitFits_congr (by simp) (by simp) (by simp) (by simp) (by simp) h

theorem noteAcceptance_unitFits {s : State} (h : unitFits s) : unitFits s.noteAcceptance := by
  unfold State.noteAcceptance
  split
  next hm =>
    split
    · refine unitFits_of_runs rfl ?_
      simpa [unitRuns, passMatchesUnit] using unitRuns_of_fits h (by simp [hm, runs])
    · exact h
  next => exact unitFits_congr (by simp) (by simp) (by simp) (by simp) (by simp) h

theorem hear_unitFits {s : State} (h : unitFits s) (n : StationNo) (epoch : Byte) :
    unitFits (s.hear n epoch) := by
  unfold State.hear
  dsimp only
  split <;> exact h

theorem compareEpoch_unitFits {s : State} (h : unitFits s) (d : Incoming) :
    unitFits (s.compareEpoch d) := by
  have handed {u : State} (hu : unitFits u) : unitFits (u.handOn d) :=
    unitFits_congr (by simp) (by simp) (by simp) (by simp) (by simp) hu
  unfold State.compareEpoch
  dsimp only
  split
  · refine handed ?_
    exact h
  · split
    · exact handed h
    · split <;> exact h

theorem acceptReceived_unitFits {s : State} (h : unitFits s) (d : Incoming) :
    unitFits (s.acceptReceived d) := by
  unfold State.acceptReceived
  dsimp only
  have hn : unitFits (State.noteAcceptance { s with
      rx := { s.rx with st := .waitIdle }
      counters := { s.counters with accepted := bump s.counters.accepted } }) :=
    noteAcceptance_unitFits h
  split
  · exact hn
  · exact compareEpoch_unitFits (hear_unitFits hn _ _) d

theorem execSlotClean_ownersFit {s t : State} (h : ownersFit s) (he : execSlotClean s = .next t) :
    ownersFit t := by
  cases he
  dsimp only
  split
  · exact h
  · have hclosed : ownersFit { s with line := { s.line.toHunt with slot := none } } := h
    split
    next a ha =>
      split
      · exact h
      · exact ⟨acceptOwn_ownersKept hclosed.1 ha, acceptOwn_unitFits hclosed.2 a⟩
    next =>
      split
      next d _ =>
        split
        · exact h
        · exact ⟨acceptReceived_ownersKept hclosed.1 d, acceptReceived_unitFits hclosed.2 d⟩
      next => exact h

/-! ### The own attempt -/

@[simp] theorem attemptFor_entry (s : State) (e : Entry) : (s.attemptFor e).entry = e := by
  unfold State.attemptFor
  split <;> rfl

/-- A claim takes a queued entry into the slot (R107). -/
theorem execClaim_ownersFit {s t : State} (h : ownersFit s) (he : execClaim s = .next t) :
    ownersFit t := by
  unfold execClaim at he
  split at he
  next e hn =>
    cases he
    split
    · refine ⟨⟨h.1.1, publishesOwned_of h.1.2 ⟨rfl, rfl⟩ fun b hb => Or.inr (Or.inl ?_)⟩, h.2⟩
      rcases hb with hb | hb
      · exact (List.erase_sublist.map _).subset hb
      · have hkey : e.duty.key = .ofBlock b := by
          simpa [State.flightKey, TxState.inFlight] using hb
        exact hkey ▸ List.mem_map_of_mem (List.mem_of_find?_eq_some hn)
    · exact h
  next => cases he; exact h

theorem endAttempt_ownersFit {s : State} (h : ownersFit s) : ownersFit s.endAttempt :=
  ⟨⟨imageOwned_congr (by simp) (by simp) (by simp) (by simp) (by simp) (by simp) h.1.1,
    publishesOwned_of h.1.2 (by simp) fun b hb => Or.inr ((publishes_endAttempt s b).1 hb)⟩,
    unitFits_congr (by simp) (by simp) (by simp) (by simp) (by simp) h.2⟩

theorem execArbitrationLoss_ownersFit {s t : State} (h : ownersFit s)
    (he : execArbitrationLoss s = .next t) : ownersFit t := by
  unfold execArbitrationLoss at he
  split at he <;> cases he
  · exact ownersFit_of_keeps (ownWasLost_keepsOwnership _)
      (show ownersFit { s.endAttempt with line := s.line.readBack .dominant } from
        endAttempt_ownersFit h)
  · exact h

theorem faultAt_ownersFit {s : State} (h : ownersFit s) (level : Level) :
    ownersFit (s.faultAt level) :=
  settle_ownersFit _ (failAttempt_ownersFit
    (show ownersFit { s.giveUp with line := s.line.readBack level } from
      ownersFit_of_keeps (giveUp_keepsOwnership s) h))

theorem execBitFault_ownersFit {s t : State} (h : ownersFit s) (he : execBitFault s = .next t) :
    ownersFit t := by
  unfold execBitFault at he
  split at he <;> cases he
  · exact faultAt_ownersFit h _
  · exact faultAt_ownersFit h _
  · exact h

/-! ### The epoch line -/

theorem execLowConditionStart_ownersFit {s t : State} (h : ownersFit s)
    (he : execLowConditionStart s = .next t) : ownersFit t := by
  cases he
  split
  · exact h
  · exact settle_ownersFit _ h

/-- A move of the Epoch Unit in a running state: the unit and the pass it leaves are what counts. -/
theorem ownersFit_of_runs {s t : State} (hr : runs s.mem.station = true)
    (hs : t.mem.station = s.mem.station) (ho : ownersKept t) (hu : unitRuns t) : ownersFit t :=
  ⟨ho, unitFits_of_runs (hs ▸ hr) hu⟩

theorem execEpochExpiry_ownersFit {s t : State} (h : ownersFit s) (he : execEpochExpiry s = .next t) :
    ownersFit t := by
  obtain ⟨ho, hu⟩ := h
  cases he
  refine settle_ownersFit _ ?_
  cases hunit : s.eu.unit with
  | follow =>
    exact ⟨countListening_ownersKept false ho, countListening_unitFits false hu⟩
  | run =>
    have hr := unitFits_runs hu (by simp [hunit]) (by simp [hunit])
    have hp := unitFits_noPass hu (by simp [hunit])
    exact ownersFit_of_runs hr (by simp) (expireRun_ownersKept ho hp) (expireRun_unitRuns s)
  | coast =>
    have hr := unitFits_runs hu (by simp [hunit]) (by simp [hunit])
    have hl := unitFits_noLeaveOut hu (by simp [hunit])
    dsimp only
    split
    next hp =>
      exact ownersFit_of_runs hr (by simp) (expireCoast_ownersKept ho hp)
        (expireCoast_unitRuns hunit hl)
    next => exact ⟨ho, hu⟩
  | dormant | assert | waitRise => exact ⟨ho, hu⟩

/-- A fall is a boundary in FOLLOW, in RUN and at the restoration in COAST; elsewhere it is recorded. -/
theorem execElnFall_ownersFit {s t : State} (h : ownersFit s) (he : execElnFall s = .next t) :
    ownersFit t := by
  have hfallen : ownersFit { s with eu := { s.eu with eln := .dominant } } := h
  obtain ⟨ho, hu⟩ := hfallen
  cases he
  refine settle_ownersFit _ ?_
  dsimp only
  split
  next hunit => exact h
  next hunit =>
    have hl := unitFits_noLeaveOut hu (by simp [hunit])
    split
    next hp =>
      exact ⟨followBoundary_ownersKept ho hp, followBoundary_unitFits hunit hl
        ((unitFits_follow hu hunit).imp_right And.left)⟩
    next => exact h
  next hunit =>
    have hr := unitFits_runs hu (by simp [hunit]) (by simp [hunit])
    have hp := unitFits_noPass hu (by simp [hunit])
    exact ownersFit_of_runs hr (by simp) (joinFall_ownersKept ho hp) (joinFall_unitRuns _)
  next hunit => exact h
  next hunit => exact h
  next hunit =>
    have hr := unitFits_runs hu (by simp [hunit]) (by simp [hunit])
    split
    next hc =>
      exact ownersFit_of_runs hr (by simp) (joinFall_ownersKept ho hc.2) (joinFall_unitRuns _)
    next => exact h

theorem execElnRise_ownersFit {s t : State} (h : ownersFit s) (he : execElnRise s = .next t) :
    ownersFit t := by
  obtain ⟨ho, hu⟩ := h
  cases he
  refine settle_ownersFit _ ?_
  dsimp only
  split
  next hunit =>
    have hr := unitFits_runs hu (by simp [hunit]) (by simp [hunit])
    have hp := unitFits_noPass hu (by simp [hunit])
    exact ownersFit_of_runs hr (by simp) (enterRun_ownersKept ho hp) (enterRun_unitRuns hp)
  next => exact ⟨ho, hu⟩

/-- A failed not-drivable test goes to COAST, or completes the LEAVE whose pass has ended (R30). -/
theorem execNotDrivable_ownersFit {s t : State} (h : ownersFit s) (he : execNotDrivable s = .next t) :
    ownersFit t := by
  obtain ⟨ho, hu⟩ := h
  cases he
  split
  next hc =>
    refine settle_ownersFit _ ?_
    split
    next hl => exact ⟨completeLeave_ownersKept _, completeLeave_unitFits (unitFits_leaveOut hu hl).2⟩
    next =>
      have hr := unitFits_runs hu (by simp [hc.1]) (by simp [hc.1])
      exact ownersFit_of_runs hr (by simp) (enterCoast_ownersKept ho 2) (enterCoast_unitRuns s 2)
  next => exact ⟨ho, hu⟩

theorem execHoldRunOut_ownersFit {eln : Level} {s t : State} (h : ownersFit s)
    (he : execHoldRunOut eln s = .next t) : ownersFit t := by
  obtain ⟨ho, hu⟩ := h
  cases he
  split
  next hc =>
    split
    next hp =>
      have hr := unitFits_runs hu (by simp [hc.1]) (by simp [hc.1])
      exact settle_ownersFit _ ⟨release_ownersKept eln ho hp, release_unitFits eln hp hr⟩
    next => exact ⟨ho, hu⟩
  next => exact ⟨ho, hu⟩

theorem execLineLowLimit_ownersFit {s t : State} (h : ownersFit s)
    (he : execLineLowLimit s = .next t) : ownersFit t := by
  obtain ⟨ho, hu⟩ := h
  cases he
  split
  next hunit =>
    have hr := unitFits_runs hu (by simp [hunit]) (by simp [hunit])
    exact settle_ownersFit _
      (ownersFit_of_runs hr (by simp) (enterCoast_ownersKept ho 1) (enterCoast_unitRuns s 1))
  next => exact ⟨ho, hu⟩

theorem execLineRestored_ownersFit {s t : State} (h : ownersFit s)
    (he : execLineRestored s = .next t) : ownersFit t := by
  obtain ⟨ho, hu⟩ := h
  cases he
  split
  next hunit =>
    split
    next hp =>
      have hr := unitFits_runs hu (by simp [hunit]) (by simp [hunit])
      exact settle_ownersFit _
        (ownersFit_of_runs hr (by simp) (restore_ownersKept ho hp) (restore_unitRuns hp))
    next => exact ⟨ho, hu⟩
  next => exact ⟨ho, hu⟩

theorem execCommitPassEnd_ownersFit {eln : Level} {s t : State} (h : ownersFit s)
    (he : execCommitPassEnd eln s = .next t) : ownersFit t := by
  obtain ⟨ho, hu⟩ := h
  cases he
  split
  next hp =>
    exact settle_ownersFit _
      ⟨afterPass_ownersKept eln (finishPass_ownersKept ho) s.finishPass_keeps.1,
        afterPass_unitFits eln hu hp⟩
  next => exact ⟨ho, hu⟩

/-! ### Every command, and the step -/

theorem exec_ownersFit {i : Instr} {s t : State} (h : ownersFit s) (he : exec i s = .next t) :
    ownersFit t := by
  by_cases hi : leavesOwnership i = true
  · exact ownersFit_of_keeps (exec_keepsOwnership hi he) h
  · cases i with
    | hardwareReset => exact execHardwareReset_ownersFit he
    | writeDraft => exact execWriteDraft_ownersFit h he
    | publish => exact execPublish_ownersFit h he
    | configure => exact execConfigure_ownersFit h he
    | start => exact execStart_ownersFit h he
    | leave => exact execLeave_ownersFit h he
    | breakDriven => exact execBreakDriven_ownersFit h he
    | breakSeen => exact execBreakSeen_ownersFit h he
    | slotBroken => exact execSlotBroken_ownersFit h he
    | slotClean => exact execSlotClean_ownersFit h he
    | claim => exact execClaim_ownersFit h he
    | arbitrationLoss => exact execArbitrationLoss_ownersFit h he
    | bitFault => exact execBitFault_ownersFit h he
    | lowConditionStart => exact execLowConditionStart_ownersFit h he
    | epochExpiry => exact execEpochExpiry_ownersFit h he
    | elnFall => exact execElnFall_ownersFit h he
    | elnRise => exact execElnRise_ownersFit h he
    | notDrivable => exact execNotDrivable_ownersFit h he
    | holdRunOut => exact execHoldRunOut_ownersFit h he
    | lineLowLimit => exact execLineLowLimit_ownersFit h he
    | lineRestored => exact execLineRestored_ownersFit h he
    | commitPassEnd => exact execCommitPassEnd_ownersFit h he
    | _ => exact absurd rfl hi

/-- One bit time commits some entries of a running pass and moves neither unit nor station. -/
theorem advance_ownersFit {s : State} (h : ownersFit s) : ownersFit s.advance := by
  have hpass : ownersFit s.advancePass := by
    unfold State.advancePass
    split
    · exact h
    next p hp =>
      have hsome : ownersFit { s with commit := { s.commit with
          pass := some { p with time := p.time + 1 } } } := by
        simpa [-Fin.getElem_fin, ownersFit, ownersKept, imageOwned, ownRecordSelf,
          liveBlocksHaveOwner, stagedFromOwner, publishesOwned, unitFits, stationMatchesUnit,
          passMatchesUnit, onBusPeer, State.owner, State.owned, hp] using h
      exact ⟨commitSome_ownersKept hsome.1 _ _,
        unitFits_congr (by simp) (by simp) (by simp) (by simp) (by simp) hsome.2⟩
  exact hpass

theorem step_ownersFit {s t : State} (h : ownersFit s) (hs : step s = .next t) : ownersFit t := by
  unfold step at hs
  split at hs
  · unfold State.idleStep at hs
    split at hs
    · cases hs
      exact advance_ownersFit h
    · exact exec_ownersFit (s := { s with free := s.free + 1 }) h hs
    · exact exec_ownersFit (s := { s with free := s.free + 1 }) h hs
  next c rest hq => exact exec_ownersFit (s := { s with pending := rest }) h hs

/-- Settles O59: the invariant, taken apart into the image side, the publish side and the correspondence of
station and unit, is kept by every command and by a bit time. -/
theorem everyStepKeepsImageWithOwners : Obligations.EveryStepKeepsImageWithOwners := by
  intro s t h hs
  rw [imageFollowsOwners_iff_ownersFit] at h ⊢
  exact step_ownersFit h hs

end Sys2Proof.Machine
end

section
/-! SUPPORT. Image words and draft words (R2, R15): what writes them, and what WRITE_DRAFT writes. -/

namespace Sys2Proof.Machine

/-! ### What changes image words and draft words -/

/-- t has the draft of s, and where no pass runs in s its image words. -/
def keepsWords (s t : State) : Prop :=
  (s.commit.pass = none → t.image.words = s.image.words) ∧ t.image.draft = s.image.draft

theorem keepsWords_of_image {s t : State} (h : t.image = s.image) : keepsWords s t := by
  simp [keepsWords, h]

/-- What runs before the part that may write words leaves image and pass alone. -/
theorem keepsWords_after {s u t : State} (h : keepsWords u t) (hi : u.image = s.image)
    (hp : u.commit.pass = s.commit.pass) : keepsWords s t := by
  simpa [keepsWords, hi, hp] using h

/-- A pass that is finished writes image words; with none running nothing is written (R48). -/
theorem finishPass_keepsWords (s : State) : keepsWords s s.finishPass :=
  ⟨fun hp => by rw [State.finishPass_idle hp], s.finishPass_keeps.2.2.2⟩

theorem leaveNow_keepsWords (s : State) : keepsWords s s.leaveNow := by
  simpa [keepsWords, State.leaveNow] using finishPass_keepsWords s

theorem fallBack_keepsWords (s : State) : keepsWords s s.fallBack := by
  unfold State.fallBack
  dsimp only
  split
  · exact keepsWords_after (leaveNow_keepsWords _) rfl rfl
  · exact keepsWords_of_image (by simp)

theorem failAttempt_keepsWords (s : State) : keepsWords s s.failAttempt := by
  unfold State.failAttempt
  dsimp only
  (repeat' split)
  · exact keepsWords_of_image rfl
  · exact keepsWords_of_image rfl
  · exact keepsWords_after (fallBack_keepsWords _) rfl rfl
  · exact keepsWords_of_image rfl

theorem settle_keepsWords {s t : State} (before : Bool) (h : keepsWords s t) :
    keepsWords s (State.settle before t) := by
  simpa [keepsWords] using h

theorem countObjection_keepsWords (s : State) (metLow : Bool) :
    keepsWords s (s.countObjection metLow) := by
  unfold State.countObjection
  dsimp only
  (repeat' split)
  · exact keepsWords_of_image rfl
  · exact keepsWords_of_image rfl
  · exact settle_keepsWords _ (keepsWords_after (fallBack_keepsWords _) rfl rfl)
  · exact keepsWords_of_image (by simp)

theorem writeAct_keepsWords {s : State} {complete : Bool} {r : Result} {act : State → State}
    (ha : keepsWords s (act s)) : keepsWords s (s.writeAct complete r act) :=
  writeAct_keeps (P := keepsWords s) (fun u r hu => by simpa [keepsWords] using hu)
    (keepsWords_of_image rfl) fun _ => ha

theorem publish_keepsWords (s : State) (b : Block) (sp : Span) : keepsWords s (s.publish b sp) := by
  unfold State.publish
  split <;> exact keepsWords_of_image rfl

theorem start_keepsWords (s : State) : keepsWords s s.start := by
  unfold State.start
  dsimp only
  refine settle_keepsWords _ (keepsWords_of_image ?_)
  split <;> simp

theorem leave_keepsWords (s : State) : keepsWords s s.leave := by
  unfold State.leave
  split
  · exact settle_keepsWords _ (leaveNow_keepsWords s)
  · exact keepsWords_of_image rfl

/-- WRITE_DRAFT writes no image word. -/
theorem execWriteDraft_words {block first count : Byte} {data : List Byte} {s t : State}
    (he : execWriteDraft block first count data s = .next t) : t.image.words = s.image.words := by
  unfold execWriteDraft at he
  dsimp only at he
  split at he <;> cases he
  · exact writeAct_keeps (P := fun u => u.image.words = s.image.words)
      (fun u r hu => by simpa using hu) rfl fun _ => rfl
  · exact writeAct_keeps (P := fun u => u.image.words = s.image.words)
      (fun u r hu => by simpa using hu) rfl fun _ => rfl

/-! ### The commands -/

@[simp] theorem countBreak_image (s : State) :
    s.countBreak.image = s.image ∧ s.countBreak.commit = s.commit := by
  unfold State.countBreak
  split <;> simp

@[simp] theorem breakInDispatch_image (s : State) :
    s.breakInDispatch.image = s.image ∧ s.breakInDispatch.commit = s.commit := by
  unfold State.breakInDispatch
  split <;> simp

@[simp] theorem giveUp_image (s : State) :
    s.giveUp.image = s.image ∧ s.giveUp.commit = s.commit := by
  unfold State.giveUp
  split <;> simp

@[simp] theorem ownWasLost_image (s : State) : s.ownWasLost.image = s.image := by
  unfold State.ownWasLost
  (repeat' split) <;> simp

theorem execBreakDriven_keepsWords {s t : State} (he : execBreakDriven s = .next t) :
    keepsWords s t := by
  cases he
  dsimp only
  split
  · exact keepsWords_after (countObjection_keepsWords _ _) rfl rfl
  · exact keepsWords_of_image rfl

theorem execBreakSeen_keepsWords {s t : State} (he : execBreakSeen s = .next t) : keepsWords s t := by
  cases he
  dsimp only
  split
  · exact keepsWords_of_image rfl
  · split
    · exact keepsWords_after (settle_keepsWords _ (failAttempt_keepsWords _)) (by simp) (by simp)
    · exact keepsWords_of_image (by simp)

theorem execSlotBroken_keepsWords {s t : State} (he : execSlotBroken s = .next t) :
    keepsWords s t := by
  cases he
  dsimp only
  split
  · exact keepsWords_of_image rfl
  · split
    · exact keepsWords_after (settle_keepsWords _ (failAttempt_keepsWords _))
        (by split <;> simp) (by split <;> simp)
    · split <;> exact keepsWords_of_image (by simp)

theorem execSlotClean_keepsWords {s t : State} (he : execSlotClean s = .next t) :
    keepsWords s t := by
  cases he
  dsimp only
  (repeat' split) <;> simp [keepsWords]

theorem execArbitrationLoss_keepsWords {s t : State} (he : execArbitrationLoss s = .next t) :
    keepsWords s t := by
  unfold execArbitrationLoss at he
  split at he <;> cases he <;> exact keepsWords_of_image (by simp)

theorem execBitFault_keepsWords {s t : State} (he : execBitFault s = .next t) : keepsWords s t := by
  have fault (level : Level) : keepsWords s (s.faultAt level) :=
    keepsWords_after (settle_keepsWords _ (failAttempt_keepsWords _)) (by simp) (by simp)
  unfold execBitFault at he
  split at he <;> cases he
  · exact fault _
  · exact fault _
  · exact keepsWords_of_image rfl

theorem execClaim_keepsWords {s t : State} (he : execClaim s = .next t) : keepsWords s t := by
  unfold execClaim at he
  split at he <;> cases he
  · split <;> exact keepsWords_of_image rfl
  · exact keepsWords_of_image rfl

theorem execPublish_keepsWords {block first count : Byte} {s t : State}
    (he : execPublish block first count s = .next t) : keepsWords s t := by
  unfold execPublish at he
  dsimp only at he
  split at he <;> cases he
  · exact writeAct_keepsWords (keepsWords_of_image rfl)
  · exact writeAct_keepsWords (publish_keepsWords s _ _)

/-- A fall takes a boundary or is recorded; a boundary writes no word. -/
theorem execElnFall_keepsWords {s t : State} (he : execElnFall s = .next t) : keepsWords s t := by
  cases he
  refine settle_keepsWords _ ?_
  dsimp only
  (repeat' split) <;> simp [keepsWords]

theorem execEpochExpiry_keepsWords {s t : State} (he : execEpochExpiry s = .next t) :
    keepsWords s t := by
  cases he
  refine settle_keepsWords _ ?_
  (repeat' split) <;> simp [keepsWords]

theorem execNotDrivable_keepsWords {s t : State} (he : execNotDrivable s = .next t) :
    keepsWords s t := by
  cases he
  (repeat' split) <;> simp [keepsWords]

/-- COMMIT_PASS_END writes image words, and only there is a pass to end (R48). -/
theorem execCommitPassEnd_keepsWords {eln : Level} {s t : State}
    (he : execCommitPassEnd eln s = .next t) : keepsWords s t := by
  cases he
  split
  · refine settle_keepsWords _ ?_
    simpa [keepsWords] using finishPass_keepsWords s
  · exact keepsWords_of_image rfl

/-- Every command but the resets and WRITE_DRAFT keeps the draft, and without a pass the image words. -/
theorem exec_keepsWords {i : Instr} {s t : State} (he : exec i s = .next t)
    (hreset : ∀ a b c d e, i ≠ .hardwareReset a b c d e) (hconf : ∀ args, i ≠ .configure args)
    (hwrite : ∀ a b c d, i ≠ .writeDraft a b c d) : keepsWords s t := by
  by_cases hi : leavesOwnership i = true
  · obtain ⟨⟨-, -, himage, -⟩, -⟩ := exec_keepsOwnership hi he
    exact keepsWords_of_image himage
  · cases i with
    | hardwareReset => exact absurd rfl (hreset _ _ _ _ _)
    | configure => exact absurd rfl (hconf _)
    | writeDraft => exact absurd rfl (hwrite _ _ _ _)
    | publish => exact execPublish_keepsWords he
    | start => cases he; exact writeAct_keepsWords (start_keepsWords s)
    | leave => cases he; exact writeAct_keepsWords (leave_keepsWords s)
    | breakDriven => exact execBreakDriven_keepsWords he
    | breakSeen => exact execBreakSeen_keepsWords he
    | slotBroken => exact execSlotBroken_keepsWords he
    | slotClean => exact execSlotClean_keepsWords he
    | claim => exact execClaim_keepsWords he
    | arbitrationLoss => exact execArbitrationLoss_keepsWords he
    | bitFault => exact execBitFault_keepsWords he
    | epochExpiry => exact execEpochExpiry_keepsWords he
    | elnFall => exact execElnFall_keepsWords he
    | notDrivable => exact execNotDrivable_keepsWords he
    | lowConditionStart | elnRise | holdRunOut | lineLowLimit | lineRestored =>
      cases he
      (repeat' split) <;> simp [keepsWords]
    | commitPassEnd => exact execCommitPassEnd_keepsWords he
    | _ => exact absurd rfl hi

/-- Settles O53: the draft and the words of a command that is neither reset are kept, WRITE_DRAFT's image
words among them. -/
theorem whatChangesImageAndDraft : Obligations.WhatChangesImageAndDraft := by
  intro i s t he hreset hconf
  by_cases hwrite : ∀ a b c d, i ≠ .writeDraft a b c d
  · obtain ⟨hwords, hdraft⟩ := exec_keepsWords he hreset hconf hwrite
    exact ⟨hwords, fun _ => hdraft⟩
  · simp only [not_forall, not_not] at hwrite
    obtain ⟨block, first, count, data, rfl⟩ := hwrite
    exact ⟨fun _ => execWriteDraft_words he, fun hno => absurd rfl (hno block first count data)⟩

end Sys2Proof.Machine
end

section
/-! SUPPORT. WRITE_DRAFT (R15, R163, R177): its checks, and the words that it puts into the draft. -/

namespace Sys2Proof.Machine

/-! ### The argument bytes as a span -/

/-- The three argument bytes name a run of words of a block exactly where they are in range (R184). -/
theorem spanArgs_eq (block first count : Byte) :
    spanArgs block first count
      = if block.toNat ≤ 63 ∧ first.toNat ≤ 15 ∧ 1 ≤ count.toNat ∧ count.toNat ≤ 16
          ∧ first.toNat + count.toNat ≤ 16
        then some (Fin.ofNat 64 block.toNat,
          ⟨Fin.ofNat 16 first.toNat, Fin.ofNat 16 (first.toNat + count.toNat - 1)⟩)
        else none := by
  unfold spanArgs Span.ofCount
  by_cases hb : block.toNat ≤ 63
  · rw [if_pos hb]
    split
    next hsp => rw [if_pos ⟨hb, hsp⟩]; rfl
    next hsp => rw [if_neg fun hc => hsp hc.2]; rfl
  · rw [if_neg hb, if_neg fun hc => hb hc.1]

/-! ### Bytes as words -/

theorem bytesToWords_length : ∀ bs : List Byte, (bytesToWords bs).length = bs.length / 2
  | [] => rfl
  | [_] => by simp [bytesToWords]
  | high :: low :: rest => by
    have := bytesToWords_length rest
    simp only [bytesToWords, List.length_cons]
    omega

/-- Word k is made of bytes 2k and 2k + 1, high byte first. -/
theorem bytesToWords_getD (bs : List Byte) (k : Nat) (hk : 2 * k + 1 < bs.length) :
    (bytesToWords bs).getD k 0 = bs.getD (2 * k) 0 ++ bs.getD (2 * k + 1) 0 := by
  induction k generalizing bs with
  | zero =>
    match bs, hk with
    | high :: low :: rest, _ => rfl
  | succ k ih =>
    match bs, hk with
    | high :: low :: rest, hk =>
      have hrest := ih rest (by simp only [List.length_cons] at hk; omega)
      simpa [bytesToWords, Nat.mul_add] using hrest

theorem bytesToWords_take_length {data : List Byte} {n : Nat} (h : 2 * n ≤ data.length) :
    (bytesToWords (data.take (2 * n))).length = n := by
  rw [bytesToWords_length, List.length_take]
  omega

theorem bytesToWords_take_getD {data : List Byte} {n k : Nat} (h : 2 * n ≤ data.length) (hk : k < n) :
    (bytesToWords (data.take (2 * n))).getD k 0 = data.getD (2 * k) 0 ++ data.getD (2 * k + 1) 0 := by
  rw [bytesToWords_getD _ k (by rw [List.length_take]; omega)]
  simp [List.getD_eq_getElem?_getD, hk, show 2 * k + 1 < 2 * n by omega]

/-! ### The draft after a WRITE_DRAFT -/

/-- The words written stand at the places of the span and every other word is as before (R15, R177). -/
theorem writeDraft_read {s : State} (hwf : s.image.draft.wf = true) {block first count : Byte}
    {data : List Byte} (hblock : block.toNat ≤ 63) (hfirst : first.toNat ≤ 15)
    (hend : first.toNat + count.toNat ≤ 16) (hdata : 2 * count.toNat ≤ data.length)
    (last : WordNo) (b : Block) (w : WordNo) :
    (s.writeDraft (Fin.ofNat 64 block.toNat) ⟨Fin.ofNat 16 first.toNat, last⟩
        (bytesToWords (data.take (2 * count.toNat)))).image.draft.read (16 * b.val + w.val)
      = if b.val = block.toNat ∧ first.toNat ≤ w.val ∧ w.val < first.toNat + count.toNat
        then data.getD (2 * (w.val - first.toNat)) 0 ++ data.getD (2 * (w.val - first.toNat) + 1) 0
        else s.image.draft.read (16 * b.val + w.val) := by
  have haddr : wordAddr (Fin.ofNat 64 block.toNat) (Fin.ofNat 16 first.toNat)
      = 16 * block.toNat + first.toNat := by
    simp only [wordAddr, Fin.ofNat]
    omega
  have hw := w.isLt
  simp only [State.writeDraft, haddr, Store.read_writeAll hwf, bytesToWords_take_length hdata]
  by_cases hin : b.val = block.toNat ∧ first.toNat ≤ w.val ∧ w.val < first.toNat + count.toNat
  · rw [if_pos (by omega), if_pos hin,
      show 16 * b.val + w.val - (16 * block.toNat + first.toNat) = w.val - first.toNat by omega]
    exact bytesToWords_take_getD hdata (by omega)
  · rw [if_neg (by omega), if_neg hin]

theorem writeDraft_wf {s : State} (hwf : s.image.draft.wf = true) (b : Block) (sp : Span)
    (ws : List Word) : (s.writeDraft b sp ws).image.draft.wf = true := Store.writeAll_wf hwf _ ws

/-! ### The checks -/

/-- The argument bytes are in range: block 0 to 63, and a run of words within the block (R177, R184). -/
abbrev draftArgsOk (block first count : Byte) : Prop :=
  block.toNat ≤ 63 ∧ first.toNat ≤ 15 ∧ 1 ≤ count.toNat ∧ count.toNat ≤ 16
    ∧ first.toNat + count.toNat ≤ 16

/-- The result that WRITE_DRAFT records, its checks in the order of R163. -/
def draftResult (block first count : Byte) (data : List Byte) (s : State) : Result :=
  if (1 ≤ count.toNat ∧ count.toNat ≤ 16) ∧ data.length < 2 * count.toNat then .frameError
  else if s.mem.station = .unconfigured then .wrongState
  else if ¬ draftArgsOk block first count then .badArgument
  else if s.cfg.owners[(Fin.ofNat 64 block.toNat : Block)] ≠ some s.straps.sid then .notOwner
  else .ok

/-- The effect of a WRITE_DRAFT whose arguments are in range. -/
def draftWritten (block first count : Byte) (data : List Byte) (s : State) : State :=
  s.writeDraft (Fin.ofNat 64 block.toNat)
    ⟨Fin.ofNat 16 first.toNat, Fin.ofNat 16 (first.toNat + count.toNat - 1)⟩
    (bytesToWords (data.take (2 * count.toNat)))

theorem endTransaction_eq {s : State} (h : s.port.straddling = false) (r : Result) :
    s.endTransaction r = { s with port := { s.port with last := r, txn := none } } := by
  simp [State.endTransaction, h]

theorem ownerCheck_eq (s : State) (b : Block) :
    s.ownerCheck b = if s.cfg.owners[b] ≠ some s.straps.sid then .notOwner else .ok := by
  simp [-Fin.getElem_fin, State.ownerCheck, State.owned, State.owner]

/-- A write whose frame is complete records its result, and acts where that is OK (R163, R168). -/
theorem writeAct_complete {s : State} (h : s.port.straddling = false) (r : Result)
    (act : State → State) :
    s.writeAct true r act = (if r = .ok then act s else s).endTransaction r := by
  by_cases hr : r = .ok
  · subst hr
    exact writeAct_taken h act
  · rw [writeAct_refused h hr, if_neg hr]

/-- WRITE_DRAFT records the result of its checks and, where that is OK, writes the words (R163, R168). -/
theorem execWriteDraft_eq {s : State} (h : s.port.straddling = false) (block first count : Byte)
    (data : List Byte) :
    execWriteDraft block first count data s
      = .next ((if draftResult block first count data s = .ok
          then draftWritten block first count data s else s).endTransaction
            (draftResult block first count data s)) := by
  unfold execWriteDraft
  rw [spanArgs_eq]
  dsimp only
  by_cases hframe : (1 ≤ count.toNat ∧ count.toNat ≤ 16) ∧ data.length < 2 * count.toNat
  · have hr : draftResult block first count data s = .frameError := if_pos hframe
    obtain ⟨⟨hlow, hhigh⟩, hshort⟩ := hframe
    rw [hr]
    split <;> simp [State.writeAct, h, hlow, hhigh, hshort]
  · have hcomplete : (!(decide (1 ≤ count.toNat) && decide (count.toNat ≤ 16))
        || decide (2 * count.toNat ≤ data.length)) = true := by
      simp only [Bool.or_eq_true, Bool.not_eq_true', Bool.and_eq_false_iff, decide_eq_true_eq,
        decide_eq_false_iff_not]
      omega
    simp only [hcomplete, writeAct_complete h]
    by_cases hstate : s.mem.station = .unconfigured
    · have hr : draftResult block first count data s = .wrongState := by
        rw [draftResult, if_neg hframe, if_pos hstate]
      rw [hr]
      split <;> simp [State.configuredCheck, Result.orElse, hstate]
    · have hconfigured : s.configuredCheck = .ok := if_neg hstate
      by_cases hargs : draftArgsOk block first count
      · have hr : draftResult block first count data s
            = s.ownerCheck (Fin.ofNat 64 block.toNat) := by
          rw [draftResult, if_neg hframe, if_neg hstate, if_neg (not_not.2 hargs), ownerCheck_eq]
        rw [hr, if_pos hargs, hconfigured]
        rfl
      · have hr : draftResult block first count data s = .badArgument := by
          rw [draftResult, if_neg hframe, if_neg hstate, if_pos hargs]
        rw [hr, if_neg hargs, hconfigured]
        rfl

/-- A WRITE_DRAFT that records OK has a complete frame and arguments in range. -/
theorem draftResult_ok {block first count : Byte} {data : List Byte} {s : State}
    (h : draftResult block first count data s = .ok) :
    draftArgsOk block first count ∧ 2 * count.toNat ≤ data.length := by
  unfold draftResult at h
  by_cases hframe : (1 ≤ count.toNat ∧ count.toNat ≤ 16) ∧ data.length < 2 * count.toNat
  · simp [hframe] at h
  · by_cases hargs : draftArgsOk block first count
    · exact ⟨hargs, by omega⟩
    · rw [if_neg hframe, if_pos hargs] at h
      split at h <;> cases h

/-- Settles O14: the recorded result is `draftResult`, a refused write has no other effect, and a taken one
puts its words into the draft. -/
theorem writeDraftWritesItsWords : Obligations.WriteDraftWritesItsWords := by
  intro block first count data s hport
  refine ⟨_, execWriteDraft_eq hport block first count data, ?_⟩
  change _ ∧ _ = draftResult block first count data s ∧ _
  by_cases hok : draftResult block first count data s = .ok
  · have hwritten : (draftWritten block first count data s).port.straddling = false := hport
    rw [if_pos hok, endTransaction_eq hwritten, hok]
    refine ⟨rfl, rfl, rfl, fun hne => absurd rfl hne, fun _ hwf => ?_⟩
    obtain ⟨⟨hblock, hfirst, -, -, hend⟩, hdata⟩ := draftResult_ok hok
    exact ⟨writeDraft_wf hwf _ _ _, writeDraft_read hwf hblock hfirst hend hdata _⟩
  · rw [if_neg hok, endTransaction_eq hport]
    exact ⟨rfl, rfl, rfl, fun _ => rfl, fun h => absurd h hok⟩

end Sys2Proof.Machine
end

section
/-! SUPPORT. The Epoch Unit stays with the station at every step (R21, R26, R31): the correspondence asks
nothing of image, peers and publish queue, so it is followed here on its own. -/

namespace Sys2Proof.Machine

/-! ### Commands that leave station, unit and pass alone -/

theorem unitFits_of_keeps {s t : State} (hk : keepsOwnership s t) (h : unitFits s) : unitFits t := by
  obtain ⟨-, ⟨hcommit, hmem, hunit, hleave⟩, -⟩ := hk
  exact unitFits_congr hunit hleave (by rw [hcommit]) (by rw [hmem]) (by rw [hmem]) h

/-- A write keeps the correspondence if its effect does (R166, R168). -/
theorem writeAct_unitFits {s : State} (h : unitFits s) {complete : Bool} {r : Result}
    {act : State → State} (ha : r = .ok → unitFits (act s)) : unitFits (s.writeAct complete r act) :=
  writeAct_keeps (fun u r hu => unitFits_of_keeps (endTransaction_keepsOwnership u r) hu) h ha

theorem publish_unitFits {s : State} (h : unitFits s) (b : Block) (sp : Span) :
    unitFits (s.publish b sp) := by
  unfold State.publish
  split <;> exact h

theorem execWriteDraft_unitFits {block first count : Byte} {data : List Byte} {s t : State}
    (h : unitFits s) (he : execWriteDraft block first count data s = .next t) : unitFits t := by
  unfold execWriteDraft at he
  dsimp only at he
  split at he <;> cases he <;> exact writeAct_unitFits h fun _ => h

theorem execPublish_unitFits {block first count : Byte} {s t : State} (h : unitFits s)
    (he : execPublish block first count s = .next t) : unitFits t := by
  unfold execPublish at he
  dsimp only at he
  split at he <;> cases he
  · exact writeAct_unitFits h fun _ => h
  · exact writeAct_unitFits h fun _ => publish_unitFits h _ _

theorem execClaim_unitFits {s t : State} (h : unitFits s) (he : execClaim s = .next t) :
    unitFits t := by
  unfold execClaim at he
  split at he <;> cases he
  · split <;> exact h
  · exact h

theorem endAttempt_unitFits {s : State} (h : unitFits s) : unitFits s.endAttempt :=
  unitFits_congr (by simp) (by simp) (by simp) (by simp) (by simp) h

theorem execArbitrationLoss_unitFits {s t : State} (h : unitFits s)
    (he : execArbitrationLoss s = .next t) : unitFits t := by
  unfold execArbitrationLoss at he
  split at he <;> cases he
  · exact unitFits_of_keeps (ownWasLost_keepsOwnership _)
      (show unitFits { s.endAttempt with line := s.line.readBack .dominant } from
        endAttempt_unitFits h)
  · exact h

/-! ### Moves of the station -/

theorem execConfigure_unitFits {args : List Byte} {s t : State} (h : unitFits s)
    (he : execConfigure args s = .next t) : unitFits t := by
  unfold execConfigure at he
  dsimp only at he
  split at he <;> cases he
  · exact writeAct_unitFits h fun _ => h
  · exact writeAct_unitFits h fun _ => (configure_ownersFit s _).2

/-- START takes the station from IDLE, where the unit is DORMANT, to LISTEN and FOLLOW (R23, R135). -/
theorem start_unitFits {s : State} (h : unitFits s) (hs : s.mem.station = .idle) :
    unitFits s.start := by
  have hmatch := h.1
  rw [stationMatchesUnit, hs] at hmatch
  obtain ⟨hdormant, hleave⟩ := hmatch
  have hout := unitFits_noLeaveOut h (Or.inl (by simp [hdormant]))
  unfold State.start
  dsimp only
  refine settle_unitFits _ ?_
  split <;> simp [unitFits, stationMatchesUnit, passMatchesUnit, hleave, hout]

theorem execStart_unitFits {s t : State} (h : unitFits s) (he : execStart s = .next t) :
    unitFits t := by
  cases he
  refine writeAct_unitFits h fun hr => start_unitFits h ?_
  simpa [State.startCheck] using hr

/-- LEAVE completes in LISTEN; in the running states it sets leave-pending (R141). -/
theorem leave_unitFits {s : State} (h : unitFits s) (hb : s.mem.station.onBus = true) :
    unitFits s.leave := by
  unfold State.leave
  split
  · exact settle_unitFits _ (leaveNow_unitFits s)
  next hl =>
    have hr : runs s.mem.station = true := by
      cases hs : s.mem.station <;> simp_all [runs, StationState.onBus]
    have hu := unitRuns_of_fits h hr
    exact unitFits_of_runs hr hu

theorem execLeave_unitFits {s t : State} (h : unitFits s) (he : execLeave s = .next t) :
    unitFits t := by
  cases he
  refine writeAct_unitFits h fun hr => leave_unitFits h ?_
  simpa [State.leaveCheck] using hr

/-- The sixteenth objection takes a joining station back to LISTEN and a member to MUTE (R125, R126). -/
theorem countObjection_unitFits {s : State} (h : unitFits s) (metLow : Bool) :
    unitFits (s.countObjection metLow) := by
  unfold State.countObjection
  dsimp only
  split
  · exact h
  next hobjects =>
    split
    · exact h
    · split
      · exact settle_unitFits _ (fallBack_unitFits h)
      next hj =>
        have hm : runs s.mem.station = true := by
          cases hs : s.mem.station <;> simp_all [runs, StationState.objects]
        refine unitFits_of_runs rfl ?_
        simpa [unitRuns, passMatchesUnit] using unitRuns_of_fits h hm

theorem execBreakDriven_unitFits {s t : State} (h : unitFits s) (he : execBreakDriven s = .next t) :
    unitFits t := by
  cases he
  dsimp only
  split
  · refine countObjection_unitFits ?_ _
    exact h
  · exact h

/-- A failed attempt may take a joining station back to LISTEN (R112, R139). -/
theorem failed_unitFits {s : State} (before : Bool) (h : unitFits s) :
    unitFits (s.failAttempt.settle before) := settle_unitFits before (failAttempt_unitFits h)

theorem execBreakSeen_unitFits {s t : State} (h : unitFits s) (he : execBreakSeen s = .next t) :
    unitFits t := by
  cases he
  dsimp only
  split
  · exact h
  · have hk := unitFits_of_keeps (keepsOwnership_trans (countBreak_keepsOwnership _)
      (breakInDispatch_keepsOwnership _)) (show unitFits { s with line := { s.line with
        st := .inBreak, lrx := .dominant, peers := s.peersAtFall, idle := false, idleCount := 0
        run := breakBits, runSeen := true, charTime := none, samples := [], request := false } } from h)
    split
    · exact failed_unitFits _ hk
    · exact hk

theorem execSlotBroken_unitFits {s t : State} (h : unitFits s) (he : execSlotBroken s = .next t) :
    unitFits t := by
  cases he
  dsimp only
  split
  · exact h
  · have hk := unitFits_of_keeps (countBreak_keepsOwnership _) (show unitFits { s with line :=
      { s.line with
        slot := none, st := .awaitRecessive, lrx := .dominant, peers := s.peersAtFall, idle := false
        idleCount := 0, run := if s.line.lrx = Level.dominant then s.line.run else 0, runSeen := true
        charTime := none, samples := [], request := false } } from h)
    generalize State.countBreak _ = u at hk
    split
    · exact failed_unitFits _ (by split <;> exact hk)
    · split <;> exact hk

theorem execSlotClean_unitFits {s t : State} (h : unitFits s) (he : execSlotClean s = .next t) :
    unitFits t := by
  cases he
  dsimp only
  split
  · exact h
  · have hclosed : unitFits { s with line := { s.line.toHunt with slot := none } } := h
    split
    next a _ =>
      split
      · exact h
      · exact acceptOwn_unitFits hclosed a
    next =>
      split
      next d _ =>
        split
        · exact h
        · exact acceptReceived_unitFits hclosed d
      next => exact h

theorem execBitFault_unitFits {s t : State} (h : unitFits s) (he : execBitFault s = .next t) :
    unitFits t := by
  have fault (level : Level) : unitFits (s.faultAt level) :=
    failed_unitFits _ (show unitFits { s.giveUp with line := s.line.readBack level } from
      unitFits_of_keeps (giveUp_keepsOwnership s) h)
  unfold execBitFault at he
  split at he <;> cases he
  · exact fault _
  · exact fault _
  · exact h

/-! ### The epoch line -/

theorem execLowConditionStart_unitFits {s t : State} (h : unitFits s)
    (he : execLowConditionStart s = .next t) : unitFits t := by
  cases he
  split
  · exact h
  · exact settle_unitFits _ h

/-- A move of the unit in a running state fits if unit and pass do, for the station state stays. -/
theorem unitFits_of_move {s t : State} (hr : runs s.mem.station = true)
    (hs : t.mem.station = s.mem.station) (hu : unitRuns t) : unitFits t :=
  unitFits_of_runs (hs ▸ hr) hu

theorem execEpochExpiry_unitFits {s t : State} (h : unitFits s)
    (he : execEpochExpiry s = .next t) : unitFits t := by
  cases he
  refine settle_unitFits _ ?_
  cases hunit : s.eu.unit with
  | follow => exact countListening_unitFits false h
  | run =>
    have hr := unitFits_runs h (by simp [hunit]) (by simp [hunit])
    exact unitFits_of_move hr (by simp) (expireRun_unitRuns s)
  | coast =>
    have hr := unitFits_runs h (by simp [hunit]) (by simp [hunit])
    have hl := unitFits_noLeaveOut h (by simp [hunit])
    dsimp only
    split
    · exact unitFits_of_move hr (by simp) (expireCoast_unitRuns hunit hl)
    · exact h
  | dormant | assert | waitRise => exact h

theorem execElnFall_unitFits {s t : State} (h : unitFits s) (he : execElnFall s = .next t) :
    unitFits t := by
  have hfallen : unitFits { s with eu := { s.eu with eln := .dominant } } := h
  cases he
  refine settle_unitFits _ ?_
  dsimp only
  split
  next => exact h
  next hunit =>
    have hl := unitFits_noLeaveOut hfallen (by simp [hunit])
    split
    · exact followBoundary_unitFits hunit hl ((unitFits_follow h hunit).imp_right And.left)
    · exact h
  next hunit =>
    have hr := unitFits_runs h (by simp [hunit]) (by simp [hunit])
    exact unitFits_of_move hr (by simp) (joinFall_unitRuns _)
  next => exact h
  next => exact h
  next hunit =>
    have hr := unitFits_runs h (by simp [hunit]) (by simp [hunit])
    split
    · exact unitFits_of_move hr (by simp) (joinFall_unitRuns _)
    · exact h

theorem execElnRise_unitFits {s t : State} (h : unitFits s) (he : execElnRise s = .next t) :
    unitFits t := by
  cases he
  refine settle_unitFits _ ?_
  dsimp only
  split
  next hunit =>
    have hr := unitFits_runs h (by simp [hunit]) (by simp [hunit])
    have hp := unitFits_noPass h (by simp [hunit])
    exact unitFits_of_move hr (by simp) (enterRun_unitRuns hp)
  next => exact h

theorem execNotDrivable_unitFits {s t : State} (h : unitFits s) (he : execNotDrivable s = .next t) :
    unitFits t := by
  cases he
  split
  next hc =>
    refine settle_unitFits _ ?_
    split
    next hl => exact completeLeave_unitFits (unitFits_leaveOut h hl).2
    next =>
      have hr := unitFits_runs h (by simp [hc.1]) (by simp [hc.1])
      exact unitFits_of_move hr (by simp) (enterCoast_unitRuns s 2)
  next => exact h

theorem execHoldRunOut_unitFits {eln : Level} {s t : State} (h : unitFits s)
    (he : execHoldRunOut eln s = .next t) : unitFits t := by
  cases he
  split
  next hc =>
    split
    next hp =>
      have hr := unitFits_runs h (by simp [hc.1]) (by simp [hc.1])
      exact settle_unitFits _ (release_unitFits eln hp hr)
    next => exact h
  next => exact h

theorem execLineLowLimit_unitFits {s t : State} (h : unitFits s)
    (he : execLineLowLimit s = .next t) : unitFits t := by
  cases he
  split
  next hunit =>
    have hr := unitFits_runs h (by simp [hunit]) (by simp [hunit])
    exact settle_unitFits _ (unitFits_of_move hr (by simp) (enterCoast_unitRuns s 1))
  next => exact h

theorem execLineRestored_unitFits {s t : State} (h : unitFits s)
    (he : execLineRestored s = .next t) : unitFits t := by
  cases he
  split
  next hunit =>
    split
    next hp =>
      have hr := unitFits_runs h (by simp [hunit]) (by simp [hunit])
      exact settle_unitFits _ (unitFits_of_move hr (by simp) (restore_unitRuns hp))
    next => exact h
  next => exact h

theorem execCommitPassEnd_unitFits {eln : Level} {s t : State} (h : unitFits s)
    (he : execCommitPassEnd eln s = .next t) : unitFits t := by
  cases he
  split
  next hp => exact settle_unitFits _ (afterPass_unitFits eln h hp)
  next => exact h

/-! ### Every command, and the step -/

theorem exec_unitFits {i : Instr} {s t : State} (h : unitFits s) (he : exec i s = .next t) :
    unitFits t := by
  by_cases hi : leavesOwnership i = true
  · exact unitFits_of_keeps (exec_keepsOwnership hi he) h
  · cases i with
    | hardwareReset => exact (execHardwareReset_ownersFit he).2
    | writeDraft => exact execWriteDraft_unitFits h he
    | publish => exact execPublish_unitFits h he
    | configure => exact execConfigure_unitFits h he
    | start => exact execStart_unitFits h he
    | leave => exact execLeave_unitFits h he
    | breakDriven => exact execBreakDriven_unitFits h he
    | breakSeen => exact execBreakSeen_unitFits h he
    | slotBroken => exact execSlotBroken_unitFits h he
    | slotClean => exact execSlotClean_unitFits h he
    | claim => exact execClaim_unitFits h he
    | arbitrationLoss => exact execArbitrationLoss_unitFits h he
    | bitFault => exact execBitFault_unitFits h he
    | lowConditionStart => exact execLowConditionStart_unitFits h he
    | epochExpiry => exact execEpochExpiry_unitFits h he
    | elnFall => exact execElnFall_unitFits h he
    | elnRise => exact execElnRise_unitFits h he
    | notDrivable => exact execNotDrivable_unitFits h he
    | holdRunOut => exact execHoldRunOut_unitFits h he
    | lineLowLimit => exact execLineLowLimit_unitFits h he
    | lineRestored => exact execLineRestored_unitFits h he
    | commitPassEnd => exact execCommitPassEnd_unitFits h he
    | _ => exact absurd rfl hi

/-- A bit time moves a running pass on and ends none (R51). -/
theorem advancePass_unitFits {s : State} (h : unitFits s) : unitFits s.advancePass := by
  unfold State.advancePass
  split
  · exact h
  next p hp =>
    have htimed : unitFits { s with commit := { s.commit with
        pass := some { p with time := p.time + 1 } } } := by
      simpa [unitFits, stationMatchesUnit, passMatchesUnit, hp] using h
    exact unitFits_congr (by simp) (by simp) (by simp) (by simp) (by simp) htimed

theorem advance_unitFits {s : State} (h : unitFits s) : unitFits s.advance := advancePass_unitFits h

theorem step_unitFits {s t : State} (h : unitFits s) (hs : step s = .next t) : unitFits t := by
  unfold step at hs
  split at hs
  · unfold State.idleStep at hs
    split at hs
    · cases hs
      exact advance_unitFits h
    · exact exec_unitFits (s := { s with free := s.free + 1 }) h hs
    · exact exec_unitFits (s := { s with free := s.free + 1 }) h hs
  next c rest _ => exact exec_unitFits (s := { s with pending := rest }) h hs

/-- Settles O58: each command keeps the unit with the station, a bit time moves neither. -/
theorem everyStepKeepsStationAndUnitTogether :
    Obligations.EveryStepKeepsStationAndUnitTogether :=
  fun _ _ hstation hpass hs => step_unitFits ⟨hstation, hpass⟩ hs

end Sys2Proof.Machine
end

section
/-! SUPPORT. The commands of the epoch line, an equation for each case: what a command does by the state of
the Epoch Unit, before the low condition that results is settled. -/

namespace Sys2Proof.Machine

variable {s : State}

/-! ### The low condition -/

@[simp] theorem EpochUnit.low_dormant {u : EpochUnit} (h : u.unit = .dormant) : u.low = false := by
  simp [EpochUnit.low, h]

/-- Where the unit can drive nothing of itself the low condition is the reading of the line (R34). -/
theorem EpochUnit.low_iff_reading {u : EpochUnit}
    (h : u.unit = .follow ∨ u.unit = .run ∨ u.unit = .waitRise) :
    u.low = true ↔ u.eln = .dominant := by
  rcases h with h | h | h <;> simp [EpochUnit.low, h]

theorem EpochUnit.low_of_fall {u : EpochUnit} (h : u.unit ≠ .dormant) (hf : u.eln = .dominant) :
    u.low = true := by simp [EpochUnit.low, h, hf]

/-! ### LOW_CONDITION_START -/

theorem exec_lowConditionStart_without (h : s.eu.unit = .dormant ∨ s.eu.low = true) :
    exec .lowConditionStart s = .next s := congrArg Host.Outcome.next (if_pos h)

theorem exec_lowConditionStart_begins (hd : s.eu.unit ≠ .dormant) (hl : s.eu.low = false) :
    exec .lowConditionStart s
      = .next (State.offerLow
          { s with eu := { s.eu with eln := .dominant, driveTest := none } }) := by
  have hnew : ¬ (s.eu.unit = .dormant ∨ s.eu.low = true) := by simp [hd, hl]
  refine congrArg Host.Outcome.next ((if_neg hnew).trans ?_)
  rw [hl]
  exact settle_begin (EpochUnit.low_of_fall hd rfl)

/-! ### EPOCH_EXPIRY -/

theorem exec_epochExpiry_without (h : s.eu.unit = .dormant ∨ s.eu.unit = .assert
      ∨ s.eu.unit = .waitRise ∨ (s.eu.unit = .coast ∧ s.commit.pass ≠ none)) :
    exec .epochExpiry s = .next s := by
  rcases h with h | h | h | ⟨h, hp⟩ <;> simp [exec, execEpochExpiry, settle_same, *]

theorem exec_epochExpiry_follow (h : s.eu.unit = .follow) :
    exec .epochExpiry s = .next (State.settle s.eu.low
      (State.countListening { s with eu := { s.eu with counter := 0 } } false)) := by
  simp [exec, execEpochExpiry, h]

theorem exec_epochExpiry_run (h : s.eu.unit = .run) :
    exec .epochExpiry s = .next (State.settle s.eu.low s.expireRun) := by
  simp [exec, execEpochExpiry, h]

theorem exec_epochExpiry_coast (h : s.eu.unit = .coast) (hp : s.commit.pass = none) :
    exec .epochExpiry s = .next (State.settle s.eu.low s.expireCoast) := by
  simp [exec, execEpochExpiry, h, hp]

/-! ### ELN_FALL and ELN_RISE -/

/-- The station with ELN read at a level. -/
def State.readingEln (s : State) (level : Level) : State :=
  { s with eu := { s.eu with eln := level } }

theorem exec_elnFall_dormant (h : s.eu.unit = .dormant) :
    exec .elnFall s = .next (s.readingEln .dominant) := by
  simp [exec, execElnFall, h, settle_same, State.readingEln]

theorem exec_elnFall_waitRise (h : s.eu.unit = .waitRise) :
    exec .elnFall s = .next (State.settle s.eu.low (s.readingEln .dominant)) := by
  simp [exec, execElnFall, h, State.readingEln]

theorem exec_elnFall_assert (h : s.eu.unit = .assert) :
    exec .elnFall s = .next (State.settle s.eu.low
      { s with eu := { s.eu with eln := .dominant, driveTest := none } }) := by
  simp [exec, execElnFall, h]

theorem exec_elnFall_run (h : s.eu.unit = .run) :
    exec .elnFall s = .next (State.settle s.eu.low (s.readingEln .dominant).joinFall) := by
  simp [exec, execElnFall, h, State.readingEln]

theorem exec_elnFall_kept (h : s.eu.unit = .follow) (hp : s.commit.pass ≠ none) :
    exec .elnFall s = .next (State.settle s.eu.low
      { s with eu := { s.eu with eln := .dominant, keptFall := true } }) := by
  simp [exec, execElnFall, h, hp]

theorem exec_elnFall_follow (h : s.eu.unit = .follow) (hp : s.commit.pass = none) :
    exec .elnFall s = .next (State.settle s.eu.low (s.readingEln .dominant).followBoundary) := by
  simp [exec, execElnFall, h, hp, State.readingEln]

theorem exec_elnFall_restores (h : s.eu.unit = .coast) (hp : s.commit.pass = none)
    (hr : 4 * s.cfg.holdLen ≤ s.eu.restTimer) :
    exec .elnFall s = .next (State.settle s.eu.low
      ((s.readingEln .dominant).post .lineRestored).joinFall) := by
  simp [exec, execElnFall, h, hp, hr, State.readingEln]

theorem exec_elnFall_coast (h : s.eu.unit = .coast)
    (hr : s.commit.pass ≠ none ∨ s.eu.restTimer < 4 * s.cfg.holdLen) :
    exec .elnFall s = .next (State.settle s.eu.low
      { s with eu := { s.eu with eln := .dominant, restTimer := 0 } }) := by
  have hno : ¬ (4 * s.cfg.holdLen ≤ s.eu.restTimer ∧ s.commit.pass = none) := by
    rintro ⟨hlong, hnone⟩
    exact hr.elim (fun hp => hp hnone) fun hshort => by omega
  simp [exec, execElnFall, h, hno]

theorem exec_elnRise_waitRise (h : s.eu.unit = .waitRise) :
    exec .elnRise s = .next (State.settle s.eu.low (s.readingEln .recessive).enterRun) := by
  simp [exec, execElnRise, h, State.readingEln]

theorem exec_elnRise_other (h : s.eu.unit ≠ .waitRise) :
    exec .elnRise s = .next (State.settle s.eu.low (s.readingEln .recessive)) := by
  simp [exec, execElnRise, h, State.readingEln]

/-! ### NOT_DRIVABLE, LINE_LOW_LIMIT and LINE_RESTORED -/

theorem exec_notDrivable_without
    (h : s.eu.unit ≠ .assert ∨ s.eu.driveTest = none ∨ s.eu.eln = .dominant) :
    exec .notDrivable s = .next s := by
  have hno : ¬ (s.eu.unit = .assert ∧ s.eu.driveTest.isSome ∧ s.eu.eln = .recessive) := by
    rintro ⟨hunit, htest, hhigh⟩
    rcases h with h | h | h <;> simp_all
  exact congrArg Host.Outcome.next (if_neg hno)

theorem exec_notDrivable_assert (h : s.eu.unit = .assert) (ht : s.eu.driveTest ≠ none)
    (hh : s.eu.eln = .recessive) :
    exec .notDrivable s = .next (State.settle s.eu.low
      (if s.eu.leaveOut then (s.post .lineFault none none (some 2)).completeLeave
        else s.enterCoast 2)) :=
  congrArg Host.Outcome.next (if_pos ⟨h, Option.isSome_iff_ne_none.2 ht, hh⟩)

theorem exec_lineLowLimit_without (h : s.eu.unit ≠ .waitRise) :
    exec .lineLowLimit s = .next s := congrArg Host.Outcome.next (if_neg h)

theorem exec_lineLowLimit_waitRise (h : s.eu.unit = .waitRise) :
    exec .lineLowLimit s = .next (State.settle s.eu.low (s.enterCoast 1)) :=
  congrArg Host.Outcome.next (if_pos h)

theorem exec_lineRestored_without (h : s.eu.unit ≠ .coast) :
    exec .lineRestored s = .next s := congrArg Host.Outcome.next (if_neg h)

theorem exec_lineRestored_coast (h : s.eu.unit = .coast) (hp : s.commit.pass = none) :
    exec .lineRestored s = .next (State.settle s.eu.low s.restore) := by
  simp [exec, execLineRestored, h, hp]

theorem exec_lineRestored_waits (h : s.eu.unit = .coast) (hp : s.commit.pass ≠ none) :
    exec .lineRestored s = .next { s with eu := { s.eu with restTimer := s.cfg.epochLen } } := by
  simp [exec, execLineRestored, h, hp]

/-! ### HOLD_RUN_OUT and COMMIT_PASS_END -/

theorem exec_holdRunOut_without (eln : Level) (h : s.eu.unit ≠ .assert ∨ s.eu.holdOut = true) :
    exec (.holdRunOut eln) s = .next s := by
  have hno : ¬ (s.eu.unit = .assert ∧ s.eu.holdOut = false) := by
    rintro ⟨hunit, hout⟩
    rcases h with h | h <;> simp_all
  exact congrArg Host.Outcome.next (if_neg hno)

theorem exec_holdRunOut_recorded (eln : Level) (h : s.eu.unit = .assert)
    (ho : s.eu.holdOut = false) (hp : s.commit.pass ≠ none) :
    exec (.holdRunOut eln) s = .next { s with eu := { s.eu with holdOut := true } } := by
  simp [exec, execHoldRunOut, h, ho, hp]

theorem exec_holdRunOut_releases (eln : Level) (h : s.eu.unit = .assert)
    (ho : s.eu.holdOut = false) (hp : s.commit.pass = none) :
    exec (.holdRunOut eln) s = .next (State.settle s.eu.low (s.release eln)) := by
  simp [exec, execHoldRunOut, h, ho, hp]

theorem exec_commitPassEnd (eln : Level) (hp : s.commit.pass ≠ none) :
    exec (.commitPassEnd eln) s
      = .next (State.settle s.eu.low (s.finishPass.afterPass eln)) :=
  congrArg Host.Outcome.next (if_pos (Option.isSome_iff_ne_none.2 hp))

/-! ### Moves of the Epoch Unit -/

/-- Below L nothing waits at the entry to COAST (R30, R33, R36). -/
theorem State.enterCoast_below (cause : Nat) (h : s.eu.counter < s.cfg.epochLen) :
    s.enterCoast cause = { s.post .lineFault none none (some cause) with
      eu := { s.eu with
        unit := .coast, restTimer := 0, holdOut := false, leaveOut := false, driveTest := none } } := by
  have hno : ¬ s.cfg.epochLen ≤ s.eu.counter := by omega
  simp [State.enterCoast, hno]

/-- The expiry that waited is taken at the entry to COAST (R19, R33). -/
theorem State.enterCoast_expires (cause : Nat) (h : s.cfg.epochLen ≤ s.eu.counter)
    (hp : s.commit.pass = none) :
    s.enterCoast cause = State.expireCoast { s.post .lineFault none none (some cause) with
      eu := { s.eu with
        unit := .coast, restTimer := 0, holdOut := false, leaveOut := false, driveTest := none } } := by
  simp [State.enterCoast, h, hp]

theorem State.byLine_high (h : s.eu.eln = .recessive) : s.byLine = s.enterRun := if_pos h

theorem State.byLine_low (h : s.eu.eln = .dominant) : s.byLine = s.enterWaitRise :=
  if_neg (by simp [h])

theorem State.release_leaves (eln : Level) (h : s.eu.leaveOut = true) :
    s.release eln = (s.readingEln eln).completeLeave := if_pos h

theorem State.release_byLine (eln : Level) (h : s.eu.leaveOut = false) :
    s.release eln = (s.readingEln eln).byLine := if_neg (by simp [h])

/-- Off the bus there is no low condition; a quiet tail that begins then is all that settling does. -/
theorem settle_leftTheBus {u t : State} (before : Bool) (h : leftTheBus u t) :
    leftTheBus u (State.settle before t) := by
  have hlow : t.eu.low = false := by
    obtain ⟨-, -, -, -, -, -, -, -, -, -, -, -, -, -, -, -, -, -, -, hunit, -⟩ := h
    exact EpochUnit.low_dormant hunit
  cases before with
  | false => rwa [settle_same hlow]
  | true =>
    rw [settle_end hlow]
    exact h

end Sys2Proof.Machine
end

section
/-! SUPPORT. The epoch line, statement by statement: each case of a command is its equation, and the
relation that its move satisfies. -/

namespace Sys2Proof.Machine

/-- Settles O42: a low condition that begins is offered with the low reading recorded; ELN_RISE moves the
unit in WAIT_RISE alone. -/
theorem lowConditionBeginsAndEnds : Obligations.LowConditionBeginsAndEnds := by
  refine ⟨fun s => ⟨fun hd => exec_lowConditionStart_without (Or.inl hd),
      fun hl => exec_lowConditionStart_without (Or.inr hl), fun hd hl => ?_, rfl⟩,
    fun s v hv => ⟨fun h => ?_, fun h => ?_⟩⟩
  · exact ⟨_, exec_lowConditionStart_begins hd hl, State.offerLow_lowOffered _⟩
  · subst hv
    exact ⟨_, exec_elnRise_other h, State.settle_settled _ _⟩
  · subst hv
    exact ⟨_, exec_elnRise_waitRise h, State.enterRun_enteredRun _ _⟩

/-- Settles O43: one equation for each state of the unit. -/
theorem epochExpiryByUnit : Obligations.EpochExpiryByUnit := by
  refine fun s => ⟨exec_epochExpiry_without, fun h hs => ?_, fun h => ?_, fun h hp => ?_⟩
  · rw [exec_epochExpiry_follow h]
    simp only [State.countListening, if_neg hs]
    exact congrArg Host.Outcome.next (settle_same rfl)
  · exact ⟨_, _, exec_epochExpiry_run h, State.boundary_startedBoundary _, State.settle_settled _ _⟩
  · exact ⟨_, _, exec_epochExpiry_coast h hp, State.boundary_startedBoundary _,
      State.settle_settled _ _⟩

/-- Settles O45: one equation for each state of the unit; a boundary that is joined or followed is
`State.boundary`. -/
theorem elnFallByUnit : Obligations.ElnFallByUnit := by
  rintro s v rfl
  refine ⟨exec_elnFall_dormant, fun h => ?_, fun h => ?_, fun h => ?_, fun h hp => ?_,
    fun h hp hs => ?_, fun h hp hr => ?_, fun h hr => ?_⟩
  · exact ⟨_, exec_elnFall_waitRise h, State.settle_settled _ _⟩
  · exact ⟨_, exec_elnFall_assert h, State.settle_settled _ _⟩
  · exact ⟨_, _, exec_elnFall_run h, State.boundary_startedBoundary _, State.settle_settled _ _⟩
  · exact ⟨_, exec_elnFall_kept h hp, State.settle_settled _ _⟩
  · refine ⟨_, _, exec_elnFall_follow h hp, ?_, State.settle_settled _ _⟩
    rw [State.followBoundary_other (show (s.readingEln .dominant).mem.station ≠ .listen from hs)]
    exact State.boundary_startedBoundary _
  · exact ⟨_, _, exec_elnFall_restores h hp hr, State.boundary_startedBoundary _,
      State.settle_settled _ _⟩
  · exact ⟨_, exec_elnFall_coast h hr, State.settle_settled _ _⟩

/-- Settles O46: the entry to COAST and the restoration by the counter and the pass; where the unit is
elsewhere the commands answer the state as it is. -/
theorem coastAndRestoration : Obligations.CoastAndRestoration := by
  refine ⟨fun s hc => ⟨fun h ht hh hl => ?_, fun h ht hh hl => ?_, exec_notDrivable_without,
      fun h => ?_, exec_lineLowLimit_without, fun h hp => ?_, exec_lineRestored_waits,
      exec_lineRestored_without⟩,
    fun s hc hp => ⟨fun h => ?_, fun h => ?_⟩⟩
  · refine ⟨_, exec_notDrivable_assert h ht hh, ?_⟩
    rw [if_neg (by simp [hl]), State.enterCoast_below 2 hc]
    exact State.settle_settled _ _
  · refine ⟨_, exec_notDrivable_assert h ht hh, ?_⟩
    rw [if_pos hl]
    exact settle_leftTheBus _ (State.completeLeave_leftTheBus _)
  · refine ⟨_, exec_lineLowLimit_waitRise h, ?_⟩
    rw [State.enterCoast_below 1 hc]
    exact State.settle_settled _ _
  · exact ⟨_, exec_lineRestored_coast h hp, State.enterRun_enteredRun _ _⟩
  · refine ⟨_, _, exec_lineLowLimit_waitRise h, ?_, State.settle_settled _ _⟩
    rw [State.enterCoast_expires 1 hc hp]
    exact State.boundary_startedBoundary _
  · exact ⟨_, exec_lineRestored_coast h hp, State.enterRun_enteredRun _ _⟩

/-- Settles O47: the release reads the line, and goes to DORMANT, RUN or WAIT_RISE. -/
theorem holdRunOutReleasesTheLine : Obligations.HoldRunOutReleasesTheLine := by
  refine fun eln s => ⟨exec_holdRunOut_without eln, exec_holdRunOut_recorded eln, fun h ho hp =>
    ⟨fun hl => ?_, fun hl he => ?_, fun hl he => ?_⟩⟩
  · refine ⟨_, exec_holdRunOut_releases eln h ho hp, ?_⟩
    rw [State.release_leaves eln hl]
    exact settle_leftTheBus _ (State.completeLeave_leftTheBus _)
  · subst he
    refine ⟨_, exec_holdRunOut_releases _ h ho hp, ?_⟩
    rw [State.release_byLine _ hl, State.byLine_high rfl]
    exact State.enterRun_enteredRun _ _
  · subst he
    refine ⟨_, exec_holdRunOut_releases _ h ho hp, ?_⟩
    rw [State.release_byLine _ hl, State.byLine_low rfl]
    exact State.settle_settled _ _

end Sys2Proof.Machine
end

section
/-! SUPPORT. The end of a commit pass and the counts of LISTEN: what the Epoch Unit and the Membership
Controller do then, an equation for each case. -/

namespace Sys2Proof.Machine

/-! ### The end of a pass -/

/-- The end of a pass closes the own-boundary window and leaves the rest of the unit (R34, R51). -/
theorem State.finishPass_eu {s : State} (h : s.commit.pass ≠ none) :
    s.finishPass.eu = { s.eu with ownWindow := false } := by
  obtain ⟨p, hp⟩ := Option.ne_none_iff_exists'.1 h
  simp [State.finishPass, hp]

variable {u : State} (eln : Level)

/-- With leave-pending set the LEAVE completes, in ASSERT at the release of the line (R37). -/
theorem State.afterPass_leaves (hq : u.mem.leavePending = true) (hd : u.eu.unit ≠ .dormant)
    (ha : u.eu.unit = .assert → u.eu.holdOut = true) :
    leftTheBus (u.readingEln (if u.eu.unit = .assert then eln else u.eu.eln)) (u.afterPass eln) := by
  cases hunit : u.eu.unit with
  | dormant => exact absurd hunit hd
  | assert =>
    simp only [State.afterPass, hunit, ha hunit, if_true, hq]
    exact State.completeLeave_leftTheBus _
  | follow | run | waitRise | coast =>
    simp only [State.afterPass, hunit, hq, if_true]
    exact State.completeLeave_leftTheBus _

/-- Without leave-pending the hold that has run out releases the line to its reading (R31). -/
theorem State.afterPass_releases (hq : u.mem.leavePending = false) (hunit : u.eu.unit = .assert)
    (ho : u.eu.holdOut = true) :
    u.afterPass eln = State.byLine { u with eu := { u.eu with eln := eln, leaveOut := false } } := by
  simp [State.afterPass, hunit, ho, hq, State.release]

theorem State.afterPass_keptFall (hq : u.mem.leavePending = false) (hunit : u.eu.unit = .follow)
    (hk : u.eu.keptFall = true) : u.afterPass eln = u.followBoundary := by
  simp [State.afterPass, hunit, hq, hk]

theorem State.afterPass_listens (hq : u.mem.leavePending = false) (hunit : u.eu.unit = .follow)
    (hk : u.eu.keptFall = false) (hs : u.mem.station = .listen) : u.afterPass eln = u := by
  simp [State.afterPass, hunit, hq, hk, hs]

/-- A station that has become JOINING during the pass leaves FOLLOW by the line (R26). -/
theorem State.afterPass_joined (hq : u.mem.leavePending = false) (hunit : u.eu.unit = .follow)
    (hk : u.eu.keptFall = false) (hs : u.mem.station ≠ .listen) : u.afterPass eln = u.byLine := by
  simp [State.afterPass, hunit, hq, hk, hs]

theorem State.afterPass_restores (hq : u.mem.leavePending = false) (hunit : u.eu.unit = .coast)
    (hr : u.cfg.epochLen ≤ u.eu.restTimer) (hh : u.eu.eln = .recessive) :
    u.afterPass eln = u.restore := by
  simp [State.afterPass, hunit, hq, hr, hh]

theorem State.afterPass_coasts (hq : u.mem.leavePending = false) (hunit : u.eu.unit = .coast)
    (hr : u.eu.restTimer < u.cfg.epochLen ∨ u.eu.eln = .dominant) : u.afterPass eln = u := by
  have hno : ¬ (u.cfg.epochLen ≤ u.eu.restTimer ∧ u.eu.eln = .recessive) := by
    rintro ⟨hlong, hhigh⟩
    rcases hr with hr | hr
    · omega
    · simp [hr] at hhigh
  simp [State.afterPass, hunit, hq, hno]

/-! ### The counts of LISTEN -/

/-- Below L the unit enters RUN or WAIT_RISE by the line and nothing waits (R26, R31). -/
theorem State.byLine_below {s : State} (h : s.eu.counter < s.cfg.epochLen) :
    s.byLine = { s with eu := { s.eu with
      unit := if s.eu.eln = .recessive then .run else .waitRise
      lowTimer := if s.eu.eln = .recessive then s.eu.lowTimer else 0
      holdOut := false, leaveOut := false, driveTest := none } } := by
  have hno : ¬ s.cfg.epochLen ≤ s.eu.counter := by omega
  cases he : s.eu.eln with
  | recessive => simp [State.byLine_high he, State.enterRun, hno]
  | dominant => simp [State.byLine_low he, State.enterWaitRise]

/-- The station as JOINING is entered, before the Epoch Unit has left FOLLOW (R106, R137). -/
def State.joining (s : State) : State :=
  { s with
    eu := { s.eu with epoch := if s.mem.epochTaken then s.eu.epoch else 0 }
    mem := { s.mem with station := .joining, epochTaken := true }
    pub := if (findKey s.pub.queue .ofRoll).isNone then s.pub.add .roll else s.pub }

/-- The unit leaves FOLLOW by the line at once, or waits for the end of the pass (R26). -/
theorem State.enterJoining_eq (s : State) :
    s.enterJoining = if s.commit.pass = none then s.joining.byLine else s.joining := rfl

/-- A ROLL that is not queued yet joins the queue; nothing else of the publish side moves (R106). -/
theorem State.joining_pub (s : State) :
    s.joining.pub = { s.pub with
        queue := s.joining.pub.queue, nextOrder := s.joining.pub.nextOrder }
      ∧ (Key.ofRoll ∉ queueKeys s.pub.queue →
          s.joining.pub.queue.Perm (⟨.roll, 0, s.pub.nextOrder, false⟩ :: s.pub.queue)) := by
  unfold State.joining
  dsimp only
  by_cases hr : Key.ofRoll ∈ queueKeys s.pub.queue
  · have hsome : ¬ (findKey s.pub.queue .ofRoll).isNone = true := by
      simpa [findKey_none_iff] using hr
    rw [if_neg hsome]
    exact ⟨rfl, fun hno => absurd hr hno⟩
  · have hnone : (findKey s.pub.queue .ofRoll).isNone = true := by simpa [findKey_none_iff] using hr
    rw [if_pos hnone]
    exact ⟨rfl, fun _ => insertEntry_perm _ _⟩

/-- Below L the entry to JOINING moves nothing besides the unit (R26). -/
theorem State.enterJoining_unitAlone {s : State} (hc : s.eu.counter < s.cfg.epochLen) :
    s.enterJoining = { s.joining with eu := s.enterJoining.eu } := by
  rw [State.enterJoining_eq]
  split
  · rw [State.byLine_below (s := s.joining) hc]
  · rfl

/-- What the entry to JOINING below L leaves as it was, with the ROLL in the queue (R106, R137). -/
theorem State.enterJoining_frame_below {s : State} (hc : s.eu.counter < s.cfg.epochLen) :
    s.enterJoining = { s with
        eu := s.enterJoining.eu
        pub := { s.pub with
          queue := s.enterJoining.pub.queue, nextOrder := s.enterJoining.pub.nextOrder }
        mem := { s.mem with station := .joining, epochTaken := true } }
      ∧ (Key.ofRoll ∉ queueKeys s.pub.queue →
          s.enterJoining.pub.queue.Perm (⟨.roll, 0, s.pub.nextOrder, false⟩ :: s.pub.queue)) := by
  obtain ⟨hframe, hroll⟩ := s.joining_pub
  have hunit := State.enterJoining_unitAlone hc
  have hpub : s.enterJoining.pub = s.joining.pub :=
    (congrArg State.pub hunit).trans rfl
  rw [hpub, ← hframe]
  exact ⟨hunit, hroll⟩

/-- The unit after the entry to JOINING below L (R26, R106). -/
theorem State.enterJoining_unit_below {s : State} (hf : s.eu.unit = .follow)
    (hc : s.eu.counter < s.cfg.epochLen) :
    s.enterJoining.eu.epoch = (if s.mem.epochTaken then s.eu.epoch else 0)
      ∧ s.enterJoining.eu.counter = s.eu.counter ∧ s.enterJoining.eu.eln = s.eu.eln
      ∧ s.enterJoining.eu.unit = (if s.commit.pass ≠ none then .follow
          else if s.eu.eln = .recessive then .run else .waitRise)
      ∧ (s.enterJoining.eu.unit = .waitRise → s.enterJoining.eu.lowTimer = 0) := by
  rw [State.enterJoining_eq]
  by_cases hp : s.commit.pass = none
  · rw [if_pos hp, State.byLine_below (s := s.joining) hc]
    refine ⟨rfl, rfl, rfl, (if_neg (not_not.2 hp)).symm, fun h => ?_⟩
    dsimp only at h ⊢
    split at h
    · cases h
    next hlow => exact if_neg hlow
  · rw [if_neg hp, if_pos hp]
    have hfollow : s.joining.eu.unit = .follow := hf
    exact ⟨rfl, rfl, rfl, hfollow, fun h => by simp [hfollow] at h⟩

/-- The station after an unclocked period: the counter from 0, the listening count given (R25, R136). -/
def State.unclocked (s : State) (listen : Nat) : State :=
  { s with eu := { s.eu with counter := 0 }, mem := { s.mem with listenCount := listen } }

/-- An unclocked period counts towards the listen limit alone (R25, R136). -/
theorem State.countListening_unclocked {s : State} (hs : s.mem.station = .listen)
    (hj : s.mem.joiningCount < 2) :
    State.countListening { s with eu := { s.eu with counter := 0 } } false
      = if s.cfg.listenLimit ≤ min 15 (s.mem.listenCount + 1)
        then (s.unclocked (min 15 (s.mem.listenCount + 1))).enterJoining
        else s.unclocked (min 15 (s.mem.listenCount + 1)) := by
  have hno : ¬ 2 ≤ s.mem.joiningCount := by omega
  simp [State.countListening, hs, hno, State.unclocked]

/-- Where the unit drives nothing, two readings that agree give one low condition (R34). -/
theorem EpochUnit.low_congr {u v : EpochUnit}
    (hu : u.unit = .follow ∨ u.unit = .run ∨ u.unit = .waitRise)
    (hv : v.unit = .follow ∨ v.unit = .run ∨ v.unit = .waitRise) (h : u.eln = v.eln) :
    u.low = v.low := by
  rw [Bool.eq_iff_iff, EpochUnit.low_iff_reading hu, EpochUnit.low_iff_reading hv, h]

end Sys2Proof.Machine
end

section
/-! SUPPORT. The statements on the end of a pass and on the counts of LISTEN. -/

namespace Sys2Proof.Machine

/-- Settles O50: the unit after the pass has the state, the hold and the kept fall of the unit before, so
each case is the equation of `State.afterPass` for it. -/
theorem unitMovesAsThePassEnds : Obligations.UnitMovesAsThePassEnds := by
  rintro eln s u hp rfl
  have hend := exec_commitPassEnd eln hp
  have heu := State.finishPass_eu hp
  have hmem : s.finishPass.mem = s.mem := by simp
  have hcfg : s.finishPass.cfg = s.cfg := by simp
  generalize s.finishPass = u at hend heu hmem hcfg
  have hunit : u.eu.unit = s.eu.unit := by rw [heu]
  have hhold : u.eu.holdOut = s.eu.holdOut := by rw [heu]
  have hkept : u.eu.keptFall = s.eu.keptFall := by rw [heu]
  have heln : u.eu.eln = s.eu.eln := by rw [heu]
  have hrest : u.eu.restTimer = s.eu.restTimer := by rw [heu]
  have hepoch : u.eu.epoch = s.eu.epoch := by rw [heu]
  rw [← hunit, ← hhold, ← hkept, ← heln, ← hrest, ← hepoch, ← hmem, ← hcfg]
  refine ⟨fun hq hd ha => ?_, fun hq => ⟨fun h ho he => ?_, fun h ho he => ?_, fun h hk hs => ?_,
    fun h hk hs hh => ?_, fun h hk hs hl => ?_, fun h hk hs => ?_, fun h hk hs => ?_,
    fun h hr hh => ?_, fun h hr => ?_⟩⟩
  · exact ⟨_, _, hend, rfl, settle_leftTheBus _ (State.afterPass_leaves eln hq hd ha)⟩
  · subst he
    rw [State.afterPass_releases _ hq h ho, State.byLine_high rfl] at hend
    exact ⟨_, hend, State.enterRun_enteredRun _ _⟩
  · subst he
    rw [State.afterPass_releases _ hq h ho, State.byLine_low rfl] at hend
    exact ⟨_, hend, State.settle_settled _ _⟩
  · rw [State.afterPass_listens eln hq h hk hs] at hend
    exact ⟨_, hend, State.settle_settled _ _⟩
  · rw [State.afterPass_joined eln hq h hk hs, State.byLine_high hh] at hend
    exact ⟨_, hend, State.enterRun_enteredRun _ _⟩
  · rw [State.afterPass_joined eln hq h hk hs, State.byLine_low hl] at hend
    exact ⟨_, hend, State.settle_settled _ _⟩
  · rw [State.afterPass_keptFall eln hq h hk, State.followBoundary_other hs] at hend
    exact ⟨_, _, hend, State.boundary_startedBoundary _, State.settle_settled _ _⟩
  · rw [State.afterPass_keptFall eln hq h hk] at hend
    obtain ⟨v, hstart, hcount⟩ := State.followBoundary_counted hs
    exact ⟨_, v, _, hend, hstart, hcount, State.settle_settled _ _⟩
  · rw [State.afterPass_restores eln hq h hr hh] at hend
    exact ⟨_, hend, State.enterRun_enteredRun _ _⟩
  · rw [State.afterPass_coasts eln hq h hr] at hend
    exact ⟨_, hend, State.settle_settled _ _⟩

/-- Settles O44: an unclocked period counts and may bring JOINING, where the low condition stays as the line
reads; a boundary in FOLLOW is counted by `State.followBoundary`. -/
theorem listeningCountsToJoining : Obligations.ListeningCountsToJoining := by
  refine ⟨fun s hf hs hj hL => ?_, fun s hf hs hp => ?_⟩
  · have hexec := exec_epochExpiry_follow hf
    rw [State.countListening_unclocked hs hj] at hexec
    refine ⟨fun hlimit => ?_, fun hlimit => ?_⟩
    · rw [if_neg (Nat.not_le.2 hlimit)] at hexec
      exact hexec.trans (congrArg Host.Outcome.next (settle_same rfl))
    · rw [if_pos hlimit] at hexec
      have hzero : (s.unclocked (min 15 (s.mem.listenCount + 1))).eu.counter < s.cfg.epochLen := hL
      obtain ⟨hframe, hroll⟩ := State.enterJoining_frame_below hzero
      obtain ⟨hepoch, hcounter, heln, hunit, htimer⟩ := State.enterJoining_unit_below
        (show (s.unclocked _).eu.unit = .follow from hf) hzero
      have hlow : (s.unclocked (min 15 (s.mem.listenCount + 1))).enterJoining.eu.low = s.eu.low := by
        refine EpochUnit.low_congr ?_ (Or.inl hf) heln
        rw [hunit]
        split
        · exact Or.inl rfl
        · split <;> simp
      rw [settle_same hlow] at hexec
      exact ⟨_, hexec, hframe, hepoch, hcounter, heln, hunit, htimer, hroll⟩
  · obtain ⟨u, hstart, hcount⟩ := State.followBoundary_counted (s := s.readingEln .dominant) hs
    exact ⟨_, u, _, exec_elnFall_follow hf hp, hstart, hcount, State.settle_settled _ _⟩

end Sys2Proof.Machine
end

section
/-! SUPPORT. The station alone with its clock (log entries 3 to 5): one bit time part by part, and the steps
that are due, one characterization for each list of them. -/

namespace Sys2Proof.Machine

/-! ### The step of an empty queue -/

theorem idleStep_of_none_due {s : State} (h : s.due = []) : s.idleStep = .next s.advance := by
  simp [State.idleStep, h]

/-- Whatever the free choice names, it is one of the steps that are due (log entry 5). -/
theorem idleStep_of_due {s : State} (h : s.due ≠ []) :
    ∃ i ∈ s.due, s.idleStep = exec i { s with free := s.free + 1 } := by
  unfold State.idleStep
  split
  next hnone => exact absurd hnone h
  next i hone => exact ⟨i, by simp [hone], rfl⟩
  next i j rest hmany =>
    refine ⟨_, ?_, rfl⟩
    have hlt : Config.dueChoice s.free % (rest.length + 2) < (i :: j :: rest).length := by
      simpa using Nat.mod_lt _ (Nat.succ_pos _)
    rw [hmany, List.getD_eq_getElem _ _ hlt]
    exact List.getElem_mem hlt

/-! ### One bit time -/

/-- A bit time's part of a running pass commits some entries from the head (R51, log entry 17). -/
theorem advancePass_commitsSome {s : State} {p : Pass} (h : s.commit.pass = some p) :
    ∃ k ≤ s.staging.length, s.advancePass = State.commitSome p.epoch k
      { s with commit := { s.commit with pass := some { p with time := p.time + 1 } } } :=
  ⟨Config.passProgress s.free % (s.staging.length + 1),
    Nat.le_of_lt_succ (Nat.mod_lt _ (Nat.succ_pos _)), by simp [State.advancePass, h]⟩

theorem advancePass_idle {s : State} (h : s.commit.pass = none) : s.advancePass = s := by
  simp [State.advancePass, h]

/-- The pass moves on beside the line, the unit and the Transmitter. -/
@[simp] theorem State.advancePass_frame (s : State) :
    s.advancePass.straps = s.straps ∧ s.advancePass.cfg = s.cfg ∧ s.advancePass.line = s.line
      ∧ s.advancePass.tx = s.tx ∧ s.advancePass.eu = s.eu ∧ s.advancePass.free = s.free := by
  unfold State.advancePass
  split <;> simp

@[simp] theorem State.advancePass_lineNow (s : State) : s.advancePass.lineNow = s.lineNow := by
  simp [State.lineNow, State.ltx]

theorem State.advance_eu (s : State) : s.advance.eu = s.eu.advance s.cfg.epochLen s.cfg.holdLen := by
  simp [State.advance]

theorem State.advance_line (s : State) :
    s.advance.line = { s.line.advance s.lineNow with sendPos := s.advance.line.sendPos } := by
  simp [State.advance]

/-- The place in the dispatch moves on until all its bits have been driven (R109). -/
theorem State.advance_sendPos {s : State} {a : Attempt}
    (h : s.tx = .active .claiming a ∨ s.tx = .active .sending a) :
    s.advance.line.sendPos
      = if s.line.sendPos < 11 * a.chars.length then s.line.sendPos + 1 else s.line.sendPos := by
  rcases h with h | h <;> simp [State.advance, h, TxState.driven, characterBits]

/-! ### What the data line reads (log entry 4) -/

theorem lineNow_of_drive {s : State} (h : s.line.drive ≠ none) : s.lineNow = .dominant := by
  simp [State.lineNow, State.ltx, Option.isSome_iff_ne_none, h]

theorem lineNow_of_sent {s : State} {a : Attempt} (hd : s.line.drive = none)
    (h : s.tx = .active .claiming a ∨ s.tx = .active .sending a) :
    s.lineNow = if sentLevel a.chars s.line.sendPos = .dominant then .dominant
      else s.line.peers := by
  rcases h with h | h <;> simp [State.lineNow, State.ltx, hd, h]

theorem lineNow_of_silent {s : State} (hd : s.line.drive = none)
    (h : s.tx = .standby ∨ ∃ a, s.tx = .active .slotWait a) : s.lineNow = s.line.peers := by
  rcases h with h | ⟨a, h⟩ <;> simp [State.lineNow, State.ltx, hd, h]

/-- A dominant bit that this station drives is read dominant, so what it reads otherwise is a dominant
reading of a recessive bit (R72). -/
theorem sent_ne_lineNow_iff {s : State} {a : Attempt} (hd : s.line.drive = none)
    (h : s.tx = .active .claiming a ∨ s.tx = .active .sending a) :
    sentLevel a.chars s.line.sendPos ≠ s.lineNow
      ↔ s.lineNow = .dominant ∧ sentLevel a.chars s.line.sendPos = .recessive := by
  rw [lineNow_of_sent hd h]
  cases sentLevel a.chars s.line.sendPos <;> cases s.line.peers <;> simp

/-! ### The lists of due steps -/

theorem mem_dueIf {b : Bool} {P : Prop} {i j : Instr} (h : b = true ↔ P) :
    i ∈ dueIf b j ↔ P ∧ i = j := by
  rw [← h]
  cases b <;> simp [dueIf]

theorem Level.not_dominant {l : Level} : ¬ l = .dominant ↔ l = .recessive := by cases l <;> simp

/-- The samples of a character make FALSE_START or CHARACTER_DELIVERED due, or nothing (R62). -/
def endsCharacter : Instr → Bool
  | .falseStart | .characterDelivered .. => true
  | _ => false

theorem judgeSamples_endsCharacter {samples : List Level} {i : Instr}
    (h : judgeSamples samples = some i) : endsCharacter i = true := by
  unfold judgeSamples at h
  dsimp only at h
  split at h
  · cases h; rfl
  · split at h
    · cases h; rfl
    · split at h
      · cases h; rfl
      · cases h

/-- The steps of the Epoch Unit and the Commit Unit (R19, R28, R30, R31, R33, R34, R36, R51). -/
theorem mem_dueEpoch {s : State} {i : Instr} :
    i ∈ s.dueEpoch ↔
      ((s.cfg.epochLen ≤ s.eu.counter ∧ (s.eu.unit = .follow ∨ s.eu.unit = .run
          ∨ (s.eu.unit = .coast ∧ s.commit.pass = none))) ∧ i = .epochExpiry)
      ∨ ((s.eu.unit = .assert ∧ s.eu.holdOut = false ∧ s.cfg.holdLen ≤ s.eu.hold)
          ∧ i = .holdRunOut s.releaseLevel)
      ∨ ((s.eu.unit = .assert ∧ s.eu.eln = .recessive) ∧ i = .elnFall)
      ∨ ((s.eu.unit = .assert ∧ s.eu.driveTest = some 4 ∧ s.eu.eln = .recessive)
          ∧ i = .notDrivable)
      ∨ ((s.eu.unit = .waitRise
          ∧ (4 * s.cfg.holdLen ≤ s.eu.lowTimer ∨ s.cfg.epochLen ≤ s.eu.counter))
          ∧ i = .lineLowLimit)
      ∨ ((s.eu.unit = .coast ∧ s.commit.pass = none ∧ s.cfg.epochLen ≤ s.eu.restTimer)
          ∧ i = .lineRestored)
      ∨ (s.eu.tail = some 11 ∧ i = .quietTailEnd)
      ∨ ∃ p, s.commit.pass = some p
          ∧ (p.bound ≤ p.time ∨ Config.passEndsNow s.free = true)
          ∧ i = .commitPassEnd s.releaseLevel := by
  have hfall : s.eu.eln = .recessive ∧ s.elnNow = .dominant
      ↔ s.eu.unit = .assert ∧ s.eu.eln = .recessive := by
    unfold State.elnNow State.drivesEln
    cases s.eu.eln <;> simp
  simp only [State.dueEpoch, List.mem_append, or_assoc]
  refine or_congr (mem_dueIf (by simp [or_assoc])) <| or_congr (mem_dueIf (by simp [and_assoc])) <|
    or_congr (mem_dueIf (by simpa using hfall)) <| or_congr (mem_dueIf (by simp [and_assoc])) <|
    or_congr (mem_dueIf (by simp)) <| or_congr (mem_dueIf (by simp [and_assoc])) <|
    or_congr (mem_dueIf (by simp)) ?_
  cases s.commit.pass with
  | none => simp
  | some p => simpa using mem_dueIf (by simp)

/-- What the line's reading makes due (R61, R62, R66, R67). -/
theorem mem_dueReading {s : State} {i : Instr} :
    i ∈ s.dueReading ↔
      ((s.line.st = .hunt ∧ s.line.slot = none ∧ s.line.lrx = .recessive ∧ s.lineNow = .dominant)
        ∧ i = .startEdge)
      ∨ ((s.line.slot ≠ none ∧ s.line.charTime = none ∧ s.lineNow = .dominant) ∧ i = .slotBroken)
      ∨ ((s.line.lrx = .dominant ∧ s.lineNow = .recessive ∧ (s.line.st = .inBreak
          ∨ (s.line.st = .awaitRecessive ∧ s.line.runSeen = true ∧ breakBits ≤ s.line.run)))
        ∧ i = .breakEnd)
      ∨ (((s.line.lrx = .dominant ∧ s.lineNow = .recessive) ∧ ¬ (s.line.st = .inBreak
            ∨ (s.line.st = .awaitRecessive ∧ s.line.runSeen = true ∧ breakBits ≤ s.line.run))
          ∧ (s.line.st = .awaitRecessive ∨ s.line.st = .hunt)) ∧ i = .firstRecessiveReading)
      ∨ ((s.line.st = .assemble ∧ s.line.charTime = some 0 ∧ s.lineNow = .recessive)
        ∧ i = .falseStart)
      ∨ ((s.line.st = .assemble ∧ s.line.charTime = some 10) ∧ endsCharacter i = true
        ∧ judgeSamples (s.line.samples ++ [s.lineNow]) = some i) := by
  simp only [State.dueReading, List.mem_append, or_assoc]
  refine or_congr (mem_dueIf (by simp [and_assoc])) <|
    or_congr (mem_dueIf (by simp [Option.isSome_iff_ne_none, and_assoc])) <|
    or_congr (mem_dueIf (by simp [Level.not_dominant, and_assoc])) <|
    or_congr (mem_dueIf (by cases s.lineNow <;> grind)) <|
    or_congr (mem_dueIf (by simp [Level.not_dominant, and_assoc])) ?_
  split
  next h => simpa [h] using judgeSamples_endsCharacter
  next h => simp [h]

/-- The steps of the Line Interface (R64, R66 to R68, R70). -/
theorem mem_dueLine {s : State} {i : Instr} :
    i ∈ s.dueLine ↔
      ((s.line.st = .hunt ∧ s.line.slot = none ∧ s.line.idleCount = 11 ∧ s.line.idle = false)
        ∧ i = .busIdle)
      ∨ ((s.line.slot = some 11 ∧ s.lineNow = .recessive) ∧ i = .slotClean)
      ∨ ((s.line.request = true ∧ (s.line.charTime = none ∨ s.line.charTime = some 0))
        ∧ i = .breakDriveStart)
      ∨ (s.line.drive = some 14 ∧ i = .breakDriven)
      ∨ ((s.line.lrx = .dominant ∧ breakBits ≤ s.line.run ∧ s.line.runSeen = false
        ∧ s.line.slot = none) ∧ i = .breakSeen)
      ∨ ((s.line.lrx = .dominant ∧ busFaultBits ≤ s.line.run ∧ s.line.busFault = false)
        ∧ i = .busFault)
      ∨ i ∈ s.dueReading := by
  have hboundary : s.line.atBoundary = true
      ↔ s.line.charTime = none ∨ s.line.charTime = some 0 := by
    unfold Line.atBoundary
    cases s.line.charTime <;> simp
  simp only [State.dueLine, List.mem_append, or_assoc]
  exact or_congr (mem_dueIf (by simp [and_assoc])) <| or_congr (mem_dueIf (by simp)) <|
    or_congr (mem_dueIf (by simp [hboundary])) <| or_congr (mem_dueIf (by simp)) <|
    or_congr (mem_dueIf (by simp [and_assoc])) <|
    or_congr (mem_dueIf (by simp [and_assoc])) Iff.rfl

/-! ### The comparison of the bit under way (R72) -/

theorem readback_eq_some_iff {inClaim : Bool} {drove read : Level} {i : Instr} :
    readback inClaim drove read = some i ↔ drove ≠ read
      ∧ i = if inClaim = true ∧ drove = .recessive then .arbitrationLoss else .bitFault := by
  unfold readback
  by_cases hsame : drove = read
  · simp [hsame]
  · cases inClaim <;> cases drove <;> simp [hsame, eq_comm (b := i)]

/-- The comparison is made of the sample told, else of what the line reads, and not while a break is driven
(R68, R72). -/
theorem mem_dueReadback {s : State} {inClaim : Bool} {a : Attempt} {i : Instr} :
    i ∈ s.dueReadback inClaim a ↔ s.line.drive = none
      ∧ ((∃ b, s.line.sampled = some b ∧ readback inClaim b.form b.read = some i)
        ∨ (s.line.sampled = none
          ∧ readback inClaim (sentLevel a.chars s.line.sendPos) s.lineNow = some i)) := by
  unfold State.dueReadback
  cases s.line.drive <;> cases s.line.sampled <;> simp

/-- A mismatch in the claim: a recessive bit read dominant loses the arbitration, a dominant bit read
recessive, which only a command can tell, is a bit fault (R72). -/
theorem mem_dueReadback_claim {s : State} {a : Attempt} {i : Instr}
    (ht : s.tx = .active .claiming a) :
    i ∈ s.dueReadback true a ↔
      (s.line.drive = none ∧ (s.line.sampled = some ⟨.recessive, .dominant⟩
          ∨ (s.line.sampled = none ∧ s.lineNow = .dominant
            ∧ sentLevel a.chars s.line.sendPos = .recessive)) ∧ i = .arbitrationLoss)
      ∨ (s.line.drive = none ∧ s.line.sampled = some ⟨.dominant, .recessive⟩ ∧ i = .bitFault) := by
  rw [mem_dueReadback]
  by_cases hd : s.line.drive = none
  · rcases hs : s.line.sampled with _ | ⟨form, read⟩
    · have hne := sent_ne_lineNow_iff hd (Or.inl ht)
      simp only [hd, readback_eq_some_iff, hne]
      simpa using fun _ hsent => by rw [if_pos hsent]
    · cases form <;> cases read <;> simp [hd, readback_eq_some_iff]
  · simp [hd]

/-- A mismatch after the claim is a bit fault (R72). -/
theorem mem_dueReadback_sending {s : State} {a : Attempt} {i : Instr}
    (ht : s.tx = .active .sending a) :
    i ∈ s.dueReadback false a ↔ s.line.drive = none ∧ (sampleRefutes s.line = true
        ∨ (s.line.sampled = none ∧ s.lineNow = .dominant
          ∧ sentLevel a.chars s.line.sendPos = .recessive)) ∧ i = .bitFault := by
  rw [mem_dueReadback]
  by_cases hd : s.line.drive = none
  · rcases hs : s.line.sampled with _ | ⟨form, read⟩
    · have hne := sent_ne_lineNow_iff hd (Or.inr ht)
      simp only [hd, readback_eq_some_iff, hne]
      simp [sampleRefutes, hs]
    · cases form <;> cases read <;> simp [hd, readback_eq_some_iff, sampleRefutes, hs]
  · simp [hd]

theorem sampleRefutes_none {l : Line} (h : l.sampled = none) : sampleRefutes l = false := by
  simp [sampleRefutes, h]

theorem sampleRefutes_some {l : Line} {b : BitSample} (h : l.sampled = some b) :
    sampleRefutes l = decide (b.form ≠ b.read) := by simp [sampleRefutes, h]

/-- In CLAIMING the win comes due with no mismatch told, and a reading is compared only until then
(R72, R108). -/
theorem mem_dueClaiming {s : State} {a : Attempt} {i : Instr} (ht : s.tx = .active .claiming a) :
    i ∈ (if characterBits ≤ s.line.sendPos ∧ s.line.mismatchTold = false then [.claimWon]
        else s.dueReadback true a) ↔
      ((characterBits ≤ s.line.sendPos ∧ sampleRefutes s.line = false) ∧ i = .claimWon)
      ∨ ((s.line.drive = none ∧ (s.line.sampled = some ⟨.recessive, .dominant⟩
          ∨ (s.line.sampled = none ∧ s.lineNow = .dominant ∧ s.line.sendPos < characterBits
            ∧ sentLevel a.chars s.line.sendPos = .recessive))) ∧ i = .arbitrationLoss)
      ∨ ((s.line.drive = none ∧ s.line.sampled = some ⟨.dominant, .recessive⟩)
        ∧ i = .bitFault) := by
  rw [s.line.mismatchTold_sampleRefutes]
  by_cases hend : characterBits ≤ s.line.sendPos ∧ sampleRefutes s.line = false
  · have hlost : s.line.sampled ≠ some ⟨.recessive, .dominant⟩ := fun h => by
      simp [sampleRefutes_some h] at hend
    have hfault : s.line.sampled ≠ some ⟨.dominant, .recessive⟩ := fun h => by
      simp [sampleRefutes_some h] at hend
    simp [hend, hlost, hfault]
  · have hbefore (h : s.line.sampled = none) : s.line.sendPos < characterBits :=
      Nat.lt_of_not_le fun hpos => hend ⟨hpos, sampleRefutes_none h⟩
    rw [if_neg hend, mem_dueReadback_claim ht]
    grind

/-- In SENDING the end of the dispatch comes due with no mismatch told, and a reading is compared only until
then (R72, R109). -/
theorem mem_dueSending {s : State} {a : Attempt} {i : Instr} (ht : s.tx = .active .sending a) :
    i ∈ (if s.tx.driven ≤ s.line.sendPos ∧ s.line.mismatchTold = false then [.lastCheckSent]
        else s.dueReadback false a) ↔
      ((characterBits * a.chars.length ≤ s.line.sendPos ∧ sampleRefutes s.line = false)
        ∧ i = .lastCheckSent)
      ∨ ((s.line.drive = none ∧ (sampleRefutes s.line = true
          ∨ (s.line.sampled = none ∧ s.lineNow = .dominant
            ∧ s.line.sendPos < characterBits * a.chars.length
            ∧ sentLevel a.chars s.line.sendPos = .recessive))) ∧ i = .bitFault) := by
  have hdriven : s.tx.driven = characterBits * a.chars.length := by rw [ht]; rfl
  rw [s.line.mismatchTold_sampleRefutes, hdriven]
  by_cases hend : characterBits * a.chars.length ≤ s.line.sendPos ∧ sampleRefutes s.line = false
  · simp [hend]
  · have hbefore (h : s.line.sampled = none) :
        s.line.sendPos < characterBits * a.chars.length :=
      Nat.lt_of_not_le fun hpos => hend ⟨hpos, sampleRefutes_none h⟩
    rw [if_neg hend, mem_dueReadback_sending ht]
    grind

/-- The steps of the Transmitter (R72, R107 to R109). -/
theorem mem_dueTransmit {s : State} {i : Instr} :
    i ∈ s.dueTransmit ↔
      ((s.busFree = true ∧ s.nextEntry ≠ none) ∧ i = .claim)
      ∨ (((∃ a, s.tx = .active .claiming a) ∧ characterBits ≤ s.line.sendPos
          ∧ sampleRefutes s.line = false) ∧ i = .claimWon)
      ∨ ((∃ a, s.tx = .active .sending a ∧ characterBits * a.chars.length ≤ s.line.sendPos
          ∧ sampleRefutes s.line = false) ∧ i = .lastCheckSent)
      ∨ ((s.line.drive = none ∧ ∃ a, s.tx = .active .claiming a
          ∧ (s.line.sampled = some ⟨.recessive, .dominant⟩
            ∨ (s.line.sampled = none ∧ s.lineNow = .dominant ∧ s.line.sendPos < characterBits
              ∧ sentLevel a.chars s.line.sendPos = .recessive))) ∧ i = .arbitrationLoss)
      ∨ ((s.line.drive = none
          ∧ ((∃ a, s.tx = .active .claiming a ∧ s.line.sampled = some ⟨.dominant, .recessive⟩)
            ∨ ∃ a, s.tx = .active .sending a ∧ (sampleRefutes s.line = true
              ∨ (s.line.sampled = none ∧ s.lineNow = .dominant
                ∧ s.line.sendPos < characterBits * a.chars.length
                ∧ sentLevel a.chars s.line.sendPos = .recessive)))) ∧ i = .bitFault) := by
  have hclaim : (s.busFree && s.nextEntry.isSome) = true
      ↔ s.busFree = true ∧ s.nextEntry ≠ none := by simp [Option.isSome_iff_ne_none]
  rw [State.dueTransmit, List.mem_append, mem_dueIf hclaim]
  refine or_congr Iff.rfl ?_
  cases ht : s.tx with
  | standby => simp
  | active phase a =>
    cases phase with
    | claiming => simpa using mem_dueClaiming ht
    | sending =>
      rw [← ht]
      simpa [ht] using mem_dueSending ht
    | slotWait => simp

/-! ### All steps that are due -/

theorem mem_due {s : State} {i : Instr} :
    i ∈ s.due ↔ i ∈ s.dueEpoch ∨ i ∈ s.dueLine ∨ i ∈ s.dueTransmit := by
  simp [State.due]

end Sys2Proof.Machine
end

section
/-! SUPPORT. The statement on the step of an empty queue. -/

namespace Sys2Proof.Machine

/-- Besides the line and the unit a bit time moves the running pass alone, by some entries (R51). -/
theorem advance_moves (s : State) :
    ∃ u : State, s.advance = { u with
        line := s.advance.line, eu := s.advance.eu, free := s.free + 1 }
      ∧ (s.commit.pass = none → u = s)
      ∧ (∀ p, s.commit.pass = some p → ∃ k ≤ s.staging.length, u = State.commitSome p.epoch k
          { s with commit := { s.commit with pass := some { p with time := p.time + 1 } } }) := by
  refine ⟨s.advancePass, ?_, advancePass_idle, fun p => advancePass_commitsSome⟩
  have hfree : s.advancePass.free = s.free := by simp
  rw [← hfree]
  rfl

/-- Settles O2: the due steps are those of the three lists, each read off its list; a bit time is
`State.advance`, part by part. -/
theorem emptyQueueStepIsDueStepOrBitTime : Obligations.EmptyQueueStepIsDueStepOrBitTime := by
  refine ⟨fun s hq => ?_, ?_, fun s => ?_⟩
  · have hstep : step s = s.idleStep := by simp [step, hq]
    rw [hstep]
    exact ⟨idleStep_of_none_due, idleStep_of_due⟩
  · rintro s t rfl
    refine ⟨advance_moves s, ?_, ?_, fun a => State.advance_sendPos, lineNow_of_drive,
      fun hd a => lineNow_of_sent hd, lineNow_of_silent⟩
    · rw [s.advance_eu]
      simp [EpochUnit.advance]
    · rw [s.advance_line]
      generalize s.advance.line.sendPos = place
      cases hc : s.line.charTime with
      | none => simp [Line.advance, hc, busFaultBits]
      | some n =>
        have hboundary : n + 1 < characterBits ↔ n < 10 := Nat.succ_lt_succ_iff
        simp [Line.advance, hc, busFaultBits, hboundary]
  · refine ⟨?epochExpiry, ?holdRunOut, ?elnFall, ?notDrivable, ?lineLowLimit, ?lineRestored,
      ?quietTailEnd, ?passAtItsEnd, ?noPass, ?busIdle, ?slotClean, ?slotBroken, ?startEdge,
      ?breakDriveStart, ?breakDriven, ?breakSeen, ?breakEnd, ?busFault, ?character, ?claim, ?claimWon,
      ?lastCheckSent, ?arbitrationLoss, ?bitFault⟩
    case passAtItsEnd =>
      refine fun p hp hbound => ⟨s.releaseLevel, mem_due.2 (Or.inl (mem_dueEpoch.2 ?_))⟩
      simp [hp, hbound]
    case character =>
      refine fun hst ht i hi => mem_due.2 (Or.inr (Or.inl (mem_dueLine.2 ?_)))
      simp [mem_dueReading, hst, ht, hi, judgeSamples_endsCharacter hi]
    case noPass =>
      intro hp l
      simp [mem_due, mem_dueEpoch, mem_dueLine, mem_dueReading, mem_dueTransmit, endsCharacter, hp]
    all_goals simp [mem_due, mem_dueEpoch, mem_dueLine, mem_dueReading, mem_dueTransmit,
      endsCharacter, characterBits, breakBits, busFaultBits]

end Sys2Proof.Machine
end

section
/-! SUPPORT. The staging table and the word buffers (R1, R15, R38): what moves them, and that every move keeps
their form. -/

namespace Sys2Proof.Machine

/-- The form of the staging table and of the two word buffers. -/
def tablesOk (s : State) : Prop := stagingBounded s.staging ∧ storesWf s

/-- t has the words of image and draft of s, and its staging table or an empty one. -/
def keepsTables (s t : State) : Prop :=
  (t.staging = s.staging ∨ t.staging = [])
    ∧ t.image.words = s.image.words ∧ t.image.draft = s.image.draft

@[simp] theorem stagingBounded_nil : stagingBounded [] := by simp [stagingBounded]

/-- A table without its oldest entry is as bounded as before. -/
theorem stagingBounded_tail {e : StagingEntry} {t : List StagingEntry}
    (h : stagingBounded (e :: t)) : stagingBounded t := by
  obtain ⟨hlength, hdistinct⟩ := h
  exact ⟨Nat.le_of_succ_le hlength, (List.nodup_cons.1 hdistinct).2⟩

theorem tablesOk_of_keeps {s t : State} (hk : keepsTables s t) (h : tablesOk s) : tablesOk t := by
  obtain ⟨hstaging, hwords, hdraft⟩ := hk
  refine ⟨?_, by simpa only [storesWf, hwords, hdraft] using h.2⟩
  rcases hstaging with hsame | hempty
  · exact hsame ▸ h.1
  · simp [hempty]

/-- The resets leave an empty table and empty buffers (R12, R13). -/
theorem tablesOk_fresh {t : State} (himage : t.image = ImageStore.reset) (hstaging : t.staging = []) :
    tablesOk t := by
  simp [tablesOk, storesWf, himage, hstaging, ImageStore.reset, Store.wf, Store.wfFrom]

/-! ### Staging and the commit pass -/

theorem stageDispatch_tablesOk {s : State} (h : tablesOk s) (b : Block) (n : StationNo) (q : Byte)
    (sp : Span) (ws : List Word) : tablesOk (s.stageDispatch b n q sp ws) := by
  unfold State.stageDispatch
  split
  · exact ⟨stage_bounded h.1 b n q _, h.2⟩
  · exact h

/-- A commit moves the oldest entry out of the table and writes its words (R48, R50). -/
theorem commitHead_tablesOk {s : State} (h : tablesOk s) (epoch : Byte) :
    tablesOk (s.commitHead epoch) := by
  obtain ⟨hstaging, hwords, hdraft⟩ := h
  unfold State.commitHead
  split
  · exact ⟨hstaging, hwords, hdraft⟩
  next e rest hs =>
    exact ⟨stagingBounded_tail (hs ▸ hstaging), Store.writeMasked_wf hwords e.block e.words, hdraft⟩

theorem commitSome_tablesOk {s : State} (h : tablesOk s) (epoch : Byte) (n : Nat) :
    tablesOk (State.commitSome epoch n s) := by
  induction n generalizing s with
  | zero => exact h
  | succ n ih => exact ih (commitHead_tablesOk h epoch)

theorem finishPass_tablesOk {s : State} (h : tablesOk s) : tablesOk s.finishPass := by
  unfold State.finishPass
  split
  · exact h
  next p _ =>
    exact tablesOk_of_keeps (by simp [keepsTables])
      (commitSome_tablesOk h p.epoch s.staging.length)

/-! ### Moves of the station -/

@[simp] theorem State.completeLeave_staging (s : State) : s.completeLeave.staging = [] := by
  simp [State.completeLeave]

theorem completeLeave_keepsTables (s : State) : keepsTables s s.completeLeave := by simp [keepsTables]

theorem leaveNow_tablesOk {s : State} (h : tablesOk s) : tablesOk s.leaveNow :=
  tablesOk_of_keeps (completeLeave_keepsTables _) (finishPass_tablesOk h)

theorem settle_tablesOk {s : State} (before : Bool) (h : tablesOk s) :
    tablesOk (State.settle before s) := tablesOk_of_keeps (by simp [keepsTables]) h

/-- The fall-back keeps the table, unless the LEAVE that was pending completes with it (R139). -/
theorem fallBack_tablesOk {s : State} (h : tablesOk s) : tablesOk s.fallBack := by
  unfold State.fallBack
  dsimp only
  split
  · exact leaveNow_tablesOk h
  · exact tablesOk_of_keeps (by simp [keepsTables]) h

theorem failAttempt_tablesOk {s : State} (h : tablesOk s) : tablesOk s.failAttempt := by
  unfold State.failAttempt
  dsimp only
  split
  · exact h
  · split
    · exact h
    · split
      · exact fallBack_tablesOk h
      · exact h

theorem countObjection_tablesOk {s : State} (h : tablesOk s) (metLow : Bool) :
    tablesOk (s.countObjection metLow) := by
  unfold State.countObjection
  dsimp only
  split
  · exact h
  · split
    · exact h
    · split
      · exact settle_tablesOk _ (fallBack_tablesOk h)
      · exact tablesOk_of_keeps (by simp [keepsTables]) h

theorem release_keepsTables (s : State) (eln : Level) : keepsTables s (s.release eln) := by
  unfold State.release
  dsimp only
  split <;> simp [keepsTables]

/-- After a pass the station moves by boundaries and entries that keep the table, or it leaves. -/
theorem afterPass_keepsTables (s : State) (eln : Level) : keepsTables s (s.afterPass eln) := by
  unfold State.afterPass
  dsimp only
  split
  next =>
    split
    · exact release_keepsTables _ eln
    · simp [keepsTables]
  all_goals (repeat' split) <;> simp [keepsTables, State.restore]

/-! ### Acceptances -/

theorem handOn_tablesOk {s : State} (h : tablesOk s) (d : Incoming) : tablesOk (s.handOn d) := by
  unfold State.handOn
  split
  · exact h
  · split
    · split
      · exact stageDispatch_tablesOk h _ _ _ _ _
      · exact h
    · split <;> exact h

theorem compareEpoch_tablesOk {s : State} (h : tablesOk s) (d : Incoming) :
    tablesOk (s.compareEpoch d) := by
  unfold State.compareEpoch
  dsimp only
  split
  · refine handOn_tablesOk ?_ d
    exact h
  · split
    · exact handOn_tablesOk h d
    · split <;> exact h

theorem acceptReceived_tablesOk {s : State} (h : tablesOk s) (d : Incoming) :
    tablesOk (s.acceptReceived d) := by
  unfold State.acceptReceived
  dsimp only
  split
  · exact tablesOk_of_keeps (by simp [keepsTables]) h
  · exact compareEpoch_tablesOk (tablesOk_of_keeps (by simp [keepsTables]) h) d

theorem ownBlock_tablesOk {s : State} (h : tablesOk s) (a : Attempt) (b : Block) :
    tablesOk (s.ownBlock a b) := by
  have hstaged := stageDispatch_tablesOk h b s.straps.sid a.seq a.entry.duty.span a.words
  unfold State.ownBlock
  dsimp only
  (repeat' split) <;> exact hstaged

theorem acceptOwn_tablesOk {s : State} (h : tablesOk s) (a : Attempt) : tablesOk (s.acceptOwn a) := by
  unfold State.acceptOwn
  dsimp only
  split
  · exact ownBlock_tablesOk (tablesOk_of_keeps (by simp [keepsTables]) h) a _
  · split <;> exact tablesOk_of_keeps (by simp [keepsTables]) h

/-! ### The commands -/

/-- A command of the list moves neither table nor image, so it keeps their form. -/
theorem tablesOk_of_keepsOwnership {s t : State} (hk : keepsOwnership s t) (h : tablesOk s) :
    tablesOk t := by
  obtain ⟨⟨-, -, himage, hstaging⟩, -⟩ := hk
  exact tablesOk_of_keeps ⟨Or.inl hstaging, by rw [himage], by rw [himage]⟩ h

theorem writeAct_tablesOk {s : State} (h : tablesOk s) {complete : Bool} {r : Result}
    {act : State → State} (ha : r = .ok → tablesOk (act s)) : tablesOk (s.writeAct complete r act) :=
  writeAct_keeps (fun u r hu => tablesOk_of_keepsOwnership (endTransaction_keepsOwnership u r) hu) h ha

theorem execWriteDraft_tablesOk {block first count : Byte} {data : List Byte} {s t : State}
    (h : tablesOk s) (he : execWriteDraft block first count data s = .next t) : tablesOk t := by
  unfold execWriteDraft at he
  dsimp only at he
  split at he <;> cases he
  · exact writeAct_tablesOk h fun _ => h
  · exact writeAct_tablesOk h fun _ => ⟨h.1, h.2.1, writeDraft_wf h.2.2 _ _ _⟩

theorem execPublish_tablesOk {block first count : Byte} {s t : State} (h : tablesOk s)
    (he : execPublish block first count s = .next t) : tablesOk t := by
  unfold execPublish at he
  dsimp only at he
  split at he <;> cases he
  · exact writeAct_tablesOk h fun _ => h
  · refine writeAct_tablesOk h fun _ => ?_
    unfold State.publish
    split <;> exact h

theorem execConfigure_tablesOk {args : List Byte} {s t : State} (h : tablesOk s)
    (he : execConfigure args s = .next t) : tablesOk t := by
  unfold execConfigure at he
  dsimp only at he
  split at he <;> cases he
  · exact writeAct_tablesOk h fun _ => h
  · exact writeAct_tablesOk h fun _ => tablesOk_fresh rfl rfl

theorem start_tablesOk {s : State} (h : tablesOk s) : tablesOk s.start := by
  unfold State.start
  dsimp only
  refine settle_tablesOk _ ?_
  split <;> exact h

theorem leave_tablesOk {s : State} (h : tablesOk s) : tablesOk s.leave := by
  unfold State.leave
  split
  · exact settle_tablesOk _ (leaveNow_tablesOk h)
  · exact h

theorem execBreakDriven_tablesOk {s t : State} (h : tablesOk s) (he : execBreakDriven s = .next t) :
    tablesOk t := by
  cases he
  dsimp only
  split
  · refine countObjection_tablesOk ?_ _
    exact h
  · exact h

theorem countBreak_tablesOk {s : State} (h : tablesOk s) : tablesOk s.countBreak :=
  tablesOk_of_keepsOwnership (countBreak_keepsOwnership s) h

theorem execBreakSeen_tablesOk {s t : State} (h : tablesOk s) (he : execBreakSeen s = .next t) :
    tablesOk t := by
  cases he
  dsimp only
  split
  · exact h
  · have heard : tablesOk (State.countBreak { s with line := { s.line with
        st := .inBreak, lrx := .dominant, peers := s.peersAtFall, idle := false, idleCount := 0
        run := breakBits, runSeen := true, charTime := none, samples := [], request := false }
        }).breakInDispatch :=
      tablesOk_of_keepsOwnership (breakInDispatch_keepsOwnership _) (countBreak_tablesOk h)
    split
    · exact settle_tablesOk _ (failAttempt_tablesOk heard)
    · exact heard

theorem execSlotBroken_tablesOk {s t : State} (h : tablesOk s) (he : execSlotBroken s = .next t) :
    tablesOk t := by
  cases he
  dsimp only
  split
  · exact h
  · have heard := countBreak_tablesOk (s := { s with line := { s.line with
        slot := none, st := .awaitRecessive, lrx := .dominant, peers := s.peersAtFall, idle := false
        idleCount := 0, run := if s.line.lrx = Level.dominant then s.line.run else 0, runSeen := true
        charTime := none, samples := [], request := false } }) h
    generalize State.countBreak _ = u at heard
    split
    · exact settle_tablesOk _ (failAttempt_tablesOk (by split <;> exact heard))
    · split <;> exact heard

/-- A clean slot accepts a dispatch, which is where the table grows (R39, R110). -/
theorem execSlotClean_tablesOk {s t : State} (h : tablesOk s) (he : execSlotClean s = .next t) :
    tablesOk t := by
  cases he
  dsimp only
  split
  · exact h
  · have hclosed : tablesOk { s with line := { s.line.toHunt with slot := none } } := h
    split
    next a _ =>
      split
      · exact h
      · exact acceptOwn_tablesOk hclosed a
    next =>
      split
      next d _ =>
        split
        · exact h
        · exact acceptReceived_tablesOk hclosed d
      next => exact h

theorem execArbitrationLoss_tablesOk {s t : State} (h : tablesOk s)
    (he : execArbitrationLoss s = .next t) : tablesOk t := by
  unfold execArbitrationLoss at he
  split at he <;> cases he
  · have hended : tablesOk { s.endAttempt with line := s.line.readBack .dominant } :=
      tablesOk_of_keeps (by simp [keepsTables]) h
    exact tablesOk_of_keepsOwnership (ownWasLost_keepsOwnership _) hended
  · exact h

theorem execBitFault_tablesOk {s t : State} (h : tablesOk s) (he : execBitFault s = .next t) :
    tablesOk t := by
  have fault (level : Level) : tablesOk (s.faultAt level) :=
    settle_tablesOk _ (failAttempt_tablesOk
      (show tablesOk { s.giveUp with line := s.line.readBack level } from
        tablesOk_of_keepsOwnership (giveUp_keepsOwnership s) h))
  unfold execBitFault at he
  split at he <;> cases he
  · exact fault _
  · exact fault _
  · exact h

theorem execClaim_keepsTables {s t : State} (he : execClaim s = .next t) : keepsTables s t := by
  unfold execClaim at he
  split at he <;> cases he
  · split <;> simp [keepsTables]
  · simp [keepsTables]

/-! ### The epoch line -/

/-- The commands of the epoch line but the end of a pass: they take boundaries and move the unit, or the
station leaves. -/
def movesUnit : Instr → Bool
  | .lowConditionStart | .epochExpiry | .elnFall | .elnRise | .notDrivable | .holdRunOut _
  | .lineLowLimit | .lineRestored => true
  | _ => false

theorem settle_keepsTables {s t : State} (before : Bool) (h : keepsTables s t) :
    keepsTables s (State.settle before t) := by simpa [keepsTables] using h

theorem exec_keepsTables {i : Instr} {s t : State} (hi : movesUnit i = true)
    (he : exec i s = .next t) : keepsTables s t := by
  cases i with
  | epochExpiry | elnFall | elnRise =>
    cases he
    refine settle_keepsTables _ ?_
    dsimp only
    (repeat' split) <;> simp [keepsTables]
  | holdRunOut eln =>
    cases he
    split
    · split
      · exact settle_keepsTables _ (release_keepsTables s eln)
      · simp [keepsTables]
    · simp [keepsTables]
  | lowConditionStart | notDrivable | lineLowLimit | lineRestored =>
    cases he
    (repeat' split) <;> simp [keepsTables, State.restore]
  | _ => cases hi

theorem execCommitPassEnd_tablesOk {eln : Level} {s t : State} (h : tablesOk s)
    (he : execCommitPassEnd eln s = .next t) : tablesOk t := by
  cases he
  split
  · exact settle_tablesOk _ (tablesOk_of_keeps (afterPass_keepsTables _ eln) (finishPass_tablesOk h))
  · exact h

/-! ### Every command, and the step -/

theorem exec_tablesOk {i : Instr} {s t : State} (h : tablesOk s) (he : exec i s = .next t) :
    tablesOk t := by
  by_cases hi : leavesOwnership i = true
  · exact tablesOk_of_keepsOwnership (exec_keepsOwnership hi he) h
  cases i with
  | hardwareReset => cases he; exact tablesOk_fresh rfl rfl
  | writeDraft => exact execWriteDraft_tablesOk h he
  | publish => exact execPublish_tablesOk h he
  | configure => exact execConfigure_tablesOk h he
  | start => cases he; exact writeAct_tablesOk h fun _ => start_tablesOk h
  | leave => cases he; exact writeAct_tablesOk h fun _ => leave_tablesOk h
  | breakDriven => exact execBreakDriven_tablesOk h he
  | breakSeen => exact execBreakSeen_tablesOk h he
  | slotBroken => exact execSlotBroken_tablesOk h he
  | slotClean => exact execSlotClean_tablesOk h he
  | claim => exact tablesOk_of_keeps (execClaim_keepsTables he) h
  | arbitrationLoss => exact execArbitrationLoss_tablesOk h he
  | bitFault => exact execBitFault_tablesOk h he
  | commitPassEnd => exact execCommitPassEnd_tablesOk h he
  | lowConditionStart | epochExpiry | elnFall | elnRise | notDrivable | holdRunOut | lineLowLimit
  | lineRestored => exact tablesOk_of_keeps (exec_keepsTables rfl he) h
  | _ => exact absurd rfl hi

/-- One bit time may commit some entries of a running pass (R51). -/
theorem advance_tablesOk {s : State} (h : tablesOk s) : tablesOk s.advance := by
  obtain ⟨u, hadvance, hidle, hrunning⟩ := advance_moves s
  rw [hadvance]
  cases hp : s.commit.pass with
  | none =>
    rw [hidle hp]
    exact h
  | some p =>
    obtain ⟨k, -, rfl⟩ := hrunning p hp
    refine commitSome_tablesOk (s := { s with commit := { s.commit with pass := _ } }) ?_ p.epoch k
    exact h

theorem step_tablesOk {s t : State} (h : tablesOk s) (hs : step s = .next t) : tablesOk t := by
  unfold step at hs
  split at hs
  · by_cases hdue : s.due = []
    · rw [idleStep_of_none_due hdue] at hs
      cases hs
      exact advance_tablesOk h
    · obtain ⟨i, -, hi⟩ := idleStep_of_due hdue
      exact exec_tablesOk (s := { s with free := s.free + 1 }) h (hi ▸ hs)
  next c rest _ => exact exec_tablesOk (s := { s with pending := rest }) h hs

/-- Settles O55: the table and the buffers change by staging, by the commits of a pass, by WRITE_DRAFT and by
emptying alone, and each keeps their form. -/
theorem everyStepKeepsStagingAndStores : Obligations.EveryStepKeepsStagingAndStores :=
  fun _ _ hstaging hstores hs => step_tablesOk ⟨hstaging, hstores⟩ hs

end Sys2Proof.Machine
end

section
/-! SUPPORT. Staging a dispatch, the status a commit gives a block, and the room question (R40, R41, R43, R44,
R49). -/

namespace Sys2Proof.Machine

/-! ### Staging (R40, R41) -/

theorem Span.has_iff (sp : Span) (w : WordNo) : sp.has w = true ↔ sp.first ≤ w ∧ w ≤ sp.last := by
  simp [Span.has]

/-- The words of a span stand at its positions, and no other position carries one. -/
theorem spanWords_get (sp : Span) (ws : List Word) (w : WordNo) :
    (spanWords sp ws)[w] = if sp.first ≤ w ∧ w ≤ sp.last
      then some (ws.getD (w.val - sp.first.val) 0) else none := by
  simp only [spanWords, ofFn_get, Span.has_iff]

/-- A merge overwrites the words of the span and keeps the others (R41). -/
theorem merge_words (e : StagingEntry) (seq : Byte) (sp : Span) (ws : List Word) (w : WordNo) :
    (e.merge seq (spanWords sp ws)).words[w] = if sp.first ≤ w ∧ w ≤ sp.last
      then some (ws.getD (w.val - sp.first.val) 0) else e.words[w] := by
  simp only [StagingEntry.merge, ofFn_get, spanWords_get]
  split <;> simp

theorem stage_creates {t : List StagingEntry} {b : Block} (hnew : ∀ e ∈ t, e.block ≠ b)
    (hroom : t.length < 16) (source : StationNo) (seq : Byte) (ws : Vector (Option Word) 16) :
    stage t b source seq ws = t ++ [⟨b, source, ws, seq, seq, false⟩] := by
  have hno : hasEntry t b = false := by simpa [hasEntry] using hnew
  simp [stage, hno, Config.stagingSize, hroom]

/-- Entries of other blocks are passed over by a merge. -/
theorem map_merge_other {t : List StagingEntry} {b : Block} (h : ∀ e ∈ t, e.block ≠ b) (seq : Byte)
    (ws : Vector (Option Word) 16) :
    (t.map fun e => if e.block = b then e.merge seq ws else e) = t := by
  calc (t.map fun e => if e.block = b then e.merge seq ws else e)
      = t.map id := List.map_congr_left fun e he => if_neg (h e he)
    _ = t := List.map_id t

/-- The block's one entry takes the dispatch in its place (R41). -/
theorem stage_merges {pre post : List StagingEntry} {e : StagingEntry}
    (hpre : ∀ x ∈ pre, x.block ≠ e.block) (hpost : ∀ x ∈ post, x.block ≠ e.block)
    (source : StationNo) (seq : Byte) (ws : Vector (Option Word) 16) :
    stage (pre ++ e :: post) e.block source seq ws = pre ++ e.merge seq ws :: post := by
  have hentry : hasEntry (pre ++ e :: post) e.block = true := by simp [hasEntry]
  rw [stage, if_pos hentry, List.map_append, List.map_cons, if_pos rfl, map_merge_other hpre,
    map_merge_other hpost]

/-- Settles O36: staging appends where the block has no entry and merges in place where it has one. -/
theorem stagingCreatesOrMerges : Obligations.StagingCreatesOrMerges := by
  refine fun t b source seq sp ws => ⟨spanWords_get sp ws, fun hnew hroom =>
    stage_creates hnew hroom source seq _, ?_⟩
  rintro pre e post rfl rfl hpre hpost
  refine ⟨e.merge seq (spanWords sp ws), stage_merges hpre hpost source seq _, rfl, rfl, rfl, rfl, ?_,
    merge_words e seq sp ws⟩
  simp [StagingEntry.merge, bne, beq_eq_decide]

/-! ### The status of a commit (R49) -/

theorem mem_allWords (w : WordNo) : w ∈ allWords := by
  revert w
  decide

theorem wholeBlock_iff (e : StagingEntry) :
    e.wholeBlock = true ↔ ∀ w : WordNo, e.words[w] ≠ none := by
  simp [-Fin.getElem_fin, StagingEntry.wholeBlock, mem_allWords, Option.isSome_iff_ne_none]

theorem not_wholeBlock_iff (e : StagingEntry) :
    e.wholeBlock = false ↔ ∃ w : WordNo, e.words[w] = none := by
  rw [← Bool.not_eq_true, wholeBlock_iff]
  simp only [not_forall, not_not]

/-- A full entry makes the block CURRENT from any status. -/
theorem commitStatus_full {e : StagingEntry} (h : e.wholeBlock = true ∧ e.gap = false)
    (before : BlockStatus) (stored : Byte) : commitStatus e before stored = .current := by
  simp [commitStatus, h]

/-- A following entry keeps a block's status, but makes an EMPTY block TORN. -/
theorem commitStatus_following {e : StagingEntry} {stored : Byte}
    (h : e.wholeBlock = false ∧ e.gap = false ∧ e.firstSeq = stored + 1) (before : BlockStatus) :
    commitStatus e before stored = if before = .empty then .torn else before := by
  cases before <;> simp [commitStatus, h]

/-- A broken entry leaves a STALE block STALE and tears any other. -/
theorem commitStatus_broken {e : StagingEntry} {stored : Byte}
    (hfull : ¬ (e.wholeBlock = true ∧ e.gap = false))
    (hfollowing : ¬ (e.wholeBlock = false ∧ e.gap = false ∧ e.firstSeq = stored + 1))
    (before : BlockStatus) :
    commitStatus e before stored = if before = .stale then .stale else .torn := by
  have hno : ¬ (e.wholeBlock && !e.gap) = true := by simpa using hfull
  have hno' : ¬ (!e.wholeBlock && !e.gap && e.firstSeq == stored + 1) = true := by
    simpa [and_assoc] using hfollowing
  simp only [commitStatus, if_neg hno, if_neg hno']
  cases before <;> rfl

/-- Settles O48: full, following and broken are the three branches of `commitStatus`. -/
theorem statusTransitionTable : Obligations.StatusTransitionTable := by
  intro e before stored full following hfull hfollowing
  rw [← wholeBlock_iff] at hfull
  rw [← not_wholeBlock_iff] at hfollowing
  rw [hfull, hfollowing]
  refine ⟨fun h => commitStatus_full h before stored, fun h => ?_, fun h h' => ?_⟩
  · rw [commitStatus_following h]
    cases before <;> rfl
  · rw [commitStatus_broken h h']
    cases before <;> rfl

/-! ### The room question (R43, R44) -/

theorem roomFor_iff (t : List StagingEntry) (b : Block) :
    roomFor t b = true ↔ (∃ e ∈ t, e.block = b) ∨ t.length < 16 := by
  simp [roomFor, hasEntry, Config.stagingSize]

theorem asksRoom_iff (s : State) (d : Incoming) :
    s.asksRoom d = true ↔
      (s.cfg.subs[d.block] = true ∨ s.cfg.owners[d.block] = some s.straps.sid)
        ∧ s.cfg.owners[d.block] = some d.sender ∧ d.sender ≠ s.straps.sid
        ∧ ((s.mem.station = .listen ∧ s.mem.epochTaken = false) ∨ d.epoch = s.eu.epoch) := by
  simp [-Fin.getElem_fin, State.asksRoom, State.subscribed, State.owned, State.owner, and_assoc]

section
variable {s : State} {d : Incoming}

theorem askRoom_unasked (h : ¬ s.asksRoom d = true) : s.askRoom d = s.follow .header d := if_neg h

/-- With room, and without it where no break is raised, the answer is kept. -/
theorem askRoom_answered (h : s.asksRoom d = true)
    (hr : roomFor s.staging d.block = true ∨ s.mem.station.objects = false) :
    s.askRoom d = s.follow .header { d with room := some (roomFor s.staging d.block) } := by
  have hno : ¬ (!roomFor s.staging d.block && s.mem.station.objects) = true := by
    rcases hr with hr | hr <;> simp [hr]
  rw [State.askRoom, if_pos h]
  exact if_neg hno

/-- No room where the station raises breaks: STAGING_REFUSED and an objection (R44, R122). -/
theorem askRoom_refused (h : s.asksRoom d = true) (hr : roomFor s.staging d.block = false)
    (ho : s.mem.station.objects = true) :
    s.askRoom d = (s.post .stagingRefused (some d.sender) (some d.block)).object := by
  simp [State.askRoom, h, hr, ho]

/-- The station after a well-formed covered character: the line past its stop bit, and the running check value
over it (R62, R78). -/
def State.takenCharacter (s : State) (data : Byte) : State :=
  State.cover { s with line := afterCharacter s.line data false false } data

/-- The second character after the claim of an UPDATE or REFRESH is the epoch character (R81). -/
theorem exec_epochCharacter (hline : s.line.st = .assemble) (hrx : s.rx.st = .following .header d)
    (hown : d.own = false) (hkind : d.kind ≠ .roll) (hchars : d.chars = 1) (data : Byte) :
    exec (.characterDelivered data false false) s
      = .next ((s.takenCharacter data).askRoom { d with chars := 2, epoch := data }) := by
  simp [State.takenCharacter, exec, execCharacterDelivered, hline, State.deliver, hrx, hown,
    State.takeHeader, hkind, hchars, Line.stopSampled_afterCharacter]

end

/-- Settles O27: the character is delivered to `State.askRoom`, and each answer is one of its cases. -/
theorem roomQuestionAtEpochCharacter : Obligations.RoomQuestionAtEpochCharacter := by
  intro data d s hline hrx hown hkind hchars asked room hasked hroom
  have hexec := exec_epochCharacter hline hrx hown hkind hchars data
  have hask : (s.takenCharacter data).asksRoom { d with chars := 2, epoch := data } = true ↔ asked :=
    (asksRoom_iff _ _).trans hasked.symm
  have hfree : roomFor s.staging d.block = true ↔ room := (roomFor_iff _ _).trans hroom.symm
  by_cases ha : asked
  · by_cases hr : room
    · have hyes := hfree.2 hr
      rw [askRoom_answered (hask.2 ha) (Or.inl hyes)] at hexec
      exact ⟨_, hexec, rfl, rfl, rfl, fun h => absurd ha h,
        fun _ _ => ⟨by rw [← hyes]; rfl, rfl, rfl⟩, fun _ h => absurd hr h, fun _ h => absurd hr h⟩
    · have hno : roomFor s.staging d.block = false := Bool.eq_false_iff.2 fun h => hr (hfree.1 h)
      by_cases ho : s.mem.station.objects = true
      · rw [askRoom_refused (hask.2 ha) hno ho] at hexec
        refine ⟨_, hexec, rfl, rfl, rfl, fun h => absurd ha h, fun _ h => absurd h hr,
          fun _ _ hj hm => ?_, fun _ _ _ => ⟨rfl, ?_, rfl⟩⟩
        · exact absurd ((objects_iff _).1 ho) (not_or.2 ⟨hj, hm⟩)
        · exact (congrArg (s.line.request || ·) ho).trans (Bool.or_true _)
      · rw [askRoom_answered (hask.2 ha) (Or.inr (Bool.eq_false_iff.2 ho))] at hexec
        exact ⟨_, hexec, rfl, rfl, rfl, fun h => absurd ha h, fun _ h => absurd h hr,
          fun _ _ _ _ => ⟨by rw [← hno]; rfl, rfl, rfl⟩,
          fun _ _ h => absurd ((objects_iff _).2 h) ho⟩
  · rw [askRoom_unasked fun h => ha (hask.1 h)] at hexec
    exact ⟨_, hexec, rfl, rfl, rfl, fun _ => ⟨rfl, rfl, rfl⟩, fun h => absurd h ha,
      fun h => absurd h ha, fun h => absurd h ha⟩

end Sys2Proof.Machine
end

section
/-! SUPPORT. The commit pass (R47 to R52): the entries of the table go into the image one after another, so
what the pass leaves is the fold of the commits over the table. -/

namespace Sys2Proof.Machine

/-! ### One commit (R48 to R50) -/

/-- Two words stand at one address only if they are the same word of the same block. -/
theorem wordAddr_inj {b c : Block} {w v : WordNo} : wordAddr b w = wordAddr c v ↔ b = c ∧ w = v := by
  have hw := w.isLt
  have hv := v.isLt
  simp only [wordAddr, Fin.ext_iff]
  omega

/-- A masked write leaves the words of other blocks, and those for which the entry carries none. -/
theorem Store.read_writeMasked_kept {m : Store} (h : m.wf = true) {b c : Block}
    {ws : Vector (Option Word) 16} {v : WordNo} (hkept : c = b → ws[v] = none) :
    (m.writeMasked b ws).read (wordAddr c v) = m.read (wordAddr c v) := by
  unfold Store.writeMasked
  generalize allWords = l
  induction l generalizing m with
  | nil => rfl
  | cons w l ih =>
    rw [List.foldl_cons]
    split
    next x hx =>
      have hne : wordAddr c v ≠ wordAddr b w := by
        rw [Ne, wordAddr_inj]
        rintro ⟨hb, rfl⟩
        simp [hkept hb] at hx
      rw [ih (Store.write_wf h _ x), Store.read_write h, if_neg hne]
    next => exact ih h

/-- A word that the entry carries stands in its place after the masked write (R48). -/
theorem Store.read_writeMasked_carried {m : Store} (h : m.wf = true) {b : Block}
    {ws : Vector (Option Word) 16} {v : WordNo} {x : Word} (hcarried : ws[v] = some x) :
    (m.writeMasked b ws).read (wordAddr b v) = x := by
  have hahead : v ∈ allWords ∨ m.read (wordAddr b v) = x := Or.inl (mem_allWords v)
  unfold Store.writeMasked
  generalize allWords = l at hahead ⊢
  induction l generalizing m with
  | nil => exact hahead.resolve_left List.not_mem_nil
  | cons w l ih =>
    rw [List.foldl_cons]
    by_cases hv : v = w
    · subst hv
      simp only [hcarried]
      exact ih (Store.write_wf h _ x) (Or.inr (by rw [Store.read_write h, if_pos rfl]))
    · have hahead' : v ∈ l ∨ m.read (wordAddr b v) = x :=
        hahead.imp_left fun hm => (List.mem_cons.1 hm).resolve_left hv
      split
      next y _ =>
        have hne : wordAddr b v ≠ wordAddr b w := fun he => hv (wordAddr_inj.1 he).2
        refine ih (Store.write_wf h _ y) ?_
        rwa [Store.read_write h, if_neg hne]
      next => exact ih h hahead'

theorem Store.read_writeMasked_own {m : Store} (h : m.wf = true) (b : Block)
    (ws : Vector (Option Word) 16) (v : WordNo) :
    (m.writeMasked b ws).read (wordAddr b v) = (ws[v]).getD (m.read (wordAddr b v)) := by
  cases hv : ws[v] with
  | none => exact Store.read_writeMasked_kept h fun _ => hv
  | some x => exact Store.read_writeMasked_carried h hv

/-- The record that a commit leaves its block with (R49, R50). -/
def committedRec (epoch : Byte) (e : StagingEntry) (r : BlockRec) : BlockRec :=
  ⟨commitStatus e r.status r.seq, e.lastSeq, some epoch⟩

theorem ImageStore.commit_block_own (im : ImageStore) (epoch : Byte) (e : StagingEntry) :
    (im.commit epoch e).blocks[e.block] = committedRec epoch e im.blocks[e.block] :=
  put_get_self _ _ _

theorem ImageStore.commit_block_other (im : ImageStore) (epoch : Byte) {e : StagingEntry} {b : Block}
    (h : e.block ≠ b) : (im.commit epoch e).blocks[b] = im.blocks[b] := put_get_ne _ _ h.symm

theorem ImageStore.commit_wf {im : ImageStore} (h : im.words.wf = true) (epoch : Byte)
    (e : StagingEntry) : (im.commit epoch e).words.wf = true :=
  Store.writeMasked_wf h e.block e.words

/-! ### A pass over the table -/

/-- The image after the entries of a table, in arrival order. -/
def ImageStore.commitAll (im : ImageStore) (epoch : Byte) (t : List StagingEntry) : ImageStore :=
  t.foldl (fun acc e => acc.commit epoch e) im

@[simp] theorem ImageStore.commitAll_cons (im : ImageStore) (epoch : Byte) (e : StagingEntry)
    (t : List StagingEntry) :
    im.commitAll epoch (e :: t) = (im.commit epoch e).commitAll epoch t := rfl

/-- A pass moves the words and the records of blocks alone. -/
theorem ImageStore.commitAll_frame (im : ImageStore) (epoch : Byte) (t : List StagingEntry) :
    im.commitAll epoch t = { im with
      words := (im.commitAll epoch t).words, blocks := (im.commitAll epoch t).blocks } := by
  induction t generalizing im with
  | nil => rfl
  | cons e t ih =>
    rw [commitAll_cons, ih]
    rfl

/-- A block without an entry keeps its record and its words. -/
theorem ImageStore.commitAll_other {im : ImageStore} (h : im.words.wf = true) (epoch : Byte)
    {t : List StagingEntry} {b : Block} (hb : ∀ e ∈ t, e.block ≠ b) :
    (im.commitAll epoch t).blocks[b] = im.blocks[b]
      ∧ ∀ w : WordNo, (im.commitAll epoch t).words.read (wordAddr b w)
          = im.words.read (wordAddr b w) := by
  induction t generalizing im with
  | nil => exact ⟨rfl, fun _ => rfl⟩
  | cons e t ih =>
    have he : e.block ≠ b := hb e List.mem_cons_self
    obtain ⟨hrec, hwords⟩ := ih (commit_wf h epoch e) fun x hx => hb x (List.mem_cons_of_mem e hx)
    rw [commitAll_cons]
    refine ⟨hrec.trans (commit_block_other im epoch he), fun w => (hwords w).trans ?_⟩
    exact Store.read_writeMasked_kept h fun hbe => absurd hbe.symm he

/-- A block with an entry, the only one of its block, is committed by that entry (R38, R48 to R50). -/
theorem ImageStore.commitAll_own {im : ImageStore} (h : im.words.wf = true) (epoch : Byte)
    {t : List StagingEntry} (hdistinct : (t.map StagingEntry.block).Nodup) {e : StagingEntry}
    (he : e ∈ t) :
    (im.commitAll epoch t).blocks[e.block] = committedRec epoch e im.blocks[e.block]
      ∧ ∀ w : WordNo, (im.commitAll epoch t).words.read (wordAddr e.block w)
          = (e.words[w]).getD (im.words.read (wordAddr e.block w)) := by
  induction t generalizing im with
  | nil => exact absurd he List.not_mem_nil
  | cons x t ih =>
    rw [List.map_cons, List.nodup_cons] at hdistinct
    obtain ⟨hx, hdistinct⟩ := hdistinct
    rw [commitAll_cons]
    rcases List.mem_cons.1 he with rfl | he
    · have hrest : ∀ y ∈ t, y.block ≠ e.block := fun y hy hb => hx (hb ▸ List.mem_map_of_mem hy)
      obtain ⟨hrec, hwords⟩ := commitAll_other (commit_wf h epoch e) epoch hrest
      exact ⟨hrec.trans (commit_block_own im epoch e), fun w =>
        (hwords w).trans (Store.read_writeMasked_own h e.block e.words w)⟩
    · have hne : x.block ≠ e.block := fun hb => hx (hb ▸ List.mem_map_of_mem he)
      obtain ⟨hrec, hwords⟩ := ih (commit_wf h epoch x) hdistinct he
      rw [commit_block_other im epoch hne] at hrec
      refine ⟨hrec, fun w => (hwords w).trans ?_⟩
      exact congrArg (e.words[w]).getD
        (Store.read_writeMasked_kept h fun hbe => absurd hbe.symm hne)

/-- The report after the entries of a table, in arrival order (R50, R54). -/
def Report.appendAll (r : Report) (t : List StagingEntry) : Report :=
  { r with blocks := r.blocks ++ t.map fun e => (e.block, e.source) }

theorem Report.appendAll_cons (r : Report) (e : StagingEntry) (t : List StagingEntry) :
    r.appendAll (e :: t) = (r.append e).appendAll t := by
  simp [Report.appendAll, Report.append]

/-- A pass over the whole table is the fold of its commits. -/
theorem State.commitSome_length {s : State} {r : Report} (hr : s.commit.report = some r)
    (epoch : Byte) :
    State.commitSome epoch s.staging.length s = { s with
      image := s.image.commitAll epoch s.staging
      staging := []
      commit := { s.commit with report := some (r.appendAll s.staging) } } := by
  generalize ht : s.staging = t
  induction t generalizing s r with
  | nil =>
    have hempty : r.appendAll [] = r := by simp [Report.appendAll]
    rw [hempty, ← hr]
    exact congrArg (fun table => { s with staging := table }) ht
  | cons e t ih =>
    have hhead : s.commitHead epoch = { s with
        image := s.image.commit epoch e
        staging := t
        commit := { s.commit with report := some (r.append e) } } := by
      simp [State.commitHead, ht, hr]
    rw [List.length_cons, State.commitSome, hhead, ih rfl rfl, Report.appendAll_cons,
      ImageStore.commitAll_cons]

/-! ### The end of the pass -/

/-- The events after EPOCH_COMMITTED, posted as the report mode calls for it (R52). -/
def committedEvents (s : State) (epoch : Byte) (n : Nat) : List Event :=
  if s.cfg.mode = .every ∨ (s.cfg.mode = .changes ∧ 0 < n)
  then addEvent s.events ⟨.epochCommitted, epoch, none, none, some n⟩ s.eu.epoch
  else s.events

theorem State.postCommitted_eq {s : State} {r : Report} (hr : s.commit.report = some r)
    (epoch : Byte) :
    s.postCommitted epoch = { s with events := committedEvents s epoch r.blocks.length } := by
  have hn : ((s.commit.report.map fun r => r.blocks.length).getD 0) = r.blocks.length := by simp [hr]
  unfold State.postCommitted committedEvents
  rw [hn]
  cases s.cfg.mode with
  | none => simp
  | every => simp [State.postAt]
  | changes =>
    by_cases hpos : 0 < r.blocks.length
    · simp [hpos, State.postAt]
    · simp [hpos]

/-- The station as a running pass has ended: the table is in the image and in the report, EPOCH_COMMITTED is
posted, and the own-boundary window is closed (R32, R34, R51, R52). -/
theorem State.finishPass_eq {s : State} {p : Pass} {r : Report} (hp : s.commit.pass = some p)
    (hr : s.commit.report = some r) :
    s.finishPass = { s with
      image := s.image.commitAll p.epoch s.staging
      staging := []
      commit := ⟨none, some (r.appendAll s.staging)⟩
      events := committedEvents s p.epoch (r.appendAll s.staging).blocks.length
      eu := { s.eu with ownWindow := false } } := by
  simp only [State.finishPass, hp, State.commitSome_length hr]
  rw [State.postCommitted_eq rfl]
  rfl

/-- With the own-boundary window closed the low condition is the reading of the line (R34). -/
theorem EpochUnit.low_windowClosed {v : EpochUnit} (hunit : v.unit = .assert)
    (hwindow : v.ownWindow = false) : v.low = (v.eln == .dominant) := by
  simp [EpochUnit.low, hunit, hwindow]

/-- In ASSERT with the hold still running the end of the pass records leave-pending, and the quiet tail begins
if the low condition ends with the window (R31, R34, R37). -/
theorem exec_commitPassEnd_holding {s : State} (eln : Level) (hp : s.commit.pass ≠ none)
    (hunit : s.eu.unit = .assert) (hhold : s.eu.holdOut = false) :
    exec (.commitPassEnd eln) s = .next { s.finishPass with eu := { s.finishPass.eu with
      leaveOut := s.mem.leavePending
      tail := if s.eu.low = true ∧ s.eu.eln = .recessive then some 0 else s.eu.tail } } := by
  have heu := State.finishPass_eu hp
  have hmem : s.finishPass.mem = s.mem := by simp
  rw [exec_commitPassEnd eln hp]
  generalize s.finishPass = u at heu hmem ⊢
  have hafter : u.afterPass eln
      = { u with eu := { u.eu with leaveOut := s.mem.leavePending } } := by
    simp [State.afterPass, heu, hunit, hhold, hmem]
  have hlow : (u.afterPass eln).eu.low = (s.eu.eln == .dominant) := by
    rw [hafter, heu]
    exact EpochUnit.low_windowClosed hunit rfl
  have htail : u.eu.tail = s.eu.tail := by rw [heu]
  cases heln : s.eu.eln with
  | dominant =>
    have hbefore : s.eu.low = true := EpochUnit.low_of_fall (by simp [hunit]) heln
    rw [settle_same (by simp [hlow, heln, hbefore]), hafter]
    simp [← htail]
  | recessive =>
    have hends : (u.afterPass eln).eu.low = false := by simp [hlow, heln]
    cases hbefore : s.eu.low with
    | false =>
      rw [settle_same hends, hafter]
      simp [← htail]
    | true =>
      rw [settle_end hends, hafter]
      simp

/-- Settles O49: the pass is the fold of the commits over a table with one entry for each block. -/
theorem commitPassEndCommitsEveryEntry : Obligations.CommitPassEndCommitsEveryEntry := by
  rintro eln p r s u hp hr ⟨-, hdistinct⟩ hwf rfl
  have hexec := exec_commitPassEnd_holding eln (s := s) (by simp [hp])
  rw [State.finishPass_eq hp hr] at hexec ⊢
  refine ⟨?_, rfl, fun e he => ?_, fun b hb => ?_, ?_, hexec⟩
  · simp only
    rw [← ImageStore.commitAll_frame]
  · obtain ⟨hrec, hwords⟩ := ImageStore.commitAll_own hwf p.epoch hdistinct he
    exact ⟨hwords, hrec⟩
  · exact ImageStore.commitAll_other hwf p.epoch hb
  · simp [committedEvents, Report.appendAll]

end Sys2Proof.Machine
end

section
/-! SUPPORT. The voice of the station and its mute counters (R59, R116, R120, R124, R128): what each operation
does to them. "Keeps" is a relation of two states here, so that operations are put together by transitivity,
also where one of them starts from a state that stands only within a step. -/

namespace Sys2Proof.Machine

/-- No attempt is under way, no break is driven and none is asked for. -/
def silent (s : State) : Prop := s.tx = .standby ∧ s.line.drive = none ∧ s.line.request = false

/-- What holds of the voice and of the mute counters in s holds in t. -/
def keepsVoice (s t : State) : Prop := (voiceOk s → voiceOk t) ∧ (muteBounded s → muteBounded t)

/-- t is s with the same voice, in the same state of the station, with the same mute counters. -/
def sameVoice (s t : State) : Prop :=
  (t.tx = s.tx ∧ t.line.drive = s.line.drive ∧ t.line.request = s.line.request)
    ∧ t.mem.station = s.mem.station ∧ t.mute = s.mute

theorem keepsVoice_refl (s : State) : keepsVoice s s := ⟨id, id⟩

theorem keepsVoice_trans {s t u : State} (h : keepsVoice s t) (h' : keepsVoice t u) : keepsVoice s u :=
  ⟨h'.1 ∘ h.1, h'.2 ∘ h.2⟩

/-- Within one state of the station: a silent station that may not send stays silent. -/
theorem keepsVoice_of_stays {s t : State} (hs : t.mem.station = s.mem.station) (hm : t.mute = s.mute)
    (hv : s.mem.station.objects = false → silent s → silent t) : keepsVoice s t := by
  refine ⟨fun h ho => ?_, fun h => by simpa [muteBounded, hs, hm] using h⟩
  rw [hs] at ho
  exact hv ho (h ho)

theorem keepsVoice_of_same {s t : State} (h : sameVoice s t) : keepsVoice s t := by
  obtain ⟨⟨htx, hdrive, hrequest⟩, hstation, hmute⟩ := h
  exact keepsVoice_of_stays hstation hmute fun _ hv => by simpa [silent, htx, hdrive, hrequest] using hv

/-- A silent station whose mute counters stand at 0 satisfies both, wherever it came from. -/
theorem keepsVoice_of_quiet {s t : State} (hv : silent t) (hm : t.mute = ⟨0, 0⟩) : keepsVoice s t :=
  ⟨fun _ _ => hv, fun _ => by simp [muteBounded, hm]⟩

/-- Where the station may send, the voice is free; outside MUTE the counters are in range for any state. -/
theorem keepsVoice_of_objects {s t : State} (ho : t.mem.station.objects = true) (hm : t.mute = s.mute)
    (hs : s.mem.station ≠ .mute) : keepsVoice s t := by
  refine ⟨fun _ hno => absurd ho (by simp [hno]), fun h => ?_⟩
  obtain ⟨hconsecutive, hclean, hrange⟩ := h
  rw [muteBounded, hm]
  exact ⟨hconsecutive, hclean, fun _ => hrange hs⟩

/-! ### The low condition -/

/-- Settling the low condition starts no voice: what it offers ends an attempt and withdraws a request. -/
theorem settle_silent {s : State} (before : Bool) (h : silent s) : silent (State.settle before s) := by
  obtain ⟨htx, hdrive, hrequest⟩ := h
  obtain ⟨-, -, hframe, hline, -⟩ | ⟨-, -, heq⟩ | ⟨-, heq⟩ := State.settle_settled before s
  · rw [silent, hline, hframe]
    exact ⟨rfl, hdrive, rfl⟩
  all_goals rw [heq]; exact ⟨htx, hdrive, hrequest⟩

theorem settle_keepsVoice {s t : State} (before : Bool) (h : keepsVoice s t) :
    keepsVoice s (State.settle before t) :=
  keepsVoice_trans h (keepsVoice_of_stays (by simp) (by simp) fun _ => settle_silent before)

/-! ### Moves of the station -/

theorem stopVoice_silent (s : State) : silent s.stopVoice := by
  obtain ⟨-, -, -, -, -, -, -, htx, hdrive, hrequest, -⟩ := s.stopVoice_keeps
  exact ⟨htx, hdrive, hrequest⟩

theorem completeLeave_keepsVoice (s u : State) : keepsVoice s u.completeLeave :=
  keepsVoice_of_quiet (stopVoice_silent u) (by simp [State.completeLeave])

/-- The fall-back silences the station and clears its counters, also where the LEAVE that was pending
completes with it (R126, R139). -/
theorem fallBack_keepsVoice (s u : State) : keepsVoice s u.fallBack := by
  unfold State.fallBack
  dsimp only
  split
  · exact completeLeave_keepsVoice s _
  · exact keepsVoice_of_quiet (stopVoice_silent _) rfl

/-- The consecutive-objection counter goes with the station into MUTE; the clean-receive counter begins
at 0 (R125). -/
theorem enterMute_keepsVoice {s u : State} (h : u.mute.consecutive ≤ 16) : keepsVoice s u.enterMute := by
  have hmute : u.enterMute.mute = ⟨u.mute.consecutive, 0⟩ := by simp [State.enterMute]
  refine ⟨fun _ _ => stopVoice_silent (u.post .muteEntered), fun _ => ?_⟩
  rw [muteBounded, hmute]
  exact ⟨h, Nat.zero_le _, fun hne => absurd rfl hne⟩

theorem enterMember_keepsVoice {s : State} (h : s.mem.station ≠ .mute) : keepsVoice s s.enterMember :=
  keepsVoice_of_objects rfl rfl h

theorem countListening_keepsVoice (s : State) (isBoundary : Bool) :
    keepsVoice s (s.countListening isBoundary) := by
  rcases s.countListening_cases isBoundary with hsame | ⟨hs, l, j, hcount | hjoin⟩
  · rw [hsame]
    exact keepsVoice_refl s
  · rw [hcount]
    exact keepsVoice_of_same ⟨⟨rfl, rfl, rfl⟩, rfl, rfl⟩
  · rw [hjoin]
    refine keepsVoice_of_objects (by simp [StationState.objects]) ?_ (by simp [hs])
    simp [State.withCounts]

theorem followBoundary_keepsVoice (s : State) : keepsVoice s s.followBoundary :=
  keepsVoice_trans (keepsVoice_of_same (by simp [sameVoice])) (countListening_keepsVoice _ true)

/-- The unit reads the line and enters RUN or WAIT_RISE: the station stays where it is. -/
theorem byLine_keepsVoice (s : State) : keepsVoice s s.byLine := keepsVoice_of_same (by simp [sameVoice])

theorem release_keepsVoice (s : State) (eln : Level) : keepsVoice s (s.release eln) := by
  unfold State.release
  dsimp only
  split
  · exact completeLeave_keepsVoice s _
  · exact byLine_keepsVoice { s with eu := { s.eu with eln := eln } }

theorem restore_keepsVoice (s : State) : keepsVoice s s.restore :=
  keepsVoice_of_same (by simp [sameVoice, State.restore])

/-- As a pass has ended, a LEAVE may complete, a listening station may join, or the unit moves alone. -/
theorem afterPass_keepsVoice (s : State) (eln : Level) : keepsVoice s (s.afterPass eln) := by
  have hsame := keepsVoice_refl s
  have hleave := completeLeave_keepsVoice s s
  unfold State.afterPass
  dsimp only
  split
  next =>
    split
    · exact release_keepsVoice { s with eu := { s.eu with leaveOut := s.mem.leavePending } } eln
    · exact hsame
  next =>
    split
    · exact hleave
    · split
      · exact restore_keepsVoice s
      · exact hsame
  next =>
    split
    · exact hleave
    · split
      · exact followBoundary_keepsVoice s
      · split
        · exact hsame
        · exact byLine_keepsVoice s
  next => split <;> assumption
  next => split <;> assumption
  next => exact hsame

/-! ### Attempts and objections -/

theorem endAttempt_keepsVoice (s : State) : keepsVoice s s.endAttempt := by
  unfold State.endAttempt
  split
  · exact keepsVoice_refl s
  · exact keepsVoice_of_stays rfl rfl fun _ ⟨_, hline⟩ => ⟨rfl, hline⟩

/-- An attempt that fails ends; the eighth failure of a ROLL in JOINING takes the station back (R112). -/
theorem failAttempt_keepsVoice (s : State) : keepsVoice s s.failAttempt := by
  have ended (t : State) (hs : t.mem.station = s.mem.station) (hm : t.mute = s.mute)
      (htx : t.tx = .standby) (hl : t.line = s.line) : keepsVoice s t :=
    keepsVoice_of_stays hs hm fun _ ⟨_, hline⟩ => ⟨htx, hl ▸ hline⟩
  unfold State.failAttempt
  dsimp only
  split
  · exact keepsVoice_refl s
  · split
    · exact ended _ rfl rfl rfl rfl
    · split
      · exact fallBack_keepsVoice s _
      · exact ended _ rfl rfl rfl rfl

theorem noteError_keepsVoice (s : State) : keepsVoice s s.noteError := by
  unfold State.noteError
  split
  next hs =>
    exact ⟨id, fun ⟨hconsecutive, _, _⟩ =>
      ⟨hconsecutive, Nat.zero_le _, fun hne => absurd hs hne⟩⟩
  next => exact keepsVoice_refl s

/-- An objection asks for a break where the station may raise one (R120, R121). -/
theorem object_keepsVoice (s : State) : keepsVoice s s.object :=
  keepsVoice_of_stays rfl rfl fun ho ⟨htx, hdrive, hrequest⟩ =>
    ⟨htx, hdrive, by simp [State.object, ho, hrequest]⟩

theorem malformed_keepsVoice (s : State) : keepsVoice s s.malformed :=
  keepsVoice_trans (noteError_keepsVoice s) (object_keepsVoice _)

theorem resetObjections_keepsVoice (s : State) : keepsVoice s s.resetObjections := by
  unfold State.resetObjections
  split
  · refine ⟨id, fun ⟨_, hclean, hrange⟩ => ⟨Nat.zero_le _, hclean, fun hs => ?_⟩⟩
    exact ⟨Nat.zero_le _, (hrange hs).2⟩
  · exact keepsVoice_refl s

/-- A clean reception in MUTE counts up to 31; the thirty-second clears both counters as the station
becomes a MEMBER (R128, R129). -/
theorem noteAcceptance_keepsVoice (s : State) : keepsVoice s s.noteAcceptance := by
  unfold State.noteAcceptance
  split
  next hs =>
    split
    next =>
      exact ⟨fun _ ho => absurd ho (by simp [State.enterMember, StationState.objects]),
        fun _ => by simp [muteBounded, State.enterMember]⟩
    next hc =>
      refine ⟨id, fun ⟨hconsecutive, _, _⟩ => ⟨hconsecutive, ?_, fun hne => absurd hs hne⟩⟩
      show s.mute.clean + 1 ≤ 31
      omega
  next => exact resetObjections_keepsVoice s

/-- The sixteenth objection takes a joining station back to LISTEN and a member to MUTE (R124 to R126). -/
theorem countObjection_keepsVoice (s : State) (metLow : Bool) :
    keepsVoice s (s.countObjection metLow) := by
  unfold State.countObjection
  dsimp only
  split
  · exact keepsVoice_refl s
  next hc =>
    have ho : s.mem.station.objects = true := by
      cases h : s.mem.station.objects <;> simp_all
    have hs : s.mem.station ≠ .mute := fun h => by simp [h, StationState.objects] at ho
    split
    next hn =>
      refine ⟨fun _ hno => absurd ho (by simp [hno]), fun ⟨_, hclean, hrange⟩ => ?_⟩
      exact ⟨Nat.min_le_left _ _, hclean, fun _ => ⟨Nat.le_of_lt_succ hn, (hrange hs).2⟩⟩
    next =>
      split
      · exact settle_keepsVoice _ (fallBack_keepsVoice s _)
      · exact enterMute_keepsVoice (Nat.min_le_left _ _)

/-! ### Acceptances -/

theorem hear_keepsStation (s : State) (n : StationNo) (epoch : Byte) :
    (s.hear n epoch).mem.station = s.mem.station := by
  unfold State.hear
  dsimp only
  split <;> simp [State.setPeer]

theorem compareEpoch_keepsStation (s : State) (d : Incoming) :
    (s.compareEpoch d).mem.station = s.mem.station := by
  unfold State.compareEpoch
  dsimp only
  (repeat' split) <;> simp

theorem acceptReceived_keepsVoice (s : State) (d : Incoming) : keepsVoice s (s.acceptReceived d) := by
  unfold State.acceptReceived
  dsimp only
  have hnoted := noteAcceptance_keepsVoice { s with
    rx := { s.rx with st := .waitIdle }
    counters := { s.counters with accepted := bump s.counters.accepted } }
  refine keepsVoice_trans hnoted (keepsVoice_of_same ?_)
  split
  · simp [sameVoice]
  · simp [sameVoice, hear_keepsStation, compareEpoch_keepsStation]

/-- The own acceptance ends the attempt; a ROLL in JOINING makes the station a MEMBER (R110, R138). -/
theorem acceptOwn_keepsVoice (s : State) (a : Attempt) : keepsVoice s (s.acceptOwn a) := by
  unfold State.acceptOwn
  dsimp only
  refine keepsVoice_trans (t := State.resetObjections { s with
    tx := .standby
    rx := { s.rx with st := .waitIdle }
    pub := { s.pub with ownAccepted := true }
    counters := { s.counters with accepted := bump s.counters.accepted } }) ?_ ?_
  · refine keepsVoice_trans ?_ (resetObjections_keepsVoice _)
    exact keepsVoice_of_stays rfl rfl fun _ ⟨_, hline⟩ => ⟨rfl, hline⟩
  · split
    · exact keepsVoice_of_same (by simp [sameVoice])
    · split
      next hj => exact enterMember_keepsVoice (by rw [hj]; nofun)
      next => exact keepsVoice_refl _

/-! ### Characters -/

theorem askRoom_keepsVoice (s : State) (d : Incoming) : keepsVoice s (s.askRoom d) := by
  have followed (d' : Incoming) : keepsVoice s (s.follow .header d') :=
    keepsVoice_of_same ⟨⟨rfl, rfl, rfl⟩, rfl, rfl⟩
  unfold State.askRoom
  dsimp only
  split
  · split
    · exact keepsVoice_trans (keepsVoice_of_same (by simp [sameVoice])) (object_keepsVoice _)
    · exact followed _
  · exact followed _

theorem takeHeader_keepsVoice (s : State) (d : Incoming) (data : Byte) :
    keepsVoice s (s.takeHeader d data) := by
  have covered : keepsVoice s (s.cover data) := keepsVoice_of_same ⟨⟨rfl, rfl, rfl⟩, rfl, rfl⟩
  have followed (ph : RxPhase) (d' : Incoming) : keepsVoice s ((s.cover data).follow ph d') :=
    keepsVoice_of_same ⟨⟨rfl, rfl, rfl⟩, rfl, rfl⟩
  have hmalformed := malformed_keepsVoice s
  unfold State.takeHeader
  dsimp only
  split
  · exact followed _ _
  · split
    · split
      · exact followed _ _
      · exact hmalformed
    · exact keepsVoice_trans covered (askRoom_keepsVoice _ _)
    · exact followed _ _
    · split
      · exact hmalformed
      · split
        · exact hmalformed
        · exact followed _ _

theorem takeBody_keepsVoice (s : State) (d : Incoming) (data : Byte) :
    keepsVoice s (s.takeBody d data) := by
  unfold State.takeBody
  split <;> exact keepsVoice_of_same ⟨⟨rfl, rfl, rfl⟩, rfl, rfl⟩

theorem openSlot_keepsVoice (s : State) : keepsVoice s s.openSlot :=
  keepsVoice_of_same ⟨⟨rfl, rfl, rfl⟩, rfl, rfl⟩

theorem takeCheck_keepsVoice (s : State) (d : Incoming) (data : Byte) :
    keepsVoice s (s.takeCheck d data) := by
  unfold State.takeCheck
  dsimp only
  split
  · exact keepsVoice_of_same ⟨⟨rfl, rfl, rfl⟩, rfl, rfl⟩
  · split
    · exact keepsVoice_of_same ⟨⟨rfl, rfl, rfl⟩, rfl, rfl⟩
    · exact keepsVoice_trans (openSlot_keepsVoice s) (malformed_keepsVoice _)

theorem takeClaim_keepsVoice (s : State) (data : Byte) (framing : Bool) :
    keepsVoice s (s.takeClaim data framing) := by
  have same (t : State) (h : sameVoice s t) := keepsVoice_of_same h
  have hmalformed := keepsVoice_trans
    (same { s with rx := { s.rx with check := crcByte 0xFFFF data } } ⟨⟨rfl, rfl, rfl⟩, rfl, rfl⟩)
    (malformed_keepsVoice _)
  unfold State.takeClaim
  dsimp only
  split
  · split
    · exact hmalformed
    · exact same _ ⟨⟨rfl, rfl, rfl⟩, rfl, rfl⟩
  · split
    · exact same _ ⟨⟨rfl, rfl, rfl⟩, rfl, rfl⟩
    · split
      · exact hmalformed
      · split
        · exact hmalformed
        · exact same _ ⟨⟨rfl, rfl, rfl⟩, rfl, rfl⟩

theorem markEnd_keepsVoice (s : State) (ph : RxPhase) (d : Incoming) :
    keepsVoice s (s.markEnd ph d) := by
  unfold State.markEnd
  split
  · exact openSlot_keepsVoice s
  · exact keepsVoice_refl s

theorem deliver_keepsVoice (s : State) (data : Byte) (marker framing : Bool) :
    keepsVoice s (s.deliver data marker framing) := by
  have ignored := keepsVoice_refl s
  unfold State.deliver
  split
  · exact ignored
  · exact ignored
  · exact ignored
  · split
    · exact takeClaim_keepsVoice s data framing
    · exact keepsVoice_of_same ⟨⟨rfl, rfl, rfl⟩, rfl, rfl⟩
  next ph d _ =>
    split
    · exact keepsVoice_of_same ⟨⟨rfl, rfl, rfl⟩, rfl, rfl⟩
    · split
      · exact ignored
      · split
        · exact malformed_keepsVoice s
        · exact takeHeader_keepsVoice s d data
      · split
        · exact malformed_keepsVoice s
        · exact takeBody_keepsVoice s d data
      · split
        · exact keepsVoice_trans (markEnd_keepsVoice s _ d) (malformed_keepsVoice _)
        · exact takeCheck_keepsVoice s d data

end Sys2Proof.Machine
end

section
/-! SUPPORT. Every command keeps the voice of the station and its mute counters (R59, R116, R120, R124,
R128). -/

namespace Sys2Proof.Machine

/-! ### Resets and the local port -/

theorem endTransaction_keepsVoice (s : State) (r : Result) : keepsVoice s (s.endTransaction r) :=
  keepsVoice_of_same (by simp [sameVoice])

theorem readReply_keepsVoice (s : State) (c : Byte) (n : Nat) (r : Result) (data : List Byte)
    (records : List Event) : keepsVoice s (s.readReply c n r data records) :=
  keepsVoice_of_same (by simp [sameVoice])

theorem endRead_keepsVoice (s : State) : keepsVoice s s.endRead := by
  have hend := endTransaction_keepsVoice s
  unfold State.endRead
  (repeat' split) <;> simp only [hend, keepsVoice_refl]

theorem execUnknownCommand_keepsVoice {c : Byte} {s t : State}
    (he : execUnknownCommand c s = .next t) : keepsVoice s t := by
  unfold execUnknownCommand at he
  split at he <;> cases he
  · exact keepsVoice_refl s
  · exact endTransaction_keepsVoice s _

theorem execReadEventsEnd_keepsVoice {n : Nat} {s t : State} (he : execReadEventsEnd n s = .next t) :
    keepsVoice s t := by
  unfold execReadEventsEnd at he
  dsimp only at he
  split at he
  · split at he <;> cases he
    · refine keepsVoice_trans (keepsVoice_of_same ?_) (endRead_keepsVoice _)
      exact ⟨⟨rfl, rfl, rfl⟩, rfl, rfl⟩
    · exact endRead_keepsVoice s
  · split at he <;> cases he
    · exact endTransaction_keepsVoice s _
    · exact keepsVoice_refl s

/-- A write keeps the voice and the counters if its effect does (R166, R168). -/
theorem writeAct_keepsVoice {s : State} {complete : Bool} {r : Result} {act : State → State}
    (ha : r = .ok → keepsVoice s (act s)) : keepsVoice s (s.writeAct complete r act) :=
  writeAct_keeps (fun u r hu => keepsVoice_trans hu (endTransaction_keepsVoice u r)) (keepsVoice_refl s) ha

theorem execWriteDraft_keepsVoice {block first count : Byte} {data : List Byte} {s t : State}
    (he : execWriteDraft block first count data s = .next t) : keepsVoice s t := by
  unfold execWriteDraft at he
  dsimp only at he
  split at he <;> cases he
  · exact writeAct_keepsVoice fun _ => keepsVoice_refl s
  · exact writeAct_keepsVoice fun _ => keepsVoice_of_same ⟨⟨rfl, rfl, rfl⟩, rfl, rfl⟩

theorem execPublish_keepsVoice {block first count : Byte} {s t : State}
    (he : execPublish block first count s = .next t) : keepsVoice s t := by
  unfold execPublish at he
  dsimp only at he
  split at he <;> cases he
  · exact writeAct_keepsVoice fun _ => keepsVoice_refl s
  · refine writeAct_keepsVoice fun _ => ?_
    unfold State.publish
    split <;> exact keepsVoice_of_same ⟨⟨rfl, rfl, rfl⟩, rfl, rfl⟩

/-- CONFIGURE comes off the bus, where the line is silent, and leaves the line as it is (R134, R170). -/
theorem configure_keepsVoice {s : State} (h : s.offBusCheck = .ok) (c : Settings) :
    keepsVoice s (s.configure c) := by
  have ho : s.mem.station.objects = false := by
    cases hs : s.mem.station <;> simp_all [State.offBusCheck, StationState.onBus, StationState.objects]
  exact ⟨fun hv _ => ⟨rfl, (hv ho).2⟩, fun _ => by simp [muteBounded, State.configure]⟩

theorem execConfigure_keepsVoice {args : List Byte} {s t : State}
    (he : execConfigure args s = .next t) : keepsVoice s t := by
  unfold execConfigure at he
  dsimp only at he
  split at he <;> cases he
  · exact writeAct_keepsVoice fun _ => keepsVoice_refl s
  · exact writeAct_keepsVoice fun h => configure_keepsVoice h _

/-- START takes a silent station from IDLE to LISTEN (R135). -/
theorem start_keepsVoice {s : State} (h : s.mem.station = .idle) : keepsVoice s s.start := by
  have ho : s.mem.station.objects = false := by rw [h]; rfl
  unfold State.start
  dsimp only
  refine settle_keepsVoice _ ?_
  split <;> exact ⟨fun hv _ => hv ho, fun _ => by simp [muteBounded]⟩

theorem execStart_keepsVoice {s t : State} (he : execStart s = .next t) : keepsVoice s t := by
  cases he
  exact writeAct_keepsVoice fun h => start_keepsVoice (by simpa [State.startCheck] using h)

theorem execLeave_keepsVoice {s t : State} (he : execLeave s = .next t) : keepsVoice s t := by
  cases he
  refine writeAct_keepsVoice fun _ => ?_
  unfold State.leave
  split
  · exact settle_keepsVoice _ (completeLeave_keepsVoice s _)
  · exact keepsVoice_of_same ⟨⟨rfl, rfl, rfl⟩, rfl, rfl⟩

/-! ### The line -/

theorem execStartEdge_keepsVoice {s t : State} (he : execStartEdge s = .next t) : keepsVoice s t := by
  cases he
  (repeat' split) <;> exact keepsVoice_of_same ⟨⟨rfl, rfl, rfl⟩, rfl, rfl⟩

theorem Line.stopSampled_keeps (l : Line) (data : Byte) (marker framing : Bool) :
    (l.stopSampled data marker framing).drive = l.drive
      ∧ (l.stopSampled data marker framing).request = l.request := by
  obtain ⟨hrequest, -, -, hdrive⟩ := afterCharacter_keeps l data marker framing
  rw [l.stopSampled_afterCharacter]
  exact ⟨hdrive, hrequest⟩

theorem execCharacterDelivered_keepsVoice {data : Byte} {marker framing : Bool} {s t : State}
    (he : execCharacterDelivered data marker framing s = .next t) : keepsVoice s t := by
  cases he
  split
  · refine keepsVoice_trans (keepsVoice_of_same ?_) (deliver_keepsVoice _ data marker framing)
    obtain ⟨hdrive, hrequest⟩ := s.line.stopSampled_keeps data marker framing
    exact ⟨⟨rfl, hdrive, hrequest⟩, rfl, rfl⟩
  · exact keepsVoice_refl s

theorem execHeldCharacterRise_keepsVoice {s t : State} (he : execHeldCharacterRise s = .next t) :
    keepsVoice s t := by
  cases he
  split
  · refine keepsVoice_trans (keepsVoice_of_same ?_) (deliver_keepsVoice _ 0 false true)
    exact ⟨⟨rfl, rfl, rfl⟩, rfl, rfl⟩
  · exact keepsVoice_refl s

/-- A break is driven only where one has been asked for (R68). -/
theorem execBreakDriveStart_keepsVoice {s t : State} (he : execBreakDriveStart s = .next t) :
    keepsVoice s t := by
  cases he
  split
  next hc =>
    exact keepsVoice_of_stays rfl rfl fun _ ⟨_, _, hrequest⟩ => absurd hc.1 (by simp [hrequest])
  next => exact keepsVoice_refl s

theorem execBreakDriven_keepsVoice {s t : State} (he : execBreakDriven s = .next t) : keepsVoice s t := by
  cases he
  dsimp only
  split
  · refine keepsVoice_trans ?_ (countObjection_keepsVoice _ _)
    exact keepsVoice_of_stays rfl rfl fun _ ⟨htx, _, hrequest⟩ => ⟨htx, rfl, hrequest⟩
  · exact keepsVoice_refl s

theorem countBreak_sameVoice (s : State) : sameVoice s s.countBreak := by
  unfold State.countBreak
  split <;> exact ⟨⟨rfl, rfl, rfl⟩, rfl, rfl⟩

theorem breakInDispatch_sameVoice (s : State) : sameVoice s s.breakInDispatch := by
  unfold State.breakInDispatch
  split <;> exact ⟨⟨rfl, rfl, rfl⟩, rfl, rfl⟩

/-- A failed attempt, with what the low condition then makes of the station. -/
theorem failed_keepsVoice {s t : State} (before : Bool) (h : keepsVoice s t) :
    keepsVoice s (t.failAttempt.settle before) :=
  settle_keepsVoice before (keepsVoice_trans h (failAttempt_keepsVoice t))

theorem execBreakSeen_keepsVoice {s t : State} (he : execBreakSeen s = .next t) : keepsVoice s t := by
  cases he
  dsimp only
  split
  · exact keepsVoice_refl s
  · have broken : keepsVoice s { s with line := { s.line with
        st := .inBreak, lrx := .dominant, peers := s.peersAtFall, idle := false, idleCount := 0
        run := breakBits, runSeen := true, charTime := none, samples := [], request := false } } :=
      keepsVoice_of_stays rfl rfl fun _ ⟨htx, hdrive, _⟩ => ⟨htx, hdrive, rfl⟩
    have heard := keepsVoice_trans (keepsVoice_trans broken (keepsVoice_of_same (countBreak_sameVoice _)))
      (keepsVoice_of_same (breakInDispatch_sameVoice _))
    split
    · exact failed_keepsVoice _ heard
    · exact heard

theorem execSlotBroken_keepsVoice {s t : State} (he : execSlotBroken s = .next t) : keepsVoice s t := by
  cases he
  dsimp only
  split
  · exact keepsVoice_refl s
  · have broken : keepsVoice s { s with line := { s.line with
        slot := none, st := .awaitRecessive, lrx := .dominant, peers := s.peersAtFall, idle := false
        idleCount := 0, run := if s.line.lrx = Level.dominant then s.line.run else 0, runSeen := true
        charTime := none, samples := [], request := false } } :=
      keepsVoice_of_stays rfl rfl fun _ ⟨htx, hdrive, _⟩ => ⟨htx, hdrive, rfl⟩
    have heard := keepsVoice_trans broken (keepsVoice_of_same (countBreak_sameVoice _))
    generalize State.countBreak _ = u at heard
    split
    · exact failed_keepsVoice _ (by split <;> exact heard)
    · split <;> exact heard

theorem execBusFault_keepsVoice {s t : State} (he : execBusFault s = .next t) : keepsVoice s t := by
  cases he
  dsimp only
  (repeat' split) <;> exact keepsVoice_of_same ⟨⟨rfl, rfl, rfl⟩, rfl, rfl⟩

theorem endBusFault_sameVoice (s : State) : sameVoice s s.endBusFault := by
  unfold State.endBusFault
  dsimp only
  (repeat' split) <;> exact ⟨⟨rfl, rfl, rfl⟩, rfl, rfl⟩

/-- A dispatch that idle truncates is an error that this station detected (R86). -/
theorem offerIdle_keepsVoice (s : State) : keepsVoice s s.offerIdle := by
  have same (t : State) (h : sameVoice s t) := keepsVoice_of_same h
  unfold State.offerIdle
  dsimp only
  split
  case h_6 =>
    split
    · exact keepsVoice_refl s
    · exact keepsVoice_trans (same { s with
        rx := { s.rx with st := .ready }
        counters := { s.counters with truncations := bump s.counters.truncations } }
        ⟨⟨rfl, rfl, rfl⟩, rfl, rfl⟩) (noteError_keepsVoice _)
  all_goals exact same _ ⟨⟨rfl, rfl, rfl⟩, rfl, rfl⟩

theorem execBusIdle_keepsVoice {s t : State} (he : execBusIdle s = .next t) : keepsVoice s t := by
  cases he
  split
  · refine keepsVoice_trans ?_ (offerIdle_keepsVoice _)
    refine keepsVoice_trans (keepsVoice_of_same ?_) (keepsVoice_of_same (endBusFault_sameVoice _))
    exact ⟨⟨rfl, rfl, rfl⟩, rfl, rfl⟩
  · exact keepsVoice_refl s

theorem execSlotClean_keepsVoice {s t : State} (he : execSlotClean s = .next t) : keepsVoice s t := by
  cases he
  dsimp only
  split
  · exact keepsVoice_refl s
  · have closed : keepsVoice s { s with line := { s.line.toHunt with slot := none } } :=
      keepsVoice_of_same ⟨⟨rfl, rfl, rfl⟩, rfl, rfl⟩
    split
    next a _ =>
      split
      · exact closed
      · exact keepsVoice_trans closed (acceptOwn_keepsVoice _ a)
    next =>
      split
      next d _ =>
        split
        · exact closed
        · exact keepsVoice_trans closed (acceptReceived_keepsVoice _ d)
      next => exact closed

/-! ### The own attempt -/

/-- Only a station that may send has an eligible entry (R99). -/
theorem nextEntry_objects {s : State} {e : Entry} (h : s.nextEntry = some e) :
    s.mem.station.objects = true := by
  have heligible : s.eligible e = true := List.find?_some h
  cases hs : s.mem.station <;> simp_all [State.eligible, StationState.objects]

theorem execClaim_keepsVoice {s t : State} (he : execClaim s = .next t) : keepsVoice s t := by
  unfold execClaim at he
  split at he <;> cases he
  next e hnext =>
    split
    · exact keepsVoice_of_stays rfl rfl fun hno => absurd (nextEntry_objects hnext) (by simp [hno])
    · exact keepsVoice_refl s
  next => exact keepsVoice_refl s

theorem Line.readBack_keepsDrive (l : Line) (level : Level) :
    (l.readBack level).drive = l.drive ∧ (l.readBack level).request = l.request := by
  rw [l.readBack_keeps level]
  exact ⟨rfl, rfl⟩

theorem ownWasLost_keepsVoice (s : State) : keepsVoice s s.ownWasLost := by
  unfold State.ownWasLost
  split
  · split
    · exact malformed_keepsVoice s
    · exact keepsVoice_refl s
  · exact keepsVoice_refl s

theorem execArbitrationLoss_keepsVoice {s t : State} (he : execArbitrationLoss s = .next t) :
    keepsVoice s t := by
  unfold execArbitrationLoss at he
  split at he <;> cases he
  · obtain ⟨hdrive, hrequest⟩ := Line.readBack_keepsDrive s.line .dominant
    have read : keepsVoice s { s.endAttempt with line := s.line.readBack .dominant } :=
      keepsVoice_trans (endAttempt_keepsVoice s) (keepsVoice_of_same ⟨⟨rfl, by simp [hdrive],
        by simp [hrequest]⟩, rfl, rfl⟩)
    exact keepsVoice_trans read (ownWasLost_keepsVoice _)
  · exact keepsVoice_refl s

/-- While an attempt is under way no state that forbids one is silent, so that its progress is free. -/
theorem keepsVoice_of_attempt {s t : State} {ph : TxPhase} {a : Attempt} (ht : s.tx = .active ph a)
    (hs : t.mem.station = s.mem.station) (hm : t.mute = s.mute) : keepsVoice s t :=
  keepsVoice_of_stays hs hm fun _ ⟨htx, _⟩ => absurd htx (by simp [ht])

theorem knowOwn_sameVoice (s : State) (a : Attempt) : sameVoice s (s.knowOwn a) := by
  unfold State.knowOwn
  split <;> exact ⟨⟨rfl, rfl, rfl⟩, rfl, rfl⟩

theorem execClaimWon_keepsVoice {s t : State} (he : execClaimWon s = .next t) : keepsVoice s t := by
  unfold execClaimWon at he
  split at he <;> cases he
  next a ht =>
    split
    · exact keepsVoice_refl s
    · refine keepsVoice_trans (keepsVoice_of_attempt ht ?_ ?_)
        (keepsVoice_of_same (knowOwn_sameVoice _ a)) <;> rfl
  next => exact keepsVoice_refl s

theorem execLastCheckSent_keepsVoice {s t : State} (he : execLastCheckSent s = .next t) :
    keepsVoice s t := by
  unfold execLastCheckSent at he
  split at he
  next a ht =>
    split at he <;> cases he
    · exact keepsVoice_refl s
    · split <;> exact keepsVoice_of_attempt ht rfl rfl
  next => cases he; exact keepsVoice_refl s

theorem giveUp_sameVoice (s : State) : sameVoice s s.giveUp := by
  unfold State.giveUp
  split <;> exact ⟨⟨rfl, rfl, rfl⟩, rfl, rfl⟩

theorem faultAt_keepsVoice (s : State) (level : Level) : keepsVoice s (s.faultAt level) := by
  obtain ⟨⟨htx, -⟩, hstation, hmute⟩ := giveUp_sameVoice s
  obtain ⟨hdrive, hrequest⟩ := Line.readBack_keepsDrive s.line level
  exact failed_keepsVoice (t := { s.giveUp with line := s.line.readBack level }) _
    (keepsVoice_of_same ⟨⟨htx, hdrive, hrequest⟩, hstation, hmute⟩)

theorem execBitFault_keepsVoice {s t : State} (he : execBitFault s = .next t) : keepsVoice s t := by
  unfold execBitFault at he
  split at he <;> cases he
  · exact faultAt_keepsVoice s _
  · exact faultAt_keepsVoice s _
  · exact keepsVoice_refl s

/-! ### The epoch line -/

theorem execLowConditionStart_keepsVoice {s t : State} (he : execLowConditionStart s = .next t) :
    keepsVoice s t := by
  cases he
  split
  · exact keepsVoice_refl s
  · exact settle_keepsVoice _ (keepsVoice_of_same ⟨⟨rfl, rfl, rfl⟩, rfl, rfl⟩)

theorem execEpochExpiry_keepsVoice {s t : State} (he : execEpochExpiry s = .next t) : keepsVoice s t := by
  cases he
  refine settle_keepsVoice _ ?_
  split
  · exact countListening_keepsVoice { s with eu := { s.eu with counter := 0 } } false
  · exact keepsVoice_of_same (by simp [sameVoice])
  · split <;> exact keepsVoice_of_same (by simp [sameVoice])
  all_goals exact keepsVoice_refl s

theorem execElnFall_keepsVoice {s t : State} (he : execElnFall s = .next t) : keepsVoice s t := by
  cases he
  refine settle_keepsVoice _ ?_
  dsimp only
  split
  case h_2 =>
    split
    · exact followBoundary_keepsVoice { s with eu := { s.eu with eln := .dominant } }
    · exact keepsVoice_of_same ⟨⟨rfl, rfl, rfl⟩, rfl, rfl⟩
  case h_6 => split <;> exact keepsVoice_of_same (by simp [sameVoice])
  all_goals exact keepsVoice_of_same (by simp [sameVoice])

theorem execElnRise_keepsVoice {s t : State} (he : execElnRise s = .next t) : keepsVoice s t := by
  cases he
  refine settle_keepsVoice _ ?_
  dsimp only
  split <;> exact keepsVoice_of_same (by simp [sameVoice])

theorem execNotDrivable_keepsVoice {s t : State} (he : execNotDrivable s = .next t) : keepsVoice s t := by
  cases he
  split
  · refine settle_keepsVoice _ ?_
    split
    · exact completeLeave_keepsVoice s _
    · exact keepsVoice_of_same (by simp [sameVoice])
  · exact keepsVoice_refl s

theorem execHoldRunOut_keepsVoice {eln : Level} {s t : State} (he : execHoldRunOut eln s = .next t) :
    keepsVoice s t := by
  cases he
  split
  · split
    · exact settle_keepsVoice _ (release_keepsVoice s eln)
    · exact keepsVoice_of_same ⟨⟨rfl, rfl, rfl⟩, rfl, rfl⟩
  · exact keepsVoice_refl s

theorem execLineLowLimit_keepsVoice {s t : State} (he : execLineLowLimit s = .next t) :
    keepsVoice s t := by
  cases he
  split
  · exact settle_keepsVoice _ (keepsVoice_of_same (by simp [sameVoice]))
  · exact keepsVoice_refl s

theorem execLineRestored_keepsVoice {s t : State} (he : execLineRestored s = .next t) :
    keepsVoice s t := by
  cases he
  split
  · split
    · exact settle_keepsVoice _ (restore_keepsVoice s)
    · exact keepsVoice_of_same ⟨⟨rfl, rfl, rfl⟩, rfl, rfl⟩
  · exact keepsVoice_refl s

theorem execCommitPassEnd_keepsVoice {eln : Level} {s t : State}
    (he : execCommitPassEnd eln s = .next t) : keepsVoice s t := by
  cases he
  split
  · refine settle_keepsVoice _ (keepsVoice_trans ?_ (afterPass_keepsVoice _ eln))
    exact keepsVoice_of_same (by simp [sameVoice])
  · exact keepsVoice_refl s

/-! ### Every command, and the step -/

theorem exec_keepsVoice {i : Instr} {s t : State} (he : exec i s = .next t) : keepsVoice s t := by
  cases i with
  | hardwareReset => cases he; exact keepsVoice_of_quiet ⟨rfl, rfl, rfl⟩ rfl
  | transactionStart | quietTailEnd => cases he; exact keepsVoice_of_same ⟨⟨rfl, rfl, rfl⟩, rfl, rfl⟩
  | readStatus | readConfig | readCounters | readEvents | readPeers | readCommitReport | readImage
  | readBlockStatus | readDraft => cases he; apply readReply_keepsVoice
  | unknownCommand => exact execUnknownCommand_keepsVoice he
  | frameError => cases he; exact endTransaction_keepsVoice s _
  | readTransactionEnd => cases he; exact endRead_keepsVoice s
  | readEventsEnd => exact execReadEventsEnd_keepsVoice he
  | writeDraft => exact execWriteDraft_keepsVoice he
  | publish => exact execPublish_keepsVoice he
  | configure => exact execConfigure_keepsVoice he
  | start => exact execStart_keepsVoice he
  | leave => exact execLeave_keepsVoice he
  | startEdge => exact execStartEdge_keepsVoice he
  | falseStart | breakEnd | firstRecessiveReading =>
    cases he
    split <;> exact keepsVoice_of_same ⟨⟨rfl, rfl, rfl⟩, rfl, rfl⟩
  | characterDelivered => exact execCharacterDelivered_keepsVoice he
  | heldCharacterRise => exact execHeldCharacterRise_keepsVoice he
  | breakDriveStart => exact execBreakDriveStart_keepsVoice he
  | breakDriven => exact execBreakDriven_keepsVoice he
  | breakSeen => exact execBreakSeen_keepsVoice he
  | busFault => exact execBusFault_keepsVoice he
  | busIdle => exact execBusIdle_keepsVoice he
  | slotBroken => exact execSlotBroken_keepsVoice he
  | slotClean => exact execSlotClean_keepsVoice he
  | claim => exact execClaim_keepsVoice he
  | arbitrationLoss => exact execArbitrationLoss_keepsVoice he
  | claimWon => exact execClaimWon_keepsVoice he
  | lastCheckSent => exact execLastCheckSent_keepsVoice he
  | bitFault => exact execBitFault_keepsVoice he
  | lowConditionStart => exact execLowConditionStart_keepsVoice he
  | epochExpiry => exact execEpochExpiry_keepsVoice he
  | elnFall => exact execElnFall_keepsVoice he
  | elnRise => exact execElnRise_keepsVoice he
  | notDrivable => exact execNotDrivable_keepsVoice he
  | holdRunOut => exact execHoldRunOut_keepsVoice he
  | lineLowLimit => exact execLineLowLimit_keepsVoice he
  | lineRestored => exact execLineRestored_keepsVoice he
  | commitPassEnd => exact execCommitPassEnd_keepsVoice he

theorem advancePass_keepsStation (s : State) :
    s.advancePass.mem = s.mem ∧ s.advancePass.mute = s.mute := by
  unfold State.advancePass
  split <;> simp

/-- A bit time drives a break on and begins none (R68). -/
theorem advance_keepsVoice (s : State) : keepsVoice s s.advance := by
  obtain ⟨hmem, hmute⟩ := advancePass_keepsStation s
  refine keepsVoice_of_stays (congrArg Membership.station hmem) hmute fun _ hv => ?_
  obtain ⟨htx, hdrive, hrequest⟩ := hv
  simp [silent, State.advance, Line.advance, htx, hdrive, hrequest]

theorem step_keepsVoice {s t : State} (hs : step s = .next t) : keepsVoice s t := by
  unfold step at hs
  split at hs
  · by_cases hdue : s.due = []
    · rw [idleStep_of_none_due hdue] at hs
      cases hs
      exact advance_keepsVoice s
    · obtain ⟨i, -, hi⟩ := idleStep_of_due hdue
      exact exec_keepsVoice (s := { s with free := s.free + 1 }) (hi ▸ hs)
  next c rest _ => exact exec_keepsVoice (s := { s with pending := rest }) hs

/-- Settles O57: each command, and a bit time, keeps the silence of a station that may not send and the
ranges of the mute counters. -/
theorem everyStepKeepsSilenceAndMuteCounters : Obligations.EveryStepKeepsSilenceAndMuteCounters :=
  ⟨fun _ _ h hs => (step_keepsVoice hs).1 h, fun _ _ h hs => (step_keepsVoice hs).2 h⟩

end Sys2Proof.Machine
end

section
/-! SUPPORT. Characters on the line (R60 to R62): the eleven bits of a character as they are sent, and as the
mid-bit samples are judged. -/

namespace Sys2Proof.Machine

/-! ### A byte from its bits -/

/-- The number with one binary digit appended. -/
theorem testBit_append (n : Nat) (b : Bool) (i : Nat) :
    (2 * n + bit b).testBit i = if i = 0 then b else n.testBit (i - 1) := by
  cases i with
  | zero => cases b <;> simp [bit, Nat.testBit_zero]
  | succ i =>
    have hhalf : (2 * n + bit b) / 2 = n := by unfold bit; split <;> omega
    simp [Nat.testBit_succ, hhalf]

/-- Reading bits 7 to 0 of a byte, most significant first, gives the byte. -/
theorem byteOf_bits (data : Byte) :
    byteOf ([7, 6, 5, 4, 3, 2, 1, 0].foldl (fun n i => 2 * n + bit (data.getLsbD i)) 0) = data := by
  refine BitVec.eq_of_getLsbD_eq fun i hi => ?_
  rw [byteOf, BitVec.getLsbD_ofNat]
  simp only [List.foldl_cons, List.foldl_nil, testBit_append]
  interval_cases i <;> simp

/-! ### The bits of a character -/

theorem levelOf_recessive (b : Bool) : (levelOf b == .recessive) = b := by cases b <;> rfl

theorem characterLevels_eq (data : Byte) (marker : Bool) :
    characterLevels data marker = [.dominant, levelOf (data.getLsbD 7), levelOf (data.getLsbD 6),
      levelOf (data.getLsbD 5), levelOf (data.getLsbD 4), levelOf (data.getLsbD 3),
      levelOf (data.getLsbD 2), levelOf (data.getLsbD 1), levelOf (data.getLsbD 0), levelOf marker,
      .recessive] := rfl

theorem characterLevels_length (data : Byte) (marker : Bool) :
    (characterLevels data marker).length = 11 := rfl

/-- The data bits stand after the start bit, bit 7 first (R60). -/
theorem characterLevels_data (data : Byte) (marker : Bool) (i : Fin 8) :
    (characterLevels data marker)[1 + i.val]? = some (levelOf (data.getLsbD (7 - i.val))) := by
  fin_cases i <;> rfl

/-- The samples of a character with its recessive stop bit are judged as that character (R62). -/
theorem judgeSamples_characterLevels (data : Byte) (marker : Bool) :
    judgeSamples (characterLevels data marker) = some (.characterDelivered data marker false) := by
  simpa [judgeSamples, characterLevels_eq, levelOf_recessive] using byteOf_bits data

/-- Bit n × 11 + i of the run of characters is bit i of character n (R60). -/
theorem sentLevel_character {chars : List Byte} {data : Byte} {n i : Nat} (hn : chars[n]? = some data)
    (hi : i < 11) :
    (characterLevels data (decide (n = 0)))[i]? = some (sentLevel chars (11 * n + i)) := by
  have hquot : (11 * n + i) / characterBits = n := by simp only [characterBits]; omega
  have hrem : (11 * n + i) % characterBits = i := by simp only [characterBits]; omega
  have hfirst : (11 * n + i < characterBits) ↔ n = 0 := by simp only [characterBits]; omega
  have hlength : i < (characterLevels data (decide (n = 0))).length := hi
  simp [sentLevel, hquot, hrem, hfirst, hn, List.getD, hlength]

/-- Settles O21: the bits stand in the list of the model, and its samples give back the byte bit by bit. -/
theorem characterLevelsReadBack : Obligations.CharacterLevelsReadBack := by
  intro data marker
  exact ⟨characterLevels_length data marker, rfl, characterLevels_data data marker, rfl, rfl,
    judgeSamples_characterLevels data marker, fun _ _ _ => sentLevel_character⟩

end Sys2Proof.Machine
end

section
/-! SUPPORT. The Line Interface between its characters (R61, R62, R64, R66, R67): the steps in and out of
HUNT, an equation for each case. -/

namespace Sys2Proof.Machine

section
variable {s : State}

/-! ### START_EDGE (R61, R66) -/

theorem slotAhead_iff (l : Line) :
    l.slotAhead = true ↔ l.st = .hunt ∧ l.slot ≠ none ∧ l.charTime ≠ none := by
  simp [Line.slotAhead, and_assoc, Option.isSome_iff_ne_none]

theorem exec_startEdge_hunt (hst : s.line.st = .hunt) (hslot : s.line.slot = none) :
    exec .startEdge s = .next { s with line := { s.line with
      st := .assemble, lrx := .dominant, peers := s.peersAtFall, idleCount := 0, idle := false
      run := 0, runSeen := false, charTime := some 0, samples := [], edgeLow := s.eu.low } } :=
  congrArg Host.Outcome.next (if_pos ⟨hst, hslot⟩)

/-- A fall just ahead of the slot is kept for it (log entry 40). -/
theorem exec_startEdge_slotAhead (hahead : s.line.slotAhead = true) (hlrx : s.line.lrx = .recessive) :
    exec .startEdge s = .next { s with line := { s.line with
      lrx := .dominant, peers := s.peersAtFall, run := 0, runSeen := false } } := by
  have hslot : ¬ (s.line.st = .hunt ∧ s.line.slot = none) := fun h =>
    ((slotAhead_iff s.line).1 hahead).2.1 h.2
  exact congrArg Host.Outcome.next ((if_neg hslot).trans (if_pos ⟨hahead, hlrx⟩))

theorem exec_startEdge_without (hhunt : ¬ (s.line.st = .hunt ∧ s.line.slot = none))
    (hahead : ¬ (s.line.slotAhead = true ∧ s.line.lrx = .recessive)) :
    exec .startEdge s = .next s :=
  congrArg Host.Outcome.next ((if_neg hhunt).trans (if_neg hahead))

/-! ### The rise that ends a dominant run (R62, R67) -/

/-- A slot that has been marked keeps its boundary over the rise (log entry 40). -/
theorem exec_firstRecessiveReading :
    exec .firstRecessiveReading s
      = .next (if s.line.st = .awaitRecessive ∨ (s.line.st = .hunt ∧ s.line.lrx = .dominant) then
        { s with line := { s.line.toHunt with
          charTime := if s.line.slot ≠ none then s.line.charTime else none } }
      else s) := by
  have hboundary : (if s.line.slot.isSome then s.line.charTime else none)
      = if s.line.slot ≠ none then s.line.charTime else none :=
    if_congr Option.isSome_iff_ne_none rfl rfl
  simp only [exec, execFirstRecessiveReading, hboundary]

theorem exec_breakEnd_ends
    (h : s.line.st = .inBreak ∨ (s.line.st = .awaitRecessive ∧ s.line.runSeen = true)) :
    exec .breakEnd s = .next { s with line := s.line.toHunt } :=
  congrArg Host.Outcome.next (if_pos h)

theorem exec_breakEnd_without
    (h : ¬ (s.line.st = .inBreak ∨ (s.line.st = .awaitRecessive ∧ s.line.runSeen = true))) :
    exec .breakEnd s = .next s :=
  congrArg Host.Outcome.next (if_neg h)

end

/-- Settles O23: each clause is one case of its command. -/
theorem huntMoves : Obligations.HuntMoves := by
  intro s
  refine ⟨exec_startEdge_hunt, fun hst hslot htime hlrx => ?_, fun h => ?_, ?_⟩
  · exact exec_startEdge_slotAhead ((slotAhead_iff s.line).2 ⟨hst, hslot, htime⟩) hlrx
  · refine exec_startEdge_without ?_ fun ⟨hahead, hlrx⟩ => ?_
    · rintro ⟨hst, hslot⟩
      exact h.elim (· hst) fun h => h.1 hslot
    · obtain ⟨hst, hslot, htime⟩ := (slotAhead_iff s.line).1 hahead
      rcases h with h | ⟨-, h | h⟩
      · exact h hst
      · exact htime h
      · exact absurd (hlrx.symm.trans h) nofun
  · rintro l rfl
    refine ⟨rfl, exec_firstRecessiveReading, fun h => exec_breakEnd_ends (Or.inl h),
      fun h hr => exec_breakEnd_ends (Or.inr ⟨h, hr⟩),
      fun h hr => exec_breakEnd_without (by simp [h, hr]), fun h => exec_breakEnd_without ?_⟩
    rcases h with h | h <;> simp [h]

end Sys2Proof.Machine
end

section
/-! SUPPORT. Breaks seen and broken slots (R66, R67, R69, R87): what becomes of the line, of the dispatch being
followed and of the count, an equation for each case. -/

namespace Sys2Proof.Machine

/-- The counters after a break has been seen: it is counted on the bus (R67). -/
def State.breakCounted (s : State) : Counters :=
  { s.counters with breaksSeen :=
      if s.mem.station.onBus then bump s.counters.breaksSeen else s.counters.breaksSeen }

theorem countBreak_eq (s : State) : s.countBreak = { s with counters := s.breakCounted } := by
  unfold State.countBreak State.breakCounted
  split <;> rfl

section
variable {s : State}

/-! ### BREAK_SEEN -/

theorem breakInDispatch_discards {ph : RxPhase} {d : Incoming} (hrx : s.rx.st = .following ph d)
    (hph : ph ≠ .answer) : s.breakInDispatch = { s with rx := { s.rx with st := .discard } } := by
  unfold State.breakInDispatch
  rw [hrx]
  cases ph with
  | answer => exact absurd rfl hph
  | header | body | check => rfl

/-- A dispatch that waits on its answer slot is left to the slot (R66, R87). -/
theorem breakInDispatch_keeps (hrx : ∀ ph d, s.rx.st = .following ph d → ph = .answer) :
    s.breakInDispatch = s := by
  unfold State.breakInDispatch
  split
  · rfl
  next ph d hph hst => exact absurd (hrx ph d hst) hph
  · rfl

/-- The station with its line in a break that has just been seen (R67, R69). -/
def State.inBreak (s : State) : State :=
  { s with
    counters := s.breakCounted
    line := { s.line with
      st := .inBreak, lrx := .dominant, peers := s.peersAtFall, idle := false, idleCount := 0
      run := breakBits, runSeen := true, charTime := none, samples := [], request := false } }

theorem exec_breakSeen_without (h : s.line.runSeen = true ∨ s.line.slot ≠ none) :
    exec .breakSeen s = .next s := congrArg Host.Outcome.next (if_pos h)

theorem exec_breakSeen (hseen : s.line.runSeen = false) (hslot : s.line.slot = none)
    (htx : ∀ a, s.tx ≠ .active .sending a) : exec .breakSeen s = .next s.inBreak.breakInDispatch := by
  have hnew : ¬ (s.line.runSeen = true ∨ s.line.slot ≠ none) := by simp [hseen, hslot]
  refine congrArg Host.Outcome.next ((if_neg hnew).trans ?_)
  simp only [countBreak_eq]
  split
  next a ha =>
    obtain ⟨⟨hsame, -⟩, -⟩ := breakInDispatch_sameVoice s.inBreak
    exact absurd (hsame.symm.trans ha) (htx a)
  next => rfl

/-! ### SLOT_BROKEN -/

/-- The station with its answer slot broken (R66, R69). -/
def State.inBrokenSlot (s : State) : State :=
  { s with
    counters := s.breakCounted
    line := { s.line with
      slot := none, st := .awaitRecessive, lrx := .dominant, peers := s.peersAtFall, idle := false
      idleCount := 0, run := if s.line.lrx = .dominant then s.line.run else 0, runSeen := true
      charTime := none, samples := [], request := false } }

theorem exec_slotBroken_without (h : s.line.slot = none) : exec .slotBroken s = .next s :=
  congrArg Host.Outcome.next (if_pos h)

theorem exec_slotBroken_discards {d : Incoming} (hslot : s.line.slot ≠ none)
    (htx : ∀ a, s.tx ≠ .active .slotWait a) (hrx : s.rx.st = .following .answer d) :
    exec .slotBroken s
      = .next { s.inBrokenSlot with rx := { s.rx with st := .discard } } := by
  refine congrArg Host.Outcome.next ((if_neg hslot).trans ?_)
  simp only [countBreak_eq, State.breakCounted, State.inBrokenSlot, hrx]

theorem exec_slotBroken_keeps (hslot : s.line.slot ≠ none) (htx : ∀ a, s.tx ≠ .active .slotWait a)
    (hrx : ∀ d, s.rx.st ≠ .following .answer d) : exec .slotBroken s = .next s.inBrokenSlot := by
  refine congrArg Host.Outcome.next ((if_neg hslot).trans ?_)
  simp only [countBreak_eq, State.breakCounted, State.inBrokenSlot]

end

/-- Settles O30: the cases are those of the Receiver, as it follows a dispatch or waits on its slot. -/
theorem breakDiscardsDispatch : Obligations.BreakDiscardsDispatch := by
  refine ⟨fun s => ⟨exec_breakSeen_without, fun hseen hslot htx => ?_⟩,
    fun s => ⟨exec_slotBroken_without, fun hslot htx => ?_⟩⟩
  · have hexec := exec_breakSeen hseen hslot htx
    by_cases hrx : ∃ ph d, s.rx.st = .following ph d ∧ ph ≠ .answer
    · obtain ⟨ph, d, hst, hph⟩ := hrx
      rw [breakInDispatch_discards (s := s.inBreak) hst hph] at hexec
      exact ⟨_, hexec, rfl, rfl, fun _ _ _ _ => rfl, fun hno => absurd (hno ph d hst) hph⟩
    · have hno : ∀ ph d, s.rx.st = .following ph d → ph = .answer := by grind
      rw [breakInDispatch_keeps (s := s.inBreak) hno] at hexec
      exact ⟨_, hexec, rfl, rfl, fun ph d hst hph => absurd (hno ph d hst) hph, fun _ => rfl⟩
  · by_cases hrx : ∃ d, s.rx.st = .following .answer d
    · obtain ⟨d, hst⟩ := hrx
      exact ⟨_, exec_slotBroken_discards hslot htx hst, rfl, fun _ _ => rfl,
        fun hno => absurd hst (hno d)⟩
    · have hno : ∀ d, s.rx.st ≠ .following .answer d := fun d hst => hrx ⟨d, hst⟩
      exact ⟨_, exec_slotBroken_keeps hslot htx hno, rfl, fun d hst => absurd hst (hno d),
        fun _ => rfl⟩

end Sys2Proof.Machine
end

section
/-! SUPPORT. Bus fault and idle (R64, R70, R79, R86): the bus-fault state, and what the Receiver makes of
idle. -/

namespace Sys2Proof.Machine

/-! ### The bus-fault state (R70) -/

section
variable {s : State}

theorem exec_busFault_without (h : s.line.busFault = true) : exec .busFault s = .next s :=
  congrArg Host.Outcome.next (if_pos h)

theorem exec_busFault (h : s.line.busFault = false) : exec .busFault s = .next { s with
    line := { s.line with busFault := true, idle := false, run := 88 }
    events := if s.mem.station.onBus
      then addEvent s.events ⟨.busFault, s.eu.epoch, none, none, none⟩ s.eu.epoch
      else s.events } := by
  have hnot : ¬ s.line.busFault = true := by simp [h]
  refine congrArg Host.Outcome.next ((if_neg hnot).trans ?_)
  dsimp only
  split <;> rfl

/-- The station after the end of a bus-fault state, if it was in one. -/
theorem endBusFault_eq (s : State) : s.endBusFault = { s with
    line := { s.line with busFault := false }
    events := if s.line.busFault && s.mem.station.onBus
      then addEvent s.events ⟨.busRestored, s.eu.epoch, none, none, none⟩ s.eu.epoch
      else s.events } := by
  unfold State.endBusFault
  by_cases hfault : s.line.busFault = true
  · rw [if_pos hfault, hfault]
    cases hbus : s.mem.station.onBus <;> simp [hbus, State.post, State.postAt]
  · have hline : { s.line with busFault := false } = s.line := by rw [← Bool.eq_false_iff.2 hfault]
    rw [if_neg hfault, hline]
    simp [hfault]

/-! ### The Receiver is offered idle (R79, R86) -/

theorem offerIdle_off (h : s.rx.st = .off) : s.offerIdle = s := by simp [State.offerIdle, h]

theorem offerIdle_ready (h : s.rx.st = .ready ∨ s.rx.st = .waitIdle ∨ s.rx.st = .discard) :
    s.offerIdle = { s with rx := { s.rx with st := .ready } } := by
  rcases h with h | h | h
  · simp only [State.offerIdle, h]
    rw [← h]
  · simp [State.offerIdle, h]
  · simp [State.offerIdle, h]

/-- The own dispatch, and one that waits on its answer slot, are not truncated. -/
theorem offerIdle_keeps {ph : RxPhase} {d : Incoming} (h : s.rx.st = .following ph d)
    (hkept : ph = .answer ∨ d.own = true) : s.offerIdle = s := by
  unfold State.offerIdle
  rw [h]
  cases ph with
  | answer => rfl
  | header | body | check => exact if_pos (hkept.resolve_left nofun)

theorem noteError_eq (s : State) : s.noteError = { s with
    mute := if s.mem.station = .mute then { s.mute with clean := 0 } else s.mute } := by
  unfold State.noteError
  split <;> rfl

theorem offerIdle_truncates {ph : RxPhase} {d : Incoming} (h : s.rx.st = .following ph d)
    (hph : ph ≠ .answer) (hown : d.own = false) : s.offerIdle = { s with
      rx := { s.rx with st := .ready }
      counters := { s.counters with truncations := bump s.counters.truncations }
      mute := if s.mem.station = .mute then { s.mute with clean := 0 } else s.mute } := by
  have hnot : ¬ d.own = true := by simp [hown]
  unfold State.offerIdle
  rw [h]
  cases ph with
  | answer => exact absurd rfl hph
  | header | body | check => exact (if_neg hnot).trans (noteError_eq _)

/-! ### BUS_IDLE (R64) -/

/-- The station as the bus comes to idle, before the Receiver is offered it. -/
def State.atIdle (s : State) : State :=
  { s with
    line := { s.line with
      idle := true, idleCount := 11, lrx := .recessive, peers := .recessive, charTime := none
      busFault := false }
    events := if s.line.busFault && s.mem.station.onBus
      then addEvent s.events ⟨.busRestored, s.eu.epoch, none, none, none⟩ s.eu.epoch
      else s.events }

theorem exec_busIdle_without (h : ¬ (s.line.st = .hunt ∧ s.line.slot = none)) :
    exec .busIdle s = .next s := congrArg Host.Outcome.next (if_neg h)

theorem exec_busIdle (hst : s.line.st = .hunt) (hslot : s.line.slot = none) :
    exec .busIdle s = .next s.atIdle.offerIdle := by
  refine congrArg Host.Outcome.next ((if_pos ⟨hst, hslot⟩).trans ?_)
  rw [endBusFault_eq]
  rfl

end

/-- Settles O31: the cases of BUS_IDLE are those of the Receiver's state. -/
theorem busFaultAndBusIdle : Obligations.BusFaultAndBusIdle := by
  intro s
  refine ⟨exec_busFault_without, exec_busFault, exec_busIdle_without, fun hst hslot => ?_⟩
  have hexec := exec_busIdle hst hslot
  cases hrx : s.rx.st with
  | off =>
    rw [offerIdle_off (s := s.atIdle) hrx] at hexec
    exact ⟨_, hexec, rfl, fun _ => rfl, nofun, nofun, nofun, fun _ => ⟨rfl, rfl⟩⟩
  | ready | waitIdle | discard =>
    rw [offerIdle_ready (s := s.atIdle) (by simp [State.atIdle, hrx])] at hexec
    exact ⟨_, hexec, rfl, nofun, fun _ => rfl, nofun, nofun, fun _ => ⟨rfl, rfl⟩⟩
  | following ph d =>
    by_cases hkept : ph = .answer ∨ d.own = true
    · rw [offerIdle_keeps (s := s.atIdle) hrx hkept] at hexec
      refine ⟨_, hexec, rfl, nofun, nofun, fun _ _ _ _ => rfl, ?_, fun _ => ⟨rfl, rfl⟩⟩
      rintro _ _ ⟨⟩ hph hown
      exact absurd hkept (by simp [hph, hown])
    · obtain ⟨hph, hown⟩ := not_or.1 hkept
      rw [offerIdle_truncates (s := s.atIdle) hrx hph (Bool.eq_false_iff.2 hown)] at hexec
      refine ⟨_, hexec, rfl, nofun, nofun, ?_, fun _ _ _ _ _ => ⟨rfl, rfl, rfl⟩,
        fun h => absurd (h ph d rfl) hkept⟩
      rintro _ _ ⟨⟩ h
      exact absurd h hkept

end Sys2Proof.Machine
end

section
/-! SUPPORT. A clean answer slot on which a received dispatch waits, or none (R66, R88, R90, R128). -/

namespace Sys2Proof.Machine

section
variable {s : State}

/-- The station with its answer slot closed into HUNT (R66). -/
def State.slotClosed (s : State) : State := { s with line := { huntLine s.line with slot := none } }

theorem exec_slotClean_without (h : s.line.slot = none) : exec .slotClean s = .next s :=
  congrArg Host.Outcome.next (if_pos h)

/-- The slot of the own attempt, with the low condition present. -/
theorem exec_slotClean_ownLow {a : Attempt} (hslot : s.line.slot ≠ none)
    (htx : s.tx = .active .slotWait a) (hlow : s.eu.low = true) :
    exec .slotClean s = .next s.slotClosed := by
  refine congrArg Host.Outcome.next ((if_neg hslot).trans ?_)
  dsimp only
  split
  next b _ => exact if_pos hlow
  next hno => exact absurd htx (hno a)

theorem exec_slotClean_unawaited (hslot : s.line.slot ≠ none) (htx : ∀ a, s.tx ≠ .active .slotWait a)
    (hrx : ∀ d, s.rx.st ≠ .following .answer d) : exec .slotClean s = .next s.slotClosed := by
  refine congrArg Host.Outcome.next ((if_neg hslot).trans ?_)
  dsimp only
  split
  next a ha => exact absurd ha (htx a)
  next =>
    split
    next d hd => exact absurd hd (hrx d)
    next => rfl

theorem exec_slotClean_discards {d : Incoming} (hslot : s.line.slot ≠ none)
    (htx : ∀ a, s.tx ≠ .active .slotWait a) (hrx : s.rx.st = .following .answer d)
    (h : d.own = true ∨ s.eu.low = true) :
    exec .slotClean s = .next { s.slotClosed with rx := { s.rx with st := .discard } } := by
  have hnot : (d.own || s.eu.low) = true := by simpa using h
  refine congrArg Host.Outcome.next ((if_neg hslot).trans ?_)
  dsimp only
  split
  next a ha => exact absurd ha (htx a)
  next =>
    simp only [hrx]
    exact if_pos hnot

/-! ### The acceptance of a received dispatch (R88, R90, R91) -/

/-- What follows the acceptance counts nothing accepted again. -/
theorem compareEpoch_accepted (s : State) (d : Incoming) :
    (s.compareEpoch d).counters.accepted = s.counters.accepted := by
  have handedOn (u : State) : (u.handOn d).counters.accepted = u.counters.accepted := by
    obtain ⟨hframe, -⟩ := State.handOn_handedOn d u
    rw [hframe]
  unfold State.compareEpoch
  dsimp only
  (repeat' split) <;> simp [handedOn]

/-- The station as the acceptance of a received dispatch begins. -/
def State.accepting (s : State) : State :=
  State.noteAcceptance { s.slotClosed with
    rx := { s.rx with st := .waitIdle }
    counters := { s.counters with accepted := bump s.counters.accepted } }

theorem accepting_taken (s : State) : acceptanceTaken s s.accepting := s.noteAcceptance_taken

/-- The own number: DUPLICATE_ID and no more (R90). -/
theorem acceptReceived_duplicate {d : Incoming} (h : d.sender = s.straps.sid) :
    s.slotClosed.acceptReceived d = s.accepting.post .duplicateId (some d.sender) := by
  refine if_pos ?_
  simp [h, State.slotClosed]

theorem acceptReceived_other {d : Incoming} (h : d.sender ≠ s.straps.sid) :
    s.slotClosed.acceptReceived d = (s.accepting.hear d.sender d.epoch).compareEpoch d := by
  refine if_neg ?_
  simp [h, State.slotClosed]

/-- Whoever sent it, the acceptance itself stands. -/
theorem acceptReceived_keeps (s : State) (d : Incoming) :
    (s.slotClosed.acceptReceived d).line = s.accepting.line
      ∧ (s.slotClosed.acceptReceived d).rx = s.accepting.rx
      ∧ (s.slotClosed.acceptReceived d).counters.accepted = s.accepting.counters.accepted
      ∧ (s.slotClosed.acceptReceived d).mute = s.accepting.mute := by
  by_cases h : d.sender = s.straps.sid
  · simp [acceptReceived_duplicate h]
  · simp [acceptReceived_other h, compareEpoch_accepted]

end

/-- Settles O32: a slot that no received dispatch waits on is one case each; the accepted dispatch is
`State.accepting` with what its sender adds. -/
theorem slotCleanAcceptsAndTestsIdentity : Obligations.SlotCleanAcceptsAndTestsIdentity := by
  intro d s
  refine ⟨exec_slotClean_without, ?_, fun hslot htx hrx hown hhigh => ?_⟩
  · rintro hslot l rfl
    exact ⟨exec_slotClean_unawaited hslot, exec_slotClean_discards hslot,
      fun ⟨a, htx⟩ => exec_slotClean_ownLow hslot htx⟩
  · have hexec := execSlotClean_accepts hslot htx hrx hown hhigh
    have htaken := accepting_taken s
    obtain ⟨hline, hwait, haccepted, hmute⟩ := acceptReceived_keeps s d
    obtain ⟨hframe, hother, -⟩ := accepting_taken s
    refine ⟨_, _, hexec, htaken, hline.trans ?_, hwait.trans ?_, haccepted.trans ?_, hmute, ?_, ?_⟩
    · rw [hframe]
    · rw [hframe]
    · rw [hframe]
    · intro hm
      obtain ⟨-, -, -, hreset⟩ := hother hm
      exact hmute.trans hreset
    · intro h
      refine (acceptReceived_duplicate h).trans ?_
      have heu : s.accepting.eu = s.eu := by rw [hframe]
      simp [State.post, State.postAt, heu]

end Sys2Proof.Machine
end

section
/-! SUPPORT. The break drive and the consecutive objections (R65, R68, R123 to R126, R139): when a drive begins,
and what its end counts. -/

namespace Sys2Proof.Machine

section
variable {s : State}

/-! ### BREAK_DRIVE_START (R65, R68) -/

/-- In the middle of a character: in assembly, a bit time after its start edge or more. -/
theorem midCharacter_iff (l : Line) :
    l.midCharacter = true ↔ l.st = .assemble ∧ ∃ n, l.charTime = some (n + 1) := by
  unfold Line.midCharacter
  rcases l.charTime with _ | _ | n <;> simp

theorem exec_breakDriveStart (hrequest : s.line.request = true) (hmid : ¬ s.line.midCharacter = true) :
    exec .breakDriveStart s = .next { s with line := { s.line with
      request := false, drive := some 0, metLow := s.eu.low } } :=
  congrArg Host.Outcome.next (if_pos ⟨hrequest, Bool.eq_false_iff.2 hmid⟩)

theorem exec_breakDriveStart_without (h : s.line.request = false ∨ s.line.midCharacter = true) :
    exec .breakDriveStart s = .next s := by
  refine congrArg Host.Outcome.next (if_neg ?_)
  rcases h with h | h <;> simp [h]

/-! ### BREAK_DRIVEN (R68, R123) -/

/-- The station as its drive has ended, with a break raised counted. -/
def State.driven (s : State) : State :=
  { s with
    line := { s.line with drive := none, metLow := false }
    counters := { s.counters with breaksRaised := bump s.counters.breaksRaised } }

/-- The station with another value of the consecutive-objection counter. -/
def State.objecting (s : State) (n : Nat) : State := { s with mute := { s.mute with consecutive := n } }

theorem exec_breakDriven_without (h : s.line.drive = none) : exec .breakDriven s = .next s := by
  refine congrArg Host.Outcome.next (if_neg ?_)
  simp [h]

theorem exec_breakDriven (h : s.line.drive ≠ none) :
    exec .breakDriven s = .next (s.driven.countObjection s.line.metLow) :=
  congrArg Host.Outcome.next (if_pos (Option.isSome_iff_ne_none.2 h))

/-- A drive that met the low condition, and one of a station that does not object any more, count nothing
(R124). -/
theorem countObjection_without {metLow : Bool} (h : metLow = true ∨ s.mem.station.objects = false) :
    s.countObjection metLow = s := by
  refine if_pos ?_
  rcases h with h | h <;> simp [h]

theorem countObjection_below (ho : s.mem.station.objects = true) (hn : s.mute.consecutive + 1 < 16) :
    s.countObjection false = s.objecting (s.mute.consecutive + 1) := by
  have hmin : min 16 (s.mute.consecutive + 1) = s.mute.consecutive + 1 := by omega
  simp [State.countObjection, State.objecting, ho, hmin, hn]

/-- The sixteenth objection of a member (R125). -/
theorem countObjection_member (hs : s.mem.station = .member) (hn : 16 ≤ s.mute.consecutive + 1) :
    s.countObjection false = (s.objecting 16).enterMute := by
  have hmin : min 16 (s.mute.consecutive + 1) = 16 := by omega
  simp [State.countObjection, State.objecting, StationState.objects, hs, hmin]

/-- The sixteenth objection of a joining station (R126). -/
theorem countObjection_joining (hs : s.mem.station = .joining) (hn : 16 ≤ s.mute.consecutive + 1) :
    s.countObjection false = (s.objecting 16).fallBack.settle s.eu.low := by
  have hmin : min 16 (s.mute.consecutive + 1) = 16 := by omega
  simp [State.countObjection, State.objecting, StationState.objects, hs, hmin]

end

/-! ### MEMBER to MUTE (R116, R125) -/

theorem endAttempt_eq (s : State) : ∃ queue, s.endAttempt = { s with
    tx := .standby, pub := { s.pub with queue := queue } } := by
  unfold State.endAttempt
  split
  next htx =>
    refine ⟨s.pub.queue, ?_⟩
    rw [← htx]
  next => exact ⟨_, rfl⟩

theorem dropOwn_eq (s : State) : ∃ rx, s.dropOwn = { s with rx := rx } := by
  unfold State.dropOwn
  split
  · split
    · exact ⟨_, rfl⟩
    · exact ⟨s.rx, rfl⟩
  · exact ⟨s.rx, rfl⟩

/-- MUTE_ENTERED and the end of the voice: the queue and the Receiver alone depend on the attempt that was
under way. -/
theorem enterMute_eq (s : State) :
    s.enterMute = { s with
      mem := { s.mem with station := .mute }, mute := { s.mute with clean := 0 }, rx := s.enterMute.rx
      events := addEvent s.events ⟨.muteEntered, s.eu.epoch, none, none, none⟩ s.eu.epoch
      tx := .standby, pub := { s.pub with queue := s.enterMute.pub.queue }
      line := { s.line with request := false, drive := none } } := by
  obtain ⟨queue, hended⟩ := endAttempt_eq (s.post .muteEntered)
  obtain ⟨rx, hdropped⟩ := dropOwn_eq (s.post .muteEntered).endAttempt
  unfold State.enterMute State.stopVoice
  dsimp only
  rw [hdropped, hended]
  rfl

/-- Without an attempt under way the publish queue stays. -/
theorem enterMute_queue {s : State} (h : s.tx = .standby) : s.enterMute.pub.queue = s.pub.queue := by
  simp [State.enterMute, State.stopVoice, State.endAttempt, h]

/-! ### JOINING to LISTEN (R126, R139) -/

/-- Of the Epoch Unit settling moves the quiet tail alone. -/
theorem settle_eu (before : Bool) (s : State) :
    (State.settle before s).eu = { s.eu with tail := (State.settle before s).eu.tail } := by
  obtain ⟨-, -, hframe, -⟩ | ⟨-, -, heq⟩ | ⟨-, heq⟩ := State.settle_settled before s
  · rw [hframe]
  · rw [heq]
  · rw [heq]

/-- Without an attempt under way settling leaves the publish queue. -/
theorem settle_pub {s : State} (before : Bool) (h : s.tx = .standby) :
    (State.settle before s).pub = s.pub := by
  obtain ⟨-, -, hframe, -, hcut⟩ | ⟨-, -, heq⟩ | ⟨-, heq⟩ := State.settle_settled before s
  · rw [h] at hcut
    rw [hframe, hcut.1]
  · rw [heq]
  · rw [heq]

theorem settle_breaksRaised (before : Bool) (s : State) :
    (State.settle before s).counters.breaksRaised = s.counters.breaksRaised := by
  unfold State.settle State.offerLow
  dsimp only
  (repeat' split) <;> simp

/-- The fall-back has silenced the station, so that a low condition that begins then cuts no attempt. -/
theorem settle_fellBack {u t : State} (before : Bool) (h : fellBack u t) :
    fellBack u (State.settle before t) := by
  obtain ⟨hmem, hmute, hunit, hepoch, hcounter, heln, hlow, hrest, hdrive, hrequest, htx, hrecord⟩ := h
  obtain ⟨htx', hdrive', hrequest'⟩ := settle_silent before (s := t) ⟨htx, hdrive, hrequest⟩
  have heu := settle_eu before t
  have hpub := settle_pub before htx
  refine ⟨by simpa using hmem, by simpa using hmute, ?_, ?_, ?_, ?_, ?_, ?_, hdrive', hrequest', htx', ?_⟩
  case refine_7 =>
    rw [hpub]
    simpa using hrecord
  all_goals rw [heu]; assumption

/-- A fall-back is one whatever the objections and the breaks counted before it. -/
theorem fellBack_driven {s t : State} {n : Nat} (h : fellBack (s.driven.objecting n) t) : fellBack s t := h

/-! ### The completion of LEAVE by a fall-back (R139, R143) -/

theorem leftTheBus_objecting {u t : State} {n : Nat} (h : leftTheBus (u.objecting n) t) :
    leftTheBus u t := h

/-- A pass does not look at the objections counted. -/
theorem finishPass_objecting (s : State) (n : Nat) :
    (s.objecting n).finishPass = s.finishPass.objecting n := by
  have hhead (u : State) (epoch : Byte) :
      (u.objecting n).commitHead epoch = (u.commitHead epoch).objecting n := by
    cases hs : u.staging <;> simp [State.commitHead, State.objecting, hs]
  have hsome (u : State) (epoch : Byte) (k : Nat) :
      State.commitSome epoch k (u.objecting n) = (State.commitSome epoch k u).objecting n := by
    induction k generalizing u with
    | zero => rfl
    | succ k ih => rw [State.commitSome, hhead, ih, State.commitSome]
  have hposted (u : State) (epoch : Byte) :
      (u.objecting n).postCommitted epoch = (u.postCommitted epoch).objecting n := by
    have hcfg : (u.objecting n).cfg = u.cfg := rfl
    unfold State.postCommitted
    rw [hcfg]
    cases u.cfg.mode with
    | none => rfl
    | changes =>
      have hreport : (u.objecting n).commit = u.commit := rfl
      dsimp only
      rw [hreport]
      split <;> rfl
    | every => rfl
  cases hp : s.commit.pass with
  | none => rw [State.finishPass_idle hp, State.finishPass_idle (s := s.objecting n) hp]
  | some p =>
    have hpass : (s.objecting n).commit.pass = some p := hp
    have hstaging : (s.objecting n).staging = s.staging := rfl
    unfold State.finishPass
    rw [hpass, hp]
    dsimp only
    rw [hstaging, hsome, hposted]
    rfl

/-- With leave-pending set the fall-back is the completion of LEAVE, whatever the objections counted before
it (R139). -/
theorem fallBack_leftTheBus {s : State} (h : s.mem.leavePending = true) (n : Nat) :
    leftTheBus (State.finishPass (s.post .joinFailed)) (s.objecting n).fallBack := by
  have hleaves : (s.objecting n).fallBack = ((s.post .joinFailed).objecting n).leaveNow := if_pos h
  rw [hleaves, State.leaveNow, finishPass_objecting]
  exact leftTheBus_objecting (State.completeLeave_leftTheBus _)

/-- Settles O29: the end of a drive is `State.countObjection` on the station as its drive has ended, and
each clause is one case of it. -/
theorem breakDriveAndObjections : Obligations.BreakDriveAndObjections := by
  intro s
  refine ⟨fun hrequest h => exec_breakDriveStart hrequest ?_, fun h => exec_breakDriveStart_without ?_,
    exec_breakDriven_without, ?_⟩
  · rw [midCharacter_iff]
    rintro ⟨hst, n, htime⟩
    rcases h with h | h | h
    · exact h hst
    · exact absurd (h.symm.trans htime) nofun
    · exact absurd (h.symm.trans htime) nofun
  · exact h.imp_right fun h => (midCharacter_iff s.line).2 h
  rintro hdrive u rfl
  rw [exec_breakDriven hdrive]
  refine ⟨fun h => ?_, fun hmet hs => ?_⟩
  · rw [countObjection_without (s := s.driven)]
    · rfl
    · exact h.imp_right fun h => Bool.eq_false_iff.2 fun ho => absurd ((objects_iff _).1 ho) (not_or.2 h)
  have ho : s.driven.mem.station.objects = true := (objects_iff _).2 hs
  rw [hmet]
  refine ⟨fun hn => ?_, fun hn hmember => ?_, fun hn hjoining hleave => ?_,
    fun hn hjoining hleave => ?_⟩
  · rw [countObjection_below ho hn]
    rfl
  · rw [countObjection_member (s := s.driven) hmember hn]
    exact ⟨_, rfl, enterMute_eq _, fun htx => enterMute_queue htx⟩
  · rw [countObjection_joining (s := s.driven) hjoining hn]
    have hback := State.fallBack_fellBack (s := s.driven.objecting 16) hleave
    refine ⟨_, rfl, fellBack_driven (settle_fellBack _ hback), (settle_breaksRaised _ _).trans ?_⟩
    simp [State.objecting, State.driven]
  · rw [countObjection_joining (s := s.driven) hjoining hn]
    exact ⟨_, rfl, settle_leftTheBus _ (fallBack_leftTheBus (s := s.driven) hleave 16)⟩

end Sys2Proof.Machine
end

section
/-! SUPPORT. A held character, a character that the Receiver ignores or counts, and the dominant run after a
framing error (R62, R66, R67, R79, R83, R84, R87). -/

namespace Sys2Proof.Machine

section
variable {s : State}

/-! ### What the Receiver makes of a character (R79, R83, R84) -/

theorem deliver_ignored (h : s.rx.st = .off ∨ s.rx.st = .waitIdle ∨ s.rx.st = .discard) (data : Byte)
    (marker framing : Bool) : s.deliver data marker framing = s := by
  rcases h with h | h | h <;> simp [State.deliver, h]

/-- The own dispatch is counted and not tested. -/
theorem deliver_own {ph : RxPhase} {d : Incoming} (h : s.rx.st = .following ph d) (hown : d.own = true)
    (data : Byte) (marker framing : Bool) : s.deliver data marker framing = s.countOwn d := by
  simp [State.deliver, h, hown]

/-- A first character with marker 0 is no claim (R80). -/
theorem deliver_noClaim (h : s.rx.st = .ready) (data : Byte) (framing : Bool) :
    s.deliver data false framing = { s with rx := { s.rx with st := .discard } } := by
  simp [State.deliver, h]

theorem deliver_waiting {d : Incoming} (h : s.rx.st = .following .answer d) (hown : d.own = false)
    (data : Byte) (marker framing : Bool) : s.deliver data marker framing = s := by
  simp [State.deliver, h, hown]

/-- A framing error in a dispatch that is being received is a malformed condition; at the second check
character the answer slot is marked all the same (log entry 13). -/
theorem deliver_framing {ph : RxPhase} {d : Incoming} (h : s.rx.st = .following ph d)
    (hown : d.own = false) (hph : ph ≠ .answer) (data : Byte) (marker : Bool) :
    s.deliver data marker true = (s.markEnd ph d).malformed := by
  cases ph with
  | answer => exact absurd rfl hph
  | header | body | check => simp [State.deliver, h, hown, State.markEnd]

theorem markEnd_marks {d : Incoming} (hhigh : d.high.isSome = true) : s.markEnd .check d = s.openSlot :=
  if_pos ⟨rfl, hhigh⟩

theorem markEnd_without {ph : RxPhase} {d : Incoming} (h : ph = .check → d.high = none) :
    s.markEnd ph d = s := by
  refine if_neg fun ⟨hph, hhigh⟩ => ?_
  simp [h hph] at hhigh

theorem markEnd_cases (s : State) (ph : RxPhase) (d : Incoming) :
    s.markEnd ph d = s.openSlot ∨ s.markEnd ph d = s := by
  unfold State.markEnd
  split
  · exact Or.inl rfl
  · exact Or.inr rfl

/-! ### HELD_CHARACTER_RISE (R62) -/

/-- The station with its line risen out of a held character. -/
def State.heldRisen (s : State) : State :=
  { s with line := { huntLine s.line with sampled := some ⟨.recessive, .dominant⟩ } }

theorem exec_heldCharacterRise_without (h : s.line.st ≠ .assemble) :
    exec .heldCharacterRise s = .next s := congrArg Host.Outcome.next (if_neg h)

theorem exec_heldCharacterRise (h : s.line.st = .assemble) :
    exec .heldCharacterRise s = .next (s.heldRisen.deliver 0 false true) :=
  congrArg Host.Outcome.next (if_pos h)

/-- A malformed condition moves the Receiver, the request and the clean-receive counter alone (R85, R128). -/
theorem malformed_eq (s : State) :
    s.malformed = { s with line := s.malformed.line, rx := s.malformed.rx, mute := s.malformed.mute }
      ∧ s.malformed.line = { s.line with request := s.malformed.line.request } := by
  unfold State.malformed
  rw [noteError_eq]
  exact ⟨rfl, rfl⟩

/-- A held character that is malformed: what it moves, and that it is objected to. -/
theorem heldMalformed (s : State) (ph : RxPhase) (d : Incoming) :
    ∃ t, t = (s.heldRisen.markEnd ph d).malformed
      ∧ t = { s with line := t.line, rx := t.rx, mute := t.mute }
      ∧ t.line = { huntLine s.line with
          request := t.line.request, slot := t.line.slot, idle := t.line.idle
          charTime := t.line.charTime, sampled := some ⟨.recessive, .dominant⟩ }
      ∧ t.line = { (s.heldRisen.markEnd ph d).line with request := t.line.request }
      ∧ objected s t := by
  obtain ⟨hframe, hline⟩ := malformed_eq (s.heldRisen.markEnd ph d)
  have hobjected := (s.heldRisen.markEnd ph d).malformed_objected
  rcases markEnd_cases s.heldRisen ph d with h | h
  all_goals
    rw [h] at hframe hline hobjected ⊢
    exact ⟨_, rfl, hframe, by rw [hline]; rfl, hline, hobjected⟩

/-! ### CHARACTER_DELIVERED (R62) -/

theorem exec_characterDelivered_without (h : s.line.st ≠ .assemble) (data : Byte) (marker framing : Bool) :
    exec (.characterDelivered data marker framing) s = .next s := congrArg Host.Outcome.next (if_neg h)

/-- The station with its line past the stop sample of a character. -/
def State.stopRead (s : State) (data : Byte) (marker framing : Bool) : State :=
  { s with line := afterCharacter s.line data marker framing }

theorem exec_characterDelivered (h : s.line.st = .assemble) (data : Byte) (marker framing : Bool) :
    exec (.characterDelivered data marker framing) s
      = .next ((s.stopRead data marker framing).deliver data marker framing) := by
  rw [State.stopRead, ← Line.stopSampled_afterCharacter]
  exact congrArg Host.Outcome.next (if_pos h)

end

/-! ### The dominant run that reaches into the stop bit (R67) -/

/-- The bits of a character ahead of its stop bit, the last first. -/
def bitsBack (data : Byte) (marker : Bool) : List Level := ((characterLevels data marker).take 10).reverse

theorem bitsBack_get (data : Byte) (marker : Bool) {i : Nat} (hi : i < 10) :
    (bitsBack data marker)[i]? = (characterLevels data marker)[9 - i]? := by
  interval_cases i <;> rfl

/-- The run goes back to the last recessive bit. -/
theorem dominantTail_findIdx (data : Byte) (marker : Bool) :
    dominantTail data marker = (bitsBack data marker).findIdx fun l => !decide (l = .dominant) := by
  rw [dominantTail, List.takeWhile_eq_take_findIdx_not, List.length_take]
  exact Nat.min_eq_left List.findIdx_le_length

theorem dominantTail_le (data : Byte) (marker : Bool) : dominantTail data marker ≤ 10 := by
  rw [dominantTail_findIdx]
  exact List.findIdx_le_length

theorem dominantTail_dominant (data : Byte) (marker : Bool) {i : Nat}
    (hi : i < dominantTail data marker) : (characterLevels data marker)[9 - i]? = some .dominant := by
  have hlength : i < (bitsBack data marker).length := Nat.lt_of_lt_of_le hi (dominantTail_le data marker)
  rw [dominantTail_findIdx] at hi
  rw [← bitsBack_get data marker hlength, List.getElem?_eq_getElem hlength]
  simpa using List.not_of_lt_findIdx hi

theorem dominantTail_recessive (data : Byte) (marker : Bool) (h : dominantTail data marker < 10) :
    (characterLevels data marker)[9 - dominantTail data marker]? = some .recessive := by
  have hlength : dominantTail data marker < (bitsBack data marker).length := h
  rw [← bitsBack_get data marker h, List.getElem?_eq_getElem hlength]
  have hend := List.findIdx_getElem (w := dominantTail_findIdx data marker ▸ hlength)
  simp only [← dominantTail_findIdx] at hend
  simpa [Level.not_dominant] using hend

/-- Settles O26: the rise of a held character by the Receiver's state, the characters that are ignored or
counted, and the run back to the last recessive bit. -/
theorem heldCharacterIsAFramingError : Obligations.HeldCharacterIsAFramingError := by
  refine ⟨fun s => ⟨exec_heldCharacterRise_without, fun hst => ?_⟩,
    fun data marker framing s => ⟨fun h => exec_characterDelivered_without h _ _ _, fun hst hrx => ?_, ?_⟩,
    fun data marker => ⟨dominantTail_le data marker, fun _ => dominantTail_dominant data marker,
      dominantTail_recessive data marker⟩⟩
  · have hexec := exec_heldCharacterRise hst
    cases hrx : s.rx.st with
    | off | waitIdle | discard =>
      rw [deliver_ignored (s := s.heldRisen) (by simp [State.heldRisen, hrx])] at hexec
      exact ⟨_, hexec, rfl, rfl, nofun, fun _ => ⟨rfl, rfl, rfl⟩, fun _ => ⟨rfl, rfl, rfl⟩, nofun, nofun,
        nofun⟩
    | ready =>
      rw [deliver_noClaim (s := s.heldRisen) hrx] at hexec
      exact ⟨_, hexec, rfl, rfl, nofun, fun _ => ⟨rfl, rfl, rfl⟩, nofun, fun _ => ⟨rfl, rfl, rfl⟩, nofun,
        nofun⟩
    | following ph d =>
      by_cases hown : d.own = true
      · rw [deliver_own (s := s.heldRisen) hrx hown] at hexec
        refine ⟨_, hexec, rfl, rfl, ?_, fun _ => ⟨rfl, rfl, rfl⟩, nofun, nofun, ?_, ?_⟩
        · rintro ⟨_, ⟨⟩, hno, -⟩
          simp [hown] at hno
        · rintro _ _ ⟨⟩ -
          exact ⟨rfl, rfl, _, rfl⟩
        · rintro _ _ ⟨⟩ hno
          simp [hown] at hno
      have hreceived := Bool.eq_false_iff.2 hown
      by_cases hph : ph = .answer
      · subst hph
        rw [deliver_waiting (s := s.heldRisen) hrx hreceived] at hexec
        refine ⟨_, hexec, rfl, rfl, nofun, fun _ => ⟨rfl, rfl, rfl⟩, nofun, nofun, ?_, ?_⟩
        · rintro _ _ ⟨⟩ h
          exact absurd h hown
        · rintro _ _ ⟨⟩ - hno
          exact absurd rfl hno
      · rw [deliver_framing (s := s.heldRisen) hrx hreceived hph] at hexec
        obtain ⟨t, ht, hframe, hrisen, hline, hobjected⟩ := heldMalformed s ph d
        refine ⟨t, ht ▸ hexec, hframe, hrisen, ?_, fun h => ?_, nofun, nofun, ?_,
          fun _ _ _ _ _ => hobjected⟩
        · rintro ⟨_, ⟨⟩, -, hhigh⟩
          rw [hline, markEnd_marks hhigh]
          exact ⟨rfl, rfl, rfl⟩
        · rw [hline, markEnd_without fun hcheck => (h d (by rw [hcheck])).resolve_left hown]
          exact ⟨rfl, rfl, rfl⟩
        · rintro _ _ ⟨⟩ h
          exact absurd h hown
  · rw [exec_characterDelivered hst, deliver_ignored (s := s.stopRead data marker framing) hrx]
    rfl
  · rintro ph d hst hrx hown _ _ rfl rfl _ rfl
    rw [exec_characterDelivered hst, deliver_own (s := s.stopRead data marker framing) hrx hown]
    rfl

end Sys2Proof.Machine
end

section
/-! SUPPORT. The check value (R75 to R77): one bit of the register, and the register run to 0 by its own
bits. -/

namespace Sys2Proof.Machine

/-! ### One data bit -/

/-- A register whose bit 15 equals the data bit is shifted and no more. -/
theorem crcBit_msb (r : Word) : crcBit r r.msb = r <<< 1 := by simp [crcBit]

/-- The bits that are inverted when the data bit differs from bit 15 (R77). -/
theorem inverted_getLsbD {i : Nat} (hi : i < 16) :
    (0x1021 : Word).getLsbD i = decide (i = 12 ∨ i = 5 ∨ i = 0) := by
  interval_cases i <;> rfl

theorem crcBit_getLsbD (r : Word) (d : Bool) {i : Nat} (hi : i < 16) :
    (crcBit r d).getLsbD i = ((decide (0 < i) && r.getLsbD (i - 1))
      ^^ (decide (i = 12 ∨ i = 5 ∨ i = 0) && (r.getLsbD 15 ^^ d))) := by
  have hshift : (r <<< 1).getLsbD i = (decide (0 < i) && r.getLsbD (i - 1)) := by
    rw [BitVec.getLsbD_shiftLeft]
    cases i <;> simp_all
  have hmsb : r.msb = r.getLsbD 15 := BitVec.msb_eq_getLsbD_last r
  unfold crcBit
  split
  next h =>
    have hdiffer : (r.getLsbD 15 ^^ d) = true := by rw [← hmsb]; exact h
    rw [BitVec.getLsbD_xor, hshift, inverted_getLsbD hi, hdiffer, Bool.and_true]
  next h =>
    have hsame : (r.getLsbD 15 ^^ d) = false := by rw [← hmsb]; simpa using h
    rw [hshift, hsame, Bool.and_false, Bool.xor_false]

/-! ### The register run to 0 -/

/-- The register's bits, fed back from bit 15 down, shift it out. -/
theorem crcBit_shifted (r : Word) {k : Nat} (hk : k < 16) :
    crcBit (r <<< k) (r.getLsbD (15 - k)) = r <<< (k + 1) := by
  have hmsb : (r <<< k).msb = r.getLsbD (15 - k) := by
    rw [BitVec.msb_eq_getLsbD_last, BitVec.getLsbD_shiftLeft]
    simp [Nat.not_lt.2 (Nat.le_of_lt_succ hk)]
  rw [← hmsb, crcBit_msb, BitVec.shiftLeft_add]

/-- A byte that equals the eight bits of the register next to go shifts them out. -/
theorem crcByte_shifted (r : Word) (b : Byte) {k : Nat} (hk : k ≤ 8)
    (hb : ∀ i < 8, b.getLsbD i = r.getLsbD (8 - k + i)) : crcByte (r <<< k) b = r <<< (k + 8) := by
  have hbit (n i : Nat) (hn : n + i = k + 7) (hkn : k ≤ n) :
      crcBit (r <<< n) (b.getLsbD i) = r <<< (n + 1) := by
    rw [hb i (by omega), show 8 - k + i = 15 - n by omega]
    exact crcBit_shifted r (by omega)
  simp (disch := omega) only [crcByte, List.foldl_cons, List.foldl_nil, hbit]

/-- A register fed with its own two bytes, the high one first, is 0. -/
theorem crcByte_own (r : Word) : crcByte (crcByte r (Word.high r)) (Word.low r) = 0 := by
  have hhigh : crcByte r (Word.high r) = r <<< 8 := by
    simpa using crcByte_shifted r (Word.high r) (k := 0) (by omega) fun i hi => by
      simp [Word.high, hi]
  rw [hhigh, crcByte_shifted r _ (k := 8) (by omega) fun i hi => by simp [Word.low, hi]]
  exact BitVec.shiftLeft_eq_zero (by decide)

theorem checkValue_append (bs cs : List Byte) :
    checkValue (bs ++ cs) = cs.foldl crcByte (checkValue bs) := List.foldl_append

/-! ### Two bytes of a word -/

theorem Word.high_append (high low : Byte) : Word.high (high ++ low) = high :=
  BitVec.extractLsb'_append_eq_left

theorem Word.low_append (high low : Byte) : Word.low (high ++ low) = low :=
  BitVec.extractLsb'_append_eq_right

/-- A word from its two bytes is that word. -/
theorem wordOf_high_low (w : Word) : wordOf (Word.high w) (Word.low w) = w :=
  (BitVec.extractLsb'_append_extractLsb'_eq_extractLsb' rfl).trans BitVec.extractLsb'_eq_self

/-- Settles O22: the register reached by the covered characters is shifted out by its own two bytes. -/
theorem checkValueOfWholeDispatchIsZero : Obligations.CheckValueOfWholeDispatchIsZero := by
  refine ⟨fun r d i => crcBit_getLsbD r d, rfl, fun bs b => checkValue_append bs [b],
    fun bs high low h => ?_, fun _ _ _ _ _ _ _ => rfl, fun _ _ => rfl, fun bs => ?_⟩
  · rw [withCheck, ← h, Word.high_append, Word.low_append]
  · rw [withCheck, checkValue_append]
    exact crcByte_own (checkValue bs)

end Sys2Proof.Machine
end

section
/-! SUPPORT. The first character of a dispatch, and the malformed conditions inside one (R72, R74, R80, R84,
R85, R89). -/

namespace Sys2Proof.Machine

/-! ### What a claim says (R74, R183) -/

theorem kindCode_kindOfCode {n : Nat} {k : Kind} (h : kindOfCode n = some k) : kindCode k = n := by
  unfold kindOfCode at h
  split at h <;> cases h <;> rfl

theorem kindOfCode_invalid {n : Nat} (h : n = 0 ∨ 4 ≤ n) : kindOfCode n = none := by
  unfold kindOfCode
  split
  case h_4 => rfl
  all_goals omega

theorem kindOfCode_valid {n : Nat} (h : 1 ≤ n) (h' : n ≤ 3) : ∃ k, kindOfCode n = some k := by
  interval_cases n <;> exact ⟨_, rfl⟩

section
variable {s : State}

/-! ### The claim (R80, R89) -/

/-- The station with the check register over the claim alone (R78). -/
def State.claimRead (s : State) (data : Byte) : State :=
  { s with rx := { s.rx with check := checkValue [data] } }

theorem deliver_claim (h : s.rx.st = .ready) (data : Byte) (framing : Bool) :
    s.deliver data true framing = s.takeClaim data framing := by
  simp [State.deliver, h]

theorem takeClaim_own {ph : TxPhase} {a : Attempt} (htx : s.tx = .active ph a) (data : Byte) :
    s.takeClaim data false
      = (s.claimRead data).follow .header (Incoming.ofAttempt s.straps.sid a) := by
  simp [State.takeClaim, htx, State.claimRead, checkValue]

/-- The own claim with its stop bit read dominant is a received one and malformed (log entry 39). -/
theorem takeClaim_ownLost {ph : TxPhase} {a : Attempt} (htx : s.tx = .active ph a) (data : Byte) :
    s.takeClaim data true = (s.claimRead data).malformed := by
  simp [State.takeClaim, htx, State.claimRead, checkValue]

theorem takeClaim_cut (htx : s.tx = .standby) (hmet : s.line.edgeLow = true ∨ s.eu.low = true)
    (data : Byte) (framing : Bool) :
    s.takeClaim data framing = { s.claimRead data with
      rx := { st := .discard, check := checkValue [data] }
      counters := { s.counters with cuts := bump s.counters.cuts } } := by
  simp [State.takeClaim, htx, hmet, State.claimRead, checkValue]

theorem takeClaim_malformed (htx : s.tx = .standby) (hedge : s.line.edgeLow = false)
    (hlow : s.eu.low = false) {data : Byte} {framing : Bool}
    (hbad : framing = true ∨ claimKind data = none) :
    s.takeClaim data framing = (s.claimRead data).malformed := by
  rcases hbad with h | h <;> simp [State.takeClaim, htx, hedge, hlow, h, State.claimRead, checkValue]

theorem takeClaim_follows (htx : s.tx = .standby) (hedge : s.line.edgeLow = false)
    (hlow : s.eu.low = false) {data : Byte} {k : Kind} (hk : claimKind data = some k) :
    s.takeClaim data false = (s.claimRead data).follow .header (Incoming.ofClaim k data) := by
  simp [State.takeClaim, htx, hedge, hlow, hk, State.claimRead, checkValue]

/-! ### The objection (R85) -/

/-- A malformed condition in a station u that differs from s by its line and check register alone: what it
moves, and that it is objected to as in s. -/
theorem malformed_objects {u : State} {check : Word}
    (hu : u = { s with line := u.line, rx := { s.rx with check := check } })
    (hrequest : u.line.request = s.line.request) :
    u.malformed
        = { s with line := u.malformed.line, rx := u.malformed.rx, mute := u.malformed.mute }
      ∧ u.malformed.line = { u.line with request := u.malformed.line.request }
      ∧ u.malformed.rx.check = check ∧ objected s u.malformed := by
  obtain ⟨hframe, hline⟩ := malformed_eq u
  obtain ⟨hst, hasked, hmute⟩ := u.malformed_objected
  have hmem : u.mem = s.mem := by rw [hu]
  have hmuteWas : u.mute = s.mute := by rw [hu]
  have hcheck : u.malformed.rx.check = u.rx.check := by
    unfold State.malformed
    rw [noteError_eq]
    rfl
  rw [hrequest, hmem] at hasked
  rw [hmem, hmuteWas] at hmute
  refine ⟨hframe.trans ?_, hline, hcheck.trans ?_, hst, hasked, hmute⟩
  · rw [hu]
  · rw [hu]

end

/-- Settles O24: the first character by its marker, the attempt under way, the low condition and its form. -/
theorem firstCharacterInReady : Obligations.FirstCharacterInReady := by
  refine ⟨fun data marker framing s hst hrx hnone => ?_, fun data framing ph a s hst hrx htx => ?_⟩
  · have hexec := exec_characterDelivered hst data marker framing
    cases marker with
    | false =>
      rw [deliver_noClaim (s := s.stopRead data false framing) hrx] at hexec
      exact ⟨_, hexec, rfl, rfl, fun _ => ⟨rfl, rfl, rfl, (afterCharacter_keeps _ _ _ _).1⟩, nofun⟩
    | true =>
      have htx : s.tx = .standby := hnone.resolve_left nofun
      obtain ⟨hrequest, hedgeLow, -⟩ := afterCharacter_keeps s.line data true framing
      rw [deliver_claim (s := s.stopRead data true framing) hrx] at hexec
      by_cases hmet : s.line.edgeLow = true ∨ s.eu.low = true
      · rw [takeClaim_cut (s := s.stopRead data true framing) htx
          (hmet.imp_left hedgeLow.trans)] at hexec
        refine ⟨_, hexec, rfl, rfl, nofun, fun _ => ⟨rfl, fun _ => ⟨rfl, rfl, rfl, hrequest⟩,
          fun hedge hlow => ?_⟩⟩
        simp [hedge, hlow] at hmet
      obtain ⟨hedge, hlow⟩ : s.line.edgeLow = false ∧ s.eu.low = false := by simpa using hmet
      have hedgeRead : (s.stopRead data true framing).line.edgeLow = false := hedgeLow.trans hedge
      by_cases hbad : framing = true ∨ claimKind data = none
      · rw [takeClaim_malformed (s := s.stopRead data true framing) htx hedgeRead hlow hbad] at hexec
        obtain ⟨hframe, hline, hcheck, hobjected⟩ := malformed_objects (s := s)
          (u := (s.stopRead data true framing).claimRead data) rfl hrequest
        refine ⟨_, hexec, by rw [hframe], hline, nofun, fun _ => ⟨hcheck, fun h => absurd h hmet,
          fun _ _ => ⟨by rw [hframe], fun _ => hobjected, fun hgood hlo hhi => ?_⟩⟩⟩
        obtain ⟨k, hk⟩ := kindOfCode_valid hlo hhi
        simp [hgood, claimKind, hk] at hbad
      obtain ⟨hgood, k, hk⟩ : framing = false ∧ ∃ k, claimKind data = some k := by
        simpa [Option.eq_none_iff_forall_ne_some] using hbad
      subst hgood
      rw [takeClaim_follows (s := s.stopRead data true false) htx hedgeRead hlow hk] at hexec
      refine ⟨_, hexec, rfl, rfl, nofun, fun _ => ⟨rfl, fun h => absurd h hmet,
        fun _ _ => ⟨rfl, fun h => ?_, fun _ _ _ => ⟨rfl, hrequest, _, rfl, rfl, rfl, rfl,
          kindCode_kindOfCode hk⟩⟩⟩⟩
      rw [claimKind, kindOfCode_invalid (h.resolve_left nofun)] at hk
      cases hk
  · have hexec := exec_characterDelivered hst data true framing
    obtain ⟨hrequest, -⟩ := afterCharacter_keeps s.line data true framing
    rw [deliver_claim (s := s.stopRead data true framing) hrx] at hexec
    cases framing with
    | true =>
      rw [takeClaim_ownLost (s := s.stopRead data true true) htx] at hexec
      obtain ⟨hframe, hline, hcheck, hobjected⟩ := malformed_objects (s := s)
        (u := (s.stopRead data true true).claimRead data) rfl hrequest
      exact ⟨_, hexec, hframe, hline, hcheck, fun _ => hobjected, nofun⟩
    | false =>
      rw [takeClaim_own (s := s.stopRead data true false) htx] at hexec
      exact ⟨_, hexec, rfl, rfl, rfl, nofun,
        fun _ => ⟨rfl, hrequest, _, rfl, rfl, rfl, rfl, rfl, rfl⟩⟩

end Sys2Proof.Machine
end

section
/-! SUPPORT. The malformed conditions inside a received dispatch (R81, R82, R84, R85). -/

namespace Sys2Proof.Machine

/-! ### The span byte (R84, R183) -/

theorem spanOfByte_eq (b : Byte) : spanOfByte b =
    if b.toNat / 16 + (b.toNat % 16 + 1) ≤ 16
      then some ⟨Fin.ofNat 16 (b.toNat / 16), Fin.ofNat 16 (b.toNat / 16 + b.toNat % 16)⟩ else none := by
  have hb := b.isLt
  have hrange : (b.toNat / 16 ≤ 15 ∧ 1 ≤ b.toNat % 16 + 1 ∧ b.toNat % 16 + 1 ≤ 16
      ∧ b.toNat / 16 + (b.toNat % 16 + 1) ≤ 16) ↔ b.toNat / 16 + (b.toNat % 16 + 1) ≤ 16 := by omega
  simp only [spanOfByte, Span.ofCount, hrange]
  rfl

theorem spanOfByte_overrun {b : Byte} (h : 16 < b.toNat / 16 + (b.toNat % 16 + 1)) :
    spanOfByte b = none := by rw [spanOfByte_eq, if_neg (by omega)]

/-- 0x0F alone names the whole block. -/
theorem spanOfByte_full {b : Byte} (h : spanOfByte b = some .full) : b = 0x0F := by
  have hb := b.isLt
  rw [spanOfByte_eq] at h
  split at h
  · have hlast := congrArg (fun sp => sp.map fun x : Span => (x.first.val, x.last.val)) h
    simp only [Option.map_some, Span.full, Fin.ofNat, Option.some.injEq, Prod.mk.injEq] at hlast
    obtain ⟨hfirst, hlast⟩ := hlast
    refine BitVec.eq_of_toNat_eq ?_
    change b.toNat = 15
    change b.toNat / 16 % 16 = 0 at hfirst
    change (b.toNat / 16 + b.toNat % 16) % 16 = 15 at hlast
    omega
  · cases h

section
variable {s : State} {d : Incoming} {data : Byte}

/-! ### The Receiver's character in each part of a dispatch (R81, R82, R84) -/

theorem deliver_header (hrx : s.rx.st = .following .header d) (hown : d.own = false) :
    s.deliver data false false = s.takeHeader d data := by
  simp [State.deliver, hrx, hown]

theorem deliver_body (hrx : s.rx.st = .following .body d) (hown : d.own = false) :
    s.deliver data false false = s.takeBody d data := by
  simp [State.deliver, hrx, hown]

theorem deliver_check (hrx : s.rx.st = .following .check d) (hown : d.own = false) :
    s.deliver data false false = s.takeCheck d data := by
  simp [State.deliver, hrx, hown]

/-- Marker 1 or a framing error inside a dispatch, wherever it stands. -/
theorem deliver_malformedForm {ph : RxPhase} (hrx : s.rx.st = .following ph d) (hown : d.own = false)
    (hph : ph ≠ .answer) {marker framing : Bool} (h : marker = true ∨ framing = true) :
    s.deliver data marker framing = (s.markEnd ph d).malformed := by
  cases ph with
  | answer => exact absurd rfl hph
  | header | body | check => simp [State.deliver, hrx, hown, h, State.markEnd]

theorem takeHeader_blockOverrun (hkind : d.kind ≠ .roll) (hchars : d.chars = 0)
    (hblock : 63 < data.toNat) : s.takeHeader d data = s.malformed := by
  simp [State.takeHeader, hkind, hchars, Nat.not_le.2 hblock]

theorem takeHeader_noSpan (hkind : d.kind ≠ .roll) (hchars : 3 ≤ d.chars)
    (hspan : spanOfByte data = none) : s.takeHeader d data = s.malformed := by
  obtain ⟨n, hn⟩ : ∃ n, d.chars = n + 3 := ⟨d.chars - 3, by omega⟩
  simp [State.takeHeader, hkind, hn, hspan]

/-- A span character that names a span begins the body, but in a REFRESH of less than the whole block. -/
theorem takeHeader_span (hkind : d.kind ≠ .roll) (hchars : 3 ≤ d.chars) {sp : Span}
    (hspan : spanOfByte data = some sp) :
    s.takeHeader d data = if d.kind = .refresh ∧ sp ≠ .full then s.malformed
      else (s.cover data).follow .body { d with chars := d.chars + 1, span := sp } := by
  obtain ⟨n, hn⟩ : ∃ n, d.chars = n + 3 := ⟨d.chars - 3, by omega⟩
  simp [State.takeHeader, hkind, hn, hspan]

/-- A REFRESH that does not name the whole block. -/
theorem takeHeader_partRefresh (hkind : d.kind = .refresh) (hchars : 3 ≤ d.chars)
    (hpart : data ≠ 0x0F) : s.takeHeader d data = s.malformed := by
  have hnoRoll : d.kind ≠ .roll := by simp [hkind]
  cases hspan : spanOfByte data with
  | none => exact takeHeader_noSpan hnoRoll hchars hspan
  | some sp =>
    rw [takeHeader_span hnoRoll hchars hspan]
    exact if_pos ⟨hkind, fun hfull => hpart (spanOfByte_full (hfull ▸ hspan))⟩

theorem takeCheck_mismatch {high : Byte} (hhigh : d.high = some high)
    (hcheck : high ++ data ≠ s.rx.check) : s.takeCheck d data = (s.markEnd .check d).malformed := by
  rw [markEnd_marks (by simp [hhigh])]
  simp [State.takeCheck, hhigh, wordOf, hcheck]

/-- Every malformed condition of R84 ends in the same step. -/
theorem deliver_malformed {ph : RxPhase} {marker framing : Bool} (hrx : s.rx.st = .following ph d)
    (hown : d.own = false) (hph : ph ≠ .answer)
    (h : malformedCharacter ph d s.rx.check data marker framing) :
    s.deliver data marker framing = (s.markEnd ph d).malformed := by
  by_cases hform : marker = true ∨ framing = true
  · exact deliver_malformedForm hrx hown hph hform
  obtain ⟨rfl, rfl⟩ : marker = false ∧ framing = false := by simpa using hform
  have hheader : s.markEnd .header d = s := markEnd_without nofun
  rcases h with h | h | h | h | h | h
  · cases h
  · cases h
  · obtain ⟨rfl, hkind, hchars, hblock⟩ := h
    rw [deliver_header hrx hown, takeHeader_blockOverrun hkind hchars hblock, hheader]
  · obtain ⟨rfl, hkind, hchars, hspan⟩ := h
    rw [deliver_header hrx hown, takeHeader_noSpan hkind hchars (spanOfByte_overrun hspan), hheader]
  · obtain ⟨rfl, hkind, hchars, hspan⟩ := h
    rw [deliver_header hrx hown, takeHeader_partRefresh hkind hchars hspan, hheader]
  · obtain ⟨rfl, high, hhigh, hcheck⟩ := h
    rw [deliver_check hrx hown, takeCheck_mismatch hhigh hcheck]

end

/-- Settles O25: every malformed condition is the one objection, past the line as the stop sample and the mark
of the slot leave it. -/
theorem malformedCharacterIsObjectedTo : Obligations.MalformedCharacterIsObjectedTo := by
  intro data marker framing ph d s hst hrx hown hph hbad
  have hexec := exec_characterDelivered hst data marker framing
  obtain ⟨hrequest, -⟩ := afterCharacter_keeps s.line data marker framing
  rw [deliver_malformed (s := s.stopRead data marker framing) hrx hown hph hbad] at hexec
  by_cases hend : ph = .check ∧ d.high.isSome = true
  · have hmark : (s.stopRead data marker framing).markEnd ph d
        = (s.stopRead data marker framing).openSlot := if_pos hend
    rw [hmark] at hexec
    obtain ⟨hframe, hline, hcheck, hobjected⟩ := malformed_objects (s := s)
      (u := (s.stopRead data marker framing).openSlot) rfl hrequest
    refine ⟨_, hexec, hframe, hobjected, hcheck, hline.trans ?_⟩
    rw [if_pos hend]
    unfold afterCharacter
    cases framing <;> rfl
  · have hmark : (s.stopRead data marker framing).markEnd ph d = s.stopRead data marker framing :=
      if_neg hend
    rw [hmark] at hexec
    obtain ⟨hframe, hline, hcheck, hobjected⟩ := malformed_objects (s := s)
      (u := s.stopRead data marker framing) rfl hrequest
    refine ⟨_, hexec, hframe, hobjected, hcheck, hline.trans ?_⟩
    rw [if_neg hend]
    rfl

end Sys2Proof.Machine
end

section
/-! SUPPORT. A dispatch heard whole (R75 to R78, R80 to R82, R183): one lemma for each of its characters, and
the run of them put together. -/

namespace Sys2Proof.Machine

/-! ### What the characters carry, and reading it back (R183) -/

theorem kindOfCode_kindCode (k : Kind) : kindOfCode (kindCode k) = some k := by cases k <;> rfl

theorem claimByte_toNat (k : Kind) (sid : StationNo) :
    (claimByte k sid).toNat = kindCode k * 32 + sid.val := by
  have hcode : kindCode k ≤ 3 := by cases k <;> decide
  have hsid := sid.isLt
  exact Nat.mod_eq_of_lt (by omega)

theorem claimKind_claimByte (k : Kind) (sid : StationNo) : claimKind (claimByte k sid) = some k := by
  have hsid := sid.isLt
  rw [claimKind, claimByte_toNat, show (kindCode k * 32 + sid.val) / 32 = kindCode k by omega]
  exact kindOfCode_kindCode k

theorem claimSender_claimByte (k : Kind) (sid : StationNo) : claimSender (claimByte k sid) = sid := by
  have hsid := sid.isLt
  refine Fin.ext ?_
  change (claimByte k sid).toNat % 32 = sid.val
  rw [claimByte_toNat]
  omega

theorem blockByte_toNat (b : Block) : (byteOf b.val).toNat = b.val :=
  Nat.mod_eq_of_lt (by have hb := b.isLt; omega)

/-- The span byte names its span. -/
theorem spanOfByte_spanByte {sp : Span} (h : sp.first ≤ sp.last) : spanOfByte (spanByte sp) = some sp := by
  have hle : sp.first.val ≤ sp.last.val := h
  have hfirst := sp.first.isLt
  have hlast := sp.last.isLt
  have hbyte : (spanByte sp).toNat = sp.first.val * 16 + (sp.last.val - sp.first.val) := by
    simp only [spanByte, byteOf, Span.count, BitVec.toNat_ofNat]
    omega
  have hquot : (spanByte sp).toNat / 16 = sp.first.val := by omega
  have hrem : (spanByte sp).toNat % 16 = sp.last.val - sp.first.val := by omega
  have hend : sp.first.val + (sp.last.val - sp.first.val) = sp.last.val := by omega
  rw [spanOfByte_eq, hquot, hrem, if_pos (by omega), hend]
  simp

theorem crcByte_checkValue (bs : List Byte) (b : Byte) :
    crcByte (checkValue bs) b = checkValue (bs ++ [b]) := (checkValue_append bs [b]).symm

/-! ### Runs of commands and of characters -/

theorem after_append (s : State) (cs ds : List Instr) : s.after (cs ++ ds) = (s.after cs).after ds :=
  List.foldl_append

/-- The steps of one well-framed character. -/
def characterSteps (marker : Bool) (c : Byte) : List Instr :=
  [.startEdge, .characterDelivered c marker false]

/-- The station after characters heard inside a dispatch, marker 0 in each. -/
def State.hearing (s : State) (cs : List Byte) : State := s.after (cs.flatMap (characterSteps false))

theorem hearing_append (s : State) (cs ds : List Byte) :
    s.hearing (cs ++ ds) = (s.hearing cs).hearing ds := by
  rw [State.hearing, List.flatMap_append, after_append]
  rfl

theorem hearing_cons (s : State) (c : Byte) (cs : List Byte) :
    s.hearing (c :: cs) = (s.hearing [c]).hearing cs := hearing_append s [c] cs

/-- A dispatch is its claim and the characters inside it. -/
theorem after_hearingSteps (s : State) (claim : Byte) (cs : List Byte) :
    s.after (hearingSteps (claim :: cs)) = (s.after (characterSteps true claim)).hearing cs :=
  after_append s (characterSteps true claim) _

/-- The station past a start edge found in HUNT (R61). -/
def State.edgeHeard (s : State) : State :=
  { s with line := { s.line with
      st := .assemble, lrx := .dominant, peers := s.peersAtFall, idleCount := 0, idle := false
      run := 0, runSeen := false, charTime := some 0, samples := [], edgeLow := s.eu.low } }

/-- The station as a well-framed character, heard from HUNT, is delivered. -/
def State.lineHeard (s : State) (marker : Bool) (c : Byte) : State := s.edgeHeard.stopRead c marker false

theorem after_characterSteps {s : State} (hst : s.line.st = .hunt) (hslot : s.line.slot = none)
    (marker : Bool) (c : Byte) :
    s.after (characterSteps marker c) = (s.lineHeard marker c).deliver c marker false := by
  have hedge : exec .startEdge s = .next s.edgeHeard := exec_startEdge_hunt hst hslot
  have hdelivered := exec_characterDelivered (s := s.edgeHeard) rfl c marker false
  simp only [State.after, characterSteps, List.foldl_cons, List.foldl_nil, hedge, hdelivered]
  rfl

/-! ### A dispatch on its way (R81, R82) -/

/-- t is the station s with a received dispatch followed as d in a state of the Receiver, the check register
at a value, and its line ready for the next character; nothing else has moved. -/
structure hears (s t : State) (ph : RxPhase) (d : Incoming) (check : Word) : Prop where
  frame : t = { s with line := t.line, rx := ⟨.following ph d, check⟩ }
  hunts : t.line.st = .hunt
  noSlot : t.line.slot = none
  own : d.own = false

section
variable {s t : State} {ph : RxPhase} {d : Incoming} {check : Word}

theorem lineHeard_rx (h : hears s t ph d check) (c : Byte) :
    (t.lineHeard false c).rx = ⟨.following ph d, check⟩ := by
  rw [h.frame]
  rfl

theorem lineHeard_following (h : hears s t ph d check) (c : Byte) :
    (t.lineHeard false c).rx.st = .following ph d := congrArg Receiver.st (lineHeard_rx h c)

/-- What the Receiver makes of the next character is what is heard then. -/
theorem hears_next (h : hears s t ph d check) {c : Byte} {ph' : RxPhase} {d' : Incoming} {check' : Word}
    (hown : d'.own = false)
    (hnext : (t.lineHeard false c).deliver c false false
      = { t.lineHeard false c with rx := ⟨.following ph' d', check'⟩ }) :
    hears s (t.hearing [c]) ph' d' check' := by
  have hafter : t.hearing [c] = { t.lineHeard false c with rx := ⟨.following ph' d', check'⟩ } :=
    (after_characterSteps h.hunts h.noSlot false c).trans hnext
  rw [hafter]
  refine ⟨?_, rfl, h.noSlot, hown⟩
  rw [h.frame]
  rfl

/-- A covered character enters the check register (R78). -/
theorem hears_covered (h : hears s t ph d check) {c : Byte} {ph' : RxPhase} {d' : Incoming}
    (hown : d'.own = false)
    (hnext : (t.lineHeard false c).deliver c false false
      = ((t.lineHeard false c).cover c).follow ph' d') :
    hears s (t.hearing [c]) ph' d' (crcByte check c) := by
  refine hears_next h hown (hnext.trans ?_)
  simp only [State.follow, State.cover, lineHeard_rx h]

/-! ### The header (R80, R81) -/

/-- The claim of a dispatch heard from READY with the low condition absent. -/
theorem hears_claim (hst : s.line.st = .hunt) (hslot : s.line.slot = none) (hlow : s.eu.low = false)
    (hrx : s.rx.st = .ready) (htx : s.tx = .standby) (k : Kind) (sid : StationNo) :
    hears s (s.after (characterSteps true (claimByte k sid))) .header
      { Incoming.ofClaim k 0 with sender := sid } (checkValue [claimByte k sid]) := by
  have hafter : s.after (characterSteps true (claimByte k sid))
      = ((s.lineHeard true (claimByte k sid)).claimRead (claimByte k sid)).follow .header
          (Incoming.ofClaim k (claimByte k sid)) := by
    rw [after_characterSteps hst hslot, deliver_claim (s := s.lineHeard true _) hrx,
      takeClaim_follows (s := s.lineHeard true _) htx hlow hlow (claimKind_claimByte k sid)]
  have hsaid : Incoming.ofClaim k (claimByte k sid) = { Incoming.ofClaim k 0 with sender := sid } := by
    simp [Incoming.ofClaim, claimSender_claimByte]
  rw [hafter, hsaid]
  exact ⟨rfl, rfl, hslot, rfl⟩

/-- The next header character of a dispatch that is followed. -/
theorem deliver_headerNext (h : hears s t .header d check) (c : Byte) :
    (t.lineHeard false c).deliver c false false = (t.lineHeard false c).takeHeader d c :=
  deliver_header (lineHeard_following h c) h.own

/-- The epoch character of a ROLL. -/
theorem hears_rollEpoch (h : hears s t .header d check) (hkind : d.kind = .roll) (epoch : Byte) :
    hears s (t.hearing [epoch]) .check { d with chars := d.chars + 1, epoch := epoch }
      (crcByte check epoch) := by
  refine hears_covered h h.own ((deliver_headerNext h epoch).trans ?_)
  simp [State.takeHeader, hkind]

theorem hears_block (h : hears s t .header d check) (hkind : d.kind ≠ .roll) (hchars : d.chars = 0)
    (b : Block) :
    hears s (t.hearing [byteOf b.val]) .header { d with chars := d.chars + 1, block := b }
      (crcByte check (byteOf b.val)) := by
  have hb : b.val ≤ 63 := Nat.le_of_lt_succ b.isLt
  refine hears_covered h h.own ((deliver_headerNext h _).trans ?_)
  simp [State.takeHeader, hkind, hchars, blockByte_toNat, hb]

/-- A room question that is not answered with an objection, or not asked (R43, R44). -/
theorem askRoom_follows {u : State} {d : Incoming}
    (h : roomFor u.staging d.block = true ∨ u.mem.station.objects = false) :
    ∃ room, u.askRoom d = u.follow .header { d with room := room } := by
  unfold State.askRoom
  split
  · exact ⟨_, if_neg (by rcases h with h | h <;> simp [h])⟩
  · exact ⟨d.room, rfl⟩

theorem hears_epoch (h : hears s t .header d check) (hkind : d.kind ≠ .roll) (hchars : d.chars = 1)
    (hroom : roomFor s.staging d.block = true ∨ s.mem.station.objects = false) (epoch : Byte) :
    ∃ room, hears s (t.hearing [epoch]) .header
      { d with chars := d.chars + 1, epoch := epoch, room := room } (crcByte check epoch) := by
  obtain ⟨room, hask⟩ := askRoom_follows (u := (t.lineHeard false epoch).cover epoch)
    (d := { d with chars := d.chars + 1, epoch := epoch }) (by rw [h.frame]; exact hroom)
  refine ⟨room, hears_covered h h.own ((deliver_headerNext h epoch).trans (Eq.trans ?_ hask))⟩
  simp [State.takeHeader, hkind, hchars]

theorem hears_seq (h : hears s t .header d check) (hkind : d.kind ≠ .roll) (hchars : d.chars = 2)
    (seq : Byte) :
    hears s (t.hearing [seq]) .header { d with chars := d.chars + 1, seq := seq } (crcByte check seq) := by
  refine hears_covered h h.own ((deliver_headerNext h seq).trans ?_)
  simp [State.takeHeader, hkind, hchars]

theorem hears_span (h : hears s t .header d check) (hkind : d.kind ≠ .roll) (hchars : d.chars = 3)
    {sp : Span} (hsp : sp.first ≤ sp.last) (hfull : d.kind = .refresh → sp = .full) :
    hears s (t.hearing [spanByte sp]) .body { d with chars := d.chars + 1, span := sp }
      (crcByte check (spanByte sp)) := by
  refine hears_covered h h.own ((deliver_headerNext h _).trans ?_)
  rw [takeHeader_span hkind (Nat.le_of_eq hchars.symm) (spanOfByte_spanByte hsp)]
  exact if_neg fun ⟨hrefresh, hpart⟩ => hpart (hfull hrefresh)

/-! ### The body (R82) -/

theorem hears_bodyHigh (h : hears s t .body d check) (hhigh : d.high = none) (c : Byte) :
    hears s (t.hearing [c]) .body { d with chars := d.chars + 1, high := some c } (crcByte check c) := by
  refine hears_covered h h.own ((deliver_body (lineHeard_following h c) h.own).trans ?_)
  simp [State.takeBody, hhigh]

/-- The second character of a pair completes a word; the last word of the span ends the body. -/
theorem hears_bodyLow (h : hears s t .body d check) {high : Byte} (hhigh : d.high = some high)
    (c : Byte) :
    hears s (t.hearing [c]) (if d.span.count ≤ d.words.length + 1 then .check else .body)
      { d with chars := d.chars + 1, words := d.words ++ [wordOf high c], high := none }
      (crcByte check c) := by
  refine hears_covered h h.own ((deliver_body (lineHeard_following h c) h.own).trans ?_)
  simp [State.takeBody, hhigh]

/-- The two characters of a body word. -/
theorem hears_word (h : hears s t .body d check) (hhigh : d.high = none) (w : Word) :
    hears s (t.hearing (wordBytes [w]))
      (if d.span.count ≤ d.words.length + 1 then .check else .body)
      { d with chars := d.chars + 2, words := d.words ++ [w] }
      ((wordBytes [w]).foldl crcByte check) := by
  have hpair := hears_bodyLow (hears_bodyHigh h hhigh (Word.high w)) rfl (Word.low w)
  rw [wordOf_high_low, ← hearing_append] at hpair
  rw [hhigh]
  exact hpair

/-- The words of the span, from the first not yet heard to the last. -/
theorem hears_words {ws : List Word} (h : hears s t .body d check) (hhigh : d.high = none)
    (hne : ws ≠ []) (hcount : d.span.count = d.words.length + ws.length) :
    hears s (t.hearing (wordBytes ws)) .check
      { d with chars := d.chars + 2 * ws.length, words := d.words ++ ws }
      ((wordBytes ws).foldl crcByte check) := by
  induction ws generalizing t d check with
  | nil => exact absurd rfl hne
  | cons w ws ih =>
    have hword := hears_word h hhigh w
    have hsplit : wordBytes (w :: ws) = wordBytes [w] ++ wordBytes ws := rfl
    rw [hsplit, hearing_append, List.foldl_append]
    cases ws with
    | nil =>
      rw [if_pos (by simp [hcount])] at hword
      exact hword
    | cons w' ws =>
      rw [if_neg (by simp [hcount])] at hword
      have hrest := ih hword hhigh (List.cons_ne_nil w' ws) (by simp [hcount]; omega)
      have hchars : d.chars + 2 + 2 * (w' :: ws).length = d.chars + 2 * (w :: w' :: ws).length := by
        simp only [List.length_cons]; omega
      simpa only [hchars, List.append_assoc, List.singleton_append] using hrest

/-! ### The check characters (R77, R78, R82) -/

theorem hears_checkHigh (h : hears s t .check d check) (hhigh : d.high = none) (c : Byte) :
    hears s (t.hearing [c]) .check { d with chars := d.chars + 1, high := some c } check := by
  refine hears_next h h.own ((deliver_check (lineHeard_following h c) h.own).trans ?_)
  simp [State.takeCheck, hhigh, State.follow, lineHeard_rx h]

/-- The second check character, where the two are the check register, opens the answer slot. -/
theorem hearing_checkLow (h : hears s t .check d check) {high c : Byte} (hhigh : d.high = some high)
    (hcheck : wordOf high c = check) :
    t.hearing [c] = (t.lineHeard false c).openSlot.follow .answer
      { d with chars := d.chars + 1, high := none } := by
  refine (after_characterSteps h.hunts h.noSlot false c).trans
    ((deliver_check (lineHeard_following h c) h.own).trans ?_)
  simp [State.takeCheck, hhigh, lineHeard_rx h, hcheck]

/-- A dispatch whose covered characters have been heard is followed to its answer slot with its check
characters. -/
theorem hears_withCheck {claim : Byte} {cs : List Byte}
    (h : hears s (s.after (hearingSteps (claim :: cs))) .check d (checkValue (claim :: cs)))
    (hhigh : d.high = none) :
    (s.after (hearingSteps (withCheck (claim :: cs)))).rx.st
        = .following .answer { d with chars := d.chars + 2, high := none }
      ∧ (s.after (hearingSteps (withCheck (claim :: cs)))).line.slot = some 0 := by
  have hlast := hearing_checkLow (hears_checkHigh h hhigh _) rfl (wordOf_high_low (checkValue (claim :: cs)))
  rw [after_hearingSteps, ← hearing_append, ← hearing_append, ← after_hearingSteps] at hlast
  have hheard : s.after (hearingSteps (withCheck (claim :: cs))) = _ := hlast
  rw [hheard]
  exact ⟨rfl, rfl⟩

end

/-- Settles O28: character by character to the end of the covered ones, then the check characters. -/
theorem dispatchIsHeardAsSent : Obligations.DispatchIsHeardAsSent := by
  refine ⟨fun k sid b epoch seq sp ws s hkind hfull hsp hlen hst hslot hlow hrx htx hroom => ?_,
    fun sid epoch s hst hslot hlow hrx htx => ?_⟩
  · have hne : ws ≠ [] := by
      have hle : sp.first.val ≤ sp.last.val := hsp
      rintro rfl
      simp at hlen
      omega
    have hclaim := hears_claim hst hslot hlow hrx htx k sid
    have hblock := hears_block hclaim hkind rfl b
    obtain ⟨room, hepoch⟩ := hears_epoch hblock hkind rfl hroom epoch
    have hseq := hears_seq hepoch hkind rfl seq
    have hspan := hears_span hseq hkind rfl hsp hfull
    have hbody := hears_words hspan rfl hne (by simp [Span.count, Incoming.ofClaim, hlen])
    rw [← hearing_cons, ← hearing_cons, ← hearing_cons, ← hearing_cons, ← after_hearingSteps,
      ← List.foldl_cons, ← List.foldl_cons, ← List.foldl_cons, ← List.foldl_cons,
      ← checkValue_append] at hbody
    exact ⟨room, hears_withCheck hbody rfl⟩
  · have hclaim := hears_claim hst hslot hlow hrx htx .roll sid
    have hepoch := hears_rollEpoch hclaim rfl epoch
    rw [← after_hearingSteps, crcByte_checkValue] at hepoch
    obtain ⟨hanswer, hslot⟩ := hears_withCheck hepoch rfl
    rw [rollDispatch]
    exact ⟨_, hanswer, rfl, rfl, rfl, rfl, hslot⟩

end Sys2Proof.Machine
end

section
/-! SUPPORT. An accepted dispatch of a peer: the sender heard, the epoch compare, and the dispatch handed on or
not (R91 to R94, R127, R136, R140, R145). -/

namespace Sys2Proof.Machine

/-! ### The epoch compare (R92, R136, R140) -/

section
variable {v : State} {d : Incoming}

/-- The station is in LISTEN and no epoch number has been taken there: the next acceptance is the first. -/
def State.takesFirstEpoch (s : State) : Prop := s.mem.station = .listen ∧ s.mem.epochTaken = false

theorem adopt_eq (v : State) (d : Incoming) : v.adopt d = { v with
    eu := { v.eu with epoch := d.epoch }
    events := addEvent v.events
      ⟨.epochAdopted, d.epoch, some d.sender, none, some v.eu.epoch.toNat⟩ d.epoch } := rfl

theorem compareEpoch_first (h : v.takesFirstEpoch) : v.compareEpoch d
    = State.handOn { v.adopt d with mem := { v.mem with epochTaken := true, joiningCount := 0 } } d :=
  if_pos h

theorem compareEpoch_matches (h : ¬ v.takesFirstEpoch) (hepoch : d.epoch = v.eu.epoch) :
    v.compareEpoch d = v.handOn d := (if_neg h).trans (if_pos hepoch)

/-- The station with an epoch mismatch counted. -/
def State.mismatched (s : State) : State :=
  { s with counters := { s.counters with mismatches := bump s.counters.mismatches } }

theorem compareEpoch_adopts (h : ¬ v.takesFirstEpoch) (hepoch : d.epoch ≠ v.eu.epoch)
    (hlower : d.sender < v.straps.sid) : v.compareEpoch d = v.mismatched.adopt d :=
  (if_neg h).trans ((if_neg hepoch).trans (if_pos hlower))

theorem compareEpoch_discards (h : ¬ v.takesFirstEpoch) (hepoch : d.epoch ≠ v.eu.epoch)
    (hhigher : v.straps.sid < d.sender) : v.compareEpoch d = v.mismatched :=
  (if_neg h).trans ((if_neg hepoch).trans (if_neg (Fin.not_lt.2 (Fin.le_of_lt hhigher))))

end

/-! ### The station as the sender has been heard (R91) -/

section
variable {s : State} {d : Incoming}

/-- An acceptance leaves the membership as it was, or takes a muted station to MEMBER (R129). -/
theorem accepting_mem (s : State) : s.accepting.mem = s.mem
    ∨ (s.mem.station = .mute ∧ s.accepting.mem
        = { s.mem with station := .member, listenCount := 0, joiningCount := 0 }) := by
  obtain ⟨-, hother, hbelow, hleaves⟩ := accepting_taken s
  by_cases hmute : s.mem.station = .mute
  · by_cases hclean : s.mute.clean + 1 < 32
    · exact Or.inl (hbelow hmute hclean).1
    · exact Or.inr ⟨hmute, (hleaves hmute (Nat.not_lt.1 hclean)).1⟩
  · exact Or.inl (hother hmute).1

theorem accepting_peers (s : State) : s.accepting.mem.peers = s.mem.peers := by
  rcases accepting_mem s with h | ⟨-, h⟩ <;> rw [h]

theorem accepting_takesFirstEpoch (s : State) : s.accepting.takesFirstEpoch ↔ s.takesFirstEpoch := by
  unfold State.takesFirstEpoch
  rcases accepting_mem s with h | ⟨hmute, h⟩
  · rw [h]
  · simp [h, hmute]

/-- The station with the dispatch accepted and its sender heard, ahead of the epoch compare. -/
def State.heardFrom (s : State) (d : Incoming) : State := s.accepting.hear d.sender d.epoch

theorem heardFrom_senderHeard (h : s.mem.peers[d.sender].state ≠ .self) :
    senderHeard d s.accepting (s.heardFrom d) :=
  State.hear_senderHeard d (by rwa [accepting_peers])

theorem heardFrom_keeps (h : s.mem.peers[d.sender].state ≠ .self) :
    (s.heardFrom d).eu = s.eu ∧ (s.heardFrom d).straps = s.straps
      ∧ (s.heardFrom d).counters.mismatches = s.counters.mismatches
      ∧ ((s.heardFrom d).takesFirstEpoch ↔ s.takesFirstEpoch) := by
  obtain ⟨hheard, -⟩ := heardFrom_senderHeard h
  obtain ⟨hframe, -⟩ := accepting_taken s
  have hmem : (s.heardFrom d).takesFirstEpoch ↔ s.accepting.takesFirstEpoch := by rw [hheard]; rfl
  refine ⟨?_, ?_, ?_, hmem.trans (accepting_takesFirstEpoch s)⟩
  all_goals rw [hheard, hframe]

/-- The clean slot of a dispatch from another station. -/
theorem exec_slotClean_other (hslot : s.line.slot ≠ none) (htx : ∀ a, s.tx ≠ .active .slotWait a)
    (hrx : s.rx.st = .following .answer d) (hown : d.own = false) (hhigh : s.eu.low = false)
    (hsender : d.sender ≠ s.straps.sid) :
    exec .slotClean s = .next ((s.heardFrom d).compareEpoch d) :=
  (execSlotClean_accepts hslot htx hrx hown hhigh).trans (congrArg _ (acceptReceived_other hsender))

end

/-- Settles O33: a dispatch whose epoch number matches is handed on once its sender has been heard. -/
theorem acceptedDispatchIsHeardAndTested : Obligations.AcceptedDispatchIsHeardAndTested := by
  intro d s hslot htx hrx hown hhigh hsender hpeer hepoch hnotFirst
  have hexec := exec_slotClean_other hslot htx hrx hown hhigh hsender
  obtain ⟨heu, -, -, hfirst⟩ := heardFrom_keeps hpeer
  rw [compareEpoch_matches (fun h => hnotFirst (hfirst.1 h)) (by rw [heu]; exact hepoch)] at hexec
  exact ⟨_, _, _, hexec, accepting_taken s, heardFrom_senderHeard hpeer, State.handOn_handedOn d _⟩

/-- Settles O34: the three outcomes of the epoch compare, on the station as the sender has been heard. -/
theorem epochCompareAndAdoption : Obligations.EpochCompareAndAdoption := by
  intro d s hslot htx hrx hown hhigh hsender hpeer
  obtain ⟨heu, hstraps, hmismatches, hfirst⟩ := heardFrom_keeps hpeer
  refine ⟨_, _, _, exec_slotClean_other hslot htx hrx hown hhigh hsender, accepting_taken s,
    heardFrom_senderHeard hpeer, ?_⟩
  rintro _ rfl
  rw [← heu, ← hmismatches]
  refine ⟨fun hlisten hnone => ?_, fun hnotFirst hepoch => ⟨fun hlower => ?_, fun hhigher => ?_⟩⟩
  · rw [compareEpoch_first (hfirst.2 ⟨hlisten, hnone⟩), adopt_eq]
    exact State.handOn_handedOn d _
  · rw [compareEpoch_adopts (fun h => hnotFirst (hfirst.1 h)) hepoch (by rwa [hstraps]), adopt_eq]
    rfl
  · exact compareEpoch_discards (fun h => hnotFirst (hfirst.1 h)) hepoch (by rwa [hstraps])

end Sys2Proof.Machine
end

section
/-! SUPPORT. A clean answer slot of the station's own dispatch (R17, R83, R104, R105, R110, R138). -/

namespace Sys2Proof.Machine

/-! ### The block's part (R17, R39, R104) -/

/-- A staging leaves the acceptances counted as they were. -/
theorem stageDispatch_accepted (s : State) (b : Block) (n : StationNo) (seq : Byte) (sp : Span)
    (ws : List Word) : (s.stageDispatch b n seq sp ws).counters.accepted = s.counters.accepted := by
  unfold State.stageDispatch
  split <;> rfl

theorem stageDispatch_room {s : State} {b : Block} (h : roomFor s.staging b = true) (n : StationNo)
    (seq : Byte) (sp : Span) (ws : List Word) : s.stageDispatch b n seq sp ws = { s with
      staging := stage s.staging b n seq (spanWords sp ws)
      counters := { s.counters with staged := bump s.counters.staged } } := if_pos h

/-- The last accepted sequences once a dispatch of block b is accepted: an UPDATE moves the block's. -/
def ownSequences (before : Vector Byte 64) (a : Attempt) (b : Block) : Vector Byte 64 :=
  if a.entry.duty.kind = .update then put before b a.seq else before

/-- The refresh countdowns once a dispatch of block b is accepted: a whole block restarts the block's. -/
def ownCountdowns (before : Vector Nat 64) (period : Nat) (a : Attempt) (b : Block) : Vector Nat 64 :=
  if a.entry.duty.span = .full then put before b period else before

theorem ownSequences_get (before : Vector Byte 64) (a : Attempt) (b c : Block) :
    (ownSequences before a b)[c] = if c = b ∧ a.entry.duty.kind = .update then a.seq else before[c] := by
  unfold ownSequences
  by_cases h : a.entry.duty.kind = .update
  · rw [if_pos h, put_get]
    exact if_congr (iff_self_and.2 fun _ => h) rfl rfl
  · rw [if_neg h, if_neg fun h' => h h'.2]

theorem ownCountdowns_get (before : Vector Nat 64) (period : Nat) (a : Attempt) (b c : Block) :
    (ownCountdowns before period a b)[c]
      = if c = b ∧ a.entry.duty.span = ⟨0, 15⟩ then period else before[c] := by
  unfold ownCountdowns
  by_cases h : a.entry.duty.span = .full
  · rw [if_pos h, put_get]
    exact if_congr (iff_self_and.2 fun _ => h) rfl rfl
  · rw [if_neg h, if_neg fun h' => h h'.2]

/-- The station with its own dispatch of a block staged as its own (R39). -/
def State.ownStaged (s : State) (a : Attempt) (b : Block) : State :=
  s.stageDispatch b s.straps.sid a.seq a.entry.duty.span a.words

/-- An own UPDATE or REFRESH is staged and moves the sequence and the countdown of its block. -/
theorem ownBlock_eq (s : State) (a : Attempt) (b : Block) : s.ownBlock a b = { s with
    staging := (s.ownStaged a b).staging
    counters := (s.ownStaged a b).counters
    image := { s.image with lastSeq := ownSequences s.image.lastSeq a b }
    pub := { s.pub with countdown := ownCountdowns s.pub.countdown s.cfg.refreshPeriod a b } } := by
  unfold State.ownBlock State.ownStaged ownSequences ownCountdowns State.stageDispatch
  dsimp only
  split <;> split <;> split <;> rfl

/-! ### The acceptance (R83, R110, R124, R138) -/

theorem resetObjections_eq (s : State) : s.resetObjections = { s with
    mute := if s.mem.station = .joining ∨ s.mem.station = .member
      then { s.mute with consecutive := 0 } else s.mute } := by
  unfold State.resetObjections
  by_cases h : s.mem.station.objects = true
  · rw [if_pos h, if_pos ((objects_iff _).1 h)]
  · rw [if_neg h, if_neg fun h' => h ((objects_iff _).2 h')]

section
variable {s : State} {a : Attempt}

/-- The station with its own dispatch accepted, ahead of what that does for the block or the ROLL. -/
def State.ownTaken (s : State) : State := { s.slotClosed with
  tx := .standby
  rx := { s.rx with st := .waitIdle }
  pub := { s.pub with ownAccepted := true }
  counters := { s.counters with accepted := bump s.counters.accepted }
  mute := if s.mem.station = .joining ∨ s.mem.station = .member
    then { s.mute with consecutive := 0 } else s.mute }

theorem exec_slotClean_own (hslot : s.line.slot ≠ none) (htx : s.tx = .active .slotWait a)
    (hhigh : s.eu.low = false) : exec .slotClean s = .next (s.slotClosed.acceptOwn a) := by
  refine congrArg Host.Outcome.next ((if_neg hslot).trans ?_)
  dsimp only
  split
  next b hb =>
    obtain rfl : b = a := by simpa [htx] using hb.symm
    exact if_neg (by simp [hhigh])
  next hno => exact absurd htx (hno a)

theorem acceptOwn_block {b : Block} (h : a.entry.duty.block = some b) :
    s.slotClosed.acceptOwn a = s.ownTaken.ownBlock a b := by
  simp only [State.acceptOwn, resetObjections_eq, h]
  rfl

theorem acceptOwn_joins (h : a.entry.duty.block = none) (hjoining : s.mem.station = .joining) :
    s.slotClosed.acceptOwn a = s.ownTaken.enterMember.post .joined := by
  simp only [State.acceptOwn, resetObjections_eq, h]
  exact if_pos hjoining

theorem acceptOwn_roll (h : a.entry.duty.block = none) (hother : s.mem.station ≠ .joining) :
    s.slotClosed.acceptOwn a = s.ownTaken := by
  simp only [State.acceptOwn, resetObjections_eq, h]
  exact if_neg hother

theorem enterMember_countdown (s : State) (b : Block) : s.enterMember.pub.countdown[b]
    = if s.cfg.refreshPeriod ≠ 0 ∧ s.cfg.owners[b] = some s.straps.sid then 1
      else s.pub.countdown[b] := by
  unfold State.enterMember
  dsimp only
  by_cases hperiod : s.cfg.refreshPeriod = 0
  · rw [if_pos hperiod, if_neg fun h => h.1 hperiod]
  · rw [if_neg hperiod, ofFn_get]
    exact if_congr (by simp [State.owned, State.owner, hperiod]) rfl rfl

end

/-- Settles O37: the duty of the attempt says whether a block is staged, a ROLL joins, or a ROLL does no
more. -/
theorem slotCleanAcceptsOwnDispatch : Obligations.SlotCleanAcceptsOwnDispatch := by
  intro a s hslot htx hhigh
  have hexec := exec_slotClean_own hslot htx hhigh
  cases hblock : a.entry.duty.block with
  | some b =>
    have hnoRoll : a.entry.duty ≠ .roll := fun h => by simp [h, Duty.block] at hblock
    rw [acceptOwn_block hblock, ownBlock_eq] at hexec
    refine ⟨_, hexec, rfl, rfl, rfl, rfl, stageDispatch_accepted _ _ _ _ _ _, rfl, rfl, rfl, rfl, rfl,
      rfl, rfl, fun h => absurd h hnoRoll, ?_⟩
    rintro _ ⟨⟩
    refine ⟨rfl, rfl, rfl, fun hroom => ?_, ownSequences_get _ a b, ownCountdowns_get _ _ a b⟩
    have hstaged : s.ownTaken.ownStaged a b = _ := stageDispatch_room (s := s.ownTaken) hroom _ _ _ _
    rw [hstaged]
    exact ⟨rfl, rfl⟩
  | none =>
    by_cases hjoining : s.mem.station = .joining
    · rw [acceptOwn_joins hblock hjoining] at hexec
      refine ⟨_, hexec, rfl, rfl, rfl, rfl, rfl, rfl, rfl, rfl, rfl, rfl, rfl, rfl,
        fun _ => ⟨rfl, rfl, fun _ => ⟨rfl, rfl, rfl, enterMember_countdown s.ownTaken⟩,
          fun h => absurd hjoining h⟩, nofun⟩
    · rw [acceptOwn_roll hblock hjoining] at hexec
      exact ⟨_, hexec, rfl, rfl, rfl, rfl, rfl, rfl, rfl, rfl, rfl, rfl, rfl, rfl,
        fun _ => ⟨rfl, rfl, fun h => absurd h hjoining, fun _ => ⟨rfl, rfl, rfl⟩⟩, nofun⟩

end Sys2Proof.Machine
end

section
/-! SUPPORT. The publish queue as a list (R98 to R101, R111): the queued entry of a key, the keys in use, and
the bounds of R98 to R100 over each change of the queue. -/

namespace Sys2Proof.Machine

/-! ### Spans -/

/-- The span that covers both (R101, R111). -/
theorem Span.union_bounds (a b : Span) : (a.union b).first.val = min a.first.val b.first.val
    ∧ (a.union b).last.val = max a.last.val b.last.val := by
  simp only [Span.union, Fin.le_def]
  constructor <;> split <;> omega

/-! ### The queued entry of a key -/

theorem findKey_some {q : List Entry} {k : Key} {x : Entry} (h : findKey q k = some x) :
    x ∈ q ∧ x.duty.key = k :=
  ⟨List.mem_of_find?_eq_some h, by simpa using List.find?_some h⟩

theorem findKey_isSome_iff (q : List Entry) (k : Key) :
    (findKey q k).isSome = true ↔ k ∈ queueKeys q := by
  rw [Option.isSome_iff_ne_none, Ne, findKey_none_iff, not_not]

theorem findKey_isNone_iff (q : List Entry) (k : Key) :
    (findKey q k).isNone = true ↔ k ∉ queueKeys q := by
  rw [Option.isNone_iff_eq_none, findKey_none_iff]

theorem mem_queueKeys {q : List Entry} {k : Key} :
    k ∈ queueKeys q ↔ ∃ e ∈ q, e.duty.key = k := by simp [queueKeys]

theorem queueKeys_length (q : List Entry) : (queueKeys q).length = q.length := by simp [queueKeys]

/-! ### Keys in use (R100) -/

theorem keysInUse_none (q : List Entry) : keysInUse q none = q.length := rfl

theorem keysInUse_some (q : List Entry) (k : Key) :
    keysInUse q (some k) = q.length + if k ∈ queueKeys q then 0 else 1 := by
  simp [keysInUse, mem_queueKeys]

/-- The number of keys in use is a matter of the queued keys alone, in whatever order. -/
theorem keysInUse_perm {q q' : List Entry} (h : (queueKeys q').Perm (queueKeys q)) (flight : Option Key) :
    keysInUse q' flight = keysInUse q flight := by
  have hlength : q'.length = q.length := by simpa only [queueKeys_length] using h.length_eq
  cases flight with
  | none => exact hlength
  | some k => rw [keysInUse_some, keysInUse_some, hlength, if_congr h.mem_iff rfl rfl]

theorem length_le_keysInUse (q : List Entry) (flight : Option Key) :
    q.length ≤ keysInUse q flight := Nat.le_add_right _ _

theorem hasRoom_none (q : List Entry) (limit : Nat) (d : Duty) :
    hasRoom q none limit d = true ↔ q.length + 1 ≤ limit := by simp [hasRoom, keysInUse]

theorem hasRoom_some (q : List Entry) (k : Key) (limit : Nat) (d : Duty) :
    hasRoom q (some k) limit d = true
      ↔ q.length + 1 + (if k = d.key ∨ k ∈ queueKeys q then 0 else 1) ≤ limit := by
  simp [hasRoom, keysInUse_some, queueKeys]

/-- The keys in use once a new entry has joined are those that the room was asked for. -/
theorem keysInUse_insertEntry_le {q : List Entry} {flight : Option Key} {limit : Nat} {e : Entry}
    (h : hasRoom q flight limit e.duty = true) : keysInUse (insertEntry q e) flight ≤ limit := by
  have hkeys : (queueKeys (insertEntry q e)).Perm (queueKeys (⟨e.duty, 0, 0, false⟩ :: q)) :=
    insertEntry_keys_perm q e
  rw [keysInUse_perm hkeys]
  simpa [hasRoom] using h

/-! ### A return to the queue (R111) -/

/-- The returned entry is alone in its key, so the others are those of other keys. -/
theorem giveBack_perm (q : List Entry) (e : Entry) : ∃ d order, d.key = e.duty.key
    ∧ (giveBack q e).Perm ({ e with duty := d, order := order }
        :: q.filter fun y => y.duty.key != e.duty.key) := by
  unfold giveBack
  split
  next hnone =>
    refine ⟨e.duty, e.order, rfl, ?_⟩
    have hothers : (q.filter fun y => y.duty.key != e.duty.key) = q := by
      refine List.filter_eq_self.2 fun y hy => ?_
      have hkey := (findKey_none_iff q _).1 hnone
      simp only [bne_iff_ne]
      exact fun hsame => hkey (mem_queueKeys.2 ⟨y, hy, hsame⟩)
    rw [hothers]
    exact insertEntry_perm q e
  next x _ => exact ⟨_, _, mergeDuty_key _ _, insertEntry_perm _ _⟩

/-- An entry that returns takes the place that its key had in use. -/
theorem giveBack_length {q : List Entry} (h : (queueKeys q).Nodup) (e : Entry) :
    (giveBack q e).length = keysInUse q (some e.duty.key) := by
  have hkeys : (queueKeys (giveBack q e)).toFinset = insert e.duty.key (queueKeys q).toFinset := by
    ext k
    simp [giveBack_keys]
  rw [keysInUse_some, ← queueKeys_length, ← queueKeys_length q, ← List.toFinset_card_of_nodup h,
    ← List.toFinset_card_of_nodup (giveBack_nodup h e), hkeys, Finset.card_insert_eq_ite]
  simp only [List.mem_toFinset]
  split <;> rfl

theorem giveBack_failures {q : List Entry} {e : Entry} (hq : ∀ x ∈ q, x.failures ≤ 7)
    (he : e.failures ≤ 7) : ∀ x ∈ giveBack q e, x.failures ≤ 7 := by
  intro x hx
  obtain ⟨d, order, -, hperm⟩ := giveBack_perm q e
  rcases List.mem_cons.1 (hperm.mem_iff.1 hx) with rfl | hx
  · exact he
  · exact hq x (List.mem_of_mem_filter hx)

theorem giveBack_sorted {q : List Entry} (h : q.Pairwise fun a b => b.before a = false) (e : Entry) :
    (giveBack q e).Pairwise fun a b => b.before a = false := by
  unfold giveBack
  split
  · exact insertEntry_sorted h e
  · exact insertEntry_sorted (h.sublist List.filter_sublist) _

/-! ### Changes of entries that leave them their places (R101, R112) -/

/-- The change leaves every entry its key, its kind, its failures and its order. -/
def keepsPlaces (f : Entry → Entry) : Prop :=
  ∀ e, (f e).duty.key = e.duty.key ∧ (f e).duty.kind = e.duty.kind ∧ (f e).failures = e.failures
    ∧ (f e).order = e.order

/-- The queued UPDATE of the block takes in the span as well. -/
def widenEntry (b : Block) (sp : Span) (e : Entry) : Entry :=
  match e.duty with
  | .update b' old => if b' = b then { e with duty := .update b (old.union sp) } else e
  | .refresh _ => e
  | .roll => e

theorem widen_eq_map (q : List Entry) (b : Block) (sp : Span) :
    widen q b sp = q.map (widenEntry b sp) := by
  refine List.map_congr_left fun e _ => ?_
  unfold widenEntry
  cases e.duty with
  | update b' old => dsimp only; split <;> simp_all
  | refresh b' => rfl
  | roll => rfl

theorem widenEntry_keepsPlaces (b : Block) (sp : Span) : keepsPlaces (widenEntry b sp) := by
  rintro ⟨d, failures, order, held⟩
  cases d with
  | update b' old =>
    by_cases hb : b' = b <;> simp [widenEntry, hb, Duty.key, Duty.kind]
  | refresh b' => exact ⟨rfl, rfl, rfl, rfl⟩
  | roll => exact ⟨rfl, rfl, rfl, rfl⟩

theorem clearHeld_eq_map (q : List Entry) : clearHeld q = q.map fun e => { e with held := false } := rfl

theorem notHeld_keepsPlaces : keepsPlaces fun e => { e with held := false } :=
  fun _ => ⟨rfl, rfl, rfl, rfl⟩

theorem keepsPlaces_keys {f : Entry → Entry} (hf : keepsPlaces f) (q : List Entry) :
    queueKeys (q.map f) = queueKeys q := by
  simp only [queueKeys, List.map_map]
  exact List.map_congr_left fun e _ => (hf e).1

theorem keepsPlaces_before {f : Entry → Entry} (hf : keepsPlaces f) (a b : Entry) :
    (f a).before (f b) = a.before b := by
  obtain ⟨-, hkind, -, horder⟩ := hf a
  obtain ⟨-, hkind', -, horder'⟩ := hf b
  simp only [Entry.before, hkind, hkind', horder, horder']

/-! ### The bounds of the queue (R98 to R100) -/

section
variable {q : List Entry} {flight : Option Attempt} {a : Attempt}

theorem queueBounded_map {f : Entry → Entry} (hf : keepsPlaces f) (h : queueBounded q flight) :
    queueBounded (q.map f) flight := by
  obtain ⟨huse, hkeys, hfailures, hflight, horder⟩ := h
  refine ⟨?_, ?_, fun e he => ?_, hflight, ?_⟩
  · rw [keysInUse_perm (List.Perm.of_eq (keepsPlaces_keys hf q))]
    exact huse
  · rw [keepsPlaces_keys hf]
    exact hkeys
  · obtain ⟨x, hx, rfl⟩ := List.mem_map.1 he
    obtain ⟨-, -, hsame, -⟩ := hf x
    exact hsame ▸ hfailures x hx
  · simpa only [List.pairwise_map, keepsPlaces_before hf] using horder

/-- A new entry whose key is not queued and for which there is room (R100). -/
theorem queueBounded_insertEntry {e : Entry} (h : queueBounded q flight)
    (hnew : e.duty.key ∉ queueKeys q) (hfailures : e.failures ≤ 7) {limit : Nat} (hlimit : limit ≤ 8)
    (hroom : hasRoom q (flight.map fun a => a.entry.duty.key) limit e.duty = true) :
    queueBounded (insertEntry q e) flight := by
  obtain ⟨-, hkeys, hqueued, hflight, horder⟩ := h
  refine ⟨(keysInUse_insertEntry_le hroom).trans hlimit, insertEntry_nodup hkeys hnew, fun x hx => ?_,
    hflight, insertEntry_sorted horder e⟩
  rcases mem_insertEntry.1 hx with rfl | hx
  · exact hfailures
  · exact hqueued x hx

/-- The slot empties and its entry is gone (R110, R112). -/
theorem queueBounded_emptySlot (h : queueBounded q flight) : queueBounded q none := by
  obtain ⟨huse, hkeys, hfailures, -, horder⟩ := h
  exact ⟨(length_le_keysInUse q _).trans huse, hkeys, hfailures, nofun, horder⟩

/-- The slot empties and its entry, or one of its key, returns (R111). -/
theorem queueBounded_giveBack {e : Entry} (h : queueBounded q (some a))
    (hkey : e.duty.key = a.entry.duty.key) (hfailures : e.failures ≤ 7) :
    queueBounded (giveBack q e) none := by
  obtain ⟨huse, hkeys, hqueued, -, horder⟩ := h
  refine ⟨?_, giveBack_nodup hkeys e, giveBack_failures hqueued hfailures, nofun, giveBack_sorted horder e⟩
  rw [Option.map_none, keysInUse_none, giveBack_length hkeys, hkey]
  exact huse

/-- Entries leave the queue, and the slot is empty. -/
theorem queueBounded_sublist {q' : List Entry} (h : queueBounded q none) (hq : q'.Sublist q) :
    queueBounded q' none := by
  obtain ⟨huse, hkeys, hfailures, -, horder⟩ := h
  exact ⟨hq.length_le.trans huse, hkeys.sublist (hq.map _), fun e he => hfailures e (hq.subset he), nofun,
    horder.sublist hq⟩

/-- A claim moves a queued entry into the slot (R107): its key stays in use. -/
theorem queueBounded_claim (h : queueBounded q none) (he : a.entry ∈ q) :
    queueBounded (q.erase a.entry) (some a) := by
  obtain ⟨huse, hkeys, hfailures, -, horder⟩ := h
  have hsub : (q.erase a.entry).Sublist q := List.erase_sublist
  refine ⟨?_, hkeys.sublist (hsub.map _), fun e hx => hfailures e (hsub.subset hx), ?_,
    horder.sublist hsub⟩
  · have hlength := List.length_erase_of_mem he
    have hpos := List.length_pos_of_mem he
    rw [Option.map_none, keysInUse_none] at huse
    rw [Option.map_some, keysInUse_some]
    split <;> omega
  · rintro _ ⟨⟩
    exact hfailures _ he

end

end Sys2Proof.Machine
end

section
/-! SUPPORT. The publish queue and the place of the ROLL over the operations of the station (R98 to R106, R111,
R112, R116): each keeps `publishOk`. -/

namespace Sys2Proof.Machine

/-! ### What the invariant looks at -/

theorem inFlight_none_iff (t : TxState) : t.inFlight = none ↔ t = .standby := by
  cases t <;> simp [TxState.inFlight]

/-- The place of the ROLL is a matter of the station's state, the queued keys and the slot. -/
theorem rollHasPlace_congr {s t : State} (hs : t.mem.station = s.mem.station)
    (hq : queueKeys t.pub.queue = queueKeys s.pub.queue) (hf : t.tx.inFlight = s.tx.inFlight)
    (h : rollHasPlace s) : rollHasPlace t := by
  have hempty : t.pub.queue = [] ↔ s.pub.queue = [] := by
    rw [← List.length_eq_zero_iff, ← queueKeys_length, hq, queueKeys_length, List.length_eq_zero_iff]
  have hlength : t.pub.queue.length = s.pub.queue.length := by
    rw [← queueKeys_length, hq, queueKeys_length]
  have hslot : t.tx = .standby ↔ s.tx = .standby := by
    rw [← inFlight_none_iff, hf, inFlight_none_iff]
  simpa only [rollHasPlace, State.flightKey, hs, hq, hf, hempty, hlength, hslot] using h

theorem publishOk_congr {s t : State} (hs : t.mem.station = s.mem.station)
    (hq : t.pub.queue = s.pub.queue) (hf : t.tx.inFlight = s.tx.inFlight) (h : publishOk s) :
    publishOk t :=
  ⟨by rw [hq, hf]; exact h.1, rollHasPlace_congr hs (by rw [hq]) hf h.2⟩

/-- In MEMBER and MUTE no place is kept for a ROLL. -/
theorem publishOk_of_running {s : State} (hs : s.mem.station = .member ∨ s.mem.station = .mute)
    (h : queueBounded s.pub.queue s.tx.inFlight) : publishOk s := by
  refine ⟨h, ?_⟩
  unfold rollHasPlace
  rcases hs with hs | hs <;> rw [hs] <;> trivial

/-- Off the bus nothing is queued and nothing is in flight. -/
theorem publishOk_of_empty {s : State}
    (hs : s.mem.station = .unconfigured ∨ s.mem.station = .idle) (hq : s.pub.queue = [])
    (htx : s.tx = .standby) : publishOk s := by
  refine ⟨?_, ?_⟩
  · simp [queueBounded, queueKeys, keysInUse, hq, htx, TxState.inFlight]
  · unfold rollHasPlace
    rcases hs with hs | hs <;> rw [hs] <;> exact ⟨hq, htx⟩

/-- Where an attempt can be under way: in the running states. -/
theorem rollHasPlace_runs {s : State} {ph : TxPhase} {a : Attempt} (h : rollHasPlace s)
    (htx : s.tx = .active ph a) : runs s.mem.station = true := by
  unfold rollHasPlace at h
  cases hs : s.mem.station <;> simp_all [runs]

/-- In a running state only JOINING asks for a place of the ROLL. -/
theorem rollHasPlace_of_runs {s : State} (hr : runs s.mem.station = true)
    (h : s.mem.station = .joining → Key.ofRoll ∈ queueKeys s.pub.queue ∨ s.flightKey = some .ofRoll) :
    rollHasPlace s := by
  unfold rollHasPlace
  cases hs : s.mem.station <;> simp_all [runs]

theorem rollHasPlace_joining {s : State} (hs : s.mem.station = .joining) (h : rollHasPlace s) :
    Key.ofRoll ∈ queueKeys s.pub.queue ∨ s.flightKey = some .ofRoll := by
  simpa [rollHasPlace, hs] using h

theorem rollHasPlace_listen {s : State} (hs : s.mem.station = .listen) (h : rollHasPlace s) :
    s.pub.queue.length ≤ 7 ∧ Key.ofRoll ∉ queueKeys s.pub.queue ∧ s.tx = .standby := by
  simpa [rollHasPlace, hs] using h

/-! ### The attempt under way (R111, R112) -/

theorem endAttempt_active {s : State} {ph : TxPhase} {a : Attempt} (htx : s.tx = .active ph a) :
    s.endAttempt = { s with tx := .standby, pub := { s.pub with queue := giveBack s.pub.queue a.entry } } := by
  simp [State.endAttempt, htx]

theorem endAttempt_standby {s : State} (htx : s.tx = .standby) : s.endAttempt = s := by
  simp [State.endAttempt, htx]

@[simp] theorem endAttempt_tx (s : State) : s.endAttempt.tx = .standby := by
  unfold State.endAttempt
  split
  next htx => exact htx
  next => rfl

theorem flightKey_active {s : State} {ph : TxPhase} {a : Attempt} (htx : s.tx = .active ph a) :
    s.flightKey = some a.entry.duty.key := by simp [State.flightKey, TxState.inFlight, htx]

/-- An entry of the attempt's key returns, and the slot is empty. -/
theorem returned_publishOk {s : State} {ph : TxPhase} {a : Attempt} {e : Entry} (h : publishOk s)
    (htx : s.tx = .active ph a) (hkey : e.duty.key = a.entry.duty.key) (hfailures : e.failures ≤ 7) :
    publishOk { s with tx := .standby, pub := { s.pub with queue := giveBack s.pub.queue e } } := by
  obtain ⟨hbounded, hplace⟩ := h
  have hslot : s.tx.inFlight = some a := by rw [htx]; rfl
  have hruns : runs s.mem.station = true := rollHasPlace_runs hplace htx
  rw [hslot] at hbounded
  refine ⟨queueBounded_giveBack hbounded hkey hfailures, rollHasPlace_of_runs hruns fun hs => Or.inl ?_⟩
  refine (giveBack_keys e _).2 ((rollHasPlace_joining (s := s) hs hplace).symm.imp_left fun hroll => ?_)
  rw [flightKey_active htx] at hroll
  rw [hkey]
  exact (Option.some.inj hroll).symm

theorem endAttempt_publishOk {s : State} (h : publishOk s) : publishOk s.endAttempt := by
  cases htx : s.tx with
  | standby => rwa [endAttempt_standby htx]
  | active ph a =>
    rw [endAttempt_active htx]
    obtain ⟨-, -, -, hflight, -⟩ := h.1
    exact returned_publishOk h htx rfl (hflight a (by rw [htx]; rfl))

theorem stopVoice_publishOk {s : State} (h : publishOk s) : publishOk s.stopVoice :=
  publishOk_congr (s := s.endAttempt) (by simp) (by simp [State.stopVoice]) (by simp [State.stopVoice])
    (endAttempt_publishOk h)

theorem offerLow_publishOk {s : State} (h : publishOk s) : publishOk s.offerLow := by
  unfold State.offerLow
  dsimp only
  split
  · exact endAttempt_publishOk (s := { s with line := _, eu := _ }) h
  · (repeat' split) <;> exact h

theorem settle_publishOk {s : State} (before : Bool) (h : publishOk s) :
    publishOk (State.settle before s) := by
  unfold State.settle
  split
  · exact offerLow_publishOk h
  all_goals exact h

/-! ### The schedules of a boundary (R103, R105) -/

section
variable {p : Publish} {flight : Option Attempt}

/-- The key of the entry in flight. -/
abbrev keyOf (flight : Option Attempt) : Option Key := flight.map fun a => a.entry.duty.key

/-- A new entry that finds room among 8 keys (R100). -/
theorem add_queueBounded (h : queueBounded p.queue flight) {d : Duty} (hnew : d.key ∉ queueKeys p.queue)
    {limit : Nat} (hlimit : limit ≤ 8) (hroom : hasRoom p.queue (keyOf flight) limit d = true) :
    queueBounded (p.add d).queue flight :=
  queueBounded_insertEntry (e := ⟨d, 0, p.nextOrder, false⟩) h hnew (Nat.zero_le 7) hlimit hroom

theorem stepRefresh_queueBounded (period : Nat) (b : Block) (h : queueBounded p.queue flight) :
    queueBounded (stepRefresh period (keyOf flight) p b).queue flight := by
  unfold stepRefresh
  dsimp only
  split
  · exact h
  · split
    · dsimp only
      split
      · rw [widen_eq_map]
        exact queueBounded_map (widenEntry_keepsPlaces b .full) h
      · exact h
    next hnone =>
      split
      next hroom => exact add_queueBounded h ((findKey_none_iff _ _).1 hnone) le_rfl hroom
      next => exact h

theorem foldRefresh_queueBounded (period : Nat) (l : List Block) (h : queueBounded p.queue flight) :
    queueBounded (l.foldl (stepRefresh period (keyOf flight)) p).queue flight := by
  induction l generalizing p with
  | nil => exact h
  | cons b l ih => exact ih (stepRefresh_queueBounded period b h)

/-- A ROLL is added where none is queued and there is room, or the queue stays (R105). -/
theorem stepSilence_queueBounded (limit : Nat) (h : queueBounded p.queue flight) :
    queueBounded (stepSilence limit (keyOf flight) p).queue flight := by
  unfold stepSilence
  dsimp only
  generalize (if p.ownAccepted = true then 0 else min 15 (p.silence + 1)) = n
  split
  next hadd =>
    simp only [Bool.and_eq_true, findKey_isNone_iff] at hadd
    obtain ⟨⟨-, hnew⟩, hroom⟩ := hadd
    exact add_queueBounded (p := { p with silence := _, ownAccepted := false }) h hnew le_rfl hroom
  next => exact h

end

theorem schedules_publishOk {s : State} (h : publishOk s) : publishOk s.schedules := by
  unfold State.schedules
  split
  next hmember =>
    refine publishOk_of_running (Or.inl hmember.1) (stepSilence_queueBounded _ ?_)
    split
    · exact h.1
    · exact foldRefresh_queueBounded _ _ h.1
  next => exact h

theorem clearHeld_publishOk {s : State} (h : publishOk s) :
    publishOk { s with pub := { s.pub with queue := clearHeld s.pub.queue } } := by
  obtain ⟨hbounded, hplace⟩ := h
  refine ⟨?_, rollHasPlace_congr (s := s) rfl (clearHeld_keys _) rfl hplace⟩
  rw [clearHeld_eq_map]
  exact queueBounded_map notHeld_keepsPlaces hbounded

@[simp] theorem countSilence_station (s : State) : s.countSilence.mem.station = s.mem.station := by
  obtain ⟨hframe, -⟩ := countPeers_cases s allStations allStations_nodup
  unfold State.countSilence
  rw [hframe]

theorem boundary_publishOk {s : State} (h : publishOk s) : publishOk s.boundary := by
  unfold State.boundary
  dsimp only
  refine clearHeld_publishOk (schedules_publishOk (publishOk_congr (s := s) ?_ ?_ ?_ h)) <;> simp

/-! ### Moves of the Epoch Unit -/

theorem expireRun_publishOk {s : State} (h : publishOk s) : publishOk s.expireRun :=
  boundary_publishOk (s := { s with eu := _ }) h

theorem joinFall_publishOk {s : State} (h : publishOk s) : publishOk s.joinFall :=
  boundary_publishOk (s := { s with eu := _ }) h

theorem expireCoast_publishOk {s : State} (h : publishOk s) : publishOk s.expireCoast :=
  boundary_publishOk (s := { s with eu := _ }) h

theorem enterRun_publishOk {s : State} (h : publishOk s) : publishOk s.enterRun := by
  unfold State.enterRun
  dsimp only
  split
  · exact expireRun_publishOk h
  · exact h

theorem enterCoast_publishOk {s : State} (h : publishOk s) (cause : Nat) :
    publishOk (s.enterCoast cause) := by
  unfold State.enterCoast
  dsimp only
  split
  · exact expireCoast_publishOk h
  · exact h

theorem byLine_publishOk {s : State} (h : publishOk s) : publishOk s.byLine := by
  unfold State.byLine
  split
  · exact enterRun_publishOk h
  · exact h

theorem restore_publishOk {s : State} (h : publishOk s) : publishOk s.restore :=
  enterRun_publishOk (s := s.post .lineRestored) h

/-! ### Moves of the station (R106, R117, R137, R139) -/

theorem completeLeave_publishOk (s : State) : publishOk s.completeLeave := by
  obtain ⟨hstation, -, -, -, -, -, -, -, -, -, -, hqueue, -, -, -, htx, -⟩ := s.completeLeave_leftTheBus
  exact publishOk_of_empty (Or.inr hstation) hqueue htx

theorem leaveNow_publishOk (s : State) : publishOk s.leaveNow := completeLeave_publishOk _

theorem release_publishOk {s : State} (h : publishOk s) (eln : Level) : publishOk (s.release eln) := by
  unfold State.release
  dsimp only
  split
  · exact completeLeave_publishOk _
  · exact byLine_publishOk (s := { s with eu := { s.eu with eln := eln } }) h

/-- The ROLL of JOINING takes the place that LISTEN has kept for it (R100, R106). -/
theorem joining_publishOk {s : State} (hs : s.mem.station = .listen) (h : publishOk s) :
    publishOk s.joining := by
  obtain ⟨hbounded, hplace⟩ := h
  obtain ⟨hlength, hnoRoll, htx⟩ := rollHasPlace_listen hs hplace
  have hadded : s.joining.pub = s.pub.add .roll := if_pos ((findKey_isNone_iff _ _).2 hnoRoll)
  have hslot : s.joining.tx.inFlight = none := (inFlight_none_iff _).2 htx
  rw [htx] at hbounded
  refine ⟨?_, rollHasPlace_of_runs rfl fun _ => Or.inl ?_⟩
  · rw [hslot, hadded]
    exact add_queueBounded hbounded hnoRoll le_rfl ((hasRoom_none _ _ _).2 (Nat.succ_le_succ hlength))
  · rw [hadded]
    exact (insertEntry_keys_perm _ _).mem_iff.2 (List.mem_cons_self ..)

theorem enterJoining_publishOk {s : State} (hs : s.mem.station = .listen) (h : publishOk s) :
    publishOk s.enterJoining := by
  rw [State.enterJoining_eq]
  split
  · exact byLine_publishOk (joining_publishOk hs h)
  · exact joining_publishOk hs h

theorem countListening_publishOk {s : State} (isBoundary : Bool) (h : publishOk s) :
    publishOk (s.countListening isBoundary) := by
  rcases s.countListening_cases isBoundary with hsame | ⟨hs, listen, joining, hcount | hjoin⟩
  · rwa [hsame]
  · rw [hcount]
    exact h
  · rw [hjoin]
    exact enterJoining_publishOk (s := s.withCounts listen joining) hs h

theorem followBoundary_publishOk {s : State} (h : publishOk s) : publishOk s.followBoundary :=
  countListening_publishOk true (boundary_publishOk (s := { s with eu := _ }) h)

theorem enterMember_publishOk {s : State} (h : publishOk s) : publishOk s.enterMember :=
  publishOk_of_running (Or.inl rfl) h.1

theorem enterMute_publishOk {s : State} (h : publishOk s) : publishOk s.enterMute :=
  publishOk_of_running (Or.inr rfl) (stopVoice_publishOk (s := s.post .muteEntered) h).1

/-- The entries that are not the ROLL leave it its place: with the attempt under way returned they are 7 at
most (R100). -/
def rollPlaceKept (s : State) : Prop :=
  (s.endAttempt.pub.queue.filter fun e => e.duty.key != .ofRoll).length ≤ 7

/-- A queue of 8 that holds the ROLL holds 7 others. -/
theorem others_length_le {q : List Entry} (hq : q.length ≤ 8) (hroll : Key.ofRoll ∈ queueKeys q) :
    (q.filter fun e => e.duty.key != .ofRoll).length ≤ 7 := by
  obtain ⟨e, he, hkey⟩ := mem_queueKeys.1 hroll
  have hless : (q.filter fun e => e.duty.key != .ofRoll).length < q.length :=
    List.length_filter_lt_length_iff_exists.2 ⟨e, he, by simp [hkey]⟩
  omega

theorem rollPlaceKept_of_joining {s : State} (hs : s.mem.station = .joining) (h : publishOk s) :
    rollPlaceKept s := by
  obtain ⟨hbounded, hplace⟩ := endAttempt_publishOk h
  have hroll := rollHasPlace_joining (by simpa using hs) hplace
  rw [(inFlight_none_iff _).2 (endAttempt_tx s)] at hbounded
  refine others_length_le hbounded.1 (hroll.resolve_right ?_)
  simp [State.flightKey, TxState.inFlight]

/-- The fall-back to LISTEN removes the ROLL and keeps its place (R106, R139). -/
theorem fallBack_publishOk {s : State} (hbounded : queueBounded s.endAttempt.pub.queue none)
    (hplace : rollPlaceKept s) : publishOk s.fallBack := by
  unfold State.fallBack
  dsimp only
  split
  · exact leaveNow_publishOk _
  · have hqueue : (s.post .joinFailed).stopVoice.pub.queue = s.endAttempt.pub.queue := by
      cases htx : s.tx <;> simp [State.stopVoice, State.endAttempt, htx]
    have htx : (s.post .joinFailed).stopVoice.tx = .standby := (stopVoice_silent _).1
    generalize (s.post .joinFailed).stopVoice = u at hqueue htx
    refine ⟨?_, ?_, ?_, htx⟩
    · dsimp only
      rw [htx, hqueue]
      exact queueBounded_sublist hbounded List.filter_sublist
    · dsimp only
      rw [hqueue]
      exact hplace
    · simp [mem_queueKeys]

theorem fallBack_publishOk_of_joining {s : State} (hs : s.mem.station = .joining) (h : publishOk s) :
    publishOk s.fallBack := by
  refine fallBack_publishOk ?_ (rollPlaceKept_of_joining hs h)
  have hbounded := (endAttempt_publishOk h).1
  rwa [(inFlight_none_iff _).2 (endAttempt_tx s)] at hbounded

/-! ### A failed attempt (R112) -/

/-- The entry that is abandoned leaves its key's place; a ROLL abandoned in JOINING takes the station back. -/
theorem abandoned_publishOk {s : State} {ph : TxPhase} {a : Attempt} (h : publishOk s)
    (htx : s.tx = .active ph a) (hother : ¬ (a.entry.duty = .roll ∧ s.mem.station = .joining)) :
    publishOk { s with tx := .standby } := by
  obtain ⟨hbounded, hplace⟩ := h
  have hruns : runs s.mem.station = true := rollHasPlace_runs hplace htx
  refine ⟨queueBounded_emptySlot hbounded, rollHasPlace_of_runs hruns fun hs => Or.inl ?_⟩
  refine (rollHasPlace_joining (s := s) hs hplace).resolve_right fun hroll => hother ⟨?_, hs⟩
  rw [flightKey_active htx] at hroll
  cases hduty : a.entry.duty <;> simp_all [Duty.key]

theorem rollPlaceKept_of_abandoned {s : State} {ph : TxPhase} {a : Attempt} (h : publishOk s)
    (htx : s.tx = .active ph a) (hroll : a.entry.duty = .roll) :
    rollPlaceKept { s with tx := .standby } := by
  obtain ⟨huse, -⟩ := h.1
  have hkey : s.tx.inFlight.map (fun a => a.entry.duty.key) = some .ofRoll := by
    simp [htx, TxState.inFlight, hroll, Duty.key]
  rw [hkey, keysInUse_some] at huse
  unfold rollPlaceKept
  rw [endAttempt_standby rfl]
  split at huse
  next hqueued => exact others_length_le huse hqueued
  next => exact (List.length_filter_le _ _).trans (Nat.le_of_succ_le_succ huse)

theorem failAttempt_publishOk {s : State} (h : publishOk s) : publishOk s.failAttempt := by
  unfold State.failAttempt
  split
  · exact h
  next ph a htx =>
    dsimp only
    split
    next hfewer => exact returned_publishOk h htx rfl (Nat.le_of_lt_succ hfewer)
    next =>
      split
      next hback =>
        refine fallBack_publishOk ?_ (rollPlaceKept_of_abandoned (s := s) h htx hback.1)
        exact queueBounded_emptySlot h.1
      next hother => exact abandoned_publishOk (s := s) h htx hother

/-! ### Acceptances (R110, R129, R138) -/

theorem noteAcceptance_publishOk {s : State} (h : publishOk s) : publishOk s.noteAcceptance := by
  unfold State.noteAcceptance
  split
  · split
    · exact enterMember_publishOk (s := { s.post .muteLeft with mute := ⟨0, 0⟩ }) h
    · exact h
  · exact publishOk_congr (by simp) (by simp) (by simp) h

theorem acceptReceived_publishOk {s : State} (h : publishOk s) (d : Incoming) :
    publishOk (s.acceptReceived d) := by
  unfold State.acceptReceived
  dsimp only
  have hnoted : publishOk (State.noteAcceptance { s with
      rx := { s.rx with st := .waitIdle }
      counters := { s.counters with accepted := bump s.counters.accepted } }) :=
    noteAcceptance_publishOk h
  generalize State.noteAcceptance _ = u at hnoted
  split
  · exact hnoted
  · exact publishOk_congr (by rw [compareEpoch_keepsStation, hear_keepsStation])
      (by simp) (by simp) hnoted

/-- The accepted entry leaves the slot; with the ROLL of JOINING the station is a member. -/
theorem acceptOwn_publishOk {s : State} (h : publishOk s) {ph : TxPhase} {a : Attempt}
    (htx : s.tx = .active ph a) : publishOk (s.acceptOwn a) := by
  have hqueue : (s.acceptOwn a).pub.queue = s.pub.queue := by
    unfold State.acceptOwn State.ownBlock State.enterMember
    dsimp only
    (repeat' split) <;> simp
  have hslot : (s.acceptOwn a).tx = .standby := by
    unfold State.acceptOwn
    dsimp only
    (repeat' split) <;> simp
  have hbounded : queueBounded (s.acceptOwn a).pub.queue (s.acceptOwn a).tx.inFlight := by
    rw [hqueue, hslot]
    exact queueBounded_emptySlot h.1
  by_cases hjoins : a.entry.duty = .roll ∧ s.mem.station = .joining
  · obtain ⟨hduty, hs⟩ := hjoins
    refine publishOk_of_running (Or.inl ?_) hbounded
    simp [State.acceptOwn, hduty, Duty.block, hs, State.enterMember]
  · refine publishOk_congr (s := { s with tx := .standby }) ?_ hqueue (by rw [hslot])
      (abandoned_publishOk h htx hjoins)
    unfold State.acceptOwn
    dsimp only
    cases hduty : a.entry.duty <;> simp_all [Duty.block]

end Sys2Proof.Machine
end

section
/-! SUPPORT. Every command keeps the bounds of the publish queue and the place of the ROLL (R98 to R100, R106),
one lemma for each command that can move them. -/

namespace Sys2Proof.Machine

/-- A command that leaves the ownership side alone leaves the queue, the slot and the station's state. -/
theorem publishOk_of_keeps {s t : State} (hk : keepsOwnership s t) (h : publishOk s) : publishOk t := by
  obtain ⟨-, ⟨-, hmem, -, -⟩, hpub, hslot⟩ := hk
  exact publishOk_congr (by rw [hmem]) (by rw [hpub]) hslot h

/-! ### Writes of the local port -/

theorem writeAct_publishOk {s : State} (h : publishOk s) {complete : Bool} {r : Result}
    {act : State → State} (ha : r = .ok → publishOk (act s)) : publishOk (s.writeAct complete r act) :=
  writeAct_keeps (fun u r hu => publishOk_of_keeps (endTransaction_keepsOwnership u r) hu) h ha

theorem execWriteDraft_publishOk {block first count : Byte} {data : List Byte} {s t : State}
    (h : publishOk s) (he : execWriteDraft block first count data s = .next t) : publishOk t := by
  unfold execWriteDraft at he
  dsimp only at he
  split at he <;> cases he
  · exact writeAct_publishOk h fun _ => h
  · exact writeAct_publishOk h fun _ => h

theorem publishCheck_eq_ok {s : State} :
    s.publishCheck = .ok ↔ s.mem.station.onBus = true ∧ s.mem.leavePending = false := by
  simp [State.publishCheck]

theorem roomCheck_eq_ok {s : State} {b : Block} {sp : Span} :
    s.roomCheck b sp = .ok ↔ Key.ofBlock b ∈ queueKeys s.pub.queue
      ∨ hasRoom s.pub.queue s.flightKey s.publishLimit (.update b sp) = true := by
  simp [State.roomCheck, findKey_isSome_iff, or_iff_not_imp_left]

theorem publishLimit_le (s : State) : s.publishLimit ≤ 8 := by
  unfold State.publishLimit
  split <;> decide

theorem publishLimit_listen {s : State} (hs : s.mem.station = .listen) : s.publishLimit = 7 :=
  if_pos (Or.inl hs)

/-- A queued entry of the block takes the span in; the queue keeps its keys. -/
theorem publish_widens {s : State} {b : Block} (hb : Key.ofBlock b ∈ queueKeys s.pub.queue) (sp : Span) :
    s.publish b sp = { s with pub := { s.pub with queue := s.pub.queue.map (widenEntry b sp) } } := by
  rw [← widen_eq_map]
  obtain ⟨x, hx⟩ := Option.isSome_iff_exists.1 ((findKey_isSome_iff _ _).2 hb)
  simp [State.publish, hx]

theorem publish_adds {s : State} {b : Block} (hb : Key.ofBlock b ∉ queueKeys s.pub.queue) (sp : Span) :
    s.publish b sp = { s with pub := s.pub.add (.update b sp) } := by
  simp [State.publish, (findKey_none_iff _ _).2 hb]

/-- On the bus a PUBLISH finds room among 8 keys, or in LISTEN and JOINING among 7 (R100, R101). -/
theorem publish_publishOk {s : State} (h : publishOk s) {b : Block} {sp : Span}
    (hbus : s.mem.station.onBus = true) (hroom : s.roomCheck b sp = .ok) :
    publishOk (s.publish b sp) := by
  obtain ⟨hbounded, hplace⟩ := h
  by_cases hqueued : Key.ofBlock b ∈ queueKeys s.pub.queue
  · rw [publish_widens hqueued]
    exact ⟨queueBounded_map (widenEntry_keepsPlaces b sp) hbounded,
      rollHasPlace_congr (s := s) rfl (keepsPlaces_keys (widenEntry_keepsPlaces b sp) _) rfl hplace⟩
  · have hfree := (roomCheck_eq_ok.1 hroom).resolve_left hqueued
    have hkeys : (queueKeys (s.pub.add (.update b sp)).queue).Perm
        (Key.ofBlock b :: queueKeys s.pub.queue) := insertEntry_keys_perm _ _
    rw [publish_adds hqueued]
    refine ⟨add_queueBounded hbounded hqueued (publishLimit_le s) hfree, ?_⟩
    cases hs : s.mem.station with
    | unconfigured | idle => simp [StationState.onBus, hs] at hbus
    | listen =>
      obtain ⟨-, hnoRoll, htx⟩ := rollHasPlace_listen hs hplace
      have hlength := (length_le_keysInUse _ _).trans (keysInUse_insertEntry_le
        (e := ⟨.update b sp, 0, s.pub.nextOrder, false⟩) hfree)
      rw [publishLimit_listen hs] at hlength
      have hother : Key.ofRoll ∉ queueKeys (s.pub.add (.update b sp)).queue := by
        simp [hkeys.mem_iff, hnoRoll]
      simpa [rollHasPlace, hs] using ⟨hlength, hother, htx⟩
    | joining =>
      refine rollHasPlace_of_runs (by simp [hs, runs]) fun _ => ?_
      exact (rollHasPlace_joining hs hplace).imp_left
        fun hroll => hkeys.mem_iff.2 (List.mem_cons_of_mem _ hroll)
    | member | mute => exact rollHasPlace_of_runs (by simp [hs, runs]) (by simp [hs])

theorem execPublish_publishOk {block first count : Byte} {s t : State} (h : publishOk s)
    (he : execPublish block first count s = .next t) : publishOk t := by
  unfold execPublish at he
  dsimp only at he
  split at he <;> cases he
  · exact writeAct_publishOk h fun _ => h
  · refine writeAct_publishOk h fun hr => ?_
    obtain ⟨hchecked, hroom⟩ := orElse_eq_ok.1 hr
    obtain ⟨hbus, -⟩ := publishCheck_eq_ok.1 (orElse_eq_ok.1 hchecked).1
    exact publish_publishOk h hbus hroom

theorem execConfigure_publishOk {args : List Byte} {s t : State} (h : publishOk s)
    (he : execConfigure args s = .next t) : publishOk t := by
  unfold execConfigure at he
  dsimp only at he
  split at he <;> cases he
  · exact writeAct_publishOk h fun _ => h
  · exact writeAct_publishOk h fun _ => publishOk_of_empty (Or.inr rfl) rfl rfl

/-- START finds an empty queue, so that LISTEN begins with every place free (R135). -/
theorem start_publishOk {s : State} (h : publishOk s) (hs : s.mem.station = .idle) :
    publishOk s.start := by
  obtain ⟨hbounded, hplace⟩ := h
  obtain ⟨hqueue, htx⟩ : s.pub.queue = [] ∧ s.tx = .standby := by simpa [rollHasPlace, hs] using hplace
  have hlisten (t : State) (ht : t.mem.station = .listen) (hpub : t.pub = s.pub) (hslot : t.tx = s.tx) :
      publishOk t := by
    refine ⟨by rwa [hpub, hslot], ?_⟩
    simp [rollHasPlace, ht, hpub, hslot, hqueue, htx, queueKeys]
  unfold State.start
  dsimp only
  refine settle_publishOk _ ?_
  split <;> exact hlisten _ rfl rfl rfl

theorem leave_publishOk {s : State} (h : publishOk s) : publishOk s.leave := by
  unfold State.leave
  split
  · exact settle_publishOk _ (leaveNow_publishOk s)
  · exact h

/-! ### Breaks and the answer slot -/

theorem countObjection_publishOk {s : State} (h : publishOk s) (metLow : Bool) :
    publishOk (s.countObjection metLow) := by
  unfold State.countObjection
  dsimp only
  split
  · exact h
  · split
    · exact h
    · split
      next hs =>
        exact settle_publishOk _ (fallBack_publishOk_of_joining (s := { s with mute := _ }) hs h)
      next => exact enterMute_publishOk (s := { s with mute := _ }) h

theorem execBreakDriven_publishOk {s t : State} (h : publishOk s) (he : execBreakDriven s = .next t) :
    publishOk t := by
  cases he
  dsimp only
  split
  · exact countObjection_publishOk (s := s.driven) h _
  · exact h

theorem execBreakSeen_publishOk {s t : State} (h : publishOk s) (he : execBreakSeen s = .next t) :
    publishOk t := by
  cases he
  dsimp only
  split
  · exact h
  · have hk (u : State) (hu : publishOk u) : publishOk u.countBreak.breakInDispatch :=
      publishOk_of_keeps (keepsOwnership_trans (countBreak_keepsOwnership u)
        (breakInDispatch_keepsOwnership _)) hu
    split
    · exact settle_publishOk _ (failAttempt_publishOk (hk { s with line := _ } h))
    · exact hk { s with line := _ } h

theorem execSlotBroken_publishOk {s t : State} (h : publishOk s) (he : execSlotBroken s = .next t) :
    publishOk t := by
  cases he
  dsimp only
  split
  · exact h
  · have hk : publishOk (State.countBreak { s with line := { s.line with
        slot := none, st := .awaitRecessive, lrx := .dominant, peers := s.peersAtFall, idle := false
        idleCount := 0, run := if s.line.lrx = Level.dominant then s.line.run else 0, runSeen := true
        charTime := none, samples := [], request := false } }) :=
      publishOk_of_keeps (countBreak_keepsOwnership _) h
    generalize State.countBreak _ = u at hk
    split
    · exact settle_publishOk _ (failAttempt_publishOk (by split <;> exact hk))
    · split <;> exact hk

theorem execSlotClean_publishOk {s t : State} (h : publishOk s) (he : execSlotClean s = .next t) :
    publishOk t := by
  cases he
  dsimp only
  split
  · exact h
  · have hclosed : publishOk { s with line := { s.line.toHunt with slot := none } } := h
    split
    next a ha =>
      split
      · exact h
      · exact acceptOwn_publishOk hclosed ha
    next =>
      split
      next d _ =>
        split
        · exact h
        · exact acceptReceived_publishOk hclosed d
      next => exact h

/-! ### The own attempt -/

/-- A claim takes the ROLL of JOINING into the slot, or leaves it in the queue (R99, R107). -/
theorem execClaim_publishOk {s t : State} (h : publishOk s) (he : execClaim s = .next t) :
    publishOk t := by
  unfold execClaim at he
  split at he <;> cases he
  next e hnext =>
    split
    next hfree =>
      obtain ⟨hbounded, hplace⟩ := h
      have htx : s.tx = .standby := by simp_all [State.busFree]
      have hmem : e ∈ s.pub.queue := List.mem_of_find?_eq_some hnext
      rw [(inFlight_none_iff _).2 htx] at hbounded
      refine ⟨?_, rollHasPlace_of_runs ?_ fun hs => ?_⟩
      · have hclaimed := queueBounded_claim (a := s.attemptFor e) hbounded (by rwa [attemptFor_entry])
        rwa [attemptFor_entry] at hclaimed
      · have hobjects := nextEntry_objects hnext
        dsimp only
        cases hs : s.mem.station <;> simp_all [StationState.objects, runs]
      · have hroll : e.duty = .roll := by
          have heligible : s.eligible e = true := List.find?_some hnext
          have hjoining : s.mem.station = .joining := hs
          simp_all [State.eligible]
        exact Or.inr (by simp [State.flightKey, TxState.inFlight, hroll, Duty.key])
    next => exact h
  next => exact h

theorem execArbitrationLoss_publishOk {s t : State} (h : publishOk s)
    (he : execArbitrationLoss s = .next t) : publishOk t := by
  unfold execArbitrationLoss at he
  split at he <;> cases he
  · exact publishOk_of_keeps (ownWasLost_keepsOwnership _)
      (show publishOk { s.endAttempt with line := s.line.readBack .dominant } from
        endAttempt_publishOk h)
  · exact h

theorem faultAt_publishOk {s : State} (h : publishOk s) (level : Level) : publishOk (s.faultAt level) :=
  settle_publishOk _ (failAttempt_publishOk
    (show publishOk { s.giveUp with line := s.line.readBack level } from
      publishOk_of_keeps (giveUp_keepsOwnership s) h))

theorem execBitFault_publishOk {s t : State} (h : publishOk s) (he : execBitFault s = .next t) :
    publishOk t := by
  unfold execBitFault at he
  split at he <;> cases he
  · exact faultAt_publishOk h _
  · exact faultAt_publishOk h _
  · exact h

/-! ### The epoch line -/

theorem execEpochExpiry_publishOk {s t : State} (h : publishOk s) (he : execEpochExpiry s = .next t) :
    publishOk t := by
  cases he
  refine settle_publishOk _ ?_
  split
  · exact countListening_publishOk false h
  · exact expireRun_publishOk h
  · split
    · exact expireCoast_publishOk h
    · exact h
  all_goals exact h

theorem execElnFall_publishOk {s t : State} (h : publishOk s) (he : execElnFall s = .next t) :
    publishOk t := by
  have hfallen : publishOk (s.readingEln .dominant) := h
  cases he
  refine settle_publishOk _ ?_
  dsimp only
  split
  · exact h
  · split
    · exact followBoundary_publishOk hfallen
    · exact h
  · exact joinFall_publishOk hfallen
  · exact h
  · exact h
  · split
    · exact joinFall_publishOk (s := (s.readingEln .dominant).post .lineRestored) hfallen
    · exact h

theorem execElnRise_publishOk {s t : State} (h : publishOk s) (he : execElnRise s = .next t) :
    publishOk t := by
  cases he
  refine settle_publishOk _ ?_
  dsimp only
  split
  · exact enterRun_publishOk (s := s.readingEln .recessive) h
  · exact h

theorem execNotDrivable_publishOk {s t : State} (h : publishOk s) (he : execNotDrivable s = .next t) :
    publishOk t := by
  cases he
  split
  · refine settle_publishOk _ ?_
    split
    · exact completeLeave_publishOk _
    · exact enterCoast_publishOk h 2
  · exact h

theorem execHoldRunOut_publishOk {eln : Level} {s t : State} (h : publishOk s)
    (he : execHoldRunOut eln s = .next t) : publishOk t := by
  cases he
  split
  · split
    · exact settle_publishOk _ (release_publishOk h eln)
    · exact h
  · exact h

theorem execLineLowLimit_publishOk {s t : State} (h : publishOk s)
    (he : execLineLowLimit s = .next t) : publishOk t := by
  cases he
  split
  · exact settle_publishOk _ (enterCoast_publishOk h 1)
  · exact h

theorem execLineRestored_publishOk {s t : State} (h : publishOk s)
    (he : execLineRestored s = .next t) : publishOk t := by
  cases he
  split
  · split
    · exact settle_publishOk _ (restore_publishOk h)
    · exact h
  · exact h

/-- As a pass has ended a LEAVE may complete, a listening station may join, or the unit moves alone. -/
theorem afterPass_publishOk {s : State} (h : publishOk s) (eln : Level) :
    publishOk (s.afterPass eln) := by
  unfold State.afterPass
  dsimp only
  split
  · split
    · refine release_publishOk ?_ eln
      exact h
    · exact h
  · split
    · exact completeLeave_publishOk s
    · split
      · exact restore_publishOk h
      · exact h
  · split
    · exact completeLeave_publishOk s
    · split
      · exact followBoundary_publishOk h
      · split
        · exact h
        · exact byLine_publishOk h
  · split
    · exact completeLeave_publishOk s
    · exact h
  · split
    · exact completeLeave_publishOk s
    · exact h
  · exact h

theorem execCommitPassEnd_publishOk {eln : Level} {s t : State} (h : publishOk s)
    (he : execCommitPassEnd eln s = .next t) : publishOk t := by
  cases he
  split
  · exact settle_publishOk _ (afterPass_publishOk
      (publishOk_congr (s := s) (by simp) (by simp) (by simp) h) eln)
  · exact h

/-! ### Every command, and the step -/

theorem exec_publishOk {i : Instr} {s t : State} (h : publishOk s) (he : exec i s = .next t) :
    publishOk t := by
  by_cases hi : leavesOwnership i = true
  · exact publishOk_of_keeps (exec_keepsOwnership hi he) h
  cases i with
  | hardwareReset => cases he; exact publishOk_of_empty (Or.inl rfl) rfl rfl
  | writeDraft => exact execWriteDraft_publishOk h he
  | publish => exact execPublish_publishOk h he
  | configure => exact execConfigure_publishOk h he
  | start =>
    cases he
    exact writeAct_publishOk h fun hr => start_publishOk h (by simpa [State.startCheck] using hr)
  | leave => cases he; exact writeAct_publishOk h fun _ => leave_publishOk h
  | breakDriven => exact execBreakDriven_publishOk h he
  | breakSeen => exact execBreakSeen_publishOk h he
  | slotBroken => exact execSlotBroken_publishOk h he
  | slotClean => exact execSlotClean_publishOk h he
  | claim => exact execClaim_publishOk h he
  | arbitrationLoss => exact execArbitrationLoss_publishOk h he
  | bitFault => exact execBitFault_publishOk h he
  | lowConditionStart =>
    cases he
    split
    · exact h
    · exact settle_publishOk _ h
  | epochExpiry => exact execEpochExpiry_publishOk h he
  | elnFall => exact execElnFall_publishOk h he
  | elnRise => exact execElnRise_publishOk h he
  | notDrivable => exact execNotDrivable_publishOk h he
  | holdRunOut => exact execHoldRunOut_publishOk h he
  | lineLowLimit => exact execLineLowLimit_publishOk h he
  | lineRestored => exact execLineRestored_publishOk h he
  | commitPassEnd => exact execCommitPassEnd_publishOk h he
  | _ => exact absurd rfl hi

theorem advancePass_pub (s : State) : s.advancePass.pub = s.pub := by
  unfold State.advancePass
  split <;> simp

theorem advance_publishOk {s : State} (h : publishOk s) : publishOk s.advance := by
  obtain ⟨hmem, -⟩ := advancePass_keepsStation s
  refine publishOk_congr (congrArg Membership.station hmem) ?_ ?_ h
  · exact congrArg Publish.queue (advancePass_pub s)
  · simp [State.advance]

theorem step_publishOk {s t : State} (h : publishOk s) (hs : step s = .next t) : publishOk t := by
  unfold step at hs
  split at hs
  · by_cases hdue : s.due = []
    · rw [idleStep_of_none_due hdue] at hs
      cases hs
      exact advance_publishOk h
    · obtain ⟨i, -, hi⟩ := idleStep_of_due hdue
      exact exec_publishOk (s := { s with free := s.free + 1 }) h (hi ▸ hs)
  next c rest _ => exact exec_publishOk (s := { s with pending := rest }) h hs

/-- Settles O56: an entry joins the queue where there is room for its key, moves into the slot, returns or
leaves, and the ROLL of JOINING takes the place that LISTEN kept; every command and a bit time keep it. -/
theorem everyStepKeepsPublishQueue : Obligations.EveryStepKeepsPublishQueue :=
  fun _ _ h hs => step_publishOk h hs

end Sys2Proof.Machine
end

section
/-! SUPPORT. PUBLISH (R100, R101, R163, R179): its checks in their order, an equation for each, and what a taken
one does to the queue. -/

namespace Sys2Proof.Machine

/-! ### The argument bytes -/

theorem spanArgs_of_values {block first count : Byte} {b : Block} {sp : Span}
    (hblock : b.val = block.toNat) (hfirst : sp.first.val = first.toNat)
    (hlast : sp.last.val + 1 = first.toNat + count.toNat) (hcount : 1 ≤ count.toNat) :
    spanArgs block first count = some (b, sp) := by
  have hb := b.isLt
  have hlow := sp.first.isLt
  have hhigh := sp.last.isLt
  rw [spanArgs_eq, if_pos (by omega), Option.some.injEq, Prod.mk.injEq]
  refine ⟨Fin.ext ?_, ?_⟩
  · simp only [Fin.val_ofNat]
    omega
  · obtain ⟨low, high⟩ := sp
    rw [Span.mk.injEq]
    refine ⟨Fin.ext ?_, Fin.ext ?_⟩ <;> simp only [Fin.val_ofNat] at * <;> omega

/-! ### The checks, in the order of R163 -/

section
variable {s : State} {block first count : Byte}

/-- Off the bus, or with a LEAVE pending, no PUBLISH is taken (R101, R164). -/
theorem exec_publish_wrongState (hport : s.port.straddling = false)
    (hoff : s.mem.station.onBus = false ∨ s.mem.leavePending = true) :
    exec (.publish block first count) s = .next (s.endTransaction .wrongState) := by
  have hcheck : s.publishCheck = .wrongState := by
    rcases hoff with hoff | hoff <;> simp [State.publishCheck, hoff]
  simp only [exec, execPublish, hcheck, Result.orElse]
  split <;> exact congrArg Host.Outcome.next (writeAct_refused hport (r := .wrongState) nofun _)

theorem exec_publish_badArgument (hport : s.port.straddling = false)
    (hon : s.mem.station.onBus = true ∧ s.mem.leavePending = false)
    (hargs : spanArgs block first count = none) :
    exec (.publish block first count) s = .next (s.endTransaction .badArgument) := by
  simp only [exec, execPublish, hargs, publishCheck_eq_ok.2 hon, Result.orElse, if_true]
  exact congrArg Host.Outcome.next (writeAct_refused hport (r := .badArgument) nofun _)

variable {b : Block} {sp : Span}

theorem exec_publish_notOwner (hport : s.port.straddling = false)
    (hon : s.mem.station.onBus = true ∧ s.mem.leavePending = false)
    (hargs : spanArgs block first count = some (b, sp))
    (howner : s.cfg.owners[b] ≠ some s.straps.sid) :
    exec (.publish block first count) s = .next (s.endTransaction .notOwner) := by
  have hcheck : s.ownerCheck b = .notOwner := by rw [ownerCheck_eq, if_pos howner]
  simp only [exec, execPublish, hargs, publishCheck_eq_ok.2 hon, hcheck, Result.orElse, if_true]
  exact congrArg Host.Outcome.next (writeAct_refused hport (r := .notOwner) nofun _)

/-- Of an owned block the room decides (R100). -/
theorem exec_publish_owned (hport : s.port.straddling = false)
    (hon : s.mem.station.onBus = true ∧ s.mem.leavePending = false)
    (hargs : spanArgs block first count = some (b, sp))
    (howner : s.cfg.owners[b] = some s.straps.sid) :
    exec (.publish block first count) s = .next
      ((if s.roomCheck b sp = .ok then s.publish b sp else s).endTransaction (s.roomCheck b sp)) := by
  have hcheck : s.ownerCheck b = .ok := by rw [ownerCheck_eq, if_neg (not_not.2 howner)]
  simp only [exec, execPublish, hargs, publishCheck_eq_ok.2 hon, hcheck, Result.orElse, if_true]
  exact congrArg Host.Outcome.next (writeAct_complete hport _ _)

theorem roomCheck_refuses (h : s.roomCheck b sp ≠ .ok) : s.roomCheck b sp = .queueFull := by
  unfold State.roomCheck at *
  split at h
  · exact absurd rfl h
  next hfull => exact if_neg hfull

/-- A block without a queued entry needs a place for its key among those in use (R100). -/
theorem roomCheck_new (hnew : Key.ofBlock b ∉ queueKeys s.pub.queue) :
    s.roomCheck b sp = .ok ↔ s.pub.queue.length + 1 + (match s.flightKey with
        | some k => if k = .ofBlock b ∨ k ∈ queueKeys s.pub.queue then 0 else 1
        | none => 0)
      ≤ if s.mem.station = .listen ∨ s.mem.station = .joining then 7 else 8 := by
  rw [roomCheck_eq_ok, or_iff_right hnew]
  cases s.flightKey with
  | none => exact hasRoom_none _ _ _
  | some k => exact hasRoom_some _ k _ _

/-- What a PUBLISH with its arguments in range records, and what it does to the queue, in t (R100, R101). -/
def publishAnswered (s t : State) (b : Block) (sp : Span) : Prop :=
  (s.cfg.owners[b] ≠ some s.straps.sid → t.port.last = .notOwner)
    ∧ (s.cfg.owners[b] = some s.straps.sid →
      (Key.ofBlock b ∈ queueKeys s.pub.queue → t.port.last = .ok ∧ t.pub.nextOrder = s.pub.nextOrder
        ∧ t.pub.queue = s.pub.queue.map (widenEntry b sp))
      ∧ (Key.ofBlock b ∉ queueKeys s.pub.queue →
        (t.port.last = .ok ↔ s.roomCheck b sp = .ok)
        ∧ (t.port.last ≠ .ok → t.port.last = .queueFull)
        ∧ (t.port.last = .ok →
          t.pub.queue.Perm (⟨.update b sp, 0, s.pub.nextOrder, false⟩ :: s.pub.queue))))

theorem exec_publish_answered (hport : s.port.straddling = false)
    (hon : s.mem.station.onBus = true ∧ s.mem.leavePending = false)
    (hargs : spanArgs block first count = some (b, sp)) :
    ∃ t, exec (.publish block first count) s = .next t
      ∧ t.port = { s.port with last := t.port.last, txn := none }
      ∧ t = { s with port := t.port
                     pub := { s.pub with queue := t.pub.queue, nextOrder := t.pub.nextOrder } }
      ∧ (t.port.last ≠ .ok → t.pub = s.pub) ∧ publishAnswered s t b sp := by
  by_cases howner : s.cfg.owners[b] = some s.straps.sid
  · rw [exec_publish_owned hport hon hargs howner]
    by_cases hroom : s.roomCheck b sp = .ok
    · rw [if_pos hroom, hroom]
      by_cases hqueued : Key.ofBlock b ∈ queueKeys s.pub.queue
      · rw [publish_widens hqueued, endTransaction_eq (by exact hport)]
        exact ⟨_, rfl, rfl, rfl, fun h => absurd rfl h, fun h => absurd howner h,
          fun _ => ⟨fun _ => ⟨rfl, rfl, rfl⟩, fun hnew => absurd hqueued hnew⟩⟩
      · rw [publish_adds hqueued, endTransaction_eq (by exact hport)]
        exact ⟨_, rfl, rfl, rfl, fun h => absurd rfl h, fun h => absurd howner h,
          fun _ => ⟨fun h => absurd h hqueued, fun _ => ⟨iff_of_true rfl hroom, fun h => absurd rfl h,
            fun _ => insertEntry_perm _ _⟩⟩⟩
    · rw [if_neg hroom, roomCheck_refuses hroom, endTransaction_eq hport]
      exact ⟨_, rfl, rfl, rfl, fun _ => rfl, fun h => absurd howner h,
        fun _ => ⟨fun hqueued => absurd (roomCheck_eq_ok.2 (Or.inl hqueued)) hroom,
          fun _ => ⟨iff_of_false nofun hroom, fun _ => rfl, nofun⟩⟩⟩
  · rw [exec_publish_notOwner hport hon hargs howner, endTransaction_eq hport]
    exact ⟨_, rfl, rfl, rfl, fun _ => rfl, fun _ => rfl, fun h => absurd h howner⟩

end

/-- Settles O15: the argument bytes are in range for one block and span at most, of which
`publishAnswered` says the rest. -/
theorem publishQueuesAnUpdate : Obligations.PublishQueuesAnUpdate := by
  refine ⟨Span.union_bounds, fun block first count s hport => ?_⟩
  by_cases hoff : s.mem.station.onBus = false ∨ s.mem.leavePending = true
  · rw [exec_publish_wrongState hport hoff, endTransaction_eq hport]
    refine ⟨_, rfl, rfl, rfl, fun _ => rfl, fun _ => rfl, fun ⟨hbus, hstays⟩ => ?_⟩
    rcases hoff with hoff | hoff <;> simp_all
  have hon : s.mem.station.onBus = true ∧ s.mem.leavePending = false := by simpa using hoff
  cases hargs : spanArgs block first count with
  | none =>
    rw [exec_publish_badArgument hport hon hargs, endTransaction_eq hport]
    refine ⟨_, rfl, rfl, rfl, fun _ => rfl, fun h => absurd h hoff, fun _ => ⟨fun _ => rfl, ?_⟩⟩
    intro b sp hblock hfirst hlast hcount
    rw [spanArgs_of_values hblock hfirst hlast hcount] at hargs
    cases hargs
  | some arg =>
    obtain ⟨t, hexec, htport, hframe, hrefused, hanswered⟩ := exec_publish_answered hport hon hargs
    refine ⟨t, hexec, htport, hframe, hrefused, fun h => absurd h hoff, fun _ => ⟨fun hout => ?_, ?_⟩⟩
    · rw [spanArgs_eq, if_neg hout] at hargs
      cases hargs
    · intro b sp hblock hfirst hlast hcount
      rw [spanArgs_of_values hblock hfirst hlast hcount] at hargs
      cases hargs
      obtain ⟨hother, howned⟩ := hanswered
      refine ⟨hother, fun howner => ?_⟩
      obtain ⟨hwidened, hadded⟩ := howned howner
      refine ⟨hwidened, fun hnew => ?_⟩
      obtain ⟨hroom, hqueue⟩ := hadded hnew
      exact ⟨hroom.trans (roomCheck_new hnew), hqueue⟩

end Sys2Proof.Machine
end

section
/-! SUPPORT. The claim (R16, R17, R75, R76, R99, R107): which entry it takes, and what it fixes. -/

namespace Sys2Proof.Machine

section
variable {s : State}

/-! ### The conditions of a claim -/

theorem busFree_iff : s.busFree = true ↔ s.tx = .standby ∧ s.line.idle = true ∧ s.eu.low = false
    ∧ s.eu.tail = none ∧ s.line.busFault = false := by
  simp [State.busFree, EpochUnit.quiet, and_assoc]

theorem eligible_iff (e : Entry) : s.eligible e = true ↔
    (s.mem.station = .member ∨ (s.mem.station = .joining ∧ e.duty = .roll))
      ∧ s.mem.leavePending = false ∧ e.held = false
      ∧ ∀ b, e.duty.block = some b → (∃ x ∈ s.staging, x.block = b) ∨ s.staging.length < 16 := by
  have hroom : (match e.duty.block with
      | some b => roomFor s.staging b
      | none => true) = true
      ↔ ∀ b, e.duty.block = some b → (∃ x ∈ s.staging, x.block = b) ∨ s.staging.length < 16 := by
    cases e.duty.block with
    | none => simp
    | some b => simp [roomFor_iff]
  simp only [State.eligible, Bool.and_eq_true, Bool.or_eq_true, beq_iff_eq, Bool.not_eq_true', and_assoc]
  exact and_congr_right' (and_congr_right' (and_congr_right' hroom))

/-! ### The command -/

theorem exec_claim_none (h : ∀ e ∈ s.pub.queue, ¬ s.eligible e = true) : exec .claim s = .next s := by
  have hnone : s.nextEntry = none := List.find?_eq_none.2 h
  simp [exec, execClaim, hnone]

theorem exec_claim_busy (h : ¬ s.busFree = true) : exec .claim s = .next s := by
  simp only [exec, execClaim, if_neg h]
  split <;> rfl

/-- The first eligible entry leaves the queue and stands in the slot (R99). -/
theorem exec_claim_takes {pre post : List Entry} {e : Entry} (hfree : s.busFree = true)
    (hqueue : s.pub.queue = pre ++ e :: post) (he : s.eligible e = true)
    (hpre : ∀ x ∈ pre, ¬ s.eligible x = true) :
    exec .claim s = .next { s with
      tx := .active .claiming (s.attemptFor e), pub := { s.pub with queue := pre ++ post }
      line := { s.line with sendPos := 0, sampled := none } } := by
  have hnext : s.nextEntry = some e := by
    rw [State.nextEntry, hqueue, List.find?_append, List.find?_eq_none.2 hpre]
    simp [he]
  have herase : s.pub.queue.erase e = pre ++ post := by
    rw [hqueue, List.erase_append_right _ fun hmem => hpre e hmem he, List.erase_cons_head]
  simp [exec, execClaim, hnext, hfree, herase]

/-! ### What it fixes -/

theorem attemptFor_epoch (e : Entry) : (s.attemptFor e).epoch = s.eu.epoch := by
  unfold State.attemptFor
  split <;> rfl

variable {e : Entry} {b : Block} {sp : Span}

theorem attemptFor_update (h : e.duty = .update b sp) :
    (s.attemptFor e).seq = s.image.lastSeq[b] + 1
      ∧ (s.attemptFor e).words = s.image.draft.readSpan b sp
      ∧ (s.attemptFor e).chars = withCheck ([claimByte .update s.straps.sid, byteOf b.val, s.eu.epoch,
          (s.attemptFor e).seq, spanByte sp] ++ wordBytes (s.attemptFor e).words) := by
  rw [State.attemptFor, h]
  exact ⟨rfl, rfl, rfl⟩

theorem attemptFor_refresh (h : e.duty = .refresh b) :
    (s.attemptFor e).seq = s.image.lastSeq[b]
      ∧ (s.attemptFor e).words = s.image.draft.readSpan b .full
      ∧ (s.attemptFor e).chars = withCheck ([claimByte .refresh s.straps.sid, byteOf b.val, s.eu.epoch,
          (s.attemptFor e).seq, spanByte .full] ++ wordBytes (s.attemptFor e).words) := by
  rw [State.attemptFor, h]
  exact ⟨rfl, rfl, rfl⟩

theorem attemptFor_roll (h : e.duty = .roll) :
    (s.attemptFor e).chars = withCheck [claimByte .roll s.straps.sid, s.eu.epoch] := by
  rw [State.attemptFor, h]
  rfl

end

/-- Settles O38: the conditions are `State.busFree` and `State.eligible`, and the attempt is
`State.attemptFor` the first eligible entry. -/
theorem claimTakesFirstEligibleEntry : Obligations.ClaimTakesFirstEligibleEntry := by
  intro s free eligible hfree heligible
  have hfree : s.busFree = true ↔ free := busFree_iff.trans hfree.symm
  have heligible (e : Entry) : s.eligible e = true ↔ eligible e := (eligible_iff e).trans (heligible e).symm
  simp only [← hfree, ← heligible]
  refine ⟨fun h => h.elim exec_claim_busy exec_claim_none, fun pre e post hbus hqueue he hpre =>
    ⟨_, exec_claim_takes hbus hqueue he hpre, attemptFor_entry s e, attemptFor_epoch e,
      fun b sp hduty => attemptFor_update hduty, fun b hduty => attemptFor_refresh hduty, attemptFor_roll⟩⟩

end Sys2Proof.Machine
end

section
/-! SUPPORT. The return of an entry to the queue (R111): it joins alone in its key, or merges with the queued entry
of its key. -/

namespace Sys2Proof.Machine

section
variable {q pre post : List Entry} {e x : Entry}

theorem giveBack_alone (h : ∀ y ∈ q, y.duty.key ≠ e.duty.key) : (giveBack q e).Perm (e :: q) := by
  have hnone : findKey q e.duty.key = none :=
    (findKey_none_iff _ _).2 fun hmem => (mem_queueKeys.1 hmem).elim fun y hy => h y hy.1 hy.2
  simpa [giveBack, hnone] using insertEntry_perm q e

theorem findKey_of_first (hpre : ∀ y ∈ pre, y.duty.key ≠ e.duty.key) (hkey : x.duty.key = e.duty.key) :
    findKey (pre ++ x :: post) e.duty.key = some x := by
  rw [findKey, List.find?_append, List.find?_eq_none.2 (by simpa using hpre)]
  simp [hkey]

/-- The entry that two entries of one key merge to (R111). -/
def mergedEntry (e x : Entry) : Entry :=
  { e with duty := mergeDuty e.duty x.duty, order := min e.order x.order }

/-- The queued entry of the key gives way to what it merges to. -/
theorem giveBack_merges (hkey : x.duty.key = e.duty.key) (hpre : ∀ y ∈ pre, y.duty.key ≠ e.duty.key)
    (hpost : ∀ y ∈ post, y.duty.key ≠ e.duty.key) :
    (giveBack (pre ++ x :: post) e).Perm (mergedEntry e x :: (pre ++ post)) := by
  have kept {l : List Entry} (hl : ∀ y ∈ l, y.duty.key ≠ e.duty.key) :
      (l.filter fun y => y.duty.key != e.duty.key) = l :=
    List.filter_eq_self.2 fun y hy => by simpa using hl y hy
  have hothers : ((pre ++ x :: post).filter fun y => y.duty.key != e.duty.key) = pre ++ post := by
    rw [List.filter_append, List.filter_cons_of_neg (by simp [hkey]), kept hpre, kept hpost]
  rw [giveBack, findKey_of_first hpre hkey]
  dsimp only
  rw [hothers]
  exact insertEntry_perm _ _

theorem mergeDuty_updates (b : Block) (sp sp' : Span) :
    mergeDuty (.update b sp) (.update b sp') = .update b (sp.union sp') := rfl

/-- An UPDATE and a REFRESH of one block merge to an UPDATE of the whole block. -/
theorem mergeDuty_updateRefresh {d d' : Duty} {b : Block} {sp : Span}
    (h : (d = .update b sp ∧ d' = .refresh b) ∨ (d = .refresh b ∧ d' = .update b sp)) :
    mergeDuty d d' = .update b ⟨0, 15⟩ := by
  obtain ⟨rfl, rfl⟩ | ⟨rfl, rfl⟩ := h <;> rfl

end

/-- Settles O40: the queued entry of the key is the one that `findKey` finds, and the others are those that
the filter leaves. -/
theorem returnedEntryMerges : Obligations.ReturnedEntryMerges := by
  refine ⟨Span.union_bounds, fun q e => ⟨fun hsorted => giveBack_sorted hsorted e, giveBack_alone, ?_⟩⟩
  rintro pre x post rfl hkey hpre hpost
  refine ⟨mergedEntry e x, giveBack_merges hkey hpre hpost, rfl, rfl, rfl, fun b sp sp' he hx => ?_,
    fun b sp h => mergeDuty_updateRefresh h, fun b he hx => ?_, fun he => ?_⟩
  · simp [mergedEntry, he, hx, mergeDuty_updates]
  · simp [mergedEntry, he, hx, mergeDuty]
  · simp [mergedEntry, he, mergeDuty]

end Sys2Proof.Machine
end

section
/-! SUPPORT. The schedules of a boundary for one block and for the ROLL (R103, R105), an equation for each case. -/

namespace Sys2Proof.Machine

section
variable {p : Publish} {flight : Option Key} {period : Nat} {b : Block}

/-! ### The refresh schedule (R103) -/

theorem stepRefresh_counts (h : 2 ≤ p.countdown[b]) : stepRefresh period flight p b
    = { p with countdown := put p.countdown b (p.countdown[b] - 1) } :=
  if_pos (Nat.sub_pos_of_lt h)

/-- The countdown is due and an entry of the block is queued: an UPDATE takes in the whole block. -/
theorem stepRefresh_queued {x : Entry} (h : p.countdown[b] ≤ 1)
    (hx : findKey p.queue (.ofBlock b) = some x) : stepRefresh period flight p b
    = { p with
        queue := if x.duty.kind = .update then widen p.queue b .full else p.queue
        countdown := put p.countdown b period } := by
  rw [stepRefresh, if_neg (by omega), hx]

theorem stepRefresh_adds (h : p.countdown[b] ≤ 1) (hnew : Key.ofBlock b ∉ queueKeys p.queue)
    (hroom : hasRoom p.queue flight 8 (.refresh b) = true) : stepRefresh period flight p b
    = { p.add (.refresh b) with countdown := put p.countdown b period } := by
  rw [stepRefresh, if_neg (by omega), (findKey_none_iff _ _).2 hnew]
  exact if_pos hroom

theorem stepRefresh_full (h : p.countdown[b] ≤ 1) (hnew : Key.ofBlock b ∉ queueKeys p.queue)
    (hroom : hasRoom p.queue flight 8 (.refresh b) = false) : stepRefresh period flight p b
    = { p with countdown := put p.countdown b 0 } := by
  rw [stepRefresh, if_neg (by omega), (findKey_none_iff _ _).2 hnew]
  exact if_neg (Bool.eq_false_iff.1 hroom)

/-- With no two entries of one key, a queued REFRESH is the block's only entry, and widening passes the
queue by. -/
theorem widenEntry_beside {q : List Entry} {x : Entry} {sp : Span} (hkeys : (queueKeys q).Nodup)
    (hx : findKey q (.ofBlock b) = some x) (hkind : x.duty.kind ≠ .update) :
    q.map (widenEntry b sp) = q := by
  obtain ⟨hmem, hkey⟩ := findKey_some hx
  refine (List.map_congr_left (g := id) fun e he => ?_).trans (List.map_id q)
  unfold widenEntry
  split
  next b' old hduty =>
    refine if_neg fun hb => hkind ?_
    have hsame : e = x := List.inj_on_of_nodup_map hkeys he hmem (by rw [hkey, hduty, hb]; rfl)
    rw [← hsame, hduty]
    rfl
  all_goals rfl

theorem refreshed_queue {x : Entry} (hkeys : (queueKeys p.queue).Nodup)
    (hx : findKey p.queue (.ofBlock b) = some x) :
    (if x.duty.kind = .update then widen p.queue b .full else p.queue)
      = p.queue.map (widenEntry b .full) := by
  split
  · exact widen_eq_map p.queue b .full
  next hkind => exact (widenEntry_beside hkeys hx hkind).symm

/-! ### The own-silence count (R105) -/

/-- The own-silence count after a boundary. -/
def silenceCounted (p : Publish) : Nat := if p.ownAccepted then 0 else min 15 (p.silence + 1)

variable {limit : Nat}

theorem stepSilence_adds (h : limit - 1 ≤ silenceCounted p) (hnew : Key.ofRoll ∉ queueKeys p.queue)
    (hroom : hasRoom p.queue flight 8 .roll = true) : stepSilence limit flight p
    = Publish.add { p with silence := silenceCounted p, ownAccepted := false } .roll := by
  have hnone := (findKey_isNone_iff _ _).2 hnew
  exact if_pos (by simp only [Bool.and_eq_true, decide_eq_true_eq]; exact ⟨⟨h, hnone⟩, hroom⟩)

theorem stepSilence_keeps (h : silenceCounted p < limit - 1 ∨ Key.ofRoll ∈ queueKeys p.queue
      ∨ hasRoom p.queue flight 8 .roll = false) : stepSilence limit flight p
    = { p with silence := silenceCounted p, ownAccepted := false } := by
  refine if_neg fun hadd => ?_
  simp only [Bool.and_eq_true, decide_eq_true_eq, findKey_isNone_iff] at hadd
  obtain ⟨⟨hcount, hnew⟩, hroom⟩ := hadd
  rcases h with h | h | h
  · exact absurd hcount (Nat.not_le_of_lt h)
  · exact hnew h
  · exact absurd hroom (Bool.eq_false_iff.1 h)

end

/-- Settles O51: the equations of `stepRefresh` and `stepSilence` by the countdown, the queued keys and the
room. -/
theorem schedulesOfABoundary : Obligations.SchedulesOfABoundary := by
  refine ⟨?_, ?_⟩
  · rintro period flight p b _ rfl
    obtain ⟨hsilence, haccepted, hothers⟩ := stepRefresh_keeps period flight p b
    refine ⟨hothers, hsilence, haccepted, fun h => ?_, fun h hqueued => ?_,
      fun h hnew => ⟨fun hroom => ?_, fun hroom => ?_⟩⟩
    · rw [stepRefresh_counts h]
      exact ⟨put_get_self _ _ _, rfl⟩
    · obtain ⟨x, hx⟩ := Option.isSome_iff_exists.1 ((findKey_isSome_iff _ _).2 hqueued)
      rw [stepRefresh_queued h hx]
      exact ⟨put_get_self _ _ _, rfl, fun hkeys => refreshed_queue hkeys hx⟩
    · rw [stepRefresh_adds h hnew hroom]
      exact ⟨put_get_self _ _ _, insertEntry_perm _ _⟩
    · rw [stepRefresh_full h hnew hroom]
      exact ⟨put_get_self _ _ _, rfl⟩
  · rintro limit flight p _ rfl
    obtain ⟨hsilence, haccepted, hcountdown⟩ := stepSilence_counts limit flight p
    refine ⟨haccepted, hcountdown, hsilence, fun h hnew hroom => ?_, fun h => ?_⟩
    · rw [hsilence] at h
      rw [stepSilence_adds h hnew hroom]
      exact insertEntry_perm _ _
    · rw [hsilence] at h
      rw [stepSilence_keeps h]

end Sys2Proof.Machine
end

section
/-! SUPPORT. The phases of an attempt (R66, R72, R80, R84, R108, R109, R111): the claim lost or won, and the end of
the dispatch. -/

namespace Sys2Proof.Machine

section
variable {s : State} {a : Attempt}

/-! ### ARBITRATION_LOSS -/

/-- The station with its claim lost: the entry returned, the bit read dominant and the loss counted. -/
def State.claimLost (s : State) (a : Attempt) : State :=
  { s with
    tx := .standby, pub := { s.pub with queue := giveBack s.pub.queue a.entry }
    counters := { s.counters with arbitrationLosses := bump s.counters.arbitrationLosses }
    line := lineRead s.line .dominant }

/-- The loss is counted beside what the Receiver makes of the claim, so that it may stand first. -/
theorem exec_arbitrationLoss (htx : s.tx = .active .claiming a) :
    exec .arbitrationLoss s = .next (s.claimLost a).ownWasLost := by
  simp only [exec, execArbitrationLoss, htx, endAttempt_active htx, Line.readBack_lineRead]
  unfold State.ownWasLost State.claimLost
  dsimp only
  split
  · split
    · simp only [State.malformed, noteError_eq]
      rfl
    · rfl
  · rfl

theorem ownWasLost_without (h : ∀ ph d, s.rx.st = .following ph d → d.own = false) :
    s.ownWasLost = s := by
  unfold State.ownWasLost
  split
  next ph d hrx => simp [h ph d hrx]
  next => rfl

theorem ownWasLost_malformed {ph : RxPhase} {d : Incoming} (hrx : s.rx.st = .following ph d)
    (hown : d.own = true) : s.ownWasLost = s.malformed := by
  simp [State.ownWasLost, hrx, hown]

/-- The line's readback leaves a request as it was. -/
theorem lineRead_keeps (l : Line) (level : Level) : (lineRead l level).request = l.request
    ∧ (lineRead l level).drive = l.drive ∧ (lineRead l level).edgeLow = l.edgeLow := by
  rw [← Line.readBack_lineRead, l.readBack_keeps level]
  exact ⟨rfl, rfl, rfl⟩

/-- A malformed condition in the station with its claim lost is one in the station before (R85). -/
theorem claimLost_objected (s : State) (a : Attempt) : objected s (s.claimLost a).malformed := by
  obtain ⟨hrx, hrequest, hmute⟩ := (s.claimLost a).malformed_objected
  refine ⟨hrx, ?_, hmute⟩
  rw [hrequest, ← (lineRead_keeps s.line .dominant).1]
  rfl

theorem claimLost_malformed (s : State) (a : Attempt) : (s.claimLost a).malformed = { s.claimLost a with
    line := { (s.claimLost a).line with request := (s.claimLost a).malformed.line.request }
    rx := { s.rx with st := (s.claimLost a).malformed.rx.st }
    mute := (s.claimLost a).malformed.mute } := by
  simp only [State.malformed, noteError_eq]
  rfl

/-! ### CLAIM_WON -/

theorem exec_claimWon_told (htold : sampleRefutes s.line = true) : exec .claimWon s = .next s := by
  simp only [exec, execClaimWon, Line.mismatchTold_sampleRefutes, htold]
  split <;> rfl

/-- The station with its claim won. -/
def State.claimWon (s : State) (a : Attempt) : State :=
  { s with
    tx := .active .sending a
    line := { s.line with sendPos := max s.line.sendPos 11, sampled := none } }

theorem exec_claimWon (htx : s.tx = .active .claiming a) (htold : sampleRefutes s.line = false) :
    exec .claimWon s = .next ((s.claimWon a).knowOwn a) := by
  simp only [exec, execClaimWon, Line.mismatchTold_sampleRefutes, htx, htold]
  rfl

theorem knowOwn_ready (h : s.rx.st = .ready) : s.knowOwn a = { s with
    rx := { s.rx with st := .following .header (Incoming.ofAttempt s.straps.sid a) } } := by
  simp [State.knowOwn, h]

theorem knowOwn_other (h : s.rx.st ≠ .ready) : s.knowOwn a = s := by
  unfold State.knowOwn
  split
  next hready => exact absurd hready h
  next => rfl

/-! ### LAST_CHECK_SENT -/

theorem exec_lastCheckSent_told (htold : sampleRefutes s.line = true) :
    exec .lastCheckSent s = .next s := by
  simp only [exec, execLastCheckSent, Line.mismatchTold_sampleRefutes, htold]
  split <;> rfl

/-- The station with its dispatch sent and the answer slot open. -/
def State.slotOpened (s : State) (a : Attempt) : State :=
  { s with
    tx := .active .slotWait a
    line := { s.line with
      st := .hunt, slot := some 0, idle := false, idleCount := 0, charTime := none
      samples := [], sampled := none, sendPos := 0 } }

theorem exec_lastCheckSent_follows (htx : s.tx = .active .sending a)
    (htold : sampleRefutes s.line = false) {ph : RxPhase} {d : Incoming}
    (hrx : s.rx.st = .following ph d) : exec .lastCheckSent s
      = .next { s.slotOpened a with rx := { s.rx with st := .following .answer d } } := by
  simp only [exec, execLastCheckSent, Line.mismatchTold_sampleRefutes, htx, htold, hrx]
  rfl

theorem exec_lastCheckSent_other (htx : s.tx = .active .sending a)
    (htold : sampleRefutes s.line = false) (hrx : ∀ ph d, s.rx.st ≠ .following ph d) :
    exec .lastCheckSent s = .next (s.slotOpened a) := by
  simp only [exec, execLastCheckSent, Line.mismatchTold_sampleRefutes, htx, htold]
  rfl

/-! ### Other phases -/

theorem exec_notClaiming (h : ∀ a, s.tx ≠ .active .claiming a) :
    exec .arbitrationLoss s = .next s ∧ exec .claimWon s = .next s := by
  simp [exec, execArbitrationLoss, execClaimWon]

theorem exec_notSending (h : ∀ a, s.tx ≠ .active .sending a) : exec .lastCheckSent s = .next s := by
  simp [exec, execLastCheckSent]

end

/-- Settles O39: the equation of each command in the phase that it belongs to, with the Receiver's cases. -/
theorem attemptPhases : Obligations.AttemptPhases := by
  intro ph a s
  refine ⟨fun htx => ⟨⟨_, exec_arbitrationLoss htx, ?_⟩, exec_claimWon_told,
      fun htold => ⟨_, exec_claimWon htx htold, ?_⟩⟩,
    fun _ => exec_lastCheckSent_told, fun htx htold => ?_, fun h => exec_notClaiming ?_,
    fun h => exec_notSending ?_⟩
  · by_cases hlost : ∃ p d, s.rx.st = .following p d ∧ d.own = true
    · obtain ⟨p, d, hrx, hown⟩ := hlost
      rw [ownWasLost_malformed (s := s.claimLost a) hrx hown]
      refine ⟨claimLost_malformed s a, fun hno => ?_, fun _ _ _ _ => claimLost_objected s a⟩
      simp [hno p d hrx] at hown
    · have hno : ∀ p d, s.rx.st = .following p d → d.own = false := by
        simpa using hlost
      rw [ownWasLost_without (s := s.claimLost a) hno]
      refine ⟨?_, fun _ => ⟨rfl, rfl, rfl⟩, fun p d hrx hown => absurd hown (by simp [hno p d hrx])⟩
      simp [State.claimLost]
  · by_cases hready : s.rx.st = .ready
    · rw [knowOwn_ready (s := s.claimWon a) hready]
      exact ⟨rfl, fun h => absurd hready h, fun _ => ⟨_, rfl, rfl⟩⟩
    · rw [knowOwn_other (s := s.claimWon a) hready]
      exact ⟨rfl, fun _ => rfl, fun h => absurd h hready⟩
  · by_cases hrx : ∃ p d, s.rx.st = .following p d
    · obtain ⟨p, d, hrx⟩ := hrx
      refine ⟨_, exec_lastCheckSent_follows htx htold hrx, rfl, fun p' d' hrx' => ?_,
        fun hno => absurd hrx (hno p d)⟩
      rw [hrx] at hrx'
      cases hrx'
      rfl
    · have hno : ∀ p d, s.rx.st ≠ .following p d := fun p d h => hrx ⟨p, d, h⟩
      exact ⟨_, exec_lastCheckSent_other htx htold hno, rfl, fun p d h => absurd h (hno p d),
        fun _ => rfl⟩
  · intro a' ha'
    rcases h with h | ⟨h, hph⟩ <;> simp_all
  · intro a' ha'
    rcases h with h | ⟨h, hph⟩ <;> simp_all

end Sys2Proof.Machine
end

section
/-! SUPPORT. A failed attempt (R72, R83, R112, R126, R139): the line, the Receiver and the counters as the failure
finds them, and what then becomes of the entry and of the station. -/

namespace Sys2Proof.Machine

/-! ### The parts that a failure moves on their own -/

/-- The station with another line, Receiver and counters. -/
def State.struck (s : State) (l : Line) (r : Receiver) (c : Counters) : State :=
  { s with line := l, rx := r, counters := c }

/-- A commit pass does not look at them. -/
theorem finishPass_struck (s : State) (l : Line) (r : Receiver) (c : Counters) :
    (s.struck l r c).finishPass = s.finishPass.struck l r c := by
  have hhead (u : State) (epoch : Byte) :
      (u.struck l r c).commitHead epoch = (u.commitHead epoch).struck l r c := by
    have hstaging : (u.struck l r c).staging = u.staging := rfl
    unfold State.commitHead
    rw [hstaging]
    cases u.staging <;> rfl
  have hsome (u : State) (epoch : Byte) (n : Nat) :
      State.commitSome epoch n (u.struck l r c) = (State.commitSome epoch n u).struck l r c := by
    induction n generalizing u with
    | zero => rfl
    | succ n ih => rw [State.commitSome, hhead, ih, State.commitSome]
  have hposted (u : State) (epoch : Byte) :
      (u.struck l r c).postCommitted epoch = (u.postCommitted epoch).struck l r c := by
    have hcfg : (u.struck l r c).cfg = u.cfg := rfl
    have hcommit : (u.struck l r c).commit = u.commit := rfl
    unfold State.postCommitted
    rw [hcfg, hcommit]
    cases u.cfg.mode with
    | none | every => rfl
    | changes =>
      dsimp only
      split <;> rfl
  cases hp : s.commit.pass with
  | none => rw [State.finishPass_idle hp, State.finishPass_idle (s := s.struck l r c) hp]
  | some p =>
    have hpass : (s.struck l r c).commit.pass = some p := hp
    simp only [State.finishPass, hpass, hp]
    rw [hsome, hposted]
    rfl

/-- Of those parts the completion of LEAVE keeps the counters alone. -/
theorem leftTheBus_struck {u t : State} {l : Line} {r : Receiver} {c : Counters}
    (h : leftTheBus (u.struck l r c) t) : leftTheBus (u.struck t.line t.rx t.counters) t := by
  have hcounters : t.counters = c := by
    obtain ⟨-, -, -, -, -, -, -, -, -, -, -, -, -, -, -, -, -, -, -, -, -, -, -, -, -, -, -, -, -, -,
      hcounters, -⟩ := h
    exact hcounters
  rw [hcounters]
  exact h

/-! ### Settling and falling back -/

/-- What settling does to the line and the counters of a silent station: a character in assembly is marked,
and a cut is counted, both only where the low condition begins. -/
theorem settle_silentLine {u : State} (before : Bool) (h : silent u) :
    (State.settle before u).line = { u.line with edgeLow := (State.settle before u).line.edgeLow }
      ∧ (u.line.st ≠ .assemble → (State.settle before u).line.edgeLow = u.line.edgeLow)
      ∧ (State.settle before u).counters
        = { u.counters with cuts := (State.settle before u).counters.cuts }
      ∧ ((u.eu.low = true → before = true) →
        (State.settle before u).counters.cuts = u.counters.cuts) := by
  obtain ⟨htx, hdrive, hrequest⟩ := h
  obtain ⟨hbefore, hlow, -, hline, hcut⟩ | ⟨-, -, heq⟩ | ⟨-, heq⟩ := State.settle_settled before u
  · generalize State.settle before u = t at hline hcut
    rw [htx] at hcut
    obtain ⟨-, hcut⟩ := hcut
    have hedge : u.line.st ≠ .assemble → t.line.edgeLow = u.line.edgeLow := by
      intro hst
      split at hcut <;> obtain ⟨-, -, hedge⟩ := hcut
      · exact hedge
      · simpa [hst] using hedge
    have hcounters : t.counters = { u.counters with cuts := t.counters.cuts } := by
      split at hcut <;> obtain ⟨-, hcounters, -⟩ := hcut <;> rw [hcounters]
    refine ⟨?_, hedge, hcounters, fun hno => absurd (hno hlow) (by simp [hbefore])⟩
    rw [hline]
    simp [hdrive, hrequest]
  all_goals
    rw [heq]
    exact ⟨rfl, fun _ => rfl, rfl, fun _ => rfl⟩

/-- A fall-back silences the line, also where the LEAVE that was pending completes with it (R139, R143). -/
theorem fallBack_line (s : State) :
    s.fallBack.line = { s.line with request := false, drive := none } := by
  have hvoice (u : State) : u.stopVoice.line = { u.line with request := false, drive := none } := by
    simp [State.stopVoice]
  unfold State.fallBack
  dsimp only
  split
  · simp [State.leaveNow, State.completeLeave, hvoice]
  · simp [hvoice]

theorem fallBack_silent (s : State) : silent s.fallBack := by
  refine ⟨?_, by rw [fallBack_line], by rw [fallBack_line]⟩
  unfold State.fallBack
  dsimp only
  split
  · obtain ⟨-, -, -, -, -, -, -, -, -, -, -, -, -, -, -, htx, -⟩ :=
      (State.finishPass (s.post .joinFailed)).completeLeave_leftTheBus
    exact htx
  · exact (stopVoice_silent _).1

/-- On the bus a fall-back begins no low condition: the unit goes on reading the line that it read. -/
theorem fallBack_low {s : State} (hunit : s.eu.unit ≠ .dormant) (h : s.fallBack.eu.low = true) :
    s.eu.low = true := by
  cases hleave : s.mem.leavePending with
  | false =>
    obtain ⟨-, -, hfollow, -, -, heln, -⟩ := State.fallBack_fellBack hleave
    rw [EpochUnit.low_iff_reading (Or.inl hfollow), heln] at h
    exact EpochUnit.low_of_fall hunit h
  | true =>
    have hleaves : s.fallBack = (s.post .joinFailed).leaveNow := if_pos hleave
    rw [hleaves, State.leaveNow, EpochUnit.low_dormant (by simp)] at h
    cases h

end Sys2Proof.Machine
end

section
/-! SUPPORT. What every failed attempt comes to (R112, R126, R139), whatever struck it. -/

namespace Sys2Proof.Machine

/-- The entry of an attempt after one failure more, as it returns (R112). -/
def Attempt.heldEntry (a : Attempt) : Entry :=
  { a.entry with failures := a.entry.failures + 1, held := true }

/-- t is the station s after its attempt has failed once, with the line l, the Receiver r and the counters c
as the failure has found them: below the eighth failure the entry is back and held; at the eighth it is
abandoned, and a ROLL abandoned in JOINING takes the station back. -/
structure attemptFailed (s : State) (a : Attempt) (l : Line) (r : Receiver) (c : Counters) (t : State) :
    Prop where
  slot : t.tx = .standby
  line : t.line = { l with
    request := t.line.request, drive := t.line.drive, edgeLow := t.line.edgeLow }
  request : l.request = false → t.line.request = false
  edge : l.st ≠ .assemble → t.line.edgeLow = l.edgeLow
  counters : t.counters = { c with cuts := t.counters.cuts }
  cuts : s.eu.unit ≠ .dormant → t.counters.cuts = c.cuts
  stays : s.mem.station ≠ .joining ∨ a.entry.duty ≠ .roll ∨ a.entry.failures + 1 < 8 →
    t.line = l ∧ t.rx = r ∧ t.counters = c
  held : a.entry.failures + 1 < 8 → t = { s with
    tx := .standby, line := t.line, rx := t.rx, counters := t.counters
    pub := { s.pub with queue := giveBack s.pub.queue a.heldEntry } }
  abandoned : 8 ≤ a.entry.failures + 1 → ∀ u : State,
    u = State.post { s with tx := .standby, line := t.line, rx := t.rx, counters := t.counters }
      .txAbandoned none a.entry.duty.block (some (kindCode a.entry.duty.kind)) →
    (¬ (a.entry.duty = .roll ∧ s.mem.station = .joining) → t = u)
    ∧ (a.entry.duty = .roll → s.mem.station = .joining → s.mem.leavePending = false → fellBack u t)
    ∧ (a.entry.duty = .roll → s.mem.station = .joining → s.mem.leavePending = true →
        leftTheBus (State.finishPass (u.post .joinFailed)) t)

section
variable {s : State} {ph : TxPhase} {a : Attempt} {l : Line} {r : Receiver} {c : Counters}

/-- The station with the entry abandoned (R112). -/
def State.abandoning (s : State) (a : Attempt) : State :=
  State.post { s with tx := .standby } .txAbandoned none a.entry.duty.block
    (some (kindCode a.entry.duty.kind))

theorem failAttempt_held (htx : s.tx = .active ph a) (hfewer : a.entry.failures + 1 < 8) :
    s.failAttempt = { s with
      tx := .standby
      pub := { s.pub with queue := giveBack s.pub.queue a.heldEntry } } := by
  simp [State.failAttempt, Attempt.heldEntry, htx, hfewer]

theorem failAttempt_abandons (htx : s.tx = .active ph a) (heighth : 8 ≤ a.entry.failures + 1)
    (hother : ¬ (a.entry.duty = .roll ∧ s.mem.station = .joining)) :
    s.failAttempt = s.abandoning a := by
  simp only [State.failAttempt, htx, if_neg (Nat.not_lt_of_le heighth)]
  exact if_neg hother

theorem failAttempt_fallsBack (htx : s.tx = .active ph a) (heighth : 8 ≤ a.entry.failures + 1)
    (hroll : a.entry.duty = .roll) (hjoining : s.mem.station = .joining) :
    s.failAttempt = (s.abandoning a).fallBack := by
  simp only [State.failAttempt, htx, if_neg (Nat.not_lt_of_le heighth)]
  exact if_pos ⟨hroll, hjoining⟩

/-- With leave-pending set the fall-back after an abandoned ROLL is the completion of LEAVE, of which the
counters alone are among the parts that the failure has moved (R139, R143). -/
theorem abandoning_leaves (before : Bool) (hleave : s.mem.leavePending = true) {t : State}
    (ht : t = State.settle before ((s.struck l r c).abandoning a).fallBack) :
    leftTheBus (State.finishPass
      (((s.struck t.line t.rx t.counters).abandoning a).post .joinFailed)) t := by
  have hparts (l : Line) (r : Receiver) (c : Counters) :
      State.finishPass (((s.struck l r c).abandoning a).post .joinFailed)
        = (State.finishPass ((s.abandoning a).post .joinFailed)).struck l r c :=
    finishPass_struck ((s.abandoning a).post .joinFailed) l r c
  have hleft := settle_leftTheBus before (fallBack_leftTheBus
    (s := (s.struck l r c).abandoning a) hleave s.mute.consecutive)
  rw [hparts] at hleft ⊢
  rw [ht]
  exact leftTheBus_struck hleft

/-- The attempt fails, and the low condition settles on what the Epoch Unit then is. -/
def State.failing (s : State) : State := s.failAttempt.settle s.eu.low

theorem failing_held (htx : s.tx = .active ph a) (hfewer : a.entry.failures + 1 < 8) :
    attemptFailed s a l r c (s.struck l r c).failing := by
  have hfailed : (s.struck l r c).failing = { s.struck l r c with
      tx := .standby
      pub := { s.pub with queue := giveBack s.pub.queue a.heldEntry } } := by
    rw [State.failing, failAttempt_held (s := s.struck l r c) htx hfewer]
    exact settle_same rfl
  rw [hfailed]
  exact {
    slot := rfl, line := rfl, request := id, edge := fun _ => rfl, counters := rfl, cuts := fun _ => rfl
    stays := fun _ => ⟨rfl, rfl, rfl⟩, held := fun _ => rfl
    abandoned := fun heighth => absurd hfewer (Nat.not_lt_of_le heighth) }

theorem failing_abandons (htx : s.tx = .active ph a) (heighth : 8 ≤ a.entry.failures + 1)
    (hother : ¬ (a.entry.duty = .roll ∧ s.mem.station = .joining)) :
    attemptFailed s a l r c (s.struck l r c).failing := by
  have hfailed : (s.struck l r c).failing = (s.struck l r c).abandoning a := by
    rw [State.failing, failAttempt_abandons (s := s.struck l r c) htx heighth hother]
    exact settle_same rfl
  rw [hfailed]
  exact {
    slot := rfl, line := rfl, request := id, edge := fun _ => rfl, counters := rfl, cuts := fun _ => rfl
    stays := fun _ => ⟨rfl, rfl, rfl⟩, held := fun hfewer => absurd hfewer (Nat.not_lt_of_le heighth)
    abandoned := by
      rintro - u rfl
      exact ⟨fun _ => rfl, fun hroll hjoining => absurd ⟨hroll, hjoining⟩ hother,
        fun hroll hjoining => absurd ⟨hroll, hjoining⟩ hother⟩ }

/-- The eighth failure of the ROLL of JOINING: the station falls back silenced, so that settling moves no more
than a mark on the line and a cut. -/
theorem failing_fallsBack (htx : s.tx = .active ph a) (heighth : 8 ≤ a.entry.failures + 1)
    (hroll : a.entry.duty = .roll) (hjoining : s.mem.station = .joining) :
    attemptFailed s a l r c (s.struck l r c).failing := by
  have hfailed : (s.struck l r c).failing
      = State.settle s.eu.low ((s.struck l r c).abandoning a).fallBack := by
    rw [State.failing, failAttempt_fallsBack (s := s.struck l r c) htx heighth hroll hjoining]
    rfl
  have hunit : ((s.struck l r c).abandoning a).eu = s.eu := rfl
  have hstruck : ((s.struck l r c).abandoning a).line = l := rfl
  have hcounted : ((s.struck l r c).abandoning a).fallBack.counters = c := by
    simp [State.abandoning, State.struck]
  have hsilent := fallBack_silent ((s.struck l r c).abandoning a)
  obtain ⟨hline, hedge, hcounters, hcuts⟩ := settle_silentLine s.eu.low hsilent
  rw [← hfailed] at hline hedge hcounters hcuts
  rw [fallBack_line, hstruck] at hline hedge
  rw [hcounted] at hcounters hcuts
  exact {
    slot := hfailed ▸ (settle_silent _ hsilent).1
    line := by rw [hline]
    request := fun _ => by rw [hline]
    edge := hedge
    counters := hcounters
    cuts := fun hrunning => hcuts fun hlow => hunit ▸ fallBack_low (hunit ▸ hrunning) hlow
    stays := fun h => by
      rcases h with h | h | h
      · exact absurd hjoining h
      · exact absurd hroll h
      · exact absurd h (Nat.not_lt_of_le heighth)
    held := fun hfewer => absurd hfewer (Nat.not_lt_of_le heighth)
    abandoned := by
      rintro - u rfl
      refine ⟨fun hother => absurd ⟨hroll, hjoining⟩ hother, fun _ _ hleave => ?_,
        fun _ _ hleave => abandoning_leaves s.eu.low hleave hfailed⟩
      rw [hfailed]
      exact settle_fellBack _ (State.fallBack_fellBack (s := (s.struck l r c).abandoning a) hleave) }

/-- Every failure of an attempt under way is one of the three. -/
theorem failing_failed (htx : s.tx = .active ph a) (l : Line) (r : Receiver) (c : Counters) :
    attemptFailed s a l r c (s.struck l r c).failing := by
  rcases Nat.lt_or_ge (a.entry.failures + 1) 8 with hfewer | heighth
  · exact failing_held htx hfewer
  · by_cases hback : a.entry.duty = .roll ∧ s.mem.station = .joining
    · exact failing_fallsBack htx heighth hback.1 hback.2
    · exact failing_abandons htx heighth hback

end

end Sys2Proof.Machine
end

section
/-! SUPPORT. The commands at which an attempt fails (R66, R67, R72, R83, R87, R112): what each strikes before the
failure. -/

namespace Sys2Proof.Machine

section
variable {s : State} {a : Attempt}

/-! ### BIT_FAULT -/

/-- The Receiver after the Transmitter has given up at a bit fault (R83). -/
def State.givenUp (s : State) : Receiver :=
  if s.rx.st = .off then s.rx else { s.rx with st := .discard }

theorem giveUp_eq (s : State) : s.giveUp = { s with rx := s.givenUp } := by
  unfold State.giveUp State.givenUp
  split
  next hoff => rw [if_pos hoff]
  next hon => rw [if_neg hon]

theorem faultAt_eq (level : Level) :
    s.faultAt level = (s.struck (lineRead s.line level) s.givenUp s.counters).failing := by
  rw [State.faultAt, giveUp_eq, Line.readBack_lineRead]
  rfl

theorem exec_bitFault_claiming (htx : s.tx = .active .claiming a) :
    exec .bitFault s = .next (s.faultAt .recessive) := by simp only [exec, execBitFault, htx]

theorem exec_bitFault_sending (htx : s.tx = .active .sending a) :
    exec .bitFault s = .next (s.faultAt (otherLevel (sentLevel a.chars s.line.sendPos))) := by
  simp only [exec, execBitFault, htx]

theorem otherLevel_of_iff {level sent : Level} (h : level = .dominant ↔ sent = .recessive) :
    level = otherLevel sent := by
  cases level <;> cases sent <;> simp_all [otherLevel]

/-! ### BREAK_SEEN and SLOT_BROKEN -/

theorem breakInDispatch_eq (s : State) : s.breakInDispatch = { s with rx := s.breakInDispatch.rx } := by
  unfold State.breakInDispatch
  split <;> rfl

theorem exec_breakSeen_fails (htx : s.tx = .active .sending a) (hseen : s.line.runSeen = false)
    (hslot : s.line.slot = none) : exec .breakSeen s
      = .next (s.struck s.inBreak.line s.inBreak.breakInDispatch.rx s.breakCounted).failing := by
  have hnew : ¬ (s.line.runSeen = true ∨ s.line.slot ≠ none) := by simp [hseen, hslot]
  refine congrArg Host.Outcome.next ((if_neg hnew).trans ?_)
  simp only [countBreak_eq]
  have hparts : s.inBreak.breakInDispatch
      = s.struck s.inBreak.line s.inBreak.breakInDispatch.rx s.breakCounted :=
    breakInDispatch_eq s.inBreak
  split
  next b _ =>
    change State.settle s.eu.low s.inBreak.breakInDispatch.failAttempt = _
    rw [hparts]
    rfl
  next hno =>
    have hsending : s.inBreak.breakInDispatch.tx = .active .sending a := by rw [hparts]; exact htx
    exact absurd hsending (hno a)

/-- The Receiver after a broken slot: a dispatch that waited on it is discarded (R87). -/
def State.slotLost (s : State) : Receiver :=
  match s.rx.st with
  | .following .answer _ => { s.rx with st := .discard }
  | _ => s.rx

theorem slotLost_discards {d : Incoming} (hrx : s.rx.st = .following .answer d) :
    s.slotLost = { s.rx with st := .discard } := by rw [State.slotLost, hrx]

theorem slotLost_keeps (hrx : ∀ d, s.rx.st ≠ .following .answer d) : s.slotLost = s.rx := by
  unfold State.slotLost
  split
  next d hst => exact absurd hst (hrx d)
  next => rfl

theorem exec_slotBroken_fails (htx : s.tx = .active .slotWait a) (hslot : s.line.slot ≠ none) :
    exec .slotBroken s
      = .next (s.struck s.inBrokenSlot.line s.slotLost s.breakCounted).failing := by
  refine congrArg Host.Outcome.next ((if_neg hslot).trans ?_)
  simp only [countBreak_eq]
  by_cases hrx : ∃ d, s.rx.st = .following .answer d
  · obtain ⟨d, hrx⟩ := hrx
    rw [slotLost_discards hrx]
    simp only [hrx]
    split
    next => rfl
    next hno => exact absurd htx (hno a)
  · have hno : ∀ d, s.rx.st ≠ .following .answer d := fun d hst => hrx ⟨d, hst⟩
    rw [slotLost_keeps hno]
    simp only
    split
    next => rfl
    next hno => exact absurd htx (hno a)

/-! ### What the failure has counted -/

theorem breakCounted_eq (s : State) : s.breakCounted = { s.counters with
    breaksSeen := if s.mem.station.onBus = false then s.counters.breaksSeen
      else bump s.counters.breaksSeen } := by
  unfold State.breakCounted
  cases s.mem.station.onBus <;> rfl

/-- A bit fault of an attempt under way fails it with the line read at the level that its phase tells. -/
theorem exec_bitFault_fails (htx : s.tx = .active .claiming a ∨ s.tx = .active .sending a) :
    ∃ (ph : TxPhase) (heard : Level), s.tx = .active ph a ∧ exec .bitFault s
        = .next (s.struck (lineRead s.line heard) s.givenUp s.counters).failing
      ∧ ∀ level : Level, (s.tx = .active .claiming a → level = .recessive) →
          (s.tx = .active .sending a →
            (level = .dominant ↔ sentLevel a.chars s.line.sendPos = .recessive)) →
          level = heard := by
  rcases htx with htx | htx
  · exact ⟨_, .recessive, htx, (exec_bitFault_claiming htx).trans (congrArg _ (faultAt_eq _)),
      fun level hclaiming _ => hclaiming htx⟩
  · exact ⟨_, _, htx, (exec_bitFault_sending htx).trans (congrArg _ (faultAt_eq _)),
      fun level _ hsending => otherLevel_of_iff (hsending htx)⟩

end

/-- Settles O41: each command fails the attempt on a station of which it has struck the line, the Receiver and the
counters (`exec_…_fails`), and `failing_failed` says what such a failure comes to. -/
theorem failedAttemptIsHeldOrAbandoned : Obligations.FailedAttemptIsHeldOrAbandoned := by
  intro i a s hcase
  rw [← or_assoc, ← and_or_left] at hcase
  rcases hcase with ⟨rfl, hphase⟩ | ⟨rfl, htx, hseen, hslot⟩ | ⟨rfl, htx, hslot⟩
  · obtain ⟨ph, heard, htx, hexec, hheard⟩ := exec_bitFault_fails hphase
    have hfailed := failing_failed htx (lineRead s.line heard) s.givenUp s.counters
    refine ⟨_, hexec, hfailed.slot, fun level _ hclaiming hsending => ?_, nofun, nofun, ?_,
      hfailed.cuts, fun h => ?_, ?_, hfailed.abandoned⟩
    · rw [hheard level hclaiming hsending]
      exact hfailed.line
    · rw [if_pos (Or.inl rfl)]
      exact hfailed.counters
    · obtain ⟨hline, hrx, hcounters⟩ := hfailed.stays h
      obtain ⟨hrequest, hdrive, hedge⟩ := lineRead_keeps s.line heard
      rw [hline, hrx, hcounters]
      exact ⟨hdrive, rfl, fun _ => ⟨hrequest, hedge, rfl⟩, nofun, nofun⟩
    · rintro hfewer e rfl
      exact hfailed.held hfewer
  · have hfailed := failing_failed htx s.inBreak.line s.inBreak.breakInDispatch.rx s.breakCounted
    refine ⟨_, exec_breakSeen_fails htx hseen hslot, hfailed.slot, nofun, fun _ => ?_, nofun, ?_,
      hfailed.cuts, fun h => ?_, ?_, hfailed.abandoned⟩
    · rw [hfailed.line, hfailed.request rfl, hfailed.edge nofun]
      rfl
    · rw [hfailed.counters, breakCounted_eq]
      simp
    · obtain ⟨hline, hrx, hcounters⟩ := hfailed.stays h
      rw [hline, hrx, hcounters]
      refine ⟨rfl, rfl, nofun, fun _ => ⟨fun p d hst hp => ?_, fun hno => ?_⟩, nofun⟩
      · rw [breakInDispatch_discards (s := s.inBreak) hst hp]
        rfl
      · rw [breakInDispatch_keeps (s := s.inBreak) hno]
        rfl
    · rintro hfewer e rfl
      exact hfailed.held hfewer
  · have hfailed := failing_failed htx s.inBrokenSlot.line s.slotLost s.breakCounted
    refine ⟨_, exec_slotBroken_fails htx hslot, hfailed.slot, nofun, nofun, fun _ => ?_, ?_,
      hfailed.cuts, fun h => ?_, ?_, hfailed.abandoned⟩
    · rw [hfailed.line, hfailed.request rfl, hfailed.edge nofun]
      rfl
    · rw [hfailed.counters, breakCounted_eq]
      simp
    · obtain ⟨hline, hrx, hcounters⟩ := hfailed.stays h
      rw [hline, hrx, hcounters]
      exact ⟨rfl, rfl, nofun, nofun, fun _ => ⟨fun d => slotLost_discards, slotLost_keeps⟩⟩
    · rintro hfewer e rfl
      exact hfailed.held hfewer

end Sys2Proof.Machine
end

section
/-! SUPPORT. Clean receptions in MUTE (R127 to R129): what the rest of an acceptance leaves of the counts, and the
order of its events. -/

namespace Sys2Proof.Machine

section
variable {s v : State} {d : Incoming}

/-! ### What the rest of an acceptance keeps of the station (R91 to R94) -/

theorem hear_keepsLeave (s : State) (n : StationNo) (epoch : Byte) :
    (s.hear n epoch).mem.leavePending = s.mem.leavePending := by
  unfold State.hear
  dsimp only
  split <;> simp [State.setPeer]

theorem compareEpoch_keepsLeave (s : State) (d : Incoming) :
    (s.compareEpoch d).mem.leavePending = s.mem.leavePending := by
  unfold State.compareEpoch
  dsimp only
  (repeat' split) <;> simp

/-- Whoever sent it, the dispatch leaves state, leave-pending and schedules as its acceptance set them. -/
theorem acceptReceived_keepsReturn (s : State) (d : Incoming) :
    (s.slotClosed.acceptReceived d).mem.station = s.accepting.mem.station
      ∧ (s.slotClosed.acceptReceived d).mem.leavePending = s.accepting.mem.leavePending
      ∧ (s.slotClosed.acceptReceived d).pub = s.accepting.pub := by
  by_cases h : d.sender = s.straps.sid
  · simp [acceptReceived_duplicate h]
  · simp [acceptReceived_other h, hear_keepsStation, compareEpoch_keepsStation, hear_keepsLeave,
      compareEpoch_keepsLeave]

/-! ### The events after MUTE_LEFT (R90, R140) -/

theorem accepting_eu (s : State) : s.accepting.eu = s.eu := by
  obtain ⟨hframe, -⟩ := accepting_taken s
  rw [hframe]

/-- The twin's event comes after those of the acceptance. -/
theorem acceptReceived_duplicateEvents (h : d.sender = s.straps.sid) :
    (s.slotClosed.acceptReceived d).events = addEvent s.accepting.events
      ⟨.duplicateId, s.eu.epoch, some d.sender, none, none⟩ s.eu.epoch := by
  rw [acceptReceived_duplicate h, ← accepting_eu]
  rfl

/-- A mismatched dispatch of a peer posts nothing but an adoption from a lower-numbered sender. -/
theorem compareEpoch_mismatchEvents (h : ¬ v.takesFirstEpoch) (hepoch : d.epoch ≠ v.eu.epoch)
    (hsender : d.sender ≠ v.straps.sid) :
    (v.compareEpoch d).events = if d.sender < v.straps.sid
      then addEvent v.events
        ⟨.epochAdopted, d.epoch, some d.sender, none, some v.eu.epoch.toNat⟩ d.epoch
      else v.events := by
  rcases Fin.lt_or_lt_of_ne hsender with hlower | hhigher
  · rw [compareEpoch_adopts h hepoch hlower, if_pos hlower]
    rfl
  · rw [compareEpoch_discards h hepoch hhigher, if_neg (Fin.lt_asymm hhigher)]
    rfl

end

/-- Settles O35: the acceptance counts, or leaves MUTE, before the sender is looked at (`accepting_taken`); what
the dispatch itself brings keeps that and posts behind it. -/
theorem muteCountsCleanReceptions : Obligations.MuteCountsCleanReceptions := by
  intro d s hslot htx hrx hown hhigh hmute
  have hexec : exec .slotClean s = .next (s.slotClosed.acceptReceived d) :=
    execSlotClean_accepts hslot htx hrx hown hhigh
  obtain ⟨hframe, -, hbelow, hleaves⟩ := accepting_taken s
  obtain ⟨-, -, haccepted, hcounts⟩ := acceptReceived_keeps s d
  obtain ⟨hstation, hleave, hpub⟩ := acceptReceived_keepsReturn s d
  rw [← hcounts, ← hpub] at hbelow hleaves
  refine ⟨_, _, hexec, accepting_taken s, haccepted.trans (by rw [hframe]), fun hfewer => ?_,
    fun hlast => ?_, acceptReceived_duplicateEvents, fun hsender hpeer => ?_⟩
  · obtain ⟨hmem, hschedule, -, hone⟩ := hbelow hmute hfewer
    exact ⟨hstation.trans (by rw [hmem, hmute]), hone, hschedule⟩
  · obtain ⟨hmem, hsilence, hcountdown, hevents, hzero⟩ := hleaves hmute hlast
    exact ⟨hstation.trans (by rw [hmem]), hzero, hleave.trans (by rw [hmem]), hsilence, hcountdown,
      hevents⟩
  · have hother : s.slotClosed.acceptReceived d = (s.heardFrom d).compareEpoch d :=
      acceptReceived_other hsender
    obtain ⟨heu, hstraps, -, hfirst⟩ := heardFrom_keeps hpeer
    have hnotFirst : ¬ (s.heardFrom d).takesFirstEpoch := fun h => by
      obtain ⟨hlisten, -⟩ := hfirst.1 h
      exact absurd (hmute.symm.trans hlisten) nofun
    rw [hother, ← heu, ← hstraps]
    refine ⟨s.heardFrom d, heardFrom_senderHeard hpeer, fun hepoch => ?_, fun hepoch => ?_⟩
    · rw [compareEpoch_matches hnotFirst hepoch]
      exact State.handOn_handedOn d _
    · exact compareEpoch_mismatchEvents hnotFirst hepoch (by rwa [hstraps])

end Sys2Proof.Machine
end

section
/-! SUPPORT. Straps, configuration and the queue of commands over every command (R3, R133, R170; log entries 1
and 27): what each operation that is not a reset keeps of them, and that each command answers a next state. -/

namespace Sys2Proof.Machine

/-- t has the straps, the configuration and the waiting commands of s. -/
def keepsSetup (s t : State) : Prop :=
  t.straps = s.straps ∧ t.cfg = s.cfg ∧ t.pending = s.pending

theorem keepsSetup_refl (s : State) : keepsSetup s s := ⟨rfl, rfl, rfl⟩

theorem keepsSetup_trans {s t u : State} (h : keepsSetup s t) (h' : keepsSetup t u) :
    keepsSetup s u := by
  obtain ⟨hstraps, hcfg, hpending⟩ := h
  obtain ⟨hstraps', hcfg', hpending'⟩ := h'
  exact ⟨hstraps'.trans hstraps, hcfg'.trans hcfg, hpending'.trans hpending⟩

/-- The command is carried out: it answers a next state, with that setup. -/
def carriesOut (s : State) (answer : Answer) : Prop := ∃ t, answer = .next t ∧ keepsSetup s t

theorem carriesOut_next {s t : State} (h : keepsSetup s t) : carriesOut s (.next t) := ⟨t, rfl, h⟩

/-! ### Operations of the Receiver -/

theorem malformed_keepsSetup (s : State) : keepsSetup s s.malformed := by simp [keepsSetup]

theorem askRoom_keepsSetup (s : State) (d : Incoming) : keepsSetup s (s.askRoom d) := by
  unfold State.askRoom
  dsimp only
  (repeat' split) <;> simp [keepsSetup, State.follow]

/-- A covered header character runs the check value, and is followed, asks for room or is malformed. -/
theorem takeHeader_keepsSetup (s : State) (d : Incoming) (data : Byte) :
    keepsSetup s (s.takeHeader d data) := by
  have covered (e : Incoming) : keepsSetup s ((s.cover data).askRoom e) :=
    keepsSetup_trans (t := s.cover data) ⟨rfl, rfl, rfl⟩ (askRoom_keepsSetup _ e)
  unfold State.takeHeader
  dsimp only
  split
  · exact ⟨rfl, rfl, rfl⟩
  · split
    · split
      · exact ⟨rfl, rfl, rfl⟩
      · exact malformed_keepsSetup s
    · exact covered _
    · exact ⟨rfl, rfl, rfl⟩
    · split
      · exact malformed_keepsSetup s
      · split
        · exact malformed_keepsSetup s
        · exact ⟨rfl, rfl, rfl⟩

theorem takeBody_keepsSetup (s : State) (d : Incoming) (data : Byte) :
    keepsSetup s (s.takeBody d data) := by
  unfold State.takeBody
  split <;> exact ⟨rfl, rfl, rfl⟩

theorem takeCheck_keepsSetup (s : State) (d : Incoming) (data : Byte) :
    keepsSetup s (s.takeCheck d data) := by
  unfold State.takeCheck
  dsimp only
  (repeat' split) <;> simp [keepsSetup, State.follow, State.openSlot]

theorem takeClaim_keepsSetup (s : State) (data : Byte) (framing : Bool) :
    keepsSetup s (s.takeClaim data framing) := by
  unfold State.takeClaim
  dsimp only
  (repeat' split) <;> simp [keepsSetup, State.follow]

theorem markEnd_keepsSetup (s : State) (ph : RxPhase) (d : Incoming) :
    keepsSetup s (s.markEnd ph d) := by
  unfold State.markEnd
  split <;> exact ⟨rfl, rfl, rfl⟩

theorem deliver_keepsSetup (s : State) (data : Byte) (marker framing : Bool) :
    keepsSetup s (s.deliver data marker framing) := by
  unfold State.deliver
  split
  case h_1 | h_2 | h_3 => exact keepsSetup_refl s
  case h_4 =>
    split
    · exact takeClaim_keepsSetup s data framing
    · exact ⟨rfl, rfl, rfl⟩
  case h_5 ph d _ =>
    split
    · exact ⟨rfl, rfl, rfl⟩
    · cases ph with
      | answer => exact keepsSetup_refl s
      | header =>
        dsimp only
        split
        · exact malformed_keepsSetup s
        · exact takeHeader_keepsSetup s d data
      | body =>
        dsimp only
        split
        · exact malformed_keepsSetup s
        · exact takeBody_keepsSetup s d data
      | check =>
        dsimp only
        split
        · exact keepsSetup_trans (markEnd_keepsSetup s _ d) (malformed_keepsSetup _)
        · exact takeCheck_keepsSetup s d data

theorem offerIdle_keepsSetup (s : State) : keepsSetup s s.offerIdle := by
  unfold State.offerIdle
  dsimp only
  (repeat' split) <;> simp [keepsSetup]

theorem endBusFault_keepsSetup (s : State) : keepsSetup s s.endBusFault := by
  rw [endBusFault_eq]
  exact ⟨rfl, rfl, rfl⟩

theorem breakInDispatch_keepsSetup (s : State) : keepsSetup s s.breakInDispatch := by
  rw [breakInDispatch_eq]
  exact ⟨rfl, rfl, rfl⟩

theorem ownWasLost_keepsSetup (s : State) : keepsSetup s s.ownWasLost := by
  unfold State.ownWasLost
  split
  · split
    · exact malformed_keepsSetup s
    · exact keepsSetup_refl s
  · exact keepsSetup_refl s

/-! ### Moves of the station and of the Epoch Unit -/

theorem settle_keepsSetup {s t : State} (before : Bool) (h : keepsSetup s t) :
    keepsSetup s (State.settle before t) := by simpa [keepsSetup] using h

/-- A failed attempt is settled where the failure may have moved the station (R112). -/
theorem failed_keepsSetup {s t : State} (before : Bool) (h : keepsSetup s t) :
    keepsSetup s (State.settle before t.failAttempt) :=
  settle_keepsSetup before (keepsSetup_trans h (by simp [keepsSetup]))

theorem countObjection_keepsSetup (s : State) (metLow : Bool) :
    keepsSetup s (s.countObjection metLow) := by
  unfold State.countObjection
  dsimp only
  (repeat' split) <;> simp [keepsSetup]

theorem faultAt_keepsSetup (s : State) (level : Level) : keepsSetup s (s.faultAt level) := by
  rw [State.faultAt, giveUp_eq]
  exact failed_keepsSetup _ ⟨rfl, rfl, rfl⟩

theorem restore_keepsSetup (s : State) : keepsSetup s s.restore := by
  simp [keepsSetup, State.restore]

theorem afterPass_keepsSetup (s : State) (eln : Level) : keepsSetup s (s.afterPass eln) := by
  unfold State.afterPass
  dsimp only
  (repeat' split) <;> simp [keepsSetup, State.restore]

theorem start_keepsSetup (s : State) : keepsSetup s s.start := by
  unfold State.start
  dsimp only
  refine settle_keepsSetup _ ?_
  split <;> exact ⟨rfl, rfl, rfl⟩

theorem leave_keepsSetup (s : State) : keepsSetup s s.leave := by
  unfold State.leave
  split
  · exact settle_keepsSetup _ (by simp [keepsSetup])
  · exact ⟨rfl, rfl, rfl⟩

/-! ### The local port -/

theorem endTransaction_keepsSetup (s : State) (r : Result) : keepsSetup s (s.endTransaction r) := by
  simp [keepsSetup]

theorem readReply_keepsSetup (s : State) (c : Byte) (n : Nat) (r : Result) (data : List Byte)
    (records : List Event) : keepsSetup s (s.readReply c n r data records) := by simp [keepsSetup]

theorem endRead_keepsSetup (s : State) : keepsSetup s s.endRead := by
  unfold State.endRead
  split
  · exact endTransaction_keepsSetup s _
  · split
    · exact endTransaction_keepsSetup s _
    · exact keepsSetup_refl s

theorem writeAct_keepsSetup {s : State} {complete : Bool} {r : Result} {act : State → State}
    (h : keepsSetup s (act s)) : keepsSetup s (s.writeAct complete r act) :=
  writeAct_keeps (P := keepsSetup s) (fun u r hu => keepsSetup_trans hu (endTransaction_keepsSetup u r))
    (keepsSetup_refl s) fun _ => h

theorem publish_keepsSetup (s : State) (b : Block) (sp : Span) : keepsSetup s (s.publish b sp) := by
  unfold State.publish
  split <;> exact ⟨rfl, rfl, rfl⟩

theorem execWriteDraft_carriesOut (s : State) (block first count : Byte) (data : List Byte) :
    carriesOut s (execWriteDraft block first count data s) := by
  unfold execWriteDraft
  dsimp only
  split
  · exact carriesOut_next (writeAct_keepsSetup (keepsSetup_refl s))
  · exact carriesOut_next (writeAct_keepsSetup ⟨rfl, rfl, rfl⟩)

theorem execPublish_carriesOut (s : State) (block first count : Byte) :
    carriesOut s (execPublish block first count s) := by
  unfold execPublish
  dsimp only
  split
  · exact carriesOut_next (writeAct_keepsSetup (keepsSetup_refl s))
  · exact carriesOut_next (writeAct_keepsSetup (publish_keepsSetup s _ _))

theorem execReadEventsEnd_carriesOut (s : State) (clocked : Nat) :
    carriesOut s (execReadEventsEnd clocked s) := by
  unfold execReadEventsEnd
  dsimp only
  split
  · split
    · exact carriesOut_next (keepsSetup_trans (t := { s with events := _ }) ⟨rfl, rfl, rfl⟩
        (endRead_keepsSetup _))
    · exact carriesOut_next (endRead_keepsSetup s)
  · refine carriesOut_next ?_
    split
    · exact endTransaction_keepsSetup s _
    · exact keepsSetup_refl s

/-- CONFIGURE sets the configuration, and keeps the straps and the waiting commands (R170). -/
theorem execConfigure_answers (s : State) (args : List Byte) :
    ∃ t, execConfigure args s = .next t ∧ t.pending = s.pending ∧ t.straps = s.straps := by
  have written (complete : Bool) (r : Result) {act : State → State}
      (h : (act s).pending = s.pending ∧ (act s).straps = s.straps) :
      (s.writeAct complete r act).pending = s.pending
        ∧ (s.writeAct complete r act).straps = s.straps :=
    writeAct_keeps (P := fun u => u.pending = s.pending ∧ u.straps = s.straps)
      (fun u r hu => by simpa using hu) ⟨rfl, rfl⟩ fun _ => h
  unfold execConfigure
  dsimp only
  split
  · exact ⟨_, rfl, written _ _ ⟨rfl, rfl⟩⟩
  · exact ⟨_, rfl, written _ _ ⟨rfl, rfl⟩⟩

/-! ### The line and its characters -/

theorem execCharacterDelivered_carriesOut (s : State) (data : Byte) (marker framing : Bool) :
    carriesOut s (execCharacterDelivered data marker framing s) := by
  refine carriesOut_next ?_
  split
  · exact keepsSetup_trans (t := { s with line := _ }) ⟨rfl, rfl, rfl⟩ (deliver_keepsSetup _ _ _ _)
  · exact keepsSetup_refl s

theorem execHeldCharacterRise_carriesOut (s : State) : carriesOut s (execHeldCharacterRise s) := by
  refine carriesOut_next ?_
  split
  · exact keepsSetup_trans (t := { s with line := _ }) ⟨rfl, rfl, rfl⟩ (deliver_keepsSetup _ _ _ _)
  · exact keepsSetup_refl s

theorem execBusFault_carriesOut (s : State) : carriesOut s (execBusFault s) := by
  refine carriesOut_next ?_
  dsimp only
  (repeat' split) <;> exact ⟨rfl, rfl, rfl⟩

theorem execBusIdle_carriesOut (s : State) : carriesOut s (execBusIdle s) := by
  have idle {u : State} (h : keepsSetup s u) : keepsSetup s u.endBusFault.offerIdle :=
    keepsSetup_trans (keepsSetup_trans h (endBusFault_keepsSetup u)) (offerIdle_keepsSetup _)
  refine carriesOut_next ?_
  split
  · exact idle ⟨rfl, rfl, rfl⟩
  · exact keepsSetup_refl s

theorem execBreakDriven_carriesOut (s : State) : carriesOut s (execBreakDriven s) := by
  refine carriesOut_next ?_
  dsimp only
  split
  · exact keepsSetup_trans (t := { s with line := _, counters := _ }) ⟨rfl, rfl, rfl⟩
      (countObjection_keepsSetup _ _)
  · exact keepsSetup_refl s

/-- A break seen is counted, ends the dispatch followed and fails an attempt in SENDING (R67, R87, R112). -/
theorem execBreakSeen_carriesOut (s : State) : carriesOut s (execBreakSeen s) := by
  refine carriesOut_next ?_
  dsimp only
  rw [countBreak_eq]
  split
  · exact keepsSetup_refl s
  · have heard {u : State} (h : keepsSetup s u) : keepsSetup s u.breakInDispatch :=
      keepsSetup_trans h (breakInDispatch_keepsSetup u)
    split
    · exact failed_keepsSetup _ (heard ⟨rfl, rfl, rfl⟩)
    · exact heard ⟨rfl, rfl, rfl⟩

theorem execSlotBroken_carriesOut (s : State) : carriesOut s (execSlotBroken s) := by
  refine carriesOut_next ?_
  dsimp only
  rw [countBreak_eq]
  split
  · exact keepsSetup_refl s
  · split
    · exact failed_keepsSetup _ (by split <;> exact ⟨rfl, rfl, rfl⟩)
    · split <;> exact ⟨rfl, rfl, rfl⟩

/-- A clean slot accepts the own dispatch or the one received, or passes unheard (R66, R88, R110). -/
theorem execSlotClean_carriesOut (s : State) : carriesOut s (execSlotClean s) := by
  refine carriesOut_next ?_
  dsimp only
  (repeat' split) <;> simp [keepsSetup]

/-! ### The own attempt -/

theorem execClaim_carriesOut (s : State) : carriesOut s (execClaim s) := by
  unfold execClaim
  split
  · exact carriesOut_next (by split <;> exact ⟨rfl, rfl, rfl⟩)
  · exact carriesOut_next (keepsSetup_refl s)

theorem execArbitrationLoss_carriesOut (s : State) : carriesOut s (execArbitrationLoss s) := by
  unfold execArbitrationLoss
  split
  · have hended : keepsSetup s { s.endAttempt with line := s.line.readBack .dominant } := by
      simp [keepsSetup]
    exact carriesOut_next (keepsSetup_trans hended (ownWasLost_keepsSetup _))
  · exact carriesOut_next (keepsSetup_refl s)

theorem execClaimWon_carriesOut (s : State) : carriesOut s (execClaimWon s) := by
  unfold execClaimWon State.knowOwn
  split
  · exact carriesOut_next (by (repeat' split) <;> exact ⟨rfl, rfl, rfl⟩)
  · exact carriesOut_next (keepsSetup_refl s)

theorem execLastCheckSent_carriesOut (s : State) : carriesOut s (execLastCheckSent s) := by
  unfold execLastCheckSent
  split
  · split
    · exact carriesOut_next (keepsSetup_refl s)
    · exact carriesOut_next (by split <;> exact ⟨rfl, rfl, rfl⟩)
  · exact carriesOut_next (keepsSetup_refl s)

theorem execBitFault_carriesOut (s : State) : carriesOut s (execBitFault s) := by
  unfold execBitFault
  split
  · exact carriesOut_next (faultAt_keepsSetup s _)
  · exact carriesOut_next (faultAt_keepsSetup s _)
  · exact carriesOut_next (keepsSetup_refl s)

/-! ### The epoch line -/

theorem execEpochExpiry_carriesOut (s : State) : carriesOut s (execEpochExpiry s) :=
  carriesOut_next (settle_keepsSetup _ (by (repeat' split) <;> simp [keepsSetup]))

theorem execElnFall_carriesOut (s : State) : carriesOut s (execElnFall s) :=
  carriesOut_next (settle_keepsSetup _ (by dsimp only; (repeat' split) <;> simp [keepsSetup]))

theorem execLineRestored_carriesOut (s : State) : carriesOut s (execLineRestored s) := by
  refine carriesOut_next ?_
  split
  · split
    · exact settle_keepsSetup _ (restore_keepsSetup s)
    · exact ⟨rfl, rfl, rfl⟩
  · exact keepsSetup_refl s

theorem execCommitPassEnd_carriesOut (s : State) (eln : Level) :
    carriesOut s (execCommitPassEnd eln s) := by
  refine carriesOut_next ?_
  split
  · have hfinished : keepsSetup s s.finishPass := by simp [keepsSetup]
    exact settle_keepsSetup _ (keepsSetup_trans hfinished (afterPass_keepsSetup _ eln))
  · exact keepsSetup_refl s

/-! ### Every command -/

/-- The commands that set the straps or the configuration (R133, R170). -/
def resetsSetup : Instr → Bool
  | .hardwareReset .. | .configure _ => true
  | _ => false

/-- Every command but the two resets is carried out on the same setup, an event that cannot come about by
changing nothing (log entries 1 and 27). -/
theorem exec_carriesOut {i : Instr} (s : State) (hi : resetsSetup i = false) :
    carriesOut s (exec i s) := by
  cases i with
  | hardwareReset | configure => cases hi
  | transactionStart | quietTailEnd => exact carriesOut_next ⟨rfl, rfl, rfl⟩
  | readStatus | readConfig | readCounters | readEvents | readPeers | readCommitReport | readImage
  | readBlockStatus | readDraft => exact carriesOut_next (readReply_keepsSetup s _ _ _ _ _)
  | writeDraft block first count data => exact execWriteDraft_carriesOut s block first count data
  | publish block first count => exact execPublish_carriesOut s block first count
  | start => exact carriesOut_next (writeAct_keepsSetup (start_keepsSetup s))
  | leave => exact carriesOut_next (writeAct_keepsSetup (leave_keepsSetup s))
  | frameError => exact carriesOut_next (endTransaction_keepsSetup s _)
  | readTransactionEnd => exact carriesOut_next (endRead_keepsSetup s)
  | readEventsEnd clocked => exact execReadEventsEnd_carriesOut s clocked
  | unknownCommand | startEdge | falseStart | firstRecessiveReading | breakDriveStart | breakEnd
  | lowConditionStart | elnRise | notDrivable | holdRunOut | lineLowLimit =>
    refine carriesOut_next ?_
    (repeat' split) <;> simp [keepsSetup]
  | characterDelivered data marker framing => exact execCharacterDelivered_carriesOut s data marker framing
  | heldCharacterRise => exact execHeldCharacterRise_carriesOut s
  | breakDriven => exact execBreakDriven_carriesOut s
  | breakSeen => exact execBreakSeen_carriesOut s
  | busFault => exact execBusFault_carriesOut s
  | busIdle => exact execBusIdle_carriesOut s
  | slotBroken => exact execSlotBroken_carriesOut s
  | slotClean => exact execSlotClean_carriesOut s
  | claim => exact execClaim_carriesOut s
  | arbitrationLoss => exact execArbitrationLoss_carriesOut s
  | claimWon => exact execClaimWon_carriesOut s
  | lastCheckSent => exact execLastCheckSent_carriesOut s
  | bitFault => exact execBitFault_carriesOut s
  | epochExpiry => exact execEpochExpiry_carriesOut s
  | elnFall => exact execElnFall_carriesOut s
  | lineRestored => exact execLineRestored_carriesOut s
  | commitPassEnd eln => exact execCommitPassEnd_carriesOut s eln

/-- Settles O3: of the commands only the two resets set anything of the setup, and neither touches the queue of
commands. -/
theorem commandsCompleteAndKeepStrapsAndConfig :
    Obligations.CommandsCompleteAndKeepStrapsAndConfig := by
  intro i s
  by_cases hi : resetsSetup i = false
  · obtain ⟨t, hexec, hstraps, hcfg, hpending⟩ := exec_carriesOut s hi
    exact ⟨t, hexec, hpending, fun _ => ⟨hstraps, fun _ => hcfg⟩⟩
  · cases i with
    | hardwareReset a b c d e => exact ⟨_, rfl, rfl, fun h => absurd rfl (h a b c d e)⟩
    | configure args =>
      obtain ⟨t, hexec, hpending, hstraps⟩ := execConfigure_answers s args
      exact ⟨t, hexec, hpending, fun _ => ⟨hstraps, fun h => absurd rfl (h args)⟩⟩
    | _ => exact absurd rfl hi

end Sys2Proof.Machine
end

section
/-! SUPPORT. CONFIGURE (R134, R163, R169, R170): its checks in their order, and the station that a taken one
leaves. -/

namespace Sys2Proof.Machine

/-! ### The values of a fresh station (R12, R118, R144) -/

theorem peersAway_get (sid n : StationNo) : (Membership.peersAway sid)[n]
    = ⟨if n = sid then .self else .absent, false, 0, none⟩ := by
  simp [Membership.peersAway, Peer.away]

theorem resetBlock_get (b : Block) : ImageStore.reset.blocks[b] = ⟨.empty, 0, none⟩
    ∧ ImageStore.reset.lastSeq[b] = 0 ∧ Publish.reset.countdown[b] = 0 := by
  simp [ImageStore.reset, Publish.reset]

/-! ### The checks, in the order of R163 -/

/-- The result that CONFIGURE records. -/
def configureResult (args : List Byte) (s : State) : Result :=
  if args.length < 80 then .frameError
  else if s.mem.station.onBus then .wrongState
  else if parseSettings args = none then .badArgument else .ok

section
variable {args : List Byte} {s : State}

/-- A CONFIGURE that is taken comes whole, off the bus and with settings in range. -/
theorem configureResult_ok (h : configureResult args s = .ok) :
    80 ≤ args.length ∧ s.mem.station.onBus = false ∧ ∃ c, parseSettings args = some c := by
  unfold configureResult at h
  by_cases hshort : args.length < 80
  · rw [if_pos hshort] at h
    cases h
  · rw [if_neg hshort] at h
    by_cases hon : s.mem.station.onBus = true
    · rw [if_pos hon] at h
      cases h
    · rw [if_neg hon] at h
      cases hparse : parseSettings args with
      | none => rw [if_pos hparse] at h; cases h
      | some c => exact ⟨Nat.not_lt.1 hshort, Bool.eq_false_of_not_eq_true hon, c, rfl⟩

/-- A write whose frame is short records FRAME_ERROR and has no effect (R166). -/
theorem writeAct_short (hport : s.port.straddling = false) (r : Result) (act : State → State) :
    s.writeAct false r act = s.endTransaction .frameError := by
  rw [writeAct_cases, hport, if_neg Bool.false_ne_true, if_pos rfl]

/-- The first check that fails gives the result, and nothing else changes. -/
theorem exec_configure_refused (hport : s.port.straddling = false)
    (h : configureResult args s ≠ .ok) :
    exec (.configure args) s = .next (s.endTransaction (configureResult args s)) := by
  simp only [exec, execConfigure]
  by_cases hshort : args.length < 80
  · rw [configureResult, if_pos hshort, decide_eq_false (Nat.not_le.2 hshort)]
    split <;> exact congrArg Host.Outcome.next (writeAct_short hport _ _)
  · rw [decide_eq_true (Nat.not_lt.1 hshort)]
    rw [configureResult, if_neg hshort] at h ⊢
    by_cases hon : s.mem.station.onBus = true
    · have hcheck : s.offBusCheck = .wrongState := if_pos hon
      rw [if_pos hon, hcheck]
      split <;> exact congrArg Host.Outcome.next (writeAct_refused hport (r := .wrongState) nofun _)
    · have hcheck : s.offBusCheck = .ok := if_neg hon
      rw [if_neg hon] at h ⊢
      have hparse : parseSettings args = none := by
        by_contra hsome
        exact h (if_neg hsome)
      rw [if_pos hparse, hparse, hcheck]
      exact congrArg Host.Outcome.next (writeAct_refused hport (r := .badArgument) nofun _)

theorem exec_configure_taken (hport : s.port.straddling = false) {c : Settings}
    (hlength : 80 ≤ args.length) (hoff : s.mem.station.onBus = false)
    (hparse : parseSettings args = some c) :
    exec (.configure args) s = .next ((s.configure c).endTransaction .ok) := by
  have hcheck : s.offBusCheck = .ok := if_neg (by simp [hoff])
  simp only [exec, execConfigure, hparse, hcheck, decide_eq_true hlength]
  exact congrArg Host.Outcome.next (writeAct_taken hport _)

end

/-- Settles O17: a CONFIGURE that fails a check ends the transaction alone; a taken one leaves the station that
`State.configure` writes out block by block. -/
theorem configureSetsEverythingOrNothing : Obligations.ConfigureSetsEverythingOrNothing := by
  intro args s hport
  change ∃ t : State, _ ∧ _ ∧ t.port.last = configureResult args s ∧ _
  by_cases hok : configureResult args s = .ok
  · obtain ⟨hlength, hoff, c, hparse⟩ := configureResult_ok hok
    have hconfigured : (s.configure c).port.straddling = false := hport
    refine ⟨_, exec_configure_taken hport hlength hoff hparse, ?_⟩
    rw [endTransaction_eq hconfigured, hok]
    exact ⟨rfl, rfl, fun hne => absurd rfl hne, fun _ => ⟨hparse, rfl, rfl, rfl, rfl, rfl,
      peersAway_get s.straps.sid, fun _ => rfl, fun _ => rfl, resetBlock_get, rfl, rfl, rfl, rfl, rfl,
      rfl, rfl, rfl, rfl, rfl, rfl, rfl, rfl, rfl, rfl, rfl⟩⟩
  · refine ⟨_, exec_configure_refused hport hok, ?_⟩
    rw [endTransaction_eq hport]
    exact ⟨rfl, rfl, fun _ => rfl, fun h => absurd h hok⟩

end Sys2Proof.Machine
end

section
/-! SUPPORT. START (R23, R70, R79, R135, R136): the station it leaves in LISTEN, and its refusal elsewhere. -/

namespace Sys2Proof.Machine

section
variable {s : State}

/-- The station as it enters LISTEN, before a low condition that ELN brings with it is offered. -/
def State.listening (s : State) : State := { s with
  mem := { s.mem with
    station := .listen, listenCount := 0, joiningCount := 0, epochTaken := false }
  mute := ⟨0, 0⟩
  rx := { s.rx with st := if s.line.idle then .ready else .waitIdle }
  eu := { s.eu with unit := .follow, counter := 0 }
  events := if s.line.busFault
    then addEvent s.events ⟨.busFault, s.eu.epoch, none, none, none⟩ s.eu.epoch else s.events }

theorem start_eq (s : State) : s.start = State.settle s.eu.low s.listening := by
  unfold State.start
  dsimp only
  congr 1
  cases hfault : s.line.busFault <;> simp [State.listening, hfault, State.post, State.postAt]

/-- Where no attempt is under way and the Receiver follows nothing, the low condition cuts nothing (R89). -/
theorem settle_cutsNothing {u : State} (before : Bool) (htx : u.tx = .standby)
    (hrx : u.rx.st = .ready ∨ u.rx.st = .waitIdle) :
    (State.settle before u).tx = .standby ∧ (State.settle before u).rx = u.rx
      ∧ (State.settle before u).counters = u.counters := by
  obtain ⟨-, -, hframe, -, hcut⟩ | ⟨-, -, heq⟩ | ⟨-, heq⟩ := State.settle_settled before u
  · rw [htx] at hcut
    obtain ⟨-, hcut⟩ := hcut
    refine ⟨by rw [hframe], ?_⟩
    rcases hrx with hrx | hrx <;> rw [hrx] at hcut <;> exact ⟨hcut.1, hcut.2.1⟩
  all_goals
    rw [heq]
    exact ⟨htx, rfl, rfl⟩

theorem listening_waits (s : State) :
    s.listening.rx.st = .ready ∨ s.listening.rx.st = .waitIdle := by
  cases hidle : s.line.idle <;> simp [State.listening, hidle]

/-! ### The command -/

theorem exec_start_refused (hport : s.port.straddling = false) (h : s.mem.station ≠ .idle) :
    exec .start s = .next (s.endTransaction .wrongState) := by
  have hcheck : s.startCheck = .wrongState := if_neg h
  simp only [exec, execStart, hcheck]
  exact congrArg Host.Outcome.next (writeAct_refused hport (r := .wrongState) nofun _)

theorem exec_start_idle (hport : s.port.straddling = false) (h : s.mem.station = .idle) :
    exec .start s = .next ((State.settle s.eu.low s.listening).endTransaction .ok) := by
  have hcheck : s.startCheck = .ok := if_pos h
  simp only [exec, execStart, hcheck, writeAct_taken hport, start_eq]

end

/-- Settles O18: START is the entry to LISTEN followed by the offer of a low condition, which cuts nothing. -/
theorem startEntersListen : Obligations.StartEntersListen := by
  intro s hport
  by_cases hidle : s.mem.station = .idle
  · refine ⟨_, exec_start_idle hport hidle, ?_⟩
    obtain ⟨hstraps, hcfg, hstaging, hcommit, himage, hmem, hmute, hevents, hport', -⟩ :=
      s.listening.settle_frame s.eu.low
    have heu := settle_eu s.eu.low s.listening
    have hcuts := settle_cutsNothing (u := s.listening) s.eu.low
    have hpub := settle_pub (s := s.listening) s.eu.low
    generalize State.settle s.eu.low s.listening = u at *
    rw [endTransaction_eq (by rw [hport']; exact hport)]
    refine ⟨by rw [hport']; rfl, fun hne => absurd hidle hne, fun _ htx => ?_⟩
    obtain ⟨htx', hrx, hcounters⟩ := hcuts htx (listening_waits s)
    exact ⟨rfl, hmem, hmute, hrx, by rw [heu]; rfl, by rw [heu]; rfl, by rw [heu]; rfl, by rw [heu]; rfl,
      hevents, hcfg, hstraps, himage, hstaging, hcommit, hpub htx, htx', hcounters⟩
  · refine ⟨_, exec_start_refused hport hidle, ?_⟩
    rw [endTransaction_eq hport]
    exact ⟨rfl, fun _ => rfl, fun h => absurd h hidle⟩

end Sys2Proof.Machine
end

section
/-! SUPPORT. LEAVE (R56, R141, R143): what it does by the state of the station. -/

namespace Sys2Proof.Machine

section
variable {s : State}

theorem exec_leave_refused (hport : s.port.straddling = false) (h : s.mem.station.onBus = false) :
    exec .leave s = .next (s.endTransaction .wrongState) := by
  have hcheck : s.leaveCheck = .wrongState := if_neg (by simp [h])
  simp only [exec, execLeave, hcheck]
  exact congrArg Host.Outcome.next (writeAct_refused hport (r := .wrongState) nofun _)

theorem exec_leave_onBus (hport : s.port.straddling = false) (h : s.mem.station.onBus = true) :
    exec .leave s = .next (s.leave.endTransaction .ok) := by
  have hcheck : s.leaveCheck = .ok := if_pos h
  simp only [exec, execLeave, hcheck, writeAct_taken hport]

theorem leave_listen (h : s.mem.station = .listen) : s.leave = s.leaveNow.settle s.eu.low := if_pos h

theorem leave_running (h : s.mem.station ≠ .listen) :
    s.leave = { s with mem := { s.mem with leavePending := true } } := if_neg h

/-- In LISTEN the LEAVE completes on the station whose pass has been finished. -/
theorem leave_leftTheBus (h : s.mem.station = .listen) : leftTheBus s.finishPass s.leave := by
  rw [leave_listen h]
  exact settle_leftTheBus _ (State.completeLeave_leftTheBus _)

/-- No effect of LEAVE is on the port but its result. -/
theorem leave_port (s : State) : s.leave.port = s.port := by
  unfold State.leave
  split <;> simp

end

/-- Settles O19: one equation for each of the three kinds of station state. -/
theorem leaveSetsPendingOrCompletes : Obligations.LeaveSetsPendingOrCompletes := by
  intro s hport
  by_cases hon : s.mem.station.onBus = true
  · refine ⟨_, exec_leave_onBus hport hon, ?_⟩
    rw [endTransaction_eq (by rw [leave_port]; exact hport), leave_port]
    refine ⟨rfl, fun hoff => absurd hon (by simp [hoff]), fun hrunning => ?_, fun hlisten => ?_⟩
    · rw [leave_running (by rintro h; simp [h] at hrunning)]
    · exact ⟨rfl, leave_leftTheBus hlisten⟩
  · have hoff : s.mem.station.onBus = false := Bool.eq_false_of_not_eq_true hon
    refine ⟨_, exec_leave_refused hport hoff, ?_⟩
    rw [endTransaction_eq hport]
    refine ⟨rfl, fun _ => rfl, fun hrunning => ?_, fun hlisten => ?_⟩
    · rcases hrunning with h | h | h <;> rw [h] at hoff <;> cases hoff
    · rw [hlisten] at hoff
      cases hoff

end Sys2Proof.Machine
end

section
/-! SUPPORT. The output pins (R21, R32, R59, R157, R160, R185) and the values after hardware reset (R132, R182):
each pin by what it shows, and every block of `State.afterReset`. -/

namespace Sys2Proof.Machine

/-! ### LTX (R59) -/

section
variable {s : State}

theorem ltx_break (h : s.line.drive ≠ none) : s.ltx = .dominant := by
  rw [State.ltx, if_pos (Option.isSome_iff_ne_none.2 h)]

theorem ltx_sends (hdrive : s.line.drive = none) {a : Attempt}
    (htx : s.tx = .active .claiming a ∨ s.tx = .active .sending a) :
    s.ltx = sentLevel a.chars s.line.sendPos := by
  rcases htx with htx | htx <;> simp [State.ltx, hdrive, htx]

theorem ltx_released (hdrive : s.line.drive = none)
    (htx : s.tx = .standby ∨ ∃ a, s.tx = .active .slotWait a) : s.ltx = .recessive := by
  rcases htx with htx | ⟨a, htx⟩ <;> simp [State.ltx, hdrive, htx]

/-! ### The other pins -/

/-- SDO is undriven exactly outside a transaction, one that straddles reset included (R160). -/
theorem sdo_none_iff (n : Nat) : s.sdo n = none ↔ s.port.straddling = false ∧ s.port.txn = none := by
  unfold State.sdo
  cases s.port.straddling <;> cases s.port.txn <;> simp

/-- ELN is driven in ASSERT, EPO low during a pass, ATTN_N low with a record queued (R21, R32, R157). -/
theorem outputs_eq (s : State) (n : Nat) : s.outputs n = ⟨s.ltx, decide (s.eu.unit = .assert),
    s.commit.pass.isSome, decide (s.events ≠ []), s.sdo n⟩ := by
  have heln : s.drivesEln = decide (s.eu.unit = .assert) := by
    cases h : s.eu.unit <;> simp [State.drivesEln, h]
  have hattn : s.attnLow = decide (s.events ≠ []) := by
    cases h : s.events <;> simp [State.attnLow, h]
  rw [State.outputs, heln, hattn, State.epoLow]

end

/-! ### Hardware reset -/

section
variable (sid : StationNo) (rate : BitVec 2) (lrx eln : Level) (csLow : Bool)

theorem afterReset_resetValues : resetValues (State.afterReset sid rate lrx eln csLow) :=
  ⟨rfl, rfl, rfl, rfl, rfl, peersAway_get sid, ⟨rfl, rfl, rfl, rfl, rfl, rfl⟩,
    fun b => ⟨by simp [State.afterReset, Settings.unset], by simp [State.afterReset, Settings.unset],
      resetBlock_get b⟩,
    fun _ => rfl, fun _ => rfl, rfl, rfl, rfl, rfl, rfl, rfl, rfl, rfl, rfl, rfl, rfl, rfl, rfl, rfl,
    rfl, rfl, rfl, rfl, rfl, rfl, rfl, rfl, rfl, rfl, rfl, rfl, rfl⟩

/-- SDO carries filler while CS_N is still low from before, and nothing else is driven (R160, R185). -/
theorem afterReset_outputs (n : Nat) : (State.afterReset sid rate lrx eln csLow).outputs n
    = ⟨.recessive, false, false, false, if csLow then some 0xFF else none⟩ := by
  rw [outputs_eq, ltx_released rfl (Or.inl rfl)]
  cases csLow <;> rfl

end

/-- Settles O4: the reset values and the released pins of `State.afterReset`, which State.reset and every
HARDWARE_RESET are, and the pins of any state one by one. -/
theorem resetGivesResetValues : Obligations.ResetGivesResetValues :=
  ⟨⟨afterReset_resetValues 0 0 .recessive .recessive false, rfl⟩,
    fun sid rate lrx eln csLow _ => ⟨_, rfl, afterReset_resetValues sid rate lrx eln csLow, rfl, rfl, rfl,
      rfl, afterReset_outputs sid rate lrx eln csLow⟩,
    rfl,
    fun s n => ⟨outputs_eq s n, ltx_break,
      fun hdrive => ⟨fun _ => ltx_sends hdrive, ltx_released hdrive⟩, sdo_none_iff n⟩⟩

/-! ### The invariants in State.reset -/

theorem reset_voiceOk : voiceOk State.reset := fun _ => ⟨rfl, rfl, rfl⟩

theorem reset_publishOk : publishOk State.reset := publishOk_of_empty (Or.inl rfl) rfl rfl

theorem reset_tablesOk : tablesOk State.reset := tablesOk_fresh rfl rfl

/-- A hardware reset of State.reset with its own straps and levels leads to State.reset. -/
theorem reset_imageFollowsOwners : imageFollowsOwners State.reset :=
  (imageFollowsOwners_iff_ownersFit _).2 (execHardwareReset_ownersFit (s := State.reset) rfl)

/-- Settles O60: State.reset is off the bus with nothing queued, staged or in flight, as after any hardware
reset. -/
theorem resetStateMeetsInvariants : Obligations.ResetStateMeetsInvariants := by
  obtain ⟨hstaging, hstores⟩ := reset_tablesOk
  obtain ⟨-, -, -, -, hpass, hstation⟩ := reset_imageFollowsOwners
  exact ⟨by simp [eventsBounded, State.reset, State.afterReset], hstaging, hstores, reset_publishOk,
    reset_voiceOk, hstation, hpass, by simp [muteBounded, State.reset, State.afterReset], reset_imageFollowsOwners⟩

end Sys2Proof.Machine
end

section
/-! SUPPORT. The event queue in its bounds (R152, R153): the operations of the station post events and leave
the queue alone otherwise, and READ_EVENTS_END takes records from its head. -/

namespace Sys2Proof.Machine

variable {s : State}

/-! ### Events that are posted -/

theorem post_eventsBounded {kind : EventKind} {station : Option StationNo}
    {block : Option Block} {value : Option Nat} (h : eventsBounded s.events) :
    eventsBounded (s.post kind station block value).events := addEvent_bounded h _ _

theorem postCommitted_eventsBounded {epoch : Byte} (h : eventsBounded s.events) :
    eventsBounded (s.postCommitted epoch).events := by
  have posted (v : Option Nat) : eventsBounded (s.postAt epoch .epochCommitted none none v).events :=
    addEvent_bounded h _ _
  unfold State.postCommitted
  dsimp only
  split
  · exact h
  · split
    · exact posted _
    · exact h
  · exact posted _

theorem finishPass_eventsBounded (h : eventsBounded s.events) : eventsBounded s.finishPass.events := by
  unfold State.finishPass
  split
  · exact h
  next p _ => exact postCommitted_eventsBounded (s := State.commitSome p.epoch s.staging.length s) (by simpa)

/-! ### The boundary -/

theorem countPeer_eventsBounded {n : StationNo} (h : eventsBounded s.events) :
    eventsBounded (s.countPeer n).events := by
  obtain ⟨-, -, -, -, hsilent, -, hother⟩ := s.countPeer_cases n
  by_cases hn : turnsSilent s n
  · obtain ⟨-, hposted, -⟩ := hsilent hn
    rw [hposted]
    exact addEvent_bounded h _ _
  · rw [(hother hn).1]
    exact h

theorem countPeers_eventsBounded {l : List StationNo} (h : eventsBounded s.events) :
    eventsBounded (l.foldl State.countPeer s).events := by
  induction l generalizing s with
  | nil => exact h
  | cons n l ih => exact ih (countPeer_eventsBounded h)

/-- At a boundary the silence count alone posts (R27, R146). -/
theorem boundary_eventsBounded (h : eventsBounded s.events) : eventsBounded s.boundary.events := by
  simpa [State.boundary, State.countSilence] using countPeers_eventsBounded (s := State.startPass { s with
    eu := { s.eu with epoch := s.eu.epoch + 1, counter := 0 } }) (l := allStations) (by simpa using h)

/-! ### Moves of the Epoch Unit and of the station -/

theorem completeLeave_eventsBounded (h : eventsBounded s.events) : eventsBounded s.completeLeave.events :=
  addEvent_bounded (by simpa using h) _ _

theorem leaveNow_eventsBounded (h : eventsBounded s.events) : eventsBounded s.leaveNow.events :=
  completeLeave_eventsBounded (finishPass_eventsBounded h)

theorem expireRun_eventsBounded (h : eventsBounded s.events) : eventsBounded s.expireRun.events :=
  boundary_eventsBounded h

theorem joinFall_eventsBounded (h : eventsBounded s.events) : eventsBounded s.joinFall.events :=
  boundary_eventsBounded h

theorem expireCoast_eventsBounded (h : eventsBounded s.events) : eventsBounded s.expireCoast.events :=
  boundary_eventsBounded h

theorem enterRun_eventsBounded (h : eventsBounded s.events) : eventsBounded s.enterRun.events := by
  unfold State.enterRun
  dsimp only
  split
  · exact expireRun_eventsBounded h
  · exact h

theorem enterCoast_eventsBounded {cause : Nat} (h : eventsBounded s.events) :
    eventsBounded (s.enterCoast cause).events := by
  have hposted : eventsBounded (s.post .lineFault none none (some cause)).events := post_eventsBounded h
  unfold State.enterCoast
  dsimp only
  split
  · exact expireCoast_eventsBounded hposted
  · exact hposted

theorem byLine_eventsBounded (h : eventsBounded s.events) : eventsBounded s.byLine.events := by
  unfold State.byLine
  split
  · exact enterRun_eventsBounded h
  · exact h

theorem release_eventsBounded {eln : Level} (h : eventsBounded s.events) :
    eventsBounded (s.release eln).events := by
  unfold State.release
  dsimp only
  split
  · exact completeLeave_eventsBounded h
  · exact byLine_eventsBounded h

theorem restore_eventsBounded (h : eventsBounded s.events) : eventsBounded s.restore.events :=
  enterRun_eventsBounded (post_eventsBounded h)

theorem enterJoining_eventsBounded (h : eventsBounded s.events) : eventsBounded s.enterJoining.events := by
  unfold State.enterJoining
  dsimp only
  split
  · exact byLine_eventsBounded h
  · exact h

theorem countListening_eventsBounded {isBoundary : Bool} (h : eventsBounded s.events) :
    eventsBounded (s.countListening isBoundary).events := by
  rcases s.countListening_cases isBoundary with hsame | ⟨-, l, j, hcount | hjoin⟩
  · rwa [hsame]
  · rw [hcount]
    exact h
  · rw [hjoin]
    exact enterJoining_eventsBounded h

theorem followBoundary_eventsBounded (h : eventsBounded s.events) : eventsBounded s.followBoundary.events :=
  countListening_eventsBounded (boundary_eventsBounded h)

/-- The fall-back posts JOIN_FAILED, and LEFT where the LEAVE that was pending completes (R139, R143). -/
theorem fallBack_eventsBounded (h : eventsBounded s.events) : eventsBounded s.fallBack.events := by
  have hposted : eventsBounded (s.post .joinFailed).events := post_eventsBounded h
  unfold State.fallBack
  dsimp only
  split
  · exact leaveNow_eventsBounded hposted
  · simpa using hposted

theorem enterMute_eventsBounded (h : eventsBounded s.events) : eventsBounded s.enterMute.events := by
  have hposted : eventsBounded (s.post .muteEntered).events := post_eventsBounded h
  simpa [State.enterMute] using hposted

theorem settle_eventsBounded {before : Bool} (h : eventsBounded s.events) :
    eventsBounded (State.settle before s).events := by simpa using h

theorem afterPass_eventsBounded {eln : Level} (h : eventsBounded s.events) :
    eventsBounded (s.afterPass eln).events := by
  have hleave := completeLeave_eventsBounded h
  unfold State.afterPass
  dsimp only
  split
  case h_1 =>
    split
    · exact release_eventsBounded h
    · exact h
  case h_2 =>
    split
    · exact hleave
    · split
      · exact restore_eventsBounded h
      · exact h
  case h_3 =>
    split
    · exact hleave
    · split
      · exact followBoundary_eventsBounded h
      · split
        · exact h
        · exact byLine_eventsBounded h
  case h_4 | h_5 => split <;> assumption
  case h_6 => exact h

/-! ### Attempts and objections -/

theorem failAttempt_eventsBounded (h : eventsBounded s.events) : eventsBounded s.failAttempt.events := by
  unfold State.failAttempt
  dsimp only
  split
  · exact h
  · split
    · exact h
    · split
      · exact fallBack_eventsBounded (post_eventsBounded h)
      · exact post_eventsBounded h

/-- The sixteenth objection takes the station back to LISTEN or to MUTE (R125, R126). -/
theorem countObjection_eventsBounded {metLow : Bool} (h : eventsBounded s.events) :
    eventsBounded (s.countObjection metLow).events := by
  unfold State.countObjection
  dsimp only
  split
  · exact h
  · split
    · exact h
    · split
      · exact settle_eventsBounded (fallBack_eventsBounded h)
      · exact enterMute_eventsBounded h

/-! ### Acceptances -/

theorem noteAcceptance_eventsBounded (h : eventsBounded s.events) :
    eventsBounded s.noteAcceptance.events := by
  unfold State.noteAcceptance
  split
  · split
    · exact post_eventsBounded h
    · exact h
  · simpa using h

theorem hear_eventsBounded {n : StationNo} {epoch : Byte} (h : eventsBounded s.events) :
    eventsBounded (s.hear n epoch).events := by
  unfold State.hear
  dsimp only
  split
  · exact h
  · exact h
  all_goals exact addEvent_bounded h _ _

theorem handOn_eventsBounded {d : Incoming} (h : eventsBounded s.events) :
    eventsBounded (s.handOn d).events := by
  unfold State.handOn
  split
  · exact h
  · split
    · split
      · simpa using h
      · exact h
    · split
      · exact post_eventsBounded h
      · exact post_eventsBounded h

theorem adopt_eventsBounded {d : Incoming} (h : eventsBounded s.events) :
    eventsBounded (s.adopt d).events := addEvent_bounded h _ _

theorem compareEpoch_eventsBounded {d : Incoming} (h : eventsBounded s.events) :
    eventsBounded (s.compareEpoch d).events := by
  unfold State.compareEpoch
  dsimp only
  split
  · exact handOn_eventsBounded (adopt_eventsBounded h)
  · split
    · exact handOn_eventsBounded h
    · split
      · exact adopt_eventsBounded h
      · exact h

theorem acceptReceived_eventsBounded {d : Incoming} (h : eventsBounded s.events) :
    eventsBounded (s.acceptReceived d).events := by
  have hnoted := noteAcceptance_eventsBounded (s := { s with
    rx := { s.rx with st := .waitIdle }
    counters := { s.counters with accepted := bump s.counters.accepted } }) h
  unfold State.acceptReceived
  dsimp only
  split
  · exact post_eventsBounded hnoted
  · exact compareEpoch_eventsBounded (hear_eventsBounded hnoted)

/-- Of the own acceptances a ROLL's in JOINING posts, with JOINED (R138). -/
theorem acceptOwn_eventsBounded {a : Attempt} (h : eventsBounded s.events) :
    eventsBounded (s.acceptOwn a).events := by
  have hreset : eventsBounded (State.resetObjections { s with
      tx := .standby
      rx := { s.rx with st := .waitIdle }
      pub := { s.pub with ownAccepted := true }
      counters := { s.counters with accepted := bump s.counters.accepted } }).events := by simpa using h
  unfold State.acceptOwn
  dsimp only
  split
  · simpa using hreset
  · split
    · exact addEvent_bounded hreset _ _
    · exact hreset

/-! ### Characters -/

theorem askRoom_eventsBounded {d : Incoming} (h : eventsBounded s.events) :
    eventsBounded (s.askRoom d).events := by
  unfold State.askRoom
  dsimp only
  split
  · split
    · exact post_eventsBounded h
    · exact h
  · exact h

/-- Of the characters of a dispatch only the epoch character may post (R44). -/
theorem takeHeader_eventsBounded {d : Incoming} {data : Byte} (h : eventsBounded s.events) :
    eventsBounded (s.takeHeader d data).events := by
  have hmalformed : eventsBounded s.malformed.events := by simpa using h
  unfold State.takeHeader
  dsimp only
  split
  · exact h
  · split
    · split
      · exact h
      · exact hmalformed
    · exact askRoom_eventsBounded h
    · exact h
    · split
      · exact hmalformed
      · split
        · exact hmalformed
        · exact h

theorem takeBody_events (s : State) (d : Incoming) (data : Byte) :
    (s.takeBody d data).events = s.events := by
  unfold State.takeBody
  split <;> rfl

theorem takeCheck_events (s : State) (d : Incoming) (data : Byte) :
    (s.takeCheck d data).events = s.events := by
  unfold State.takeCheck
  dsimp only
  (repeat' split) <;> simp [State.follow, State.openSlot]

theorem takeClaim_events (s : State) (data : Byte) (framing : Bool) :
    (s.takeClaim data framing).events = s.events := by
  unfold State.takeClaim
  dsimp only
  (repeat' split) <;> simp [State.follow]

theorem markEnd_events (s : State) (ph : RxPhase) (d : Incoming) :
    (s.markEnd ph d).events = s.events := by
  unfold State.markEnd
  split <;> rfl

theorem deliver_eventsBounded {data : Byte} {marker framing : Bool} (h : eventsBounded s.events) :
    eventsBounded (s.deliver data marker framing).events := by
  have hmalformed : eventsBounded s.malformed.events := by simpa using h
  unfold State.deliver
  split
  case h_1 | h_2 | h_3 => exact h
  case h_4 =>
    split
    · rwa [takeClaim_events]
    · exact h
  case h_5 ph d _ =>
    split
    · exact h
    · cases ph with
      | answer => exact h
      | header =>
        dsimp only
        split
        · exact hmalformed
        · exact takeHeader_eventsBounded h
      | body =>
        dsimp only
        split
        · exact hmalformed
        · rwa [takeBody_events]
      | check =>
        dsimp only
        split
        · simpa [markEnd_events] using h
        · rwa [takeCheck_events]

theorem offerIdle_events (s : State) : s.offerIdle.events = s.events := by
  unfold State.offerIdle
  dsimp only
  (repeat' split) <;> simp

theorem endBusFault_eventsBounded (h : eventsBounded s.events) : eventsBounded s.endBusFault.events := by
  rw [endBusFault_eq]
  dsimp only
  split
  · exact addEvent_bounded h _ _
  · exact h

theorem ownWasLost_events (s : State) : s.ownWasLost.events = s.events := by
  unfold State.ownWasLost
  (repeat' split) <;> simp

/-! ### Records that leave (R156) -/

theorem eventsBounded_of_append {pre rest : List Event} (h : eventsBounded (pre ++ rest)) :
    eventsBounded rest := by
  obtain ⟨hlength, hnewest, hlast⟩ := h
  rw [List.length_append] at hlength hlast
  rcases rest.eq_nil_or_concat with rfl | ⟨init, newest, rfl⟩
  · simp [eventsBounded]
  · refine ⟨by omega, fun e he => hnewest e ?_, fun hfull e he => hlast (by omega) e ?_⟩
    · rw [List.dropLast_append_of_ne_nil (by simp)]
      exact List.mem_append_right _ he
    · rw [List.getLast?_append, he, Option.some_or]

/-- The value of a record does not enter the bounds. -/
theorem eventsBounded_setValue {o : Event} {rest : List Event} (h : eventsBounded (o :: rest))
    (v : Option Nat) : eventsBounded ({ o with value := v } :: rest) := by
  cases rest with
  | nil => simp [eventsBounded]
  | cons x rest => simpa [eventsBounded] using h

/-- Whole records leave from the head; of an OVERFLOW record that has grown since it was reported the
difference stays (R156). -/
theorem drainEvents_cases (q snap : List Event) (n : Nat) :
    drainEvents q snap n = q.drop n ∨ ∃ pre now v, q = pre ++ now :: q.drop n
      ∧ drainEvents q snap n = { now with value := v } :: q.drop n := by
  unfold drainEvents
  split
  next now _ hnow =>
    split
    · obtain ⟨pre, hpre⟩ := List.getLast?_eq_some_iff.1 hnow
      refine Or.inr ⟨pre, now, _, ?_, rfl⟩
      calc q = q.take n ++ q.drop n := (List.take_append_drop n q).symm
        _ = pre ++ now :: q.drop n := by rw [hpre, List.append_assoc, List.singleton_append]
    · exact Or.inl rfl
  next => exact Or.inl rfl

theorem drainEvents_bounded {q : List Event} (h : eventsBounded q) (snap : List Event) (n : Nat) :
    eventsBounded (drainEvents q snap n) := by
  rcases drainEvents_cases q snap n with hdrop | ⟨pre, now, v, hq, hgrown⟩
  · rw [hdrop]
    exact eventsBounded_of_append (pre := q.take n) (by rwa [List.take_append_drop])
  · rw [hgrown]
    exact eventsBounded_setValue (eventsBounded_of_append (hq ▸ h)) v

end Sys2Proof.Machine
end

section
/-! SUPPORT. Every step keeps the event queue in its bounds (R152, R153). -/

namespace Sys2Proof.Machine

variable {s t : State}

/-! ### The local port -/

theorem endRead_events (s : State) : s.endRead.events = s.events := by
  unfold State.endRead
  (repeat' split) <;> simp

theorem execReadEventsEnd_eventsBounded {clocked : Nat} (h : eventsBounded s.events)
    (he : execReadEventsEnd clocked s = .next t) : eventsBounded t.events := by
  unfold execReadEventsEnd at he
  dsimp only at he
  split at he
  · split at he <;> cases he <;> rw [endRead_events]
    · exact drainEvents_bounded h _ _
    · exact h
  · cases he
    split
    · simpa using h
    · exact h

/-- A write keeps the queue in its bounds if its effect does (R166, R168). -/
theorem writeAct_eventsBounded (h : eventsBounded s.events) {complete : Bool} {r : Result}
    {act : State → State} (ha : eventsBounded (act s).events) :
    eventsBounded (s.writeAct complete r act).events :=
  writeAct_keeps (P := fun u => eventsBounded u.events) (fun u r hu => by simpa using hu) h fun _ => ha

theorem execWriteDraft_eventsBounded {block first count : Byte} {data : List Byte}
    (h : eventsBounded s.events) (he : execWriteDraft block first count data s = .next t) :
    eventsBounded t.events := by
  unfold execWriteDraft at he
  dsimp only at he
  split at he <;> cases he <;> exact writeAct_eventsBounded h h

theorem execPublish_eventsBounded {block first count : Byte} (h : eventsBounded s.events)
    (he : execPublish block first count s = .next t) : eventsBounded t.events := by
  unfold execPublish at he
  dsimp only at he
  split at he <;> cases he
  · exact writeAct_eventsBounded h h
  · refine writeAct_eventsBounded h ?_
    unfold State.publish
    split <;> exact h

/-- CONFIGURE leaves the events as they are (R170). -/
theorem execConfigure_eventsBounded {args : List Byte} (h : eventsBounded s.events)
    (he : execConfigure args s = .next t) : eventsBounded t.events := by
  unfold execConfigure at he
  dsimp only at he
  split at he <;> cases he <;> exact writeAct_eventsBounded h h

theorem start_eventsBounded (h : eventsBounded s.events) : eventsBounded s.start.events := by
  unfold State.start
  dsimp only
  refine settle_eventsBounded ?_
  split
  · exact addEvent_bounded h _ _
  · exact h

theorem leave_eventsBounded (h : eventsBounded s.events) : eventsBounded s.leave.events := by
  unfold State.leave
  split
  · exact settle_eventsBounded (leaveNow_eventsBounded h)
  · exact h

/-! ### The line -/

theorem execCharacterDelivered_eventsBounded {data : Byte} {marker framing : Bool}
    (h : eventsBounded s.events) (he : execCharacterDelivered data marker framing s = .next t) :
    eventsBounded t.events := by
  cases he
  split
  · exact deliver_eventsBounded h
  · exact h

theorem execHeldCharacterRise_eventsBounded (h : eventsBounded s.events)
    (he : execHeldCharacterRise s = .next t) : eventsBounded t.events := by
  cases he
  split
  · exact deliver_eventsBounded h
  · exact h

theorem execBreakDriven_eventsBounded (h : eventsBounded s.events) (he : execBreakDriven s = .next t) :
    eventsBounded t.events := by
  cases he
  dsimp only
  split
  · exact countObjection_eventsBounded h
  · exact h

/-- A break seen posts where an attempt that fails with it does (R112). -/
theorem execBreakSeen_eventsBounded (h : eventsBounded s.events) (he : execBreakSeen s = .next t) :
    eventsBounded t.events := by
  cases he
  dsimp only
  rw [countBreak_eq, breakInDispatch_eq]
  split
  · exact h
  · split
    · exact settle_eventsBounded (failAttempt_eventsBounded h)
    · exact h

theorem execSlotBroken_eventsBounded (h : eventsBounded s.events) (he : execSlotBroken s = .next t) :
    eventsBounded t.events := by
  cases he
  dsimp only
  rw [countBreak_eq]
  split
  · exact h
  · split
    · exact settle_eventsBounded (failAttempt_eventsBounded (by split <;> exact h))
    · split <;> exact h

theorem execBusFault_eventsBounded (h : eventsBounded s.events) (he : execBusFault s = .next t) :
    eventsBounded t.events := by
  cases he
  dsimp only
  split
  · exact h
  · split
    · exact addEvent_bounded h _ _
    · exact h

theorem execBusIdle_eventsBounded (h : eventsBounded s.events) (he : execBusIdle s = .next t) :
    eventsBounded t.events := by
  cases he
  split
  · rw [offerIdle_events]
    exact endBusFault_eventsBounded h
  · exact h

theorem execSlotClean_eventsBounded (h : eventsBounded s.events) (he : execSlotClean s = .next t) :
    eventsBounded t.events := by
  cases he
  dsimp only
  split
  · exact h
  · split
    next a _ =>
      split
      · exact h
      · exact acceptOwn_eventsBounded h
    next =>
      split
      next d _ =>
        split
        · exact h
        · exact acceptReceived_eventsBounded h
      next => exact h

/-! ### The own attempt -/

theorem execClaim_eventsBounded (h : eventsBounded s.events) (he : execClaim s = .next t) :
    eventsBounded t.events := by
  unfold execClaim at he
  split at he <;> cases he
  · split <;> exact h
  · exact h

theorem execArbitrationLoss_eventsBounded (h : eventsBounded s.events)
    (he : execArbitrationLoss s = .next t) : eventsBounded t.events := by
  unfold execArbitrationLoss at he
  split at he <;> cases he
  · simpa [ownWasLost_events] using h
  · exact h

theorem execClaimWon_eventsBounded (h : eventsBounded s.events) (he : execClaimWon s = .next t) :
    eventsBounded t.events := by
  unfold execClaimWon State.knowOwn at he
  split at he <;> cases he
  · (repeat' split) <;> exact h
  · exact h

theorem execLastCheckSent_eventsBounded (h : eventsBounded s.events)
    (he : execLastCheckSent s = .next t) : eventsBounded t.events := by
  unfold execLastCheckSent at he
  split at he
  · split at he <;> cases he
    · exact h
    · split <;> exact h
  · cases he
    exact h

theorem faultAt_eventsBounded {level : Level} (h : eventsBounded s.events) :
    eventsBounded (s.faultAt level).events := by
  rw [State.faultAt, giveUp_eq]
  exact settle_eventsBounded (failAttempt_eventsBounded h)

theorem execBitFault_eventsBounded (h : eventsBounded s.events) (he : execBitFault s = .next t) :
    eventsBounded t.events := by
  unfold execBitFault at he
  split at he <;> cases he
  · exact faultAt_eventsBounded h
  · exact faultAt_eventsBounded h
  · exact h

/-! ### The epoch line -/

theorem execLowConditionStart_eventsBounded (h : eventsBounded s.events)
    (he : execLowConditionStart s = .next t) : eventsBounded t.events := by
  cases he
  split
  · exact h
  · exact settle_eventsBounded h

theorem execEpochExpiry_eventsBounded (h : eventsBounded s.events) (he : execEpochExpiry s = .next t) :
    eventsBounded t.events := by
  cases he
  refine settle_eventsBounded ?_
  split
  · exact countListening_eventsBounded h
  · exact expireRun_eventsBounded h
  · split
    · exact expireCoast_eventsBounded h
    · exact h
  all_goals exact h

theorem execElnFall_eventsBounded (h : eventsBounded s.events) (he : execElnFall s = .next t) :
    eventsBounded t.events := by
  cases he
  refine settle_eventsBounded ?_
  dsimp only
  split
  case h_2 =>
    split
    · exact followBoundary_eventsBounded h
    · exact h
  case h_3 => exact joinFall_eventsBounded h
  case h_6 =>
    split
    · exact joinFall_eventsBounded (post_eventsBounded h)
    · exact h
  all_goals exact h

theorem execElnRise_eventsBounded (h : eventsBounded s.events) (he : execElnRise s = .next t) :
    eventsBounded t.events := by
  cases he
  refine settle_eventsBounded ?_
  dsimp only
  split
  · exact enterRun_eventsBounded h
  · exact h

theorem execNotDrivable_eventsBounded (h : eventsBounded s.events) (he : execNotDrivable s = .next t) :
    eventsBounded t.events := by
  cases he
  split
  · refine settle_eventsBounded ?_
    split
    · exact completeLeave_eventsBounded (post_eventsBounded h)
    · exact enterCoast_eventsBounded h
  · exact h

theorem execHoldRunOut_eventsBounded {eln : Level} (h : eventsBounded s.events)
    (he : execHoldRunOut eln s = .next t) : eventsBounded t.events := by
  cases he
  split
  · split
    · exact settle_eventsBounded (release_eventsBounded h)
    · exact h
  · exact h

theorem execLineLowLimit_eventsBounded (h : eventsBounded s.events) (he : execLineLowLimit s = .next t) :
    eventsBounded t.events := by
  cases he
  split
  · exact settle_eventsBounded (enterCoast_eventsBounded h)
  · exact h

theorem execLineRestored_eventsBounded (h : eventsBounded s.events) (he : execLineRestored s = .next t) :
    eventsBounded t.events := by
  cases he
  split
  · split
    · exact settle_eventsBounded (restore_eventsBounded h)
    · exact h
  · exact h

theorem execCommitPassEnd_eventsBounded {eln : Level} (h : eventsBounded s.events)
    (he : execCommitPassEnd eln s = .next t) : eventsBounded t.events := by
  cases he
  split
  · exact settle_eventsBounded (afterPass_eventsBounded (finishPass_eventsBounded h))
  · exact h

/-! ### Every command, and the step -/

theorem exec_eventsBounded {i : Instr} (h : eventsBounded s.events) (he : exec i s = .next t) :
    eventsBounded t.events := by
  cases i with
  | hardwareReset => cases he; simp [eventsBounded, State.afterReset]
  | transactionStart | quietTailEnd => cases he; exact h
  | readStatus | readConfig | readCounters | readEvents | readPeers | readCommitReport | readImage
  | readBlockStatus | readDraft =>
    cases he
    rwa [show (State.readReply ..).events = s.events by simp]
  | frameError => cases he; simpa using h
  | readTransactionEnd => cases he; rwa [endRead_events]
  | unknownCommand =>
    cases he
    split
    · exact h
    · simpa using h
  | startEdge | falseStart | firstRecessiveReading | breakDriveStart | breakEnd =>
    cases he
    (repeat' split) <;> exact h
  | readEventsEnd => exact execReadEventsEnd_eventsBounded h he
  | writeDraft => exact execWriteDraft_eventsBounded h he
  | publish => exact execPublish_eventsBounded h he
  | configure => exact execConfigure_eventsBounded h he
  | start => cases he; exact writeAct_eventsBounded h (start_eventsBounded h)
  | leave => cases he; exact writeAct_eventsBounded h (leave_eventsBounded h)
  | characterDelivered => exact execCharacterDelivered_eventsBounded h he
  | heldCharacterRise => exact execHeldCharacterRise_eventsBounded h he
  | breakDriven => exact execBreakDriven_eventsBounded h he
  | breakSeen => exact execBreakSeen_eventsBounded h he
  | busFault => exact execBusFault_eventsBounded h he
  | busIdle => exact execBusIdle_eventsBounded h he
  | slotBroken => exact execSlotBroken_eventsBounded h he
  | slotClean => exact execSlotClean_eventsBounded h he
  | claim => exact execClaim_eventsBounded h he
  | arbitrationLoss => exact execArbitrationLoss_eventsBounded h he
  | claimWon => exact execClaimWon_eventsBounded h he
  | lastCheckSent => exact execLastCheckSent_eventsBounded h he
  | bitFault => exact execBitFault_eventsBounded h he
  | lowConditionStart => exact execLowConditionStart_eventsBounded h he
  | epochExpiry => exact execEpochExpiry_eventsBounded h he
  | elnFall => exact execElnFall_eventsBounded h he
  | elnRise => exact execElnRise_eventsBounded h he
  | notDrivable => exact execNotDrivable_eventsBounded h he
  | holdRunOut => exact execHoldRunOut_eventsBounded h he
  | lineLowLimit => exact execLineLowLimit_eventsBounded h he
  | lineRestored => exact execLineRestored_eventsBounded h he
  | commitPassEnd => exact execCommitPassEnd_eventsBounded h he

/-- A bit time commits entries and posts nothing (R51). -/
theorem advance_events (s : State) : s.advance.events = s.events := by
  show s.advancePass.events = s.events
  unfold State.advancePass
  split <;> simp

/-- Settles O54: the queue takes what a step posts by addEvent alone, and gives up its head alone, to
READ_EVENTS_END or a hardware reset. -/
theorem everyStepKeepsEventsBounded : Obligations.EveryStepKeepsEventsBounded := by
  intro s t h hs
  unfold step at hs
  split at hs
  · by_cases hdue : s.due = []
    · rw [idleStep_of_none_due hdue] at hs
      cases hs
      rwa [advance_events]
    · obtain ⟨i, -, hi⟩ := idleStep_of_due hdue
      exact exec_eventsBounded (s := { s with free := s.free + 1 }) h (hi ▸ hs)
  next c rest _ => exact exec_eventsBounded (s := { s with pending := rest }) h hs

end Sys2Proof.Machine
end

section
/-! SUPPORT. READ_EVENTS and its end (R155, R156, R180, R184): the snapshot with its bytes, and the records
that leave the queue. -/

namespace Sys2Proof.Machine

/-! ### READ_EVENTS -/

/-- An event record with its seven bytes written out (R184). -/
theorem Event.bytes_eq (e : Event) : e.bytes =
    [BitVec.ofNat 8 e.kind.code, e.epoch,
      BitVec.ofNat 8 ((if e.station.isSome then 128 else 0)
        + (if e.block.isSome then 64 else 0) + if e.value.isSome then 32 else 0),
      (match e.station with
        | some n => BitVec.ofNat 8 n.val
        | none => 0xFF),
      (match e.block with
        | some b => BitVec.ofNat 8 b.val
        | none => 0xFF),
      BitVec.ofNat 8 (e.value.getD 0 / 256),
      BitVec.ofNat 8 (e.value.getD 0)] := by
  have flag (b : Bool) (n : Nat) : bit b * n = if b then n else 0 := by cases b <;> simp [bit]
  obtain ⟨kind, epoch, station, block, value⟩ := e
  simp only [Event.bytes, flag]
  cases station <;> cases block <;> rfl

section
variable {s : State} {maximum : Byte}

theorem exec_readEvents_straddling (h : s.port.straddling = true) :
    exec (.readEvents maximum) s = .next s :=
  congrArg Host.Outcome.next (readReply_straddling h _ _ _ _ _)

theorem exec_readEvents_refused (h : s.port.straddling = false)
    (hmax : ¬ (1 ≤ maximum.toNat ∧ maximum.toNat ≤ 32)) : exec (.readEvents maximum) s
      = .next { s with port := { s.port with txn := some ⟨some 0x13, 2, true⟩, result := .badArgument } } := by
  have hbad : badUnless (decide (1 ≤ maximum.toNat) && decide (maximum.toNat ≤ 32)) = .badArgument :=
    if_neg (by simpa using hmax)
  refine congrArg Host.Outcome.next ?_
  rw [hbad]
  exact readReply_refused h (by decide) _ _ _ _

theorem exec_readEvents (h : s.port.straddling = false)
    (hmax : 1 ≤ maximum.toNat ∧ maximum.toNat ≤ 32) : exec (.readEvents maximum) s
      = .next { s with port := { s.port with
          txn := some ⟨some 0x13, 2, true⟩
          result := .ok
          buffer := byteOf (min maximum.toNat s.events.length)
            :: (s.events.take maximum.toNat).flatMap Event.bytes
          evSnap := s.events.take maximum.toNat } } := by
  have hok : badUnless (decide (1 ≤ maximum.toNat) && decide (maximum.toNat ≤ 32)) = .ok :=
    if_pos (by simpa using hmax)
  refine congrArg Host.Outcome.next ?_
  rw [hok, List.length_take]
  exact readReply_ok h _ _ _ _

end

/-- Settles O11: a straddling, a refused and a taken READ_EVENTS in turn. -/
theorem readEventsSnapshot : Obligations.ReadEventsSnapshot := by
  refine ⟨rfl, fun maximum s => ⟨exec_readEvents_straddling, fun h => ?_⟩⟩
  by_cases hmax : 1 ≤ maximum.toNat ∧ maximum.toNat ≤ 32
  · refine ⟨_, exec_readEvents h hmax, rfl, rfl, fun hbad => absurd hmax hbad, fun _ => ⟨rfl, rfl, ?_⟩⟩
    rw [List.flatMap_def]
    exact congrArg (fun bytes : Event → List Byte => byteOf (min maximum.toNat s.events.length)
      :: ((s.events.take maximum.toNat).map bytes).flatten) (funext Event.bytes_eq)
  · exact ⟨_, exec_readEvents_refused h hmax, rfl, rfl, fun _ => ⟨rfl, rfl, rfl⟩,
      fun hgood => absurd hgood hmax⟩

/-! ### READ_EVENTS_END -/

/-- The end of a read whose frame is complete records what its result byte carried (R162). -/
theorem endRead_eq {s : State} {c : Byte} {n : Nat} (htxn : s.port.txn = some ⟨some c, n, true⟩)
    (h : s.port.straddling = false) :
    s.endRead = { s with port := { s.port with last := s.port.result, txn := none } } := by
  unfold State.endRead
  rw [htxn]
  exact endTransaction_eq h _

/-- The end of a READ_EVENTS records its result; with OK the records clocked out whole leave (R156). -/
theorem exec_readEventsEnd {s : State} {n : Nat} (clocked : Nat)
    (htxn : s.port.txn = some ⟨some 0x13, n, true⟩) (h : s.port.straddling = false) :
    exec (.readEventsEnd clocked) s = .next { s with
      events := if s.port.result = .ok
        then drainEvents s.events s.port.evSnap (recordsClocked clocked s.port.evSnap.length)
        else s.events
      port := { s.port with last := s.port.result, txn := none } } := by
  show execReadEventsEnd clocked s = _
  unfold execReadEventsEnd
  rw [htxn]
  by_cases hok : s.port.result = .ok
  · rw [if_pos ⟨hok, h⟩, if_pos hok]
    exact congrArg Host.Outcome.next (endRead_eq (s := { s with events := _ }) htxn h)
  · rw [if_neg fun hboth => hok hboth.1, if_neg hok]
    exact congrArg Host.Outcome.next (endRead_eq htxn h)

/-- Where the snapshot's records stand as they were reported, they leave and nothing stays of them. -/
theorem drainEvents_of_take {q snap : List Event} {n : Nat} (h : snap.take n = q.take n) :
    drainEvents q snap n = q.drop n := by
  unfold drainEvents
  rw [h]
  split
  next reported now hreported hnow =>
    cases Option.some.inj (hreported.symm.trans hnow)
    exact if_neg fun ⟨_, hgrown⟩ => hgrown rfl
  next => rfl

/-- An OVERFLOW record that has grown since the snapshot, clocked out whole, stays with the difference. -/
theorem drainEvents_grown {pre : List Event} {o : Event} {v w : Nat} (hk : o.kind = .overflow)
    (hv : o.value = some v) (hgrown : v < w) :
    drainEvents (pre ++ [{ o with value := some w }]) (pre ++ [o]) (pre ++ [o]).length
      = [{ o with value := some (w - v) }] := by
  have whole (x : Event) : (pre ++ [x]).take (pre ++ [o]).length = pre ++ [x] :=
    List.take_of_length_le (by simp)
  have hne : w ≠ v := by omega
  unfold drainEvents
  rw [whole, whole, List.getLast?_concat, List.getLast?_concat]
  simp [hk, hv, hne]

/-- Settles O12: an unchanged snapshot drains as a plain drop, and so does the part before a grown OVERFLOW
record. -/
theorem readEventsEndRemovesClockedRecords : Obligations.ReadEventsEndRemovesClockedRecords := by
  intro clocked n s htxn h
  refine ⟨_, exec_readEventsEnd clocked htxn h, rfl, fun hbad => if_neg hbad, fun hok htake => ?_,
    fun pre o v w hok hsnap hq hk hv hgrown => ?_⟩
  · refine (if_pos hok).trans (drainEvents_of_take ?_)
    rw [← htake, List.take_take, htake, recordsClocked, Nat.min_eq_left (Nat.min_le_left _ _)]
  · refine (if_pos hok).trans ?_
    rw [hsnap, hq]
    split
    next hwhole =>
      have hall : recordsClocked clocked (pre ++ [o]).length = (pre ++ [o]).length :=
        Nat.min_eq_left (by omega)
      rw [hall]
      exact drainEvents_grown hk hv hgrown
    next hpart =>
      have hlength : (pre ++ [o]).length = pre.length + 1 := by simp
      have hfew : (clocked - 4) / 7 ≤ pre.length := by omega
      have hcount : recordsClocked clocked (pre ++ [o]).length = (clocked - 4) / 7 :=
        Nat.min_eq_right (by omega)
      rw [hcount]
      refine drainEvents_of_take ?_
      rw [List.take_append_of_le_length hfew, List.take_append_of_le_length hfew]

end Sys2Proof.Machine
end

section
/-! SUPPORT. The event queue as an event arrives (R153, R154). -/

namespace Sys2Proof.Machine

theorem bump_eq_min {n : Nat} (h : n ≤ 65535) : bump n = min 65535 (n + 1) := by
  unfold bump Config.counterTop
  split <;> omega

/-- Settles O52: stored with room, made an OVERFLOW record at 31, and counted into the one that stands. -/
theorem fullQueueCountsIntoOverflow : Obligations.FullQueueCountsIntoOverflow := by
  intro q e epoch
  have newest (hq : ∀ x ∈ q, x.kind ≠ .overflow) : ∀ x, q.getLast? = some x → x.kind ≠ .overflow :=
    fun x hx => hq x (List.mem_of_getLast? hx)
  refine ⟨fun hq hroom => addEvent_stored e epoch (newest hq) hroom,
    fun hq hfull => addEvent_overflow e epoch (newest hq) hfull, ?_⟩
  rintro old o n rfl hk hv hn
  rw [addEvent_counted e epoch List.getLast?_concat hk, List.dropLast_concat, hv, Option.getD_some,
    bump_eq_min hn]

end Sys2Proof.Machine
end

section
/-! SUPPORT. The transactions of the local port (R160 to R168, R172): how one ends, what SDO carries byte by byte,
the summary byte and the status record. -/

namespace Sys2Proof.Machine

/-! ### The end of a transaction (R160, R162) -/

section
variable {s : State}

theorem endTransaction_straddling (h : s.port.straddling = true) (r : Result) :
    s.endTransaction r = { s with port := { s.port with straddling := false, txn := none } } := by
  rw [State.endTransaction, if_pos h]

/-- The end of a transaction that straddles reset is the same whatever the read was (R160). -/
theorem endRead_straddling (h : s.port.straddling = true) : s.endRead = s.endTransaction .ok := by
  unfold State.endRead
  split
  next => rw [endTransaction_straddling h, endTransaction_straddling h]
  next => exact if_pos h

/-- A write in a transaction that straddles reset does not act (R160). -/
theorem writeAct_straddling (h : s.port.straddling = true) (complete : Bool) (r : Result)
    (act : State → State) : s.writeAct complete r act = s.endTransaction .ok := by
  rw [writeAct_cases, if_pos h]

theorem execReadEventsEnd_straddling (h : s.port.straddling = true) (clocked : Nat) :
    execReadEventsEnd clocked s = .next (s.endTransaction .ok) := by
  unfold execReadEventsEnd
  split
  next => rw [if_neg (by simp [h]), endRead_straddling h]
  next => rw [if_pos h]

theorem execWriteDraft_straddling (h : s.port.straddling = true) (block first count : Byte)
    (data : List Byte) : execWriteDraft block first count data s = .next (s.endTransaction .ok) := by
  unfold execWriteDraft
  split <;> exact congrArg Host.Outcome.next (writeAct_straddling h _ _ _)

theorem execPublish_straddling (h : s.port.straddling = true) (block first count : Byte) :
    execPublish block first count s = .next (s.endTransaction .ok) := by
  unfold execPublish
  split <;> exact congrArg Host.Outcome.next (writeAct_straddling h _ _ _)

theorem execConfigure_straddling (h : s.port.straddling = true) (args : List Byte) :
    execConfigure args s = .next (s.endTransaction .ok) := by
  unfold execConfigure
  split <;> exact congrArg Host.Outcome.next (writeAct_straddling h _ _ _)

/-- A byte that is none of the fourteen ends its transaction as UNKNOWN_COMMAND (R165). -/
theorem execUnknownCommand_eq {c : Byte} (hc : ∀ k ∈ commandBytes, k ≠ c) :
    execUnknownCommand c s = .next (s.endTransaction .unknownCommand) := by
  have hunknown : commandBytes.contains c = false := by
    rw [← Bool.not_eq_true, List.contains_iff_mem]
    exact fun hmem => hc c hmem rfl
  rw [execUnknownCommand, hunknown, if_neg Bool.false_ne_true]

end

/-- Settles O13: every end of a transaction is `State.endTransaction` with the result of its row, which in a
transaction that straddles reset records nothing. -/
theorem transactionEndsRecordTheirResult : Obligations.TransactionEndsRecordTheirResult := by
  refine ⟨fun c n s htxn h => congrArg Host.Outcome.next (endRead_eq htxn h),
    fun s h => ⟨congrArg Host.Outcome.next (endTransaction_eq h .frameError), fun c hc => ?_⟩,
    fun s t h ht => ?_⟩
  · exact (execUnknownCommand_eq hc).trans (congrArg Host.Outcome.next (endTransaction_eq h _))
  · subst ht
    rw [← endTransaction_straddling h .ok]
    have ends (r : Result) : s.endTransaction r = s.endTransaction .ok := by
      rw [endTransaction_straddling h, endTransaction_straddling h]
    exact ⟨congrArg Host.Outcome.next (endRead_straddling h), execReadEventsEnd_straddling h,
      congrArg Host.Outcome.next (ends .frameError),
      fun c hc => (execUnknownCommand_eq hc).trans (congrArg Host.Outcome.next (ends .unknownCommand)),
      execWriteDraft_straddling h, execPublish_straddling h, execConfigure_straddling h,
      congrArg Host.Outcome.next (writeAct_straddling h _ _ _),
      congrArg Host.Outcome.next (writeAct_straddling h _ _ _)⟩

/-! ### What SDO carries (R161, R163, R167) -/

section
variable {s : State}

/-- In a transaction of its own the station drives SDO with the bytes of the port. -/
theorem sdo_of_txn (h : s.port.straddling = false) {x : Txn} (htxn : s.port.txn = some x) (n : Nat) :
    s.sdo n = some (s.port.sent n) := by
  simp [State.sdo, h, htxn]

theorem sent_summary (p : Port) : p.sent 0 = p.summary := rfl

/-- Until a frame is complete, and for a write, filler follows the summary byte. -/
theorem sent_incomplete {p : Port} {c : Option Byte} {b : Nat} (htxn : p.txn = some ⟨c, b, false⟩)
    {n : Nat} (hn : 0 < n) : p.sent n = 0xFF := by
  simp [Port.sent, htxn, Nat.ne_of_gt hn]

/-- After the summary byte of a read whose frame is complete: filler under the arguments, the result byte, then
the port buffer with OK alone. -/
theorem sent_complete {p : Port} {c : Byte} {b : Nat} (htxn : p.txn = some ⟨some c, b, true⟩)
    {n : Nat} (hn : 0 < n) : p.sent n = if n < b then 0xFF else if n = b then byteOf p.result.code
      else if p.result = .ok then p.buffer.getD (n - b - 1) 0xFF else 0xFF := by
  rw [Port.sent, if_neg (Nat.ne_of_gt hn), htxn]

theorem sent_under_arguments {p : Port} {c : Byte} {b : Nat} (htxn : p.txn = some ⟨some c, b, true⟩)
    {n : Nat} (hn : 0 < n) (hb : n < b) : p.sent n = 0xFF := by
  rw [sent_complete htxn hn, if_pos hb]

theorem sent_result {p : Port} {c : Byte} {b : Nat} (htxn : p.txn = some ⟨some c, b, true⟩)
    (hb : 1 ≤ b) : p.sent b = byteOf p.result.code := by
  rw [sent_complete htxn hb, if_neg (Nat.lt_irrefl b), if_pos rfl]

theorem sent_data {p : Port} {c : Byte} {b : Nat} (htxn : p.txn = some ⟨some c, b, true⟩) (k : Nat) :
    p.sent (b + 1 + k) = if p.result = .ok then p.buffer.getD k 0xFF else 0xFF := by
  rw [sent_complete htxn (by omega), if_neg (by omega), if_neg (by omega),
    show b + 1 + k - b - 1 = k by omega]

end

/-! ### The summary byte (R162) and the status record (R172) -/

/-- A flag placed in a byte. -/
theorem bit_mul (b : Bool) (n : Nat) : bit b * n = if b then n else 0 := by cases b <;> simp [bit]

theorem StationState.code_le (st : StationState) : st.code ≤ 5 := by cases st <;> decide

theorem Result.code_le (r : Result) : r.code ≤ 7 := by cases r <;> decide

/-- The four fields of the summary byte do not meet (R162, R184). -/
theorem summaryByte_toNat (s : State) : s.summaryByte.toNat
    = s.mem.station.code * 32 + (if s.events = [] then 0 else 16)
      + (if s.commit.pass.isSome then 8 else 0) + s.port.last.code := by
  have hstation := s.mem.station.code_le
  have hlast := s.port.last.code_le
  have hattn : bit s.attnLow * 16 = if s.events = [] then 0 else 16 := by
    cases h : s.events <;> simp [State.attnLow, h, bit]
  rw [State.summaryByte, byteOf, hattn, bit_mul, State.epoLow, BitVec.toNat_ofNat, Nat.mod_eq_of_lt]
  split <;> split <;> omega

/-- Settles O5: the fall of CS_N keeps `State.summaryByte` and opens a transaction without a command. -/
theorem transactionStartFixesSummary : Obligations.TransactionStartFixesSummary := fun s =>
  ⟨s.summaryByte, rfl, sdo_of_txn rfl rfl 0, summaryByte_toNat s, rfl, rfl⟩

/-- The status record with its nine bytes written out (R172). -/
theorem statusBytes_eq (s : State) : s.statusBytes =
    [BitVec.ofNat 8 (s.mem.station.code * 32 + if s.mem.leavePending then 16 else 0),
      BitVec.ofNat 8 (s.eu.unit.code * 32 + (if s.eu.eln = .recessive then 16 else 0)
        + if s.tx = .standby then 0 else 8),
      s.eu.epoch, BitVec.ofNat 8 (s.eu.counter / 256), BitVec.ofNat 8 s.eu.counter,
      BitVec.ofNat 8 s.pub.queue.length, BitVec.ofNat 8 s.staging.length,
      BitVec.ofNat 8 s.mute.consecutive, BitVec.ofNat 8 s.mute.clean] := by
  have heln : bit (s.eu.eln == .recessive) * 16 = if s.eu.eln = .recessive then 16 else 0 := by
    cases s.eu.eln <;> rfl
  have htx : bit s.tx.inFlight.isSome * 8 = if s.tx = .standby then 0 else 8 := by
    cases s.tx <;> simp [TxState.inFlight, bit]
  rw [State.statusBytes, heln, htx, bit_mul]
  rfl

/-- Settles O6: READ_STATUS is a read that is never refused, and `Port.sent` says what follows on SDO. -/
theorem readStatusSnapshot : Obligations.ReadStatusSnapshot := by
  refine ⟨rfl, rfl, fun s c b h htxn hb => ?_, fun s c b h htxn => ?_, fun s => ⟨fun h => ?_, fun h => ?_⟩⟩
  · simp only [sdo_of_txn h htxn, Option.some.injEq]
    exact ⟨sent_summary _, fun n hn => sent_under_arguments htxn hn, sent_result htxn hb, sent_data htxn⟩
  · simp only [sdo_of_txn h htxn, Option.some.injEq]
    exact ⟨sent_summary _, fun n => sent_incomplete htxn⟩
  · exact congrArg Host.Outcome.next (readReply_straddling h _ _ _ _ _)
  · rw [← statusBytes_eq]
    exact congrArg Host.Outcome.next (readReply_ok h _ _ _ _)

end Sys2Proof.Machine
end

section
/-! SUPPORT. The reads of the station (R54, R173, R174, R181): the records they send, and the checks before
them. -/

namespace Sys2Proof.Machine

/-! ### Runs of records of one length -/

section
variable {α β : Type} {f : α → List β} {m : Nat}

/-- The records before record k fill the first m × k places. -/
theorem flatMap_drop (hf : ∀ a, (f a).length = m) (l : List α) (k : Nat) :
    (l.flatMap f).drop (m * k) = (l.drop k).flatMap f := by
  induction k generalizing l with
  | zero => rfl
  | succ k ih =>
    cases l with
    | nil => simp
    | cons a l =>
      rw [List.drop_succ_cons, List.flatMap_cons, Nat.mul_succ, Nat.add_comm, ← List.drop_drop,
        List.drop_left' (hf a), ih]

theorem flatMap_length (hf : ∀ a, (f a).length = m) (l : List α) :
    (l.flatMap f).length = m * l.length := by
  simp [List.length_flatMap, hf, Nat.mul_comm]

/-- Record k stands alone in its m places. -/
theorem flatMap_record (hf : ∀ a, (f a).length = m) {l : List α} {k : Nat} (hk : k < l.length) :
    ((l.flatMap f).drop (m * k)).take m = f l[k] := by
  rw [flatMap_drop hf, List.drop_eq_getElem_cons hk, List.flatMap_cons, List.take_left' (hf _)]

theorem flatMap_record_getD (hf : ∀ a, (f a).length = m) {l : List α} {k i : Nat} (hk : k < l.length)
    (hi : i < m) (d : β) : (l.flatMap f).getD (m * k + i) d = (f l[k]).getD i d := by
  rw [← flatMap_record hf hk]
  simp [List.getD_eq_getElem?_getD, List.getElem?_take_of_lt hi]

end

/-! ### What a read leaves in the port (R163, R167) -/

/-- t is the station s after a read with command byte c, a frame of n bytes and the result r, and with OK the
port buffer holds the data. -/
def answersRead (s t : State) (c : Byte) (n : Nat) (r : Result) (data : List Byte) : Prop :=
  t = { s with port := { s.port with
      txn := t.port.txn, result := t.port.result, buffer := t.port.buffer
      evSnap := if t.port.result = .ok then [] else s.port.evSnap } }
    ∧ t.port.txn = some ⟨some c, n, true⟩ ∧ t.port.result = r
    ∧ (t.port.result ≠ .ok → t.port.buffer = s.port.buffer)
    ∧ (t.port.result = .ok → t.port.buffer = data)

theorem readReply_answers {s : State} (h : s.port.straddling = false) (c : Byte) (n : Nat) (r : Result)
    (data : List Byte) : answersRead s (s.readReply c n r data []) c n r data := by
  by_cases hr : r = .ok
  · subst hr
    rw [readReply_ok h]
    exact ⟨rfl, rfl, rfl, fun hne => absurd rfl hne, fun _ => rfl⟩
  · rw [readReply_refused h hr]
    exact ⟨by rw [if_neg hr], rfl, rfl, fun _ => rfl, fun hok => absurd hok hr⟩

/-- WRONG_STATE in UNCONFIGURED comes before every other check of a read (R163, R164). -/
theorem configuredCheck_orElse (s : State) (next : Result) : s.configuredCheck.orElse next
    = if s.mem.station = .unconfigured then .wrongState else next := by
  unfold State.configuredCheck
  split <;> rfl

/-! ### The configuration record (R173, R184) -/

section
variable (c : Settings)

theorem settingsBytes_length : (settingsBytes c).length = 80 := by
  simp [settingsBytes, twoBytes, allBlocks]

theorem settingsBytes_head : (settingsBytes c).take 8 = [byteOf (c.epochLen / 256), byteOf c.epochLen,
    byteOf (c.holdLen / 256), byteOf c.holdLen, byteOf c.silenceLimit, byteOf c.refreshPeriod,
    byteOf c.listenLimit, byteOf (modeCode c.mode)] := rfl

theorem allBlocks_getElem? (b : Block) : allBlocks[b.val]? = some b := by
  simp [allBlocks]

/-- Byte 8 + b is the owner byte of block b. -/
theorem settingsBytes_owner (b : Block) :
    (settingsBytes c).getD (8 + b.val) 0 = ownerByte c.owners[b] := by
  have hb := b.isLt
  rw [settingsBytes, List.getD_append _ _ _ _ (by simp [twoBytes, allBlocks]; omega),
    List.getD_append_right _ _ _ _ (by simp [twoBytes])]
  have hplace : 8 + b.val - (twoBytes c.epochLen ++ twoBytes c.holdLen
      ++ [byteOf c.silenceLimit, byteOf c.refreshPeriod, byteOf c.listenLimit,
        byteOf (modeCode c.mode)]).length = b.val := by
    simp [twoBytes]
  rw [hplace, List.getD_eq_getElem?_getD, List.getElem?_map, allBlocks_getElem?]
  rfl

/-- Bit 7 - i of a byte made of eight flags is flag i. -/
theorem flagByte_getLsbD (f : Nat → Bool) {i : Nat} (hi : i < 8) :
    (byteOf ((List.range 8).foldl (fun n i => 2 * n + bit (f i)) 0)).getLsbD (7 - i) = f i := by
  have hrange : List.range 8 = [0, 1, 2, 3, 4, 5, 6, 7] := rfl
  rw [byteOf, BitVec.getLsbD_ofNat, hrange]
  simp only [List.foldl_cons, List.foldl_nil, testBit_append]
  interval_cases i <;> simp

/-- Bytes 72 to 79 hold the subscription flags, bit 7 for the lowest of eight blocks. -/
theorem settingsBytes_sub (b : Block) :
    ((settingsBytes c).getD (72 + b.val / 8) 0).getLsbD (7 - b.val % 8) = c.subs[b] := by
  have hb := b.isLt
  have hbyte : (settingsBytes c).getD (72 + b.val / 8) 0
      = subByte c.subs (Fin.ofNat 8 (b.val / 8)) := by
    rw [settingsBytes, List.getD_append_right _ _ _ _ (by simp [twoBytes, allBlocks])]
    simp [twoBytes, allBlocks, show b.val / 8 < 8 by omega]
  have hblock : (Fin.ofNat 64 (8 * (Fin.ofNat 8 (b.val / 8)).val + b.val % 8) : Block) = b :=
    Fin.ext (by simp only [Fin.val_ofNat]; omega)
  rw [hbyte, subByte, flagByte_getLsbD _ (by omega)]
  exact congrArg (fun x : Block => c.subs[x]) hblock

end

section
variable {s : State}

theorem exec_readConfig (h : s.port.straddling = false) : exec .readConfig s
    = .next { s with port := { s.port with
        txn := some ⟨some 0x11, 1, true⟩, result := .ok, evSnap := [], buffer := s.configBytes } } :=
  congrArg Host.Outcome.next (readReply_ok h _ _ _ _)

theorem exec_readCounters (h : s.port.straddling = false) : exec .readCounters s
    = .next { s with port := { s.port with
        txn := some ⟨some 0x12, 1, true⟩, result := .ok, evSnap := [], buffer := s.counters.bytes } } :=
  congrArg Host.Outcome.next (readReply_ok h _ _ _ _)

end

/-- Settles O7: the settings fill the first 80 bytes of the configuration record, the straps the last two. -/
theorem readConfigAndCountersSnapshot : Obligations.ReadConfigAndCountersSnapshot := by
  refine ⟨fun s => ⟨fun h => congrArg Host.Outcome.next (readReply_straddling h _ _ _ _ _), fun h => ?_⟩,
    fun s => ⟨fun h => congrArg Host.Outcome.next (readReply_straddling h _ _ _ _ _), exec_readCounters⟩⟩
  have hlength := settingsBytes_length s.cfg
  have hsettings (i : Nat) (hi : i < 80) :
      s.configBytes.getD i 0 = (settingsBytes s.cfg).getD i 0 :=
    List.getD_append _ _ _ _ (by omega)
  refine ⟨_, exec_readConfig h, rfl, ?_, ?_, fun b => ?_, fun b => ?_, ?_⟩
  · simp [State.configBytes, hlength]
  · exact (List.take_append_of_le_length (by omega)).trans (settingsBytes_head s.cfg)
  · rw [hsettings _ (by omega), settingsBytes_owner]
    rfl
  · rw [hsettings _ (by omega), settingsBytes_sub]
  · exact List.drop_left' hlength

/-! ### The peer records (R181, R184) -/

theorem allStations_getElem (n : StationNo) : allStations[n.val]'n.isLt = n := by
  simp [allStations]

/-- The two bytes of a peer record, written out. -/
theorem Peer.bytes_eq (p : Peer) : p.bytes = [BitVec.ofNat 8 ((match p.state with
      | .absent => 0
      | .present => 64
      | .silent => 128
      | .self => 192)
    + (if p.heard then 32 else 0) + (if p.lastHeard.isSome then 16 else 0) + p.silence),
    p.lastHeard.getD 0] := by
  rw [Peer.bytes, bit_mul, bit_mul]
  cases p.state <;> rfl

theorem Peer.bytes_length (p : Peer) : p.bytes.length = 2 := rfl

/-- Byte i of the record of station n. -/
theorem peerBytes_getD (s : State) (n : StationNo) {i : Nat} (hi : i < 2) :
    s.peerBytes.getD (2 * n.val + i) 0 = s.mem.peers[n].bytes.getD i 0 := by
  rw [State.peerBytes, flatMap_record_getD (fun _ => Peer.bytes_length _) n.isLt hi, allStations_getElem]

theorem peerBytes_length (s : State) : s.peerBytes.length = 64 :=
  flatMap_length (fun _ => Peer.bytes_length _) allStations

/-! ### The commit report (R54, R184) -/

theorem reportBytes_eq (report : Option Report) : reportBytes report = match report with
    | none => [0, 0]
    | some r => r.epoch :: BitVec.ofNat 8 r.blocks.length
        :: (r.blocks.map fun p => [BitVec.ofNat 8 p.1.val, BitVec.ofNat 8 p.2.val]).flatten := by
  cases report <;> rfl

/-- Settles O8: READ_PEERS has the state check alone, READ_COMMIT_REPORT that of the pass after it. -/
theorem readPeersAndCommitReportSnapshot : Obligations.ReadPeersAndCommitReportSnapshot := by
  refine ⟨fun s => ⟨fun h => congrArg Host.Outcome.next (readReply_straddling h _ _ _ _ _), fun h => ?_⟩,
    fun s => ⟨fun h => congrArg Host.Outcome.next (readReply_straddling h _ _ _ _ _), fun h => ?_⟩⟩
  · obtain ⟨hframe, htxn, hresult, hkept, hdata⟩ :=
      readReply_answers h 0x14 1 s.configuredCheck s.peerBytes
    refine ⟨_, rfl, hframe, htxn, fun hun => ?_, fun hconf => ?_⟩
    · have hwrong := hresult.trans (if_pos hun)
      exact ⟨hwrong, hkept (by rw [hwrong]; decide)⟩
    · have hok := hresult.trans (if_neg hconf)
      rw [hdata hok]
      refine ⟨hok, peerBytes_length s, fun n => ⟨?_, ?_⟩⟩
      · rw [← Nat.add_zero (2 * n.val), peerBytes_getD s n (by omega), Peer.bytes_eq]
        rfl
      · rw [peerBytes_getD s n (by omega), Peer.bytes_eq]
        rfl
  · obtain ⟨hframe, htxn, hresult, hkept, hdata⟩ := readReply_answers h 0x15 1
      (s.configuredCheck.orElse s.passCheck) (reportBytes s.commit.report)
    exact ⟨_, rfl, hframe, htxn, hresult.trans (configuredCheck_orElse s _), hkept,
      fun hok => (hdata hok).trans (reportBytes_eq _)⟩

end Sys2Proof.Machine
end

section
/-! SUPPORT. The reads of the image and of the draft (R175, R176, R178): their checks in the order of R163, and
the records and words that they send. -/

namespace Sys2Proof.Machine

/-! ### Words as bytes -/

theorem bytesToWords_wordBytes (ws : List Word) : bytesToWords (wordBytes ws) = ws := by
  induction ws with
  | nil => rfl
  | cons w ws ih =>
    have hsplit : wordBytes (w :: ws) = Word.high w :: Word.low w :: wordBytes ws := rfl
    rw [hsplit, bytesToWords, wordOf_high_low, ih]

theorem wordBytes_length (ws : List Word) : (wordBytes ws).length = 2 * ws.length :=
  flatMap_length (m := 2) (fun _ => rfl) ws

/-- Bytes 2k and 2k + 1 of a run of words are word k. -/
theorem wordBytes_getD (ws : List Word) {k : Nat} (hk : k < ws.length) :
    (wordBytes ws).getD (2 * k) 0 ++ (wordBytes ws).getD (2 * k + 1) 0 = ws.getD k 0 := by
  rw [← bytesToWords_getD _ k (by rw [wordBytes_length]; omega), bytesToWords_wordBytes]

/-! ### The words of a span -/

section
variable {block first count : Byte}

/-- The block and the span that arguments in range name. -/
theorem spanArgs_ok (h : draftArgsOk block first count) : ∃ sp, spanArgs block first count
    = some (Fin.ofNat 64 block.toNat, sp)
      ∧ sp.first.val = first.toNat ∧ sp.count = count.toNat := by
  rw [spanArgs_eq, if_pos h]
  obtain ⟨-, hfirst, hlow, hhigh, hend⟩ := h
  refine ⟨_, rfl, ?_, ?_⟩
  · simp only [Fin.val_ofNat]
    omega
  · simp only [Span.count, Fin.val_ofNat]
    omega

theorem spanArgs_isSome : (spanArgs block first count).isSome = true ↔ draftArgsOk block first count := by
  rw [spanArgs_eq]
  split
  next h => exact iff_of_true rfl h
  next h => exact iff_of_false Bool.false_ne_true h

/-- The words of the span stand from its first word's address on. -/
theorem readSpan_eq {sp : Span} (m : Store) (hblock : block.toNat ≤ 63)
    (hfirst : sp.first.val = first.toNat) (hcount : sp.count = count.toNat) :
    m.readSpan (Fin.ofNat 64 block.toNat) sp
      = m.readAll (16 * block.toNat + first.toNat) count.toNat := by
  have haddr : wordAddr (Fin.ofNat 64 block.toNat) sp.first = 16 * block.toNat + first.toNat := by
    simp only [wordAddr, Fin.val_ofNat, hfirst]
    omega
  rw [Store.readSpan, haddr, hcount]

end

theorem readAll_length (m : Store) (a n : Nat) : (m.readAll a n).length = n := by simp [Store.readAll]

theorem readAll_bytes_length (m : Store) (a n : Nat) : (wordBytes (m.readAll a n)).length = 2 * n := by
  rw [wordBytes_length, readAll_length]

/-- Bytes 2k and 2k + 1 of the words read are the word at place k. -/
theorem readAll_bytes (m : Store) (a : Nat) {n k : Nat} (hk : k < n) :
    (wordBytes (m.readAll a n)).getD (2 * k) 0 ++ (wordBytes (m.readAll a n)).getD (2 * k + 1) 0
      = m.read (a + k) := by
  rw [wordBytes_getD _ (by rwa [readAll_length])]
  simp [Store.readAll, hk]

/-! ### The checks, in the order of R163 -/

theorem badUnless_orElse (b : Bool) (next : Result) :
    (badUnless b).orElse next = if ¬ b = true then .badArgument else next := by
  cases b <;> rfl

theorem orElse_assoc (r next last : Result) :
    (r.orElse next).orElse last = r.orElse (next.orElse last) := by
  cases r <;> rfl

/-- The result of a read with arguments: its state, its arguments, and then what else it asks. -/
theorem argumentChecks_eq (s : State) (b : Bool) (last : Result) :
    (s.configuredCheck.orElse (badUnless b)).orElse last
      = if s.mem.station = .unconfigured then .wrongState
        else if ¬ b = true then .badArgument else last := by
  rw [orElse_assoc, configuredCheck_orElse, badUnless_orElse]

/-- A read that is OK has passed the test of its arguments. -/
theorem arguments_of_ok {s : State} {P : Prop} [Decidable P] {last : Result}
    (h : (if s.mem.station = .unconfigured then .wrongState
      else if ¬ P then .badArgument else last) = Result.ok) : P := by
  by_contra hargs
  rw [if_pos hargs] at h
  split at h <;> cases h

theorem orElse_ok (r : Result) : r.orElse .ok = r := by cases r <;> rfl

/-! ### READ_IMAGE and READ_DRAFT (R175, R178) -/

/-- The data of a READ_IMAGE whose arguments are in range. -/
def imageBytes (s : State) (block first count : Byte) : List Byte :=
  s.blockBytes (Fin.ofNat 64 block.toNat)
    ++ wordBytes (s.image.words.readAll (16 * block.toNat + first.toNat) count.toNat)

/-- The result byte of a READ_DRAFT. -/
def readDraftResult (s : State) (block first count : Byte) : Result :=
  if s.mem.station = .unconfigured then .wrongState
  else if ¬ draftArgsOk block first count then .badArgument else .ok

/-- The result byte of a READ_IMAGE. -/
def readImageResult (s : State) (block first count : Byte) : Result :=
  if s.mem.station = .unconfigured then .wrongState
  else if ¬ draftArgsOk block first count then .badArgument
  else if s.commit.pass.isSome then .busyCommit else .ok

section
variable {s : State} {block first count : Byte}

theorem exec_readImage (h : s.port.straddling = false) :
    ∃ t data, exec (.readImage block first count) s = .next t
      ∧ answersRead s t 0x20 4 (readImageResult s block first count) data
      ∧ (readImageResult s block first count = .ok → data = imageBytes s block first count) := by
  have hresult : (s.configuredCheck.orElse (badUnless (spanArgs block first count).isSome)).orElse
      s.passCheck = readImageResult s block first count := by
    simp only [argumentChecks_eq, spanArgs_isSome]
    rfl
  refine ⟨_, _, rfl, by rw [← hresult]; exact readReply_answers h _ _ _ _, fun hok => ?_⟩
  have hargs : draftArgsOk block first count := arguments_of_ok hok
  obtain ⟨sp, hsp, hfirst, hcount⟩ := spanArgs_ok hargs
  rw [hsp]
  exact congrArg (s.blockBytes _ ++ wordBytes ·) (readSpan_eq _ hargs.1 hfirst hcount)

theorem exec_readDraft (h : s.port.straddling = false) :
    ∃ t data, exec (.readDraft block first count) s = .next t
      ∧ answersRead s t 0x22 4 (readDraftResult s block first count) data
      ∧ (readDraftResult s block first count = .ok → data
        = wordBytes (s.image.draft.readAll (16 * block.toNat + first.toNat) count.toNat)) := by
  have hresult : s.configuredCheck.orElse (badUnless (spanArgs block first count).isSome)
      = readDraftResult s block first count := by
    rw [← orElse_ok (s.configuredCheck.orElse _)]
    simp only [argumentChecks_eq, spanArgs_isSome]
    rfl
  refine ⟨_, _, rfl, by rw [← hresult]; exact readReply_answers h _ _ _ _, fun hok => ?_⟩
  have hargs : draftArgsOk block first count := arguments_of_ok hok
  obtain ⟨sp, hsp, hfirst, hcount⟩ := spanArgs_ok hargs
  rw [hsp]
  exact congrArg wordBytes (readSpan_eq _ hargs.1 hfirst hcount)

end

theorem blockBytes_length (s : State) (b : Block) : (s.blockBytes b).length = 4 := rfl

/-- The words of a READ_IMAGE follow the four bytes of the status record. -/
theorem imageBytes_word (s : State) (block first : Byte) {count : Byte} {k : Nat}
    (hk : k < count.toNat) :
    (imageBytes s block first count).getD (4 + 2 * k) 0
        ++ (imageBytes s block first count).getD (5 + 2 * k) 0
      = s.image.words.read (16 * block.toNat + first.toNat + k) := by
  have hword (i : Nat) : (imageBytes s block first count).getD (4 + i) 0
      = (wordBytes (s.image.words.readAll (16 * block.toNat + first.toNat) count.toNat)).getD i 0 := by
    rw [imageBytes, List.getD_append_right _ _ _ _ (by rw [blockBytes_length]; omega),
      blockBytes_length, Nat.add_sub_cancel_left]
  rw [show 5 + 2 * k = 4 + (2 * k + 1) by omega, hword, hword]
  exact readAll_bytes _ _ hk

/-- Settles O9: both reads have the checks of `argumentChecks_eq`, and send the words from the span's address
on. -/
theorem readImageAndDraftSnapshot : Obligations.ReadImageAndDraftSnapshot := by
  refine ⟨fun block first count s =>
      ⟨fun h => congrArg Host.Outcome.next (readReply_straddling h _ _ _ _ _), fun h => ?_⟩,
    fun block first count s =>
      ⟨fun h => congrArg Host.Outcome.next (readReply_straddling h _ _ _ _ _), fun h => ?_⟩⟩
  · obtain ⟨t, data, hexec, ⟨hframe, htxn, hresult, hkept, hdata⟩, hsent⟩ := exec_readImage h
    refine ⟨t, hexec, hframe, htxn, hresult, hkept, fun hok => ?_⟩
    rw [hdata hok, hsent (hresult.symm.trans hok)]
    refine ⟨List.take_left' (blockBytes_length s _), ?_, fun k => imageBytes_word s block first⟩
    rw [imageBytes, List.length_append, blockBytes_length, readAll_bytes_length]
  · obtain ⟨t, data, hexec, ⟨hframe, htxn, hresult, hkept, hdata⟩, hsent⟩ := exec_readDraft h
    refine ⟨t, hexec, hframe, htxn, hresult, hkept, fun hok => ?_⟩
    rw [hdata hok, hsent (hresult.symm.trans hok)]
    exact ⟨readAll_bytes_length _ _ _, fun k => readAll_bytes _ _⟩

/-! ### READ_BLOCK_STATUS (R176) -/

/-- The four bytes of a block status record, written out (R6, R184). -/
theorem blockBytes_eq (s : State) (b : Block) : s.blockBytes b =
    [BitVec.ofNat 8 ((match s.image.blocks[b].status with
        | .empty => 0
        | .current => 64
        | .torn => 128
        | .stale => 192)
      + (if s.cfg.subs[b] = true ∨ s.cfg.owners[b] = some s.straps.sid then 32 else 0)
      + (if s.cfg.owners[b] = some s.straps.sid then 16 else 0)
      + (if s.image.blocks[b].lce.isSome then 8 else 0)),
      (match s.cfg.owners[b] with
        | some n => BitVec.ofNat 8 n.val
        | none => 0xFF),
      s.image.blocks[b].seq, s.image.blocks[b].lce.getD 0] := by
  have hstatus (st : BlockStatus) : st.code * 64 = match st with
      | .empty => 0
      | .current => 64
      | .torn => 128
      | .stale => 192 := by cases st <;> rfl
  have howned : s.owned b = true ↔ s.cfg.owners[b] = some s.straps.sid := by
    simp [-Fin.getElem_fin, State.owned, State.owner]
  simp only [State.blockBytes, bit_mul, hstatus, State.subscribed, Bool.or_eq_true, howned]
  rfl

theorem blockRun_iff (first count : Byte) : blockRun first count = true ↔ first.toNat ≤ 63
    ∧ 1 ≤ count.toNat ∧ count.toNat ≤ 64 ∧ first.toNat + count.toNat ≤ 64 := by
  simp [blockRun, and_assoc]

/-- The data of READ_BLOCK_STATUS. -/
def blockRunBytes (s : State) (first count : Byte) : List Byte :=
  (List.range count.toNat).flatMap fun i => s.blockBytes (Fin.ofNat 64 (first.toNat + i))

theorem blockRunBytes_length (s : State) (first count : Byte) :
    (blockRunBytes s first count).length = 4 * count.toNat := by
  rw [blockRunBytes, flatMap_length (fun _ => blockBytes_length s _), List.length_range]

/-- The record of a block of the run stands at its distance from the first. -/
theorem blockRunBytes_record (s : State) {first count : Byte} {b : Block} (hlow : first.toNat ≤ b.val)
    (hhigh : b.val < first.toNat + count.toNat) :
    ((blockRunBytes s first count).drop (4 * (b.val - first.toNat))).take 4 = s.blockBytes b := by
  have hblock : (Fin.ofNat 64 (first.toNat + (b.val - first.toNat)) : Block) = b :=
    Fin.ext (by simp only [Fin.val_ofNat]; omega)
  rw [blockRunBytes, flatMap_record (fun _ => blockBytes_length s _)
    (by rw [List.length_range]; omega), List.getElem_range, hblock]

/-- Settles O10: the checks of `argumentChecks_eq`, then the records of the run one after another. -/
theorem readBlockStatusSnapshot : Obligations.ReadBlockStatusSnapshot := by
  refine fun first count s =>
    ⟨fun h => congrArg Host.Outcome.next (readReply_straddling h _ _ _ _ _), fun h => ?_⟩
  obtain ⟨hframe, htxn, hresult, hkept, hdata⟩ := readReply_answers h 0x21 3
    ((s.configuredCheck.orElse (badUnless (blockRun first count))).orElse s.passCheck)
    (blockRunBytes s first count)
  refine ⟨s.readReply 0x21 3 _ (blockRunBytes s first count) [], rfl, hframe, htxn, ?_, hkept,
    fun hok => ?_⟩
  · refine hresult.trans ?_
    simp only [argumentChecks_eq, blockRun_iff]
    rfl
  · rw [hdata hok]
    exact ⟨blockRunBytes_length s first count, fun b hlow hhigh =>
      (blockRunBytes_record s hlow hhigh).trans (blockBytes_eq s b)⟩

end Sys2Proof.Machine
end

section
/-! SUPPORT. The argument bytes of CONFIGURE (R169, R184): which of them are settings, and that the configuration
record gives its settings back. -/

namespace Sys2Proof.Machine

/-! ### The argument tests (R169) -/

/-- The value of argument byte i. -/
def argValue (args : List Byte) (i : Nat) : Nat := (args.getD i 0).toNat

/-- Every range and relation of R169 holds of the values of the argument bytes. -/
def valuesInRange (v : Nat → Nat) : Prop :=
  2048 ≤ v 0 * 256 + v 1 ∧ 32 ≤ v 2 * 256 + v 3 ∧ v 2 * 256 + v 3 ≤ 1023
    ∧ (v 2 * 256 + v 3) * 8 ≤ v 0 * 256 + v 1
    ∧ 2 ≤ v 4 ∧ v 4 ≤ 15 ∧ 2 ≤ v 6 ∧ v 6 ≤ 15 ∧ v 7 ≤ 2
    ∧ ∀ b : Block, v (8 + b.val) ≤ 31 ∨ v (8 + b.val) = 255

/-- The mode that a mode byte in range names. -/
def modeOfValue (n : Nat) : ReportMode := if n = 0 then .none else if n = 1 then .changes else .every

/-- The settings that argument bytes in range give. -/
def settingsOf (args : List Byte) : Settings where
  epochLen := argValue args 0 * 256 + argValue args 1
  holdLen := argValue args 2 * 256 + argValue args 3
  silenceLimit := argValue args 4
  refreshPeriod := argValue args 5
  listenLimit := argValue args 6
  mode := modeOfValue (argValue args 7)
  owners := Vector.ofFn fun b => ownerOfByte (args.getD (8 + b.val) 0)
  subs := Vector.ofFn fun b => subFlag args b

theorem modeOfCode_eq (n : Nat) : modeOfCode n = if n ≤ 2 then some (modeOfValue n) else none := by
  match n with
  | 0 | 1 | 2 => rfl
  | n + 3 => rw [if_neg (by omega)]; rfl

theorem ownerByteOk_iff (b : Byte) : ownerByteOk b = true ↔ b.toNat ≤ 31 ∨ b.toNat = 255 := by
  have hnone : b = 0xFF ↔ b.toNat = 255 := BitVec.toNat_inj.symm
  rw [ownerByteOk, Bool.or_eq_true, decide_eq_true_eq, beq_iff_eq, hnone]

theorem mem_allBlocks (b : Block) : b ∈ allBlocks := List.mem_of_getElem? (allBlocks_getElem? b)

theorem argValue_le (args : List Byte) (i : Nat) : argValue args i ≤ 255 :=
  Nat.le_of_lt_succ (args.getD i 0).isLt

/-- A quantity of two argument bytes. -/
theorem argWord_le (args : List Byte) (i j : Nat) :
    argValue args i * 256 + argValue args j ≤ 65535 := by
  have hhigh := argValue_le args i
  have hlow := argValue_le args j
  omega

/-- The tests of the model, with the bytes read as their values. -/
theorem parseSettings_eq (args : List Byte) : parseSettings args
    = if 2048 ≤ argValue args 0 * 256 + argValue args 1
        ∧ argValue args 0 * 256 + argValue args 1 ≤ 65535
        ∧ 32 ≤ argValue args 2 * 256 + argValue args 3
        ∧ argValue args 2 * 256 + argValue args 3 ≤ 1023
        ∧ (argValue args 2 * 256 + argValue args 3) * 8 ≤ argValue args 0 * 256 + argValue args 1
        ∧ 2 ≤ argValue args 4 ∧ argValue args 4 ≤ 15 ∧ 2 ≤ argValue args 6 ∧ argValue args 6 ≤ 15
        ∧ allBlocks.all (fun b => ownerByteOk (args.getD (8 + b.val) 0))
      then (modeOfCode (argValue args 7)).map fun mode => { settingsOf args with mode := mode }
      else none := rfl

theorem ownerBytesOk_iff (args : List Byte) :
    allBlocks.all (fun b => ownerByteOk (args.getD (8 + b.val) 0)) = true
      ↔ ∀ b : Block, argValue args (8 + b.val) ≤ 31 ∨ argValue args (8 + b.val) = 255 := by
  simp only [List.all_eq_true, mem_allBlocks, true_imp_iff, ownerByteOk_iff, argValue]

/-- Bytes in range give their settings. -/
theorem parseSettings_inRange {args : List Byte} (h : valuesInRange (argValue args)) :
    parseSettings args = some (settingsOf args) := by
  obtain ⟨hepoch, hhold, hholdTop, hratio, hsilence, hsilenceTop, hlisten, hlistenTop, hmode, howners⟩ := h
  have hepochTop := argWord_le args 0 1
  rw [parseSettings_eq, if_pos ⟨hepoch, hepochTop, hhold, hholdTop, hratio, hsilence, hsilenceTop, hlisten,
    hlistenTop, (ownerBytesOk_iff args).2 howners⟩, modeOfCode_eq, if_pos hmode]
  rfl

/-- Bytes that give settings are in range. -/
theorem inRange_of_parseSettings {args : List Byte} (h : parseSettings args ≠ none) :
    valuesInRange (argValue args) := by
  rw [parseSettings_eq, modeOfCode_eq] at h
  split at h
  next hranges =>
    obtain ⟨hepoch, -, hhold, hholdTop, hratio, hsilence, hsilenceTop, hlisten, hlistenTop, howners⟩ :=
      hranges
    have hmode : argValue args 7 ≤ 2 := by
      by_contra hreserved
      rw [if_neg hreserved] at h
      exact h rfl
    exact ⟨hepoch, hhold, hholdTop, hratio, hsilence, hsilenceTop, hlisten, hlistenTop, hmode,
      (ownerBytesOk_iff args).1 howners⟩
  next => exact absurd rfl h

/-- An owner byte in range names its station, and 0xFF none (R3). -/
theorem ownerOfByte_val {b : Byte} (h : b.toNat ≤ 31 ∨ b.toNat = 255) : (ownerOfByte b).map Fin.val
    = if b.toNat = 255 then none else some b.toNat := by
  unfold ownerOfByte
  rcases h with h | h
  · rw [if_pos h, if_neg (by omega), Option.map_some, Fin.val_ofNat, Nat.mod_eq_of_lt (by omega)]
  · rw [if_neg (by omega), if_pos h]
    rfl

/-- Settles O16: the values are those of `settingsOf`, where `valuesInRange` holds. -/
theorem configureArgumentTests : Obligations.ConfigureArgumentTests := by
  intro args v hv
  obtain rfl : v = argValue args := funext hv
  refine ⟨⟨fun h => inRange_of_parseSettings (Option.isSome_iff_ne_none.1 h),
    fun h => Option.isSome_of_eq_some (parseSettings_inRange h)⟩, fun c hc => ?_⟩
  have hrange : valuesInRange (argValue args) := inRange_of_parseSettings (by rw [hc]; nofun)
  obtain rfl : settingsOf args = c := Option.some.inj ((parseSettings_inRange hrange).symm.trans hc)
  obtain ⟨-, -, -, -, -, -, -, -, -, howners⟩ := hrange
  refine ⟨rfl, rfl, rfl, rfl, rfl, rfl, fun b => ?_, fun b => ofFn_get _ b⟩
  exact (congrArg (Option.map Fin.val) (ofFn_get _ b)).trans (ownerOfByte_val (howners b))

/-! ### The record read back (R173) -/

section
variable {c : Settings}

theorem byteOf_toNat {n : Nat} (h : n ≤ 255) : (byteOf n).toNat = n :=
  Nat.mod_eq_of_lt (Nat.lt_succ_of_le h)

/-- The two bytes of a quantity give it back. -/
theorem twoBytes_value {n : Nat} (h : n ≤ 65535) :
    (byteOf (n / 256)).toNat * 256 + (byteOf n).toNat = n := by
  simp only [byteOf, BitVec.toNat_ofNat]
  omega

theorem modeCode_le (m : ReportMode) : modeCode m ≤ 2 := by cases m <;> decide

theorem modeOfValue_modeCode (m : ReportMode) : modeOfValue (modeCode m) = m := by cases m <;> rfl

theorem ownerByte_value (o : Option StationNo) :
    (ownerByte o).toNat ≤ 31 ∨ (ownerByte o).toNat = 255 := by
  cases o with
  | none => exact Or.inr rfl
  | some n =>
    have hn := n.isLt
    left
    rw [ownerByte, byteOf_toNat (by omega)]
    omega

theorem ownerOfByte_ownerByte (o : Option StationNo) : ownerOfByte (ownerByte o) = o := by
  cases o with
  | none => rfl
  | some n =>
    have hn := n.isLt
    have hvalue : (ownerByte (some n)).toNat = n.val := byteOf_toNat (by omega)
    rw [ownerOfByte, hvalue, if_pos (by omega)]
    exact congrArg some (Fin.ext (Nat.mod_eq_of_lt hn))

/-- The epoch length and the hold length stand in the first four bytes of the record. -/
theorem settingsBytes_lengths (hepoch : c.epochLen ≤ 65535) (hhold : c.holdLen ≤ 65535) :
    argValue (settingsBytes c) 0 * 256 + argValue (settingsBytes c) 1 = c.epochLen
      ∧ argValue (settingsBytes c) 2 * 256 + argValue (settingsBytes c) 3 = c.holdLen :=
  ⟨twoBytes_value hepoch, twoBytes_value hhold⟩

/-- The limits and the mode stand in its next four bytes. -/
theorem settingsBytes_limits (hsilence : c.silenceLimit ≤ 255) (hrefresh : c.refreshPeriod ≤ 255)
    (hlisten : c.listenLimit ≤ 255) :
    argValue (settingsBytes c) 4 = c.silenceLimit ∧ argValue (settingsBytes c) 5 = c.refreshPeriod
      ∧ argValue (settingsBytes c) 6 = c.listenLimit
      ∧ argValue (settingsBytes c) 7 = modeCode c.mode :=
  ⟨byteOf_toNat hsilence, byteOf_toNat hrefresh, byteOf_toNat hlisten,
    byteOf_toNat ((modeCode_le c.mode).trans (by decide))⟩

theorem settingsOf_owners : (settingsOf (settingsBytes c)).owners = c.owners := by
  refine Vector.ext fun i hi => ?_
  have howner := settingsBytes_owner c ⟨i, hi⟩
  simp only [Fin.getElem_fin] at howner
  simp only [settingsOf, Vector.getElem_ofFn, howner, ownerOfByte_ownerByte]

theorem settingsOf_subs : (settingsOf (settingsBytes c)).subs = c.subs := by
  refine Vector.ext fun i hi => ?_
  simp only [settingsOf, Vector.getElem_ofFn]
  exact settingsBytes_sub c ⟨i, hi⟩

end

/-- Settles O20: the bytes of the record have the values of the settings, which are in range and make the same
settings again. -/
theorem configurationRecordRoundTrip : Obligations.ConfigurationRecordRoundTrip := by
  intro c hepoch hepochTop hhold hholdTop hratio hsilence hsilenceTop hrefresh hlisten hlistenTop
  obtain ⟨hepochLen, hholdLen⟩ := settingsBytes_lengths hepochTop (hholdTop.trans (by decide))
  obtain ⟨hsilenceLimit, hrefreshPeriod, hlistenLimit, hmode⟩ := settingsBytes_limits
    (hsilenceTop.trans (by decide)) hrefresh (hlistenTop.trans (by decide))
  have howner (b : Block) : argValue (settingsBytes c) (8 + b.val) ≤ 31
      ∨ argValue (settingsBytes c) (8 + b.val) = 255 := by
    rw [argValue, settingsBytes_owner]
    exact ownerByte_value _
  have hrange : valuesInRange (argValue (settingsBytes c)) := by
    rw [valuesInRange, hepochLen, hholdLen, hsilenceLimit, hlistenLimit, hmode]
    exact ⟨hepoch, hhold, hholdTop, hratio, hsilence, hsilenceTop, hlisten, hlistenTop,
      modeCode_le c.mode, howner⟩
  refine ⟨settingsBytes_length c, ?_⟩
  rw [parseSettings_inRange hrange, Option.some.injEq]
  calc settingsOf (settingsBytes c)
    _ = ⟨c.epochLen, c.holdLen, c.silenceLimit, c.refreshPeriod, c.listenLimit, c.mode,
          (settingsOf (settingsBytes c)).owners, (settingsOf (settingsBytes c)).subs⟩ := by
      rw [settingsOf, hepochLen, hholdLen, hsilenceLimit, hrefreshPeriod, hlistenLimit, hmode,
        modeOfValue_modeCode]
    _ = c := by rw [settingsOf_owners, settingsOf_subs]

end Sys2Proof.Machine
end

section
/-! SUPPORT. The statement on the step of a queue that is not empty. -/

namespace Sys2Proof.Machine

/-- Settles O1: the queue decides which branch of the step is taken, and a front command takes the second. -/
theorem stepRunsFrontCommand : Obligations.StepRunsFrontCommand := by
  intro c rest s hpending
  rw [step, hpending]

end Sys2Proof.Machine
end
